-- ==== Sys2Proof/Word.lean ====
section
/-! DEFINITION. The widths the spec names (R8, R9, R30): bytes, 32-bit and 64-bit registers. -/

namespace Sys2Proof

/-- A byte, `b[7]` its most significant bit (R8). -/
abbrev Byte := BitVec 8

/-- A 32-bit register or command word (R30, R120). -/
abbrev Word := BitVec 32

/-- A 64-bit register (R30): an operand, a result, a size, or a binary64 bit pattern. -/
abbrev DWord := BitVec 64

end Sys2Proof
end

