-- ==== Sys2Proof/Config.lean ====
section
/-! DEFINITION. The implementation parameters of R7, the OPEN ones and the free values as constants with no body. -/

namespace Sys2Proof

/-- What a floating-point bit pattern denotes (R13): a real (held as an exact rational), an infinity or NaN. -/
inductive FpVal where
  | real (q : Rat)
  | inf (negative : Bool)
  | nan
  deriving DecidableEq, Repr, Inhabited

/-- The parameters of R7 that are plain data and vary from part to part: RANGE and HDRI (OPEN) and SUBBYTE_BIT_ORDER
(fixed, with an alternative that R7 lets a part take). -/
structure Params where
  /-- RANGE, the internal full-scale value. -/
  range : Nat
  /-- HDRI: internal samples are reals (`true`) or integers (`false`). -/
  hdri : Bool
  /-- SUBBYTE_BIT_ORDER: `false` is FOLLOW_ENDIAN (R7's value), `true` the alternative MSB_ALWAYS (R7, R406). -/
  msbAlways : Bool
  deriving DecidableEq, Repr, Inhabited

namespace Config

/-! ### Values R7 fixes -/

/-- MAX_DEPTH. -/
def maxDepth : Nat := 64
/-- LZW_MAX_WIDTH. -/
def lzwMaxWidth : Nat := 12
/-- LZW_TABLE_SIZE. -/
def lzwTableSize : Nat := 4096
/-- FAX_HASH_SIZE. -/
def faxHashSize : Nat := 1021
/-- FAX_MAX_CODE_LEN. -/
def faxMaxCodeLen : Nat := 13
/-- FAX_EOL_ZEROS (90_conflicts C1). -/
def faxEolZeros : Nat := 11
/-- FAX_RTC_EOLS. -/
def faxRtcEols : Nat := 6
/-- FAX_NULL_LINES. -/
def faxNullLines : Nat := 3
/-- FAX_XRES. -/
def faxXres : Nat := 204
/-- FAX_YRES. -/
def faxYres : Nat := 196
/-- PACKBITS_MAX_REPEAT. -/
def packbitsMaxRepeat : Nat := 127
/-- PACKBITS_MAX_LITERAL. -/
def packbitsMaxLiteral : Nat := 128
/-- MASK_TABLE_SIZE. -/
def maskTableSize : Nat := 32
/-- The largest value of SIZE_BITS = 64 arithmetic. -/
def sizeMax : Nat := 2 ^ 64 - 1
/-- EPSILON = 1.0e-12, taken as that exact decimal (log entry 13). -/
def epsilon : Rat := 1 / 1000000000000
/-- MAX_WORKERS. -/
def maxWorkers : Nat := 256
/-- GUARD_SIGNATURE. -/
def guardSignature : Byte := 0xAB
/-- WHITE_HASH_A. -/
def whiteHashA : Nat := 3510
/-- WHITE_HASH_B. -/
def whiteHashB : Nat := 1178
/-- BLACK_HASH_A. -/
def blackHashA : Nat := 293
/-- BLACK_HASH_B. -/
def blackHashB : Nat := 2695

/-- SUBBYTE_BIT_ORDER: FOLLOW_ENDIAN, so not MSB_ALWAYS. -/
def msbAlways : Bool := false

/-! ### OPEN parameters: constants with no body -/

/-- RANGE of the part at hand (R7, OPEN). -/
opaque range : Nat
/-- HDRI of the part at hand (R7, OPEN). -/
opaque hdri : Bool
/-- RANGE, HDRI and SUBBYTE_BIT_ORDER of the part at hand (R7); `State.reset` holds them. -/
def params : Params := ⟨range, hdri, msbAlways⟩
/-- FP24.encode (R395, OPEN). -/
opaque fp24Encode : Rat → BitVec 24
/-- FP24.decode (R395, OPEN). -/
opaque fp24Decode : BitVec 24 → FpVal
/-- SIGNED_MAP.export of a depth and an internal sample (R396, OPEN); the caller keeps it below `2^d`. -/
opaque signedExport : Params → Nat → Rat → Nat
/-- SIGNED_MAP.import of a depth and a code (R396, OPEN); the caller brings it into the internal domain. -/
opaque signedImport : Params → Nat → Nat → Rat

/-! ### Free values: the operands nothing has written (R31, log entries 1 and 3) -/

/-- What ARG[i] holds at reset, which R31 leaves unspecified ("not as zero"). -/
opaque argReset : Fin 8 → DWord

/-! ### Free values: answers of the ports (R60) once the answers listed in State are used up -/

/-- The `n`-th unlisted answer of `Alloc`. -/
opaque freeAlloc : Nat → Bool
/-- The `n`-th unlisted answer of `AcquireRow`. -/
opaque freeRow : Nat → Bool
/-- The `n`-th unlisted answer of `Progress` (`true` is `continue`). -/
opaque freeProgress : Nat → Bool
/-- The `n`-th unlisted answer of `ThreadLimit`. -/
opaque freeThreads : Nat → Nat
/-- The `n`-th unlisted answer of `GetSample` or `GetIntensity`. -/
opaque freeSample : Nat → Rat

/-! ### Free values: how far a command was when a reset abandoned it (R600, log entry 10) -/

/-- How much of one kind of exchange (the second argument) a command in flight (the third) had made at the reset that
found the counter `drawn` at the first. -/
opaque freeCut : Nat → Nat → Nat → Nat

/-! ### Free values: results the spec does not state (log entries 11, 12, 14, 15 and 30) -/

/-- The sign bit of the zero that a negative real rounds to (its exponent and fraction widths, the real), which R13 does
not state. -/
opaque freeZeroSign : Nat → Nat → Rat → Bool
/-- The real that stands for the quotient `v * M / RANGE` of R393 (depth, `v`) when RANGE is 0. -/
opaque freeQuotient : Nat → Rat → Rat

/-- Q_INV_SCALE when Q_SCALE is an infinity or NaN (R361 states `1 / f64(Q_SCALE)` for reals only). -/
opaque freeInvScale : DWord → DWord
/-- The float code of a sample (depth, sample, Q_INV_SCALE, Q_MINIMUM) where R394 states none. -/
opaque freeFloatCode : Nat → Rat → DWord → DWord → Nat
/-- The real that a float code (depth, code, Q_SCALE, Q_MINIMUM) imports to where R394 states none. -/
opaque freeFloatReal : Nat → Nat → DWord → DWord → Rat

/-- What a 64-bit result register holds after a count of this many bytes, 2^64 or more, is written to it (R9, R30). -/
opaque freeCount : Nat → DWord

end Config

end Sys2Proof
end

