-- ==== Sys2Proof/Syntax.lean ====
section
/-! DEFINITION. The commands of R125, one constructor per row of spec/opcode_table.json. -/

namespace Sys2Proof

/-- A sink selector (R126): code 0 selects P_RAW, code 1 selects P_TEXT. -/
inductive Port where
  | raw
  | text
  deriving DecidableEq, Repr

/-- A fax colour (R127): code 0 white, code 1 black. -/
inductive Colour where
  | white
  | black
  deriving DecidableEq, Repr

/-- The 35 commands (R125). `w` is CMD's W field, `qt` its QT field (R120, R124); a field with a reserved value
(QT 14 or 15, format 3, endian 3: R130) can be written here and is refused by `Instr.wf`. -/
inductive Instr where
  /-- NOP, R520 -/
  | nop
  /-- CLR_STATUS, R522 -/
  | clrStatus
  /-- CTRL_WRITE, R521: the new CTRL bits 1:0 -/
  | ctrlWrite (ctrl : BitVec 2)
  /-- BW_INIT, R203 -/
  | bwInit (port : Port)
  /-- BW_PUT_BIT, R204 -/
  | bwPutBit (bit : Bool)
  /-- BW_PUT_CODE, R205: the code length -/
  | bwPutCode (len : BitVec 6)
  /-- BW_FLUSH, R206 -/
  | bwFlush
  /-- BR_INIT, R210 -/
  | brInit
  /-- BR_GET_BIT, R211 -/
  | brGetBit
  /-- BR_SYNC, R213 -/
  | brSync
  /-- FAX_BUILD_HASH, R236 -/
  | faxBuildHash
  /-- FAX_LOOKUP, R238 -/
  | faxLookup (colour : Colour)
  /-- FAX_ENCODE, R262 -/
  | faxEncode (port : Port)
  /-- FAX_DECODE, R270 -/
  | faxDecode
  /-- LZW_ENCODE, R300: the buffer and the port -/
  | lzwEncode (w : BitVec 8) (port : Port)
  /-- PACKBITS_ENCODE, R330: the buffer and the port -/
  | packbitsEncode (w : BitVec 8) (port : Port)
  /-- Q_ACQUIRE, R350 -/
  | qAcquire
  /-- Q_DESTROY, R352 -/
  | qDestroy
  /-- Q_SET_DEPTH, R354 -/
  | qSetDepth (depth : BitVec 7)
  /-- Q_SET_FORMAT, R356 -/
  | qSetFormat (format : BitVec 2)
  /-- Q_SET_ENDIAN, R357 -/
  | qSetEndian (endian : BitVec 2)
  /-- Q_SET_PAD, R358 -/
  | qSetPad
  /-- Q_SET_SCALE, R359 -/
  | qSetScale
  /-- Q_SET_POLARITY, R360 -/
  | qSetPolarity (minIsWhite : Bool)
  /-- Q_RESET_STATE, R361 -/
  | qResetState
  /-- Q_GET_EXTENT, R363 -/
  | qGetExtent (qt : BitVec 4)
  /-- Q_PACK, R420: the worker and the quantum type -/
  | qPack (w : BitVec 8) (qt : BitVec 4)
  /-- Q_UNPACK, R425: the worker and the quantum type -/
  | qUnpack (w : BitVec 8) (qt : BitVec 4)
  /-- Q_GET_TYPE, R370 -/
  | qGetType
  /-- Q_SET_IMAGE_TYPE, R372 -/
  | qSetImageType (qt : BitVec 4)
  /-- POOL_ACQUIRE, R441 -/
  | poolAcquire
  /-- POOL_GET, R443 -/
  | poolGet (w : BitVec 8)
  /-- POOL_RELEASE, R444 -/
  | poolRelease
  /-- RS_EXPORT, R430 -/
  | rsExport (invert : Bool)
  /-- RS_IMPORT, R431 -/
  | rsImport (invert : Bool)
  deriving DecidableEq, Repr

end Sys2Proof
end

