-- ==== Sys2Proof/WellFormed.lean ====
section
/-! DEFINITION. Which command terms are well formed: no used field holds a reserved value (R130). -/

namespace Sys2Proof

/-- QT codes 14 and 15 are reserved (R124, R130). -/
def qtOk (qt : BitVec 4) : Bool := qt.toNat < 14

/-- Format code 3 is reserved (R127, R130). -/
def formatOk (f : BitVec 2) : Bool := f != 3

/-- Endian code 3 is reserved (R127, R130). -/
def endianOk (e : BitVec 2) : Bool := e != 3

/-- A command with no reserved field value (R130). -/
def Instr.wf : Instr → Bool
  | .nop => true
  | .clrStatus => true
  | .ctrlWrite _ => true
  | .bwInit _ => true
  | .bwPutBit _ => true
  | .bwPutCode _ => true
  | .bwFlush => true
  | .brInit => true
  | .brGetBit => true
  | .brSync => true
  | .faxBuildHash => true
  | .faxLookup _ => true
  | .faxEncode _ => true
  | .faxDecode => true
  | .lzwEncode _ _ => true
  | .packbitsEncode _ _ => true
  | .qAcquire => true
  | .qDestroy => true
  | .qSetDepth _ => true
  | .qSetFormat f => formatOk f
  | .qSetEndian e => endianOk e
  | .qSetPad => true
  | .qSetScale => true
  | .qSetPolarity _ => true
  | .qResetState => true
  | .qGetExtent qt => qtOk qt
  | .qPack _ qt => qtOk qt
  | .qUnpack _ qt => qtOk qt
  | .qGetType => true
  | .qSetImageType qt => qtOk qt
  | .poolAcquire => true
  | .poolGet _ => true
  | .poolRelease => true
  | .rsExport _ => true
  | .rsImport _ => true

end Sys2Proof
end

