-- ==== Sys2Proof/Decode.lean ====
section
/-! DEFINITION. The command decoder (R120 to R132), total on every word and rejecting by name, then the encoder. -/

namespace Sys2Proof

/-- Why a command word does not decode; each raises IllegalCommand (R128, R129, R130). -/
inductive DecodeError where
  /-- OPC is in no row of R125 (R128) -/
  | reservedOpcode
  /-- a field the opcode does not use is not zero (R129) -/
  | unusedField
  /-- a used field holds a reserved value (R130) -/
  | reservedValue
  deriving DecidableEq, Repr

/-- OPC, CMD bits 7:0 (R120). -/
def opcOf (c : Word) : BitVec 8 := c.extractLsb' 0 8
/-- W, CMD bits 15:8 (R120). -/
def wOf (c : Word) : BitVec 8 := c.extractLsb' 8 8
/-- QT, CMD bits 19:16 (R120). -/
def qtOf (c : Word) : BitVec 4 := c.extractLsb' 16 4
/-- IMM, CMD bits 31:20 (R120). -/
def immOf (c : Word) : BitVec 12 := c.extractLsb' 20 12

/-- A port code (R126). -/
def portOf (imm : BitVec 12) : Port := if imm.getLsbD 0 then .text else .raw
/-- A colour code (R127). -/
def colourOf (imm : BitVec 12) : Colour := if imm.getLsbD 0 then .black else .white

/-- A row of R125: which fields the opcode uses (`immBits` low bits of IMM, R123) and the command it names. -/
structure OpRow where
  usesW : Bool
  usesQt : Bool
  immBits : Nat
  make : BitVec 8 → BitVec 4 → BitVec 12 → Instr

/-- The opcode map of R125; `none` is a reserved opcode (R128). -/
def opRow (opc : BitVec 8) : Option OpRow :=
  match opc.toNat with
  | 0x00 => some ⟨false, false, 0, fun _ _ _ => .nop⟩
  | 0x01 => some ⟨false, false, 0, fun _ _ _ => .clrStatus⟩
  | 0x02 => some ⟨false, false, 2, fun _ _ imm => .ctrlWrite (imm.extractLsb' 0 2)⟩
  | 0x08 => some ⟨false, false, 1, fun _ _ imm => .bwInit (portOf imm)⟩
  | 0x09 => some ⟨false, false, 1, fun _ _ imm => .bwPutBit (imm.getLsbD 0)⟩
  | 0x0A => some ⟨false, false, 6, fun _ _ imm => .bwPutCode (imm.extractLsb' 0 6)⟩
  | 0x0B => some ⟨false, false, 0, fun _ _ _ => .bwFlush⟩
  | 0x0C => some ⟨false, false, 0, fun _ _ _ => .brInit⟩
  | 0x0D => some ⟨false, false, 0, fun _ _ _ => .brGetBit⟩
  | 0x0E => some ⟨false, false, 0, fun _ _ _ => .brSync⟩
  | 0x10 => some ⟨false, false, 0, fun _ _ _ => .faxBuildHash⟩
  | 0x11 => some ⟨false, false, 1, fun _ _ imm => .faxLookup (colourOf imm)⟩
  | 0x12 => some ⟨false, false, 1, fun _ _ imm => .faxEncode (portOf imm)⟩
  | 0x13 => some ⟨false, false, 0, fun _ _ _ => .faxDecode⟩
  | 0x20 => some ⟨true, false, 1, fun w _ imm => .lzwEncode w (portOf imm)⟩
  | 0x28 => some ⟨true, false, 1, fun w _ imm => .packbitsEncode w (portOf imm)⟩
  | 0x30 => some ⟨false, false, 0, fun _ _ _ => .qAcquire⟩
  | 0x31 => some ⟨false, false, 0, fun _ _ _ => .qDestroy⟩
  | 0x32 => some ⟨false, false, 7, fun _ _ imm => .qSetDepth (imm.extractLsb' 0 7)⟩
  | 0x33 => some ⟨false, false, 2, fun _ _ imm => .qSetFormat (imm.extractLsb' 0 2)⟩
  | 0x34 => some ⟨false, false, 2, fun _ _ imm => .qSetEndian (imm.extractLsb' 0 2)⟩
  | 0x35 => some ⟨false, false, 0, fun _ _ _ => .qSetPad⟩
  | 0x36 => some ⟨false, false, 0, fun _ _ _ => .qSetScale⟩
  | 0x37 => some ⟨false, false, 1, fun _ _ imm => .qSetPolarity (imm.getLsbD 0)⟩
  | 0x38 => some ⟨false, false, 0, fun _ _ _ => .qResetState⟩
  | 0x39 => some ⟨false, true, 0, fun _ qt _ => .qGetExtent qt⟩
  | 0x3A => some ⟨true, true, 0, fun w qt _ => .qPack w qt⟩
  | 0x3B => some ⟨true, true, 0, fun w qt _ => .qUnpack w qt⟩
  | 0x3C => some ⟨false, false, 0, fun _ _ _ => .qGetType⟩
  | 0x3D => some ⟨false, true, 0, fun _ qt _ => .qSetImageType qt⟩
  | 0x40 => some ⟨false, false, 0, fun _ _ _ => .poolAcquire⟩
  | 0x41 => some ⟨true, false, 0, fun w _ _ => .poolGet w⟩
  | 0x42 => some ⟨false, false, 0, fun _ _ _ => .poolRelease⟩
  | 0x48 => some ⟨false, false, 1, fun _ _ imm => .rsExport (imm.getLsbD 0)⟩
  | 0x49 => some ⟨false, false, 1, fun _ _ imm => .rsImport (imm.getLsbD 0)⟩
  | _ => none

/-- No bit is set in a field the row does not use (R123, R129). -/
def OpRow.unusedClear (r : OpRow) (w : BitVec 8) (qt : BitVec 4) (imm : BitVec 12) : Bool :=
  (r.usesW || w == 0) && (r.usesQt || qt == 0) && decide (imm.toNat < 2 ^ r.immBits)

/-- Decode a command word in the check order of R132: reserved opcode, then unused fields, then reserved values. -/
def decode (c : Word) : Except DecodeError Instr :=
  match opRow (opcOf c) with
  | none => .error .reservedOpcode
  | some r =>
    if r.unusedClear (wOf c) (qtOf c) (immOf c) then
      let i := r.make (wOf c) (qtOf c) (immOf c)
      if i.wf then .ok i else .error .reservedValue
    else .error .unusedField

/-- The command word with these fields: `OPC | W<<8 | QT<<16 | IMM<<20` (R120, R133). -/
def packWord (opc w : BitVec 8) (qt : BitVec 4) (imm : BitVec 12) : Word := imm ++ qt ++ w ++ opc

/-- IMM holding a 1-bit flag in IMM[0] (R123). -/
def immFlag (b : Bool) : BitVec 12 := (BitVec.ofBool b).setWidth 12
/-- IMM of a port (R126). -/
def immPort (p : Port) : BitVec 12 := immFlag (p == .text)
/-- IMM of a colour (R127). -/
def immColour (c : Colour) : BitVec 12 := immFlag (c == .black)

/-- The word of a command (R125, R133). -/
def encode : Instr → Word
  | .nop => packWord 0x00 0 0 0
  | .clrStatus => packWord 0x01 0 0 0
  | .ctrlWrite v => packWord 0x02 0 0 (v.setWidth 12)
  | .bwInit p => packWord 0x08 0 0 (immPort p)
  | .bwPutBit b => packWord 0x09 0 0 (immFlag b)
  | .bwPutCode n => packWord 0x0A 0 0 (n.setWidth 12)
  | .bwFlush => packWord 0x0B 0 0 0
  | .brInit => packWord 0x0C 0 0 0
  | .brGetBit => packWord 0x0D 0 0 0
  | .brSync => packWord 0x0E 0 0 0
  | .faxBuildHash => packWord 0x10 0 0 0
  | .faxLookup c => packWord 0x11 0 0 (immColour c)
  | .faxEncode p => packWord 0x12 0 0 (immPort p)
  | .faxDecode => packWord 0x13 0 0 0
  | .lzwEncode w p => packWord 0x20 w 0 (immPort p)
  | .packbitsEncode w p => packWord 0x28 w 0 (immPort p)
  | .qAcquire => packWord 0x30 0 0 0
  | .qDestroy => packWord 0x31 0 0 0
  | .qSetDepth d => packWord 0x32 0 0 (d.setWidth 12)
  | .qSetFormat f => packWord 0x33 0 0 (f.setWidth 12)
  | .qSetEndian e => packWord 0x34 0 0 (e.setWidth 12)
  | .qSetPad => packWord 0x35 0 0 0
  | .qSetScale => packWord 0x36 0 0 0
  | .qSetPolarity b => packWord 0x37 0 0 (immFlag b)
  | .qResetState => packWord 0x38 0 0 0
  | .qGetExtent qt => packWord 0x39 0 qt 0
  | .qPack w qt => packWord 0x3A w qt 0
  | .qUnpack w qt => packWord 0x3B w qt 0
  | .qGetType => packWord 0x3C 0 0 0
  | .qSetImageType qt => packWord 0x3D 0 qt 0
  | .poolAcquire => packWord 0x40 0 0 0
  | .poolGet w => packWord 0x41 w 0 0
  | .poolRelease => packWord 0x42 0 0 0
  | .rsExport b => packWord 0x48 0 0 (immFlag b)
  | .rsImport b => packWord 0x49 0 0 (immFlag b)

/-- The opcode of a command (R125), as ERROP shows it. -/
def Instr.opcode (i : Instr) : BitVec 8 := opcOf (encode i)

/-- The command the decoder reads from the bits `w` of an opcode-table row of `nbits` bits. A command is one 32-bit
word, written to CMD at its full width, so no byte order enters (R86, R120). -/
def decodeTableWord (nbits w : Nat) : Option Instr :=
  match decode (BitVec.ofNat 32 (w % 2 ^ nbits)) with
  | .ok i => some i
  | .error _ => none

end Sys2Proof
end

