-- ==== Sys2Proof/Machine/State.lean ====
section
/-! DEFINITION. The machine's state (10_state.md, 20_memory.md), its faults and refusals, and the state after reset (R601). -/

namespace Sys2Proof.Machine

open Host

/-- Why the machine stops with a fault: behaviour the spec orders a model to treat as a fault. -/
inductive Fault where
  /-- Raised by a host access to scratch buffer `b` while a busy worker or a running LZW_ENCODE or PACKBITS_ENCODE
  uses it (R97, R614: "A model treats such an access as a fault"). Safe: the run stops. -/
  | scratchRace (b : Nat)
  deriving DecidableEq, Repr

/-- Actions the spec gives no step ("a model shall give it no step"), and the marker of an unmodelled command. -/
inductive Refusal where
  /-- Raised by an arm of `exec` whose command has no meaning yet; no arm does. Safe. -/
  | notModelled (mnemonic : String)
  /-- Raised by a host access to P_CMD at no register's offset, at another width, or against the register's access
  direction (R86). Safe: the run has no further step. -/
  | hostRegister (offset width : Nat)
  /-- Raised by a host access outside the scratch space (R84). Safe: the run has no further step. -/
  | hostScratch (b o : Nat)
  deriving DecidableEq, Repr

/-- The error kinds of R500 and R502. -/
inductive ErrKind where
  | resourceLimit
  | corruptImage
  /-- never raised by this block (R502) -/
  | coder
  /-- never raised by this block (R502) -/
  | missingDelegate
  | option
  | illegalCommand
  | hazard
  | guardViolation
  deriving DecidableEq, Repr

/-- Who executes a command (R6, R121). -/
inductive Agent where
  | seq
  | worker (w : BitVec 8)
  deriving DecidableEq, Repr

/-- The fields of STATUS (R32); bits 31:18 are not held, they read 0. -/
structure Status where
  busy : Bool
  done : Bool
  err : Bool
  cancelled : Bool
  errKind : BitVec 4
  errOp : BitVec 8
  stickyErr : Bool
  haz : Bool
  deriving DecidableEq, Repr

/-- The fields of WSTATUS[w] (R33); the other bits are not held, they read 0. -/
structure WStatus where
  busy : Bool
  done : Bool
  err : Bool
  errKind : BitVec 4
  errOp : BitVec 8
  deriving DecidableEq, Repr

/-- RES0 .. RES3 (R30). -/
structure Results where
  r0 : DWord
  r1 : DWord
  r2 : DWord
  r3 : DWord
  deriving DecidableEq, Repr

/-- The descriptor registers Q_* (R37); the constant Q_MASK is `qMask`. -/
structure Descriptor where
  valid : Bool
  depth : BitVec 7
  format : BitVec 2
  endian : BitVec 2
  pack : Bool
  pad : DWord
  minimum : DWord
  maximum : DWord
  scale : DWord
  minIsWhite : Bool
  alphaType : Bool
  invScale : DWord
  deriving DecidableEq, Repr

/-- The image attribute latches IMG_* (R39). -/
structure ImageAttrs where
  columns : DWord
  rows : DWord
  channels : DWord
  endian : BitVec 2
  pseudoClass : Bool
  colorspace : BitVec 2
  alpha : Bool
  multispectral : Bool
  deriving DecidableEq, Repr

/-- POOL_VALID, POOL_N, POOL_EXTENT (R40). -/
structure Pool where
  valid : Bool
  n : Nat
  extent : DWord
  deriving DecidableEq, Repr

/-- BW_BYTE, BW_MASK, BW_PORT (R41). -/
structure BitWriter where
  byte : Byte
  mask : Byte
  port : Port
  deriving DecidableEq, Repr

/-- BR_BYTE, BR_MASK, BR_EOF, BR_ZRUN (R42). -/
structure BitReader where
  byte : Byte
  mask : Byte
  eof : Bool
  zrun : Word
  deriving DecidableEq, Repr

/-- One LZW dictionary entry (R43); `none` is the spec's -1. -/
structure LzwEntry where
  pre : Option Nat
  suffix : Byte
  next : Option Nat
  deriving DecidableEq, Repr

/-- The LZW dictionary (R43, sparse by code) and working registers (R44). -/
structure Lzw where
  entry : List (Nat × LzwEntry)
  nextCode : Nat
  width : Nat
  acc : Word
  nbits : Nat
  last : Nat
  deriving DecidableEq, Repr

/-- Which code table a row belongs to (R230). -/
inductive FaxTable where
  | tw
  | tb
  | mw
  | mb
  | ex
  deriving DecidableEq, Repr

/-- A row of a code table (R230). -/
structure FaxRow where
  table : FaxTable
  run : Nat
  length : Nat
  value : Nat
  deriving DecidableEq, Repr

/-- A sample selector of the pixel port (R61). -/
inductive Sel where
  | gray
  | red
  | green
  | blue
  | alpha
  | cyan
  | magenta
  | yellow
  | black
  | cb
  | lumaY
  | cr
  | index
  | ch (i : Nat)
  deriving DecidableEq, Repr

/-- What an `Alloc` request is for (R508). -/
inductive AllocTag where
  | faxHash
  | faxScan
  | lzwTable
  | pbBuf
  | pool
  deriving DecidableEq, Repr

/-- A request the block makes of a collaborator through P_ALLOC, P_THR, P_PROG or P_PIX (R60). -/
inductive Request where
  | alloc (what : AllocTag) (size : Nat)
  | threadLimit
  | acquireRow (y : Nat)
  | progress (tag : BitVec 8) (current total : Nat)
  | getSample (y x : Nat) (sel : Sel)
  | getIntensity (y x : Nat)
  deriving DecidableEq, Repr

/-- A write through P_PIX (R11): PutSample or PutBilevel. -/
inductive PixWrite where
  | sample (y x : Nat) (sel : Sel) (v : Rat)
  | bilevel (y x : Nat) (bit : Bool)
  deriving DecidableEq, Repr

/-- The ports of R60: the collaborators' answers still to come, and all the block has sent so far. The lists of
answers are inputs; an answer past the end of its list is a free value (log entry 4). -/
structure Ports where
  /-- P_SRC: the bytes `SourceRead` will give, then EOF (R87, R621) -/
  src : List Byte
  /-- answers of `Alloc`, `true` is `ok` -/
  allocs : List Bool
  /-- answers of `AcquireRow`, `true` is `ok` -/
  rows : List Bool
  /-- answers of `Progress`, `true` is `continue` -/
  progress : List Bool
  /-- answers of `ThreadLimit` -/
  threads : List Nat
  /-- answers of `GetSample` and `GetIntensity` -/
  samples : List Rat
  /-- CMD_LATENCY of the commands to come (R620), 0 past the end (log entry 5) -/
  latency : List Nat
  /-- the model's own counter of free answers drawn -/
  drawn : Nat
  /-- P_RAW, first byte first -/
  rawOut : List Byte
  /-- P_TEXT, first byte first -/
  textOut : List Byte
  /-- P_PIX writes, first one first -/
  pixOut : List PixWrite
  /-- requests made, first one first -/
  requests : List Request
  /-- P_ERR: the `Raise(kind, opcode)` exchanges, first one first (R505) -/
  raised : List (ErrKind × BitVec 8)
  deriving DecidableEq, Repr

/-- One access or action of the host (R6, R60, R133). -/
inductive HostAct where
  /-- a write of P_CMD at a byte offset and a width in bits (R86) -/
  | write (offset width : Nat) (v : DWord)
  /-- a read of P_CMD at a byte offset and a width in bits (R86) -/
  | read (offset width : Nat)
  /-- HostRead(b, o) (R84) -/
  | scrRead (b o : Nat)
  /-- HostWrite(b, o, v) (R84) -/
  | scrWrite (b o : Nat) (v : Byte)
  /-- FEED: the source will supply these bytes after those it already holds (R133) -/
  | feed (bytes : List Byte)
  /-- WAIT: the host polls STATUS until DONE = 1 (R133) -/
  | waitSeq
  /-- WAIT w: the host polls WSTATUS[w] until DONE = 1 (R133) -/
  | waitWorker (w : BitVec 8)
  /-- the host does nothing for one host step (R620) -/
  | idle
  /-- the input RST is driven: `true` asserts it, `false` releases it (R600) -/
  | rst (asserted : Bool)
  deriving DecidableEq, Repr

/-- A stretch of a list. -/
structure Span where
  start : Nat
  len : Nat
  deriving DecidableEq, Repr

/-- What a command in flight has exchanged (R600): its stretches of the ports' lists of things sent, and the source
bytes it has consumed. -/
structure Sent where
  raw : Span
  text : Span
  pix : Span
  requests : Span
  src : List Byte
  deriving DecidableEq, Repr

/-- The sequencer's command in flight (R610, R620): the host steps left, the command (`none` for a word that did not
decode, log entry 32), what it reports at its end (STATUS, RES and the Raise exchange, if any), and what it has exchanged. -/
structure SeqFlight where
  left : Nat
  instr : Option Instr
  status : Status
  res : Results
  raised : List (ErrKind × BitVec 8)
  sent : Sent
  deriving DecidableEq, Repr

/-- A worker's command in flight: its worker, the host steps left, what it reports at its end and what it has
exchanged. -/
structure WFlight where
  worker : BitVec 8
  left : Nat
  status : WStatus
  res : DWord
  raised : List (ErrKind × BitVec 8)
  sent : Sent
  deriving DecidableEq, Repr

/-- The whole state. -/
structure State where
  /-- ARG0 .. ARG7 (R30) -/
  arg : Vector DWord 8
  /-- RES0 .. RES3 (R30) -/
  res : Results
  /-- STATUS (R32) -/
  status : Status
  /-- CTRL (R34) -/
  ctrl : Word
  /-- WSTATUS[w] (R33) -/
  wstatus : Vector WStatus 256
  /-- WRES[w] (R30) -/
  wres : Vector DWord 256
  /-- the descriptor (R37) -/
  q : Descriptor
  /-- the image latches (R39) -/
  img : ImageAttrs
  /-- the pool registers (R40) -/
  pool : Pool
  /-- the scratch space (R80), keyed by `scratchKey b o`, in the canonical form of `memWf` -/
  scratch : List Cell
  /-- WACC_PIXEL[w] (R38) -/
  waccPixel : Vector Word 256
  /-- WACC_BITS[w] (R38), 0 .. 32 -/
  waccBits : Vector (BitVec 6) 256
  /-- the bit writer (R41) -/
  bw : BitWriter
  /-- the bit reader (R42) -/
  br : BitReader
  /-- the LZW dictionary and working registers (R43, R44) -/
  lzw : Lzw
  /-- FAX_WHASH (R45): the occupied slots, rising; an unlisted slot is EMPTY -/
  faxWhash : List (Nat × FaxRow)
  /-- FAX_BHASH (R45): the occupied slots, rising; an unlisted slot is EMPTY -/
  faxBhash : List (Nat × FaxRow)
  /-- FAX_SCAN (R46), `true` black; `[]` while it does not exist -/
  faxScan : List Bool
  /-- PB_BUF[0 .. 128] (R47) -/
  pbBuf : List Byte
  /-- the sequencer's command in flight (R610) -/
  seqFlight : Option SeqFlight
  /-- the workers' commands in flight (R610) -/
  wFlights : List WFlight
  /-- the input RST is asserted (R600) -/
  inReset : Bool
  /-- the ports (R60) -/
  ports : Ports
  /-- the host's actions still to come, the next one first (R35: "what executes next" is the next CMD write) -/
  host : List HostAct
  /-- the values the host's reads have returned, first one first (R30, R84) -/
  seen : List DWord
  /-- the OPEN parameters of R7 that are plain data; nothing writes them -/
  params : Params
  deriving DecidableEq, Repr

/-- STATUS after reset (R601). -/
def Status.reset : Status := ⟨false, false, false, false, 0, 0, false, false⟩

/-- WSTATUS[w] after reset (R601). -/
def WStatus.reset : WStatus := ⟨false, false, false, 0, 0⟩

/-- The Q_* registers after reset (R37, R601): Q_INV_SCALE is 1.0, all else 0. -/
def Descriptor.reset : Descriptor :=
  ⟨false, 0, 0, 0, false, 0, 0, 0, 0, false, false, 0x3FF0000000000000⟩

/-- The IMG_* latches after reset (R39, R601). -/
def ImageAttrs.reset : ImageAttrs := ⟨0, 0, 0, 0, false, 0, false, false⟩

/-- The pool registers after reset (R40, R601). -/
def Pool.reset : Pool := ⟨false, 0, 0⟩

/-- The bit writer after reset (R41, R601), the state BW_INIT #0 leaves. -/
def BitWriter.reset : BitWriter := ⟨0, 0x80, .raw⟩

/-- The bit reader after reset (R42, R601), the state BR_INIT leaves. -/
def BitReader.reset : BitReader := ⟨0, 0, false, 0⟩

/-- The LZW state after reset; R43 and R44 state no value (DESIGN CHOICE, log entry 2). -/
def Lzw.reset : Lzw := ⟨[], 258, 9, 0, 0, 0⟩

/-- The ports when nothing has been exchanged. -/
def Ports.reset : Ports := ⟨[], [], [], [], [], [], [], 0, [], [], [], [], []⟩

/-- The machine right after reset, RST released (R601). ARG0 .. ARG7 are unspecified (R31) and hold free
values (DESIGN CHOICE, log entry 1); the LZW registers and PB_BUF have no stated value (DESIGN CHOICE, log entry 2). -/
def State.reset : State where
  arg := Vector.ofFn Config.argReset
  res := ⟨0, 0, 0, 0⟩
  status := Status.reset
  ctrl := 0
  wstatus := Vector.replicate 256 WStatus.reset
  wres := Vector.replicate 256 0
  q := Descriptor.reset
  img := ImageAttrs.reset
  pool := Pool.reset
  scratch := []
  waccPixel := Vector.replicate 256 0
  waccBits := Vector.replicate 256 0
  bw := BitWriter.reset
  br := BitReader.reset
  lzw := Lzw.reset
  faxWhash := []
  faxBhash := []
  faxScan := []
  pbBuf := List.replicate 129 0
  seqFlight := none
  wFlights := []
  inReset := false
  ports := Ports.reset
  host := []
  seen := []
  params := Config.params

end Sys2Proof.Machine
end

