-- ==== Sys2Proof/Machine/Memory.lean ====
section
/-! DEFINITION. The scratch space (20_memory.md) as a canonical list of cells, and sparse tables by key. -/

namespace Sys2Proof.Machine

open Host

/-- What an unlisted scratch address reads as: PoolAcquire zero-fills every buffer (R442). -/
def memFill : Byte := 0

/-- The cell address of offset `o` of buffer `b` (R80): offsets are below `2^64`. -/
def scratchKey (b o : Nat) : Nat := b * 2 ^ 64 + o

/-- The byte at an address. -/
def memRead : List Cell → Nat → Byte
  | [], _ => memFill
  | (k, v) :: m, a => if k = a then v else memRead m a

/-- Store one byte, keeping the canonical form: addresses rising, no cell equal to `memFill`. -/
def memWrite : List Cell → Nat → Byte → List Cell
  | [], a, v => if v = memFill then [] else [(a, v)]
  | (k, u) :: m, a, v =>
    if a < k then (if v = memFill then (k, u) :: m else (a, v) :: (k, u) :: m)
    else if a = k then (if v = memFill then m else (a, v) :: m)
    else (k, u) :: memWrite m a v

/-- The canonical form from address `lo` up. -/
def memWfFrom : Nat → List Cell → Bool
  | _, [] => true
  | lo, (k, v) :: m => decide (lo ≤ k) && v != memFill && memWfFrom (k + 1) m

/-- The canonical form: addresses strictly rising, no cell equal to what an unlisted address reads as. -/
def memWf (m : List Cell) : Bool := memWfFrom 0 m

/-- MemRead(b, o, n) of R11. -/
def scratchRead (m : List Cell) (b o n : Nat) : List Byte :=
  (List.range n).map fun i => memRead m (scratchKey b (o + i))

/-- MemWrite(b, o, bytes) of R11, a sequence of one-byte stores (R82). -/
def scratchWrite (m : List Cell) (b : Nat) : Nat → List Byte → List Cell
  | _, [] => m
  | o, v :: bytes => scratchWrite (memWrite m (scratchKey b o) v) b (o + 1) bytes

/-- The cells of a fresh pool of `n` buffers of extent `e` (R442): all zero but the guard bytes. -/
def freshScratch (n e : Nat) : List Cell :=
  (List.range n).map fun b => (scratchKey b e, Config.guardSignature)

/-- Offset `o` of buffer `b` is in the scratch space (R80, R84); offset POOL_EXTENT is the guard byte. -/
def State.inScratch (s : State) (b o : Nat) : Bool :=
  s.pool.valid && decide (b < s.pool.n) && decide (o ≤ s.pool.extent.toNat)

/-- The byte of the scratch space at (b, o). -/
def State.scratchByte (s : State) (b o : Nat) : Byte := memRead s.scratch (scratchKey b o)

/-- The value a rising sparse table holds at key `i`. -/
def tabGet {α : Type} : List (Nat × α) → Nat → Option α
  | [], _ => none
  | (k, v) :: t, i => if k = i then some v else tabGet t i

/-- Store a value at key `i` of a rising sparse table, replacing an earlier one. -/
def tabSet {α : Type} : List (Nat × α) → Nat → α → List (Nat × α)
  | [], i, v => [(i, v)]
  | (k, u) :: t, i, v =>
    if i < k then (i, v) :: (k, u) :: t
    else if i = k then (i, v) :: t
    else (k, u) :: tabSet t i v

end Sys2Proof.Machine
end

