-- ==== Sys2Proof/Machine/Flags.lean ====
section
/-! DEFINITION. Every status and control bit (R32 to R36): the register words, the busy bits, IRQ (R510). -/

namespace Sys2Proof.Machine

/-- ERRKIND's code of an error kind (R502). -/
def ErrKind.code : ErrKind → BitVec 4
  | .resourceLimit => 1
  | .corruptImage => 2
  | .coder => 3
  | .missingDelegate => 4
  | .option => 5
  | .illegalCommand => 6
  | .hazard => 7
  | .guardViolation => 8

/-- STATUS as the host reads it (R32). -/
def Status.word (t : Status) : Word :=
  (0 : BitVec 14) ++ BitVec.ofBool t.haz ++ BitVec.ofBool t.stickyErr ++ t.errOp ++ t.errKind ++
    BitVec.ofBool t.cancelled ++ BitVec.ofBool t.err ++ BitVec.ofBool t.done ++ BitVec.ofBool t.busy

/-- WSTATUS[w] as the host reads it (R33). -/
def WStatus.word (t : WStatus) : Word :=
  (0 : BitVec 16) ++ t.errOp ++ t.errKind ++ (0 : BitVec 1) ++ BitVec.ofBool t.err ++ BitVec.ofBool t.done ++
    BitVec.ofBool t.busy

/-- CTRL.IE (R34). -/
def State.ie (s : State) : Bool := s.ctrl.getLsbD 0

/-- CTRL.DEBUG (R34). -/
def State.debug (s : State) : Bool := s.ctrl.getLsbD 1

/-- The IRQ output (R510). -/
def State.irq (s : State) : Bool := s.ie && (s.status.stickyErr || s.status.haz)

/-- WSTATUS[w] (R33). -/
def State.wstat (s : State) (w : BitVec 8) : WStatus := s.wstatus[w.toNat]'(by have := w.isLt; omega)

/-- WRES[w] (R30). -/
def State.wresOf (s : State) (w : BitVec 8) : DWord := s.wres[w.toNat]'(by have := w.isLt; omega)

/-- STATUS.BUSY or WSTATUS[w].BUSY (R32, R33). -/
def State.busy (s : State) : Agent → Bool
  | .seq => s.status.busy
  | .worker w => (s.wstat w).busy

/-- Some WSTATUS[w].BUSY is 1 (R611 case 1). -/
def State.anyWorkerBusy (s : State) : Bool := s.wstatus.toList.any (·.busy)

/-- STATUS at the start of a sequencer command (R32): DONE and the error fields 0, BUSY 1. -/
def Status.begin (t : Status) : Status :=
  { t with busy := true, done := false, err := false, cancelled := false, errKind := 0, errOp := 0 }

/-- STATUS at the normal end of a command (R32). -/
def Status.finish (t : Status) : Status := { t with busy := false, done := true }

/-- STATUS at the cancelled end of a command (R512). -/
def Status.cancel (t : Status) : Status :=
  { t with busy := false, done := true, cancelled := true, err := false, errKind := 0, errOp := 0 }

/-- STATUS' own fields after `raise k` in the sequencer's command with opcode `op` (R505 step 2). -/
def Status.fail (t : Status) (op : BitVec 8) (k : ErrKind) : Status :=
  { t with busy := false, done := true, err := true, cancelled := false, errKind := k.code, errOp := op }

/-- The sticky bits after a `raise k` of any agent (R505 step 3). -/
def Status.stick (t : Status) (k : ErrKind) : Status :=
  { t with stickyErr := true, haz := t.haz || k == .hazard }

/-- WSTATUS[w] at the start of a worker command (R33). -/
def WStatus.begin (_ : WStatus) : WStatus := ⟨true, false, false, 0, 0⟩

/-- WSTATUS[w] at the normal end of a worker command (R33). -/
def WStatus.finish (t : WStatus) : WStatus := { t with busy := false, done := true }

/-- WSTATUS[w] after `raise k` in worker w's command with opcode `op` (R505 step 2). -/
def WStatus.fail (_ : WStatus) (op : BitVec 8) (k : ErrKind) : WStatus := ⟨false, true, true, k.code, op⟩

end Sys2Proof.Machine
end

