-- ==== Sys2Proof/Machine/Operands.lean ====
section
/-! DEFINITION. Every operand form (R122 to R127, R350): field codes, quantum types, the attribute record ARG4. -/

namespace Sys2Proof.Machine

/-- The quantum types (R124). -/
inductive QType where
  | gray
  | grayAlpha
  | rgb
  | rgba
  | rgbo
  | bgra
  | cmyk
  | cmyka
  | cbYCr
  | cbYCrA
  | cbYCrY
  | index
  | indexAlpha
  | multispectral
  deriving DecidableEq, Repr

/-- The quantum type of a QT code (R124); 14 and 15 are reserved. -/
def qtypeOf (qt : BitVec 4) : Option QType :=
  match qt.toNat with
  | 0 => some .gray
  | 1 => some .grayAlpha
  | 2 => some .rgb
  | 3 => some .rgba
  | 4 => some .rgbo
  | 5 => some .bgra
  | 6 => some .cmyk
  | 7 => some .cmyka
  | 8 => some .cbYCr
  | 9 => some .cbYCrA
  | 10 => some .cbYCrY
  | 11 => some .index
  | 12 => some .indexAlpha
  | 13 => some .multispectral
  | _ => none

/-- The value of ARG[i] (R122): what the host wrote last, or the register's unspecified value at reset (R31, log
entries 1 and 3). -/
def State.argVal (s : State) (i : Fin 8) : DWord := s.arg[i]

/-! ### The attribute record ARG4 of Q_ACQUIRE (R350) -/

/-- ARG4[1:0], the image endian code. -/
def attrEndian (a : DWord) : BitVec 2 := a.extractLsb' 0 2
/-- ARG4[2], PseudoClass. -/
def attrPseudoClass (a : DWord) : Bool := a.getLsbD 2
/-- ARG4[4:3], the colorspace code. -/
def attrColorspace (a : DWord) : BitVec 2 := a.extractLsb' 3 2
/-- ARG4[5], alpha. -/
def attrAlpha (a : DWord) : Bool := a.getLsbD 5
/-- ARG4[6], multispectral. -/
def attrMultispectral (a : DWord) : Bool := a.getLsbD 6
/-- ARG4[8:7], the format code. -/
def attrFormat (a : DWord) : BitVec 2 := a.extractLsb' 7 2
/-- ARG4[9], pack. -/
def attrPack (a : DWord) : Bool := a.getLsbD 9
/-- ARG4[10], alphaType. -/
def attrAlphaType (a : DWord) : Bool := a.getLsbD 10
/-- ARG4[11], have_min. -/
def attrHaveMin (a : DWord) : Bool := a.getLsbD 11
/-- ARG4[12], have_max. -/
def attrHaveMax (a : DWord) : Bool := a.getLsbD 12

/-- ARG4 holds a reserved bit or value (R350's second check). -/
def attrReserved (a : DWord) : Bool :=
  a.extractLsb' 13 51 != 0 || attrEndian a == 3 || attrColorspace a == 3 || attrFormat a == 3

end Sys2Proof.Machine
end

