-- ==== Sys2Proof/Machine/Ops.lean ====
section
/-! DEFINITION. The named operations: register writes, port exchanges, command start and end, and `raise` (R505), the
one way an error is taken. No command returns from an error: the block runs no handler (R511). -/

namespace Sys2Proof.Machine

open Host

/-! ### Registers -/

/-- WSTATUS[w] <- t. -/
def State.setWstat (s : State) (w : BitVec 8) (t : WStatus) : State :=
  { s with wstatus := s.wstatus.set w.toNat t (by have := w.isLt; omega) }

/-- WRES[w] <- v. -/
def State.setWres (s : State) (w : BitVec 8) (v : DWord) : State :=
  { s with wres := s.wres.set w.toNat v (by have := w.isLt; omega) }

/-- WACC_PIXEL[w] <- 0; WACC_BITS[w] <- 0 (R410). -/
def State.clearWacc (s : State) (w : BitVec 8) : State :=
  { s with
    waccPixel := s.waccPixel.set w.toNat 0 (by have := w.isLt; omega)
    waccBits := s.waccBits.set w.toNat 0 (by have := w.isLt; omega) }

/-- A host write of ARG[i] (R30, R31). -/
def State.setArg (s : State) (i : Fin 8) (v : DWord) : State := { s with arg := s.arg.set i v }

/-- RES0 <- v. -/
def State.setRes0 (s : State) (v : DWord) : State := { s with res := { s.res with r0 := v } }

/-- `RES0 <- n` for a count of bytes sent (R262, R300, R330). The count is an exact integer (R9) and the register has 64
bits (R30); what it holds after a count of 2^64 or more the spec does not say: a free value (DESIGN CHOICE, log
entry 30). -/
def countRes (n : Nat) : DWord := if n < 2 ^ 64 then BitVec.ofNat 64 n else Config.freeCount n

/-- Q_MASK[n], the mask of n low bits, n < 32 (R37, R409). -/
def qMask (n : Nat) : Word := BitVec.ofNat 32 (2 ^ n - 1)

/-! ### Ports (R60): what each exchange answers, and the ports after it -/

/-- The answer the next `Alloc` gets. -/
def Ports.nextAlloc (p : Ports) : Bool := p.allocs.headD (Config.freeAlloc p.drawn)
/-- The answer the next `AcquireRow` gets. -/
def Ports.nextRow (p : Ports) : Bool := p.rows.headD (Config.freeRow p.drawn)
/-- The answer the next `Progress` gets; `true` is `continue`. -/
def Ports.nextProgress (p : Ports) : Bool := p.progress.headD (Config.freeProgress p.drawn)
/-- The answer the next `ThreadLimit` gets. -/
def Ports.nextThreads (p : Ports) : Nat := p.threads.headD (Config.freeThreads p.drawn)
/-- The answer the next `GetSample` or `GetIntensity` gets, before the law of R61 is applied. -/
def Ports.nextSample (p : Ports) : Rat := p.samples.headD (Config.freeSample p.drawn)

/-- The counter of free answers after an exchange that took its answer from `l`. -/
def Ports.drawnAfter {α : Type} (p : Ports) (l : List α) : Nat := if l.isEmpty then p.drawn + 1 else p.drawn

/-- After an `Alloc` exchange. -/
def Ports.tookAlloc (p : Ports) (what : AllocTag) (size : Nat) : Ports :=
  { p with allocs := p.allocs.tail, drawn := p.drawnAfter p.allocs, requests := p.requests ++ [.alloc what size] }
/-- After an `AcquireRow` exchange. -/
def Ports.tookRow (p : Ports) (y : Nat) : Ports :=
  { p with rows := p.rows.tail, drawn := p.drawnAfter p.rows, requests := p.requests ++ [.acquireRow y] }
/-- After a `Progress` exchange. -/
def Ports.tookProgress (p : Ports) (tag : BitVec 8) (current total : Nat) : Ports :=
  { p with
    progress := p.progress.tail, drawn := p.drawnAfter p.progress
    requests := p.requests ++ [.progress tag current total] }
/-- After a `ThreadLimit` exchange. -/
def Ports.tookThreads (p : Ports) : Ports :=
  { p with threads := p.threads.tail, drawn := p.drawnAfter p.threads, requests := p.requests ++ [.threadLimit] }
/-- After a `GetSample` or `GetIntensity` exchange that made request `r`. -/
def Ports.tookSample (p : Ports) (r : Request) : Ports :=
  { p with samples := p.samples.tail, drawn := p.drawnAfter p.samples, requests := p.requests ++ [r] }
/-- SinkWrite(port, b) for each byte in turn (R11, R87). -/
def Ports.sink (p : Ports) (port : Port) (bytes : List Byte) : Ports :=
  match port with
  | .raw => { p with rawOut := p.rawOut ++ bytes }
  | .text => { p with textOut := p.textOut ++ bytes }
/-- The `Raise(code(k), op)` exchange (R505 step 4). -/
def Ports.raise (p : Ports) (k : ErrKind) (op : BitVec 8) : Ports := { p with raised := p.raised ++ [(k, op)] }

/-- The state after an `Alloc` exchange. -/
def State.tookAlloc (s : State) (what : AllocTag) (size : Nat) : State :=
  { s with ports := s.ports.tookAlloc what size }
/-- The state after an `AcquireRow` exchange. -/
def State.tookRow (s : State) (y : Nat) : State := { s with ports := s.ports.tookRow y }
/-- The state after a `Progress` exchange. -/
def State.tookProgress (s : State) (tag : BitVec 8) (current total : Nat) : State :=
  { s with ports := s.ports.tookProgress tag current total }
/-- The state after bytes are sent to a port (R202). -/
def State.sink (s : State) (port : Port) (bytes : List Byte) : State := { s with ports := s.ports.sink port bytes }

/-! ### How a command starts and ends -/

/-- How a command's pseudocode ends (R500), with the state it leaves. A command's own pseudocode has
no other end: no command faults. -/
inductive CmdEnd where
  | normal (s : State)
  | cancelled (s : State)
  | raised (k : ErrKind) (s : State)

/-- Go on after a part of a command's pseudocode that ended normally (R12). -/
def CmdEnd.andThen (e : CmdEnd) (next : State → CmdEnd) : CmdEnd :=
  match e with
  | .normal s => next s
  | .cancelled s => .cancelled s
  | .raised k s => .raised k s

/-- Change the state a command leaves, however it ends. -/
def CmdEnd.mapState (e : CmdEnd) (f : State → State) : CmdEnd :=
  match e with
  | .normal s => .normal (f s)
  | .cancelled s => .cancelled (f s)
  | .raised k s => .raised k (f s)

/-- The start of a command of agent `a` (R32, R33). -/
def State.beginCmd (s : State) (a : Agent) : State :=
  match a with
  | .seq => { s with status := s.status.begin }
  | .worker w => s.setWstat w (s.wstat w).begin

/-- The normal end of a command of agent `a` (R32, R33). -/
def State.endCmd (s : State) (a : Agent) : State :=
  match a with
  | .seq => { s with status := s.status.finish }
  | .worker w => s.setWstat w (s.wstat w).finish

/-- The cancelled end (R512); only FAX_ENCODE and FAX_DECODE, sequencer commands, have one. -/
def State.cancelCmd (s : State) (a : Agent) : State :=
  match a with
  | .seq => { s with status := s.status.cancel }
  | .worker w => s.setWstat w (s.wstat w).finish

/-- `raise k` in a command with opcode `op` of agent `a`: TAKING AN ERROR (R505). The agent's status gets the error
fields, STATUS.STICKY_ERR (and HAZ for a hazard) is set, and P_ERR gets one Raise exchange. -/
def State.raiseErr (s : State) (a : Agent) (op : BitVec 8) (k : ErrKind) : State :=
  match a with
  | .seq => { s with status := (s.status.fail op k).stick k, ports := s.ports.raise k op }
  | .worker w =>
    { s.setWstat w ((s.wstat w).fail op k) with status := s.status.stick k, ports := s.ports.raise k op }

/-- Run a command's pseudocode as one command of agent `a` (R12, R500, R505, R512): it always has a next state. -/
def runCmd (a : Agent) (op : BitVec 8) (body : State → CmdEnd) (s : State) : Outcome State Fault Refusal :=
  .next <|
    match body (s.beginCmd a) with
    | .normal t => t.endCmd a
    | .cancelled t => t.cancelCmd a
    | .raised k t => t.raiseErr a op k

/-- A command that writes the descriptor or the pool (R611 case 1). -/
def isMutating : Instr → Bool
  | .qAcquire | .qDestroy | .qSetDepth _ | .qSetFormat _ | .qSetEndian _ | .qSetPad | .qSetScale | .qSetPolarity _
  | .qResetState | .poolAcquire | .poolRelease => true
  | _ => false

/-- The scratch buffer a sequencer command reads (R81, R611 cases 3 and 4). -/
def bufferRead : Instr → Option (BitVec 8)
  | .lzwEncode w _ => some w
  | .packbitsEncode w _ => some w
  | _ => none

/-- The command the sequencer is executing, if it is in its busy window (R610). A word that did not decode gives none,
whatever its opcode: it makes the sequencer busy, but R611 and R614 do not say whether it counts as executing the command
its opcode names (DESIGN CHOICE: it does not; log entry 32). -/
def State.seqInstr (s : State) : Option Instr :=
  match s.seqFlight with
  | some f => f.instr
  | none => none

/-- The sequencer is executing a descriptor-mutating command (R611 case 2). -/
def State.seqMutating (s : State) : Bool :=
  match s.seqInstr with
  | some i => isMutating i
  | none => false

/-- The sequencer is executing an LZW_ENCODE or PACKBITS_ENCODE of buffer `w` (R611 case 4). -/
def State.seqReads (s : State) (w : BitVec 8) : Bool :=
  match s.seqInstr with
  | some i => bufferRead i == some w
  | none => false

/-- The hazard check of a descriptor-mutating command (R611 case 1). -/
def hazardCheck (s : State) (k : CmdEnd) : CmdEnd :=
  if s.anyWorkerBusy then .raised .hazard s else k

/-- The check that a descriptor exists (R353 and the file's opening). -/
def needDescriptor (s : State) (k : CmdEnd) : CmdEnd :=
  if s.q.valid then k else .raised .option s

end Sys2Proof.Machine
end

