-- ==== Sys2Proof/Machine/Bits.lean ====
section
/-! DEFINITION. The bit writer and bit reader and their commands (41_bitstream.md). -/

namespace Sys2Proof.Machine

open Host

/-! ### Writer primitives -/

/-- The bit writer together with the bytes it has emitted during an operation, first byte first. -/
structure Writer where
  bw : BitWriter
  out : List Byte
  deriving DecidableEq, Repr

/-- PutBit(v) (R200). -/
def putBit (v : Bool) (x : Writer) : Writer :=
  let byte := if v then x.bw.byte ||| x.bw.mask else x.bw.byte
  let mask := x.bw.mask >>> 1
  if mask = 0 then ⟨{ x.bw with byte := 0, mask := 0x80 }, x.out ++ [byte]⟩
  else ⟨{ x.bw with byte := byte, mask := mask }, x.out⟩

/-- PutBit of each bit in turn. -/
def putBits : List Bool → Writer → Writer
  | [], x => x
  | v :: vs, x => putBits vs (putBit v x)

/-- The low `n` bits of a code, bit n-1 first (R8, R201). -/
def codeBitsMsb (code : Nat) : Nat → List Bool
  | 0 => []
  | n + 1 => code.testBit n :: codeBitsMsb code n

/-- PutCodeBits(code, n) (R201). -/
def putCodeBits (code n : Nat) (x : Writer) : Writer := putBits (codeBitsMsb code n) x

/-- BW_FLUSH's pseudocode (R206). -/
def flushWriter (x : Writer) : Writer :=
  if x.bw.mask = 0x80 then x
  else ⟨{ x.bw with byte := 0, mask := 0x80 }, x.out ++ [x.bw.byte]⟩

/-- Run a writer operation on the block's writer; the bytes it emits go to the port BW_PORT selects (R202). -/
def State.runWriter (s : State) (f : Writer → Writer) : State :=
  { s.sink s.bw.port (f ⟨s.bw, []⟩).out with bw := (f ⟨s.bw, []⟩).bw }

/-- How many bytes a writer operation emits. -/
def State.emitted (s : State) (f : Writer → Writer) : Nat := (f ⟨s.bw, []⟩).out.length

/-! ### Reader primitives -/

/-- The bit reader together with the source bytes still to come. -/
structure Reader where
  br : BitReader
  src : List Byte
  deriving DecidableEq, Repr

/-- Take one bit of the current byte (R207, from `if (BR_BYTE AND BR_MASK)` on). -/
def takeBit (x : Reader) : Bool × Reader :=
  let bit := x.br.byte &&& x.br.mask != 0
  let zrun := if bit then 0 else if x.br.zrun = BitVec.allOnes 32 then x.br.zrun else x.br.zrun + 1
  (bit, ⟨{ x.br with mask := x.br.mask >>> 1, zrun := zrun }, x.src⟩)

/-- GetBit() (R207); `none` is EOF, which is sticky (R208). -/
def getBit (x : Reader) : Option Bool × Reader :=
  if x.br.eof then (none, x)
  else if x.br.mask = 0 then
    match x.src with
    | [] => (none, ⟨{ x.br with eof := true }, []⟩)
    | r :: rest =>
      let t := takeBit ⟨{ x.br with byte := r, mask := 0x80 }, rest⟩
      (some t.1, t.2)
  else
    let t := takeBit x
    (some t.1, t.2)

/-- An upper bound of the bits GetBit can still return: 8 for the current byte and 8 for each byte to come. -/
def Reader.bitsLeft (x : Reader) : Nat := 8 + 8 * x.src.length

/-- The first loop of Sync (R209); the fuel counts GetBit calls. -/
def syncZeros : Nat → Reader → Bool × Reader
  | 0, x => (false, x)
  | k + 1, x =>
    if Config.faxEolZeros ≤ x.br.zrun.toNat then (true, x)
    else
      match getBit x with
      | (none, y) => (false, y)
      | (some _, y) => syncZeros k y

/-- The second loop of Sync (R209): read until a 1 bit. -/
def syncOne : Nat → Reader → Bool × Reader
  | 0, x => (false, x)
  | k + 1, x =>
    match getBit x with
    | (none, y) => (false, y)
    | (some true, y) => (true, y)
    | (some false, y) => syncOne k y

/-- Sync() (R209): `true` is SYNCED, `false` is EOF. The source is finite, so the fuel never ends a loop (R621). -/
def syncReader (x : Reader) : Bool × Reader :=
  match syncZeros (x.bitsLeft + 2) x with
  | (false, y) => (false, y)
  | (true, y) => syncOne (y.bitsLeft + 2) y

/-- The block's reader and its source. -/
def State.reader (s : State) : Reader := ⟨s.br, s.ports.src⟩

/-- The state with the reader and source after a reader operation. -/
def State.setReader (s : State) (x : Reader) : State :=
  { s with br := x.br, ports := { s.ports with src := x.src } }

/-! ### Commands -/

/-- BW_INIT's pseudocode (R203). -/
def State.initWriter (s : State) (port : Port) : State := { s with bw := ⟨0, 0x80, port⟩ }

/-- BR_INIT's pseudocode (R210). -/
def State.initReader (s : State) : State := { s with br := ⟨0, 0, false, 0⟩ }

/-- BW_INIT (R203). -/
def execBwInit (port : Port) (s : State) : Outcome State Fault Refusal :=
  runCmd .seq 0x08 (fun s => .normal (s.initWriter port)) s

/-- BW_PUT_BIT (R204). -/
def execBwPutBit (bit : Bool) (s : State) : Outcome State Fault Refusal :=
  runCmd .seq 0x09 (fun s => .normal (s.runWriter (putBit bit))) s

/-- BW_PUT_CODE (R205). -/
def execBwPutCode (len : BitVec 6) (s : State) : Outcome State Fault Refusal :=
  runCmd .seq 0x0A (fun s =>
    if len.toNat = 0 ∨ 32 < len.toNat then .raised .option s
    else .normal (s.runWriter (putCodeBits (s.argVal 0).toNat len.toNat))) s

/-- BW_FLUSH (R206). -/
def execBwFlush (s : State) : Outcome State Fault Refusal :=
  runCmd .seq 0x0B (fun s => .normal (s.runWriter flushWriter)) s

/-- BR_INIT (R210). -/
def execBrInit (s : State) : Outcome State Fault Refusal :=
  runCmd .seq 0x0C (fun s => .normal s.initReader) s

/-- RES0's code of what GetBit returned (R211). -/
def bitResult : Option Bool → DWord
  | some false => 0
  | some true => 1
  | none => 2

/-- BR_GET_BIT (R211). -/
def execBrGetBit (s : State) : Outcome State Fault Refusal :=
  runCmd .seq 0x0D (fun s =>
    .normal ((s.setReader (getBit s.reader).2).setRes0 (bitResult (getBit s.reader).1))) s

/-- BR_SYNC (R213). -/
def execBrSync (s : State) : Outcome State Fault Refusal :=
  runCmd .seq 0x0E (fun s =>
    .normal ((s.setReader (syncReader s.reader).2).setRes0 (if (syncReader s.reader).1 then 1 else 0))) s

end Sys2Proof.Machine
end

