-- ==== Sys2Proof/Machine/Control.lean ====
section
/-! DEFINITION. The control commands (R520 to R522). -/

namespace Sys2Proof.Machine

open Host

/-- NOP (R520). -/
def execNop (s : State) : Outcome State Fault Refusal := runCmd .seq 0x00 .normal s

/-- CLR_STATUS (R522): the sticky bits of STATUS. -/
def execClrStatus (s : State) : Outcome State Fault Refusal :=
  runCmd .seq 0x01 (fun s => .normal { s with status := { s.status with stickyErr := false, haz := false } }) s

/-- CTRL_WRITE (R521): `CTRL <- zext_32(IMM[1:0])`. -/
def execCtrlWrite (ctrl : BitVec 2) (s : State) : Outcome State Fault Refusal :=
  runCmd .seq 0x02 (fun s => .normal { s with ctrl := ctrl.setWidth 32 }) s

end Sys2Proof.Machine
end

