-- ==== Sys2Proof/Machine/FaxTables.lean ====
section
/-! DEFINITION. The fax code tables (R230 to R235), the hash tables and FAX_BUILD_HASH, FAX_LOOKUP (R236 to R240). -/

namespace Sys2Proof.Machine

open Host

/-- The rows of a table from (length, value) pairs in table order: the runs go up from `start` by `step`. -/
def tableRows (t : FaxTable) (start step : Nat) : List (Nat × Nat) → List FaxRow
  | [] => []
  | (len, value) :: rest => ⟨t, start, len, value⟩ :: tableRows t (start + step) step rest

/-- (length, value) of the terminating white codes TW, runs rising (R231). -/
def twCodes : List (Nat × Nat) :=
  [(8, 53), (6, 7), (4, 7), (4, 8), (4, 11), (4, 12), (4, 14), (4, 15),
   (5, 19), (5, 20), (5, 7), (5, 8), (6, 8), (6, 3), (6, 52), (6, 53),
   (6, 42), (6, 43), (7, 39), (7, 12), (7, 8), (7, 23), (7, 3), (7, 4),
   (7, 40), (7, 43), (7, 19), (7, 36), (7, 24), (8, 2), (8, 3), (8, 26)] ++
  [(8, 27), (8, 18), (8, 19), (8, 20), (8, 21), (8, 22), (8, 23), (8, 40),
   (8, 41), (8, 42), (8, 43), (8, 44), (8, 45), (8, 4), (8, 5), (8, 10),
   (8, 11), (8, 82), (8, 83), (8, 84), (8, 85), (8, 36), (8, 37), (8, 88),
   (8, 89), (8, 90), (8, 91), (8, 74), (8, 75), (8, 50), (8, 51), (8, 52)]

/-- TW (R231). -/
def twRows : List FaxRow := tableRows .tw 0 1 twCodes

/-- (length, value) of the terminating black codes TB, runs rising (R232). -/
def tbCodes : List (Nat × Nat) :=
  [(10, 55), (3, 2), (2, 3), (2, 2), (3, 3), (4, 3), (4, 2), (5, 3),
   (6, 5), (6, 4), (7, 4), (7, 5), (7, 7), (8, 4), (8, 7), (9, 24),
   (10, 23), (10, 24), (10, 8), (11, 103), (11, 104), (11, 108), (11, 55), (11, 40),
   (11, 23), (11, 24), (12, 202), (12, 203), (12, 204), (12, 205), (12, 104), (12, 105)] ++
  [(12, 106), (12, 107), (12, 210), (12, 211), (12, 212), (12, 213), (12, 214), (12, 215),
   (12, 108), (12, 109), (12, 218), (12, 219), (12, 84), (12, 85), (12, 86), (12, 87),
   (12, 100), (12, 101), (12, 82), (12, 83), (12, 36), (12, 55), (12, 56), (12, 39),
   (12, 40), (12, 88), (12, 89), (12, 43), (12, 44), (12, 90), (12, 102), (12, 103)]

/-- TB (R232). -/
def tbRows : List FaxRow := tableRows .tb 0 1 tbCodes

/-- (length, value) of the make-up white codes MW, runs rising (R233). -/
def mwCodes : List (Nat × Nat) :=
  [(5, 27), (5, 18), (6, 23), (7, 55), (8, 54), (8, 55), (8, 100), (8, 101),
   (8, 104), (8, 103), (9, 204), (9, 205), (9, 210), (9, 211), (9, 212), (9, 213),
   (9, 214), (9, 215), (9, 216), (9, 217), (9, 218), (9, 219), (9, 152), (9, 153),
   (9, 154), (6, 24), (9, 155)]

/-- MW (R233). -/
def mwRows : List FaxRow := tableRows .mw 64 64 mwCodes

/-- (length, value) of the make-up black codes MB, runs rising (R234). -/
def mbCodes : List (Nat × Nat) :=
  [(10, 15), (12, 200), (12, 201), (12, 91), (12, 51), (12, 52), (12, 53), (13, 108),
   (13, 109), (13, 74), (13, 75), (13, 76), (13, 77), (13, 114), (13, 115), (13, 116),
   (13, 117), (13, 118), (13, 119), (13, 82), (13, 83), (13, 84), (13, 85), (13, 90),
   (13, 91), (13, 100), (13, 101)]

/-- MB (R234). -/
def mbRows : List FaxRow := tableRows .mb 64 64 mbCodes

/-- (length, value) of the extension codes EX, runs rising (R235). -/
def exCodes : List (Nat × Nat) :=
  [(11, 8), (11, 12), (11, 13), (12, 18), (12, 19), (12, 20), (12, 21), (12, 22),
   (12, 23), (12, 28), (12, 29), (12, 30), (12, 31)]

/-- EX (R235). -/
def exRows : List FaxRow := tableRows .ex 1792 64 exCodes

/-- The white code set TW, MW, EX in building order (R230, R236). -/
def whiteRows : List FaxRow := twRows ++ mwRows ++ exRows

/-- The black code set TB, MB, EX in building order (R230, R236). -/
def blackRows : List FaxRow := tbRows ++ mbRows ++ exRows

/-- A row of TW or TB closes a run; a row of MW, MB or EX extends it (R230). -/
def FaxRow.terminating (e : FaxRow) : Bool :=
  match e.table with
  | .tw | .tb => true
  | .mw | .mb | .ex => false

/-- Slot(len, code, A, B) (R236). -/
def hashSlot (len code a b : Nat) : Nat := ((len + a) * (code + b)) % Config.faxHashSize

/-- Slot under a colour's constants (R7, R236). -/
def colourSlot (c : Colour) (len code : Nat) : Nat :=
  match c with
  | .white => hashSlot len code Config.whiteHashA Config.whiteHashB
  | .black => hashSlot len code Config.blackHashA Config.blackHashB

/-- A hash table built from a code set, later rows replacing earlier ones (R236). -/
def buildTable (c : Colour) (rows : List FaxRow) : List (Nat × FaxRow) :=
  rows.foldl (fun t e => tabSet t (colourSlot c e.length e.value) e) []

/-- Lookup(colour, len, code) in that colour's table, with the equality check (R237). -/
def lookupRow (c : Colour) (t : List (Nat × FaxRow)) (len code : Nat) : Option FaxRow :=
  match tabGet t (colourSlot c len code) with
  | some e => if e.length = len ∧ e.value = code then some e else none
  | none => none

/-- The hash table of a colour. -/
def State.hashOf (s : State) (c : Colour) : List (Nat × FaxRow) :=
  match c with
  | .white => s.faxWhash
  | .black => s.faxBhash

/-- FAX_BUILD_HASH's pseudocode (R236), which FAX_DECODE also performs. -/
def buildHash (s : State) : CmdEnd :=
  let t := s.tookAlloc .faxHash (2 * Config.faxHashSize)
  if s.ports.nextAlloc then
    .normal { t with faxWhash := buildTable .white whiteRows, faxBhash := buildTable .black blackRows }
  else .raised .resourceLimit t

/-- FAX_BUILD_HASH (R236). -/
def execFaxBuildHash (s : State) : Outcome State Fault Refusal := runCmd .seq 0x10 buildHash s

/-- What FAX_LOOKUP writes to RES0 .. RES2 (R238); RES3 keeps its value. -/
def lookupResults (r : Results) : Option FaxRow → Results
  | none => ⟨0, 0, 0, r.r3⟩
  | some e => ⟨1, if e.terminating then 0 else 1, BitVec.ofNat 64 e.run, r.r3⟩

/-- FAX_LOOKUP (R238). While every slot is EMPTY, as after reset, every lookup answers "not found" whatever its operands
(R238, R603; 95_test_vectors.md 3.13). -/
def execFaxLookup (colour : Colour) (s : State) : Outcome State Fault Refusal :=
  runCmd .seq 0x11 (fun s =>
    let e := lookupRow colour (s.hashOf colour) (s.argVal 1).toNat (s.argVal 0).toNat
    .normal { s with res := lookupResults s.res e }) s

end Sys2Proof.Machine
end

