-- ==== Sys2Proof/Machine/Rescale.lean ====
section
/-! DEFINITION. The IEEE 754 interchange conversions (R13, R395) and the sample rescaler (R390 to R396). -/

namespace Sys2Proof.Machine

open Host

/-! ### Binary floating point -/

/-- `2 ^ e` as an exact rational. -/
def pow2 (e : Int) : Rat := if 0 ≤ e then ((2 ^ e.toNat : Nat) : Rat) else 1 / ((2 ^ (-e).toNat : Nat) : Rat)

/-- What a pattern with `eb` exponent bits and `mb` fraction bits denotes (R13). -/
def fromBinary (eb mb bits : Nat) : FpVal :=
  let negative := bits.testBit (eb + mb)
  let e := bits / 2 ^ mb % 2 ^ eb
  let f := bits % 2 ^ mb
  let bias : Int := 2 ^ (eb - 1) - 1
  if e = 2 ^ eb - 1 then (if f = 0 then .inf negative else .nan)
  else
    let mag : Rat :=
      if e = 0 then (f : Rat) * pow2 (1 - bias - mb) else ((2 ^ mb + f : Nat) : Rat) * pow2 ((e : Int) - bias - mb)
    .real (if negative then -mag else mag)

/-- The integer nearest to `n / d`, ties to even (R13). -/
def roundEven (n d : Nat) : Nat :=
  let q := n / d
  let r := n % d
  if d < 2 * r ∨ (2 * r = d ∧ q % 2 = 1) then q + 1 else q

/-- `floor(log2 (n / d))` for positive n and d. -/
def ratLog2 (n d : Nat) : Int :=
  let k : Int := (n.log2 : Int) - d.log2
  let below : Bool := if 0 ≤ k then n < d * 2 ^ k.toNat else n * 2 ^ (-k).toNat < d
  if below then k - 1 else k

/-- toBinaryN(x) (R13): round to nearest, ties to even, overflow to infinity of the sign of x. The sign
bit of the zero that a negative x rounds to is a free value (log entry 14). -/
def toBinary (eb mb : Nat) (x : Rat) : Nat :=
  let n := x.num.natAbs
  let d := x.den
  if n = 0 then 0
  else
    let bias : Int := 2 ^ (eb - 1) - 1
    let emin : Int := 1 - bias
    let e := max (ratLog2 n d) emin
    let u := e - mb
    let sig := if 0 ≤ u then roundEven n (d * 2 ^ u.toNat) else roundEven (n * 2 ^ (-u).toNat) d
    let field := min ((e - emin).toNat * 2 ^ mb + sig) ((2 ^ eb - 1) * 2 ^ mb)
    let negative : Bool := if field = 0 then Config.freeZeroSign eb mb x else true
    if x.num < 0 ∧ negative then 2 ^ (eb + mb) + field else field

/-- fromBinary64 of a register (R13, R92). -/
def f64 (b : DWord) : FpVal := fromBinary 11 52 b.toNat

/-- toBinary64 into a register (R13, R92). -/
def toF64 (x : Rat) : DWord := BitVec.ofNat 64 (toBinary 11 52 x)

/-! ### The internal domain -/

/-- ToInternal(x) (R391). -/
def toInternal (p : Params) : FpVal → Rat
  | .nan => 0
  | .inf false => p.range
  | .inf true => 0
  | .real x => if p.hdri then x else ((min (max (x + 1 / 2).floor 0) p.range : Int) : Rat)

/-- The law of R61 on a sample the pixel port gives: with HDRI = false an integer in 0 .. RANGE. -/
def sampleLaw (p : Params) (x : Rat) : Rat := toInternal p (.real x)

/-- The law of R61 on an intensity: in [0, RANGE], and an integer with HDRI = false. -/
def intensityLaw (p : Params) (x : Rat) : Rat := min (max (toInternal p (.real x)) 0) p.range

/-! ### The sample maps, `q` the descriptor -/

/-- ExportUnsigned(v), depth d (R393). With RANGE = 0 its quotient is a free value (log entry 15). -/
def exportUnsigned (p : Params) (d : Nat) (v : Rat) : Nat :=
  let m : Nat := 2 ^ d - 1
  let y : Rat := if p.range = 0 then Config.freeQuotient d v else v * m / p.range
  (min (max (y + 1 / 2).floor 0) m).toNat

/-- ImportUnsigned(u), depth d (R393). -/
def importUnsigned (p : Params) (d u : Nat) : Rat :=
  let m : Nat := 2 ^ d - 1
  toInternal p (.real ((u : Rat) * p.range / m))

/-- The d-bit code of a real in the float format of depth d (R394, R395). A depth that is no float depth cannot occur
(R353); its code is the free value. -/
def floatCode (q : Descriptor) (d : Nat) (y : Rat) : Nat :=
  if d = 16 then toBinary 5 10 y
  else if d = 24 then (Config.fp24Encode y).toNat
  else if d = 32 then toBinary 8 23 y
  else if d = 64 then toBinary 11 52 y
  else Config.freeFloatCode d y q.invScale q.minimum % 2 ^ d

/-- What a d-bit float code denotes (R394, R395). -/
def floatVal (q : Descriptor) (d u : Nat) : FpVal :=
  if d = 16 then fromBinary 5 10 u
  else if d = 24 then Config.fp24Decode (BitVec.ofNat 24 u)
  else if d = 32 then fromBinary 8 23 u
  else if d = 64 then fromBinary 11 52 u
  else .real (Config.freeFloatReal d u q.scale q.minimum)

/-- ExportFloat(v) (R394). The spec's `v * i + m` is a real only when Q_INV_SCALE and Q_MINIMUM denote reals; else the
code is the free value (log entry 12). -/
def exportFloat (q : Descriptor) (d : Nat) (v : Rat) : Nat :=
  if f64 q.scale = .real 0 then floatCode q d v
  else
    match f64 q.invScale, f64 q.minimum with
    | .real i, .real m => floatCode q d (v * i + m)
    | _, _ => Config.freeFloatCode d v q.invScale q.minimum % 2 ^ d

/-- ImportFloat(u) (R394). The spec's `(f - m) * s` is a real only when Q_SCALE and Q_MINIMUM denote reals; else the
sample is the free value, brought into the internal domain (log entry 12). -/
def importFloat (p : Params) (q : Descriptor) (d u : Nat) : Rat :=
  match floatVal q d u with
  | .real f =>
    if f64 q.scale = .real 0 then toInternal p (.real f)
    else
      match f64 q.scale, f64 q.minimum with
      | .real s, .real m => toInternal p (.real ((f - m) * s))
      | _, _ => toInternal p (.real (Config.freeFloatReal d u q.scale q.minimum))
  | x => toInternal p x

/-- ExportSample(v) (R392). The Signed map is the parameter SIGNED_MAP, kept in 0 .. 2^d - 1 (R396). -/
def exportSample (p : Params) (q : Descriptor) (v : Rat) : Nat :=
  if q.format = 0 then exportUnsigned p q.depth.toNat v
  else if q.format = 2 then exportFloat q q.depth.toNat v
  else Config.signedExport p q.depth.toNat v % 2 ^ q.depth.toNat

/-- ImportSample(u) (R392). The Signed map's result is an internal sample (R396). -/
def importSample (p : Params) (q : Descriptor) (u : Nat) : Rat :=
  if q.format = 0 then importUnsigned p q.depth.toNat u
  else if q.format = 2 then importFloat p q q.depth.toNat u
  else toInternal p (.real (Config.signedImport p q.depth.toNat u))

/-- The inversion `RANGE - v` (R401, R402, R430). -/
def invertSample (p : Params) (v : Rat) : Rat := p.range - v

/-! ### Single-sample commands -/

/-- RS_EXPORT (R430). -/
def execRsExport (invert : Bool) (s : State) : Outcome State Fault Refusal :=
  runCmd .seq 0x48 (fun s =>
    needDescriptor s <|
      let v := toInternal s.params (f64 (s.argVal 0))
      let v := if invert then invertSample s.params v else v
      .normal (s.setRes0 (BitVec.ofNat 64 (exportSample s.params s.q v)))) s

/-- RS_IMPORT (R431). -/
def execRsImport (invert : Bool) (s : State) : Outcome State Fault Refusal :=
  runCmd .seq 0x49 (fun s =>
    needDescriptor s <|
      let v := importSample s.params s.q ((s.argVal 0).toNat % 2 ^ s.q.depth.toNat)
      let v := if invert then invertSample s.params v else v
      .normal (s.setRes0 (toF64 v))) s

end Sys2Proof.Machine
end

