-- ==== Sys2Proof/Machine/FaxCodec.lean ====
section
/-! DEFINITION. The Group-3 fax encoder and decoder (43_fax_codec.md). -/

namespace Sys2Proof.Machine

open Host

/-! ### Encoder -/

/-- Binarize(I) (R260): `true` is black. -/
def binarize (p : Params) (i : Rat) : Bool := !decide ((p.range : Rat) ≤ 2 * i)

/-- T[r], the terminating row of a run below 64 (R261). -/
def termRow (c : Colour) (r : Nat) : FaxRow :=
  match c with
  | .white => twRows.getD r ⟨.tw, 0, 0, 0⟩
  | .black => tbRows.getD r ⟨.tb, 0, 0, 0⟩

/-- The make-up or extension row a run of 64 or more sends next (R261). -/
def makeupRow (c : Colour) (r : Nat) : FaxRow :=
  if r < 1792 then
    match c with
    | .white => mwRows.getD (r / 64 - 1) ⟨.mw, 64, 0, 0⟩
    | .black => mbRows.getD (r / 64 - 1) ⟨.mb, 64, 0, 0⟩
  else exRows.getD ((min r 2560 - 1792) / 64) ⟨.ex, 64, 0, 0⟩

/-- The rows EmitRun sends for a run of `r` pixels (R261); the fuel bounds the make-up codes. -/
def runRows (c : Colour) : Nat → Nat → List FaxRow
  | 0, r => [termRow c r]
  | k + 1, r => if r < 64 then [termRow c r] else makeupRow c r :: runRows c k (r - (makeupRow c r).run)

/-- PutCodeBits of each row's code in turn. -/
def putRows : List FaxRow → Writer → Writer
  | [], x => x
  | e :: es, x => putRows es (putCodeBits e.value e.length x)

/-- EmitRun(colour, r) (R261). -/
def emitRun (c : Colour) (r : Nat) (x : Writer) : Writer := putRows (runRows c r r) x

/-- The length of the leading run of `v`, and what follows it. -/
def spanRun (v : Bool) : List Bool → Nat × List Bool
  | [] => (0, [])
  | b :: bs => if b = v then ((spanRun v bs).1 + 1, (spanRun v bs).2) else (0, b :: bs)

/-- The alternating runs of a row, white first (R263). -/
def rowRuns : Nat → List Bool → List (Colour × Nat)
  | 0, _ => []
  | _, [] => []
  | k + 1, scan =>
    let w := spanRun false scan
    match w.2 with
    | [] => [(.white, w.1)]
    | _ :: _ => (.white, w.1) :: (.black, (spanRun true w.2).1) :: rowRuns k (spanRun true w.2).2

/-- EmitRun of each run in turn. -/
def emitRuns : List (Colour × Nat) → Writer → Writer
  | [], x => x
  | (c, r) :: rs, x => emitRuns rs (emitRun c r x)

/-- EncodeRow(C) on the row FAX_SCAN holds (R263). -/
def encodeRow (scan : List Bool) (x : Writer) : Writer := emitRuns (rowRuns scan.length scan) x

/-- An EOL, `PutCodeBits(1, 12)` (R264). -/
def putEol (x : Writer) : Writer := putCodeBits 1 12 x

/-- `n` EOLs in a row. -/
def putEols : Nat → Writer → Writer
  | 0, x => x
  | n + 1, x => putEols n (putEol x)

/-- `GetIntensity(y, x)` for `x = x0 .. x0 + n - 1` (R262): the answers and the ports after them. -/
def askIntensities (p : Params) (y : Nat) : Nat → Nat → Ports → List Rat × Ports
  | 0, _, ports => ([], ports)
  | n + 1, x, ports =>
    let r := askIntensities p y n (x + 1) (ports.tookSample (.getIntensity y x))
    (intensityLaw p ports.nextSample :: r.1, r.2)

/-- FAX_SCAN <- the binarized row y of C pixels (R262). -/
def State.scanRow (s : State) (y c : Nat) : State :=
  { s with
    faxScan := (askIntensities s.params y c 0 s.ports).1.map (binarize s.params)
    ports := (askIntensities s.params y c 0 s.ports).2 }

/-- The rows of FAX_ENCODE (R262): `k` rows left, row `y` next, `n` bytes sent so far. -/
def faxEncodeRows (c total : Nat) : Nat → Nat → Nat → State → CmdEnd
  | 0, _, n, s =>
    let f := fun x => flushWriter (putEols Config.faxRtcEols x)
    .normal ((s.runWriter f).setRes0 (countRes (n + s.emitted f)))
  | k + 1, y, n, s =>
    if s.ports.nextRow then
      let s := (s.tookRow y).scanRow y c
      let f := fun x => putEol (encodeRow s.faxScan x)
      let n := n + s.emitted f
      let s := s.runWriter f
      if s.ports.nextProgress then faxEncodeRows c total k (y + 1) n (s.tookProgress 0x12 y total)
      else
        let s := s.tookProgress 0x12 y total
        .cancelled ((s.runWriter flushWriter).setRes0 (countRes (n + s.emitted flushWriter)))
    else .raised .resourceLimit ((s.tookRow y).setRes0 (countRes n))

/-- FAX_SCAN ceases to exist with its command (R46). -/
def State.dropScan (s : State) : State := { s with faxScan := [] }

/-- FAX_ENCODE's pseudocode (R262). -/
def faxEncodeBody (port : Port) (s : State) : CmdEnd :=
  let c := (s.argVal 0).toNat
  let r := (s.argVal 1).toNat
  if c = 0 ∨ r = 0 then .raised .option s
  else if s.ports.nextAlloc then
    let s := ((s.tookAlloc .faxScan c).initWriter port)
    (faxEncodeRows c r r 0 (s.emitted putEol) (s.runWriter putEol)).mapState State.dropScan
  else .raised .resourceLimit (s.tookAlloc .faxScan c)

/-- FAX_ENCODE (R262). -/
def execFaxEncode (port : Port) (s : State) : Outcome State Fault Refusal :=
  runCmd .seq 0x12 (faxEncodeBody port) s

/-! ### Decoder -/

/-- How DecodeLine returns (R271). -/
inductive LineEnd where
  | line
  | nullLine
  | eof
  deriving DecidableEq, Repr

/-- DecodeLine's local state (R271). -/
structure LineState where
  scan : List Bool
  colour : Colour
  code : Nat
  len : Nat
  count : Nat
  x : Nat
  rd : Reader
  deriving DecidableEq, Repr

/-- The other colour (R272). -/
def Colour.other : Colour → Colour
  | .white => .black
  | .black => .white

/-- FAX_SCAN with the pixels `x .. x + n - 1` black. -/
def blacken (scan : List Bool) (x n : Nat) : List Bool :=
  scan.take x ++ List.replicate n true ++ scan.drop (x + n)

/-- ResolveCode(e), then `code <- 0; len <- 0` (R272, R271). -/
def resolveCode (c : Nat) (e : FaxRow) (l : LineState) : LineState :=
  if e.terminating then
    let count := min (l.count + e.run) (c - l.x)
    { l with
      scan := if l.colour = .black then blacken l.scan l.x count else l.scan
      x := l.x + count, count := 0, colour := Colour.other l.colour, code := 0, len := 0 }
  else { l with count := l.count + e.run, code := 0, len := 0 }

/-- A line ended by an EOL or a resync: null when it stands at column 0 (R271, R273, R274). -/
def lineEndAt (x : Nat) : LineEnd := if x = 0 then .nullLine else .line

/-- The loop of DecodeLine(C), one bit a turn (R271); `look` is Lookup in the two hash tables. -/
def decodeLoop (c : Nat) (look : Colour → Nat → Nat → Option FaxRow) : Nat → LineState → LineEnd × LineState
  | 0, l => (.eof, l)
  | k + 1, l =>
    if c ≤ l.x then
      ((if (syncReader l.rd).1 then .line else .eof), { l with rd := (syncReader l.rd).2 })
    else
      match getBit l.rd with
      | (none, rd) => (.eof, { l with rd := rd })
      | (some b, rd) =>
        if Config.faxEolZeros ≤ l.rd.br.zrun.toNat ∧ b = true then (lineEndAt l.x, { l with rd := rd })
        else
          let l := { l with code := 2 * l.code + b.toNat, len := l.len + 1, rd := rd }
          if l.code = 0 then decodeLoop c look k l
          else if Config.faxMaxCodeLen < l.len then
            ((if (syncReader l.rd).1 then lineEndAt l.x else .eof), { l with rd := (syncReader l.rd).2 })
          else
            match look l.colour l.len l.code with
            | none => decodeLoop c look k l
            | some e => decodeLoop c look k (resolveCode c e l)

/-- DecodeLine(C) (R271). -/
def decodeLine (c : Nat) (look : Colour → Nat → Nat → Option FaxRow) (rd : Reader) : LineEnd × LineState :=
  decodeLoop c look (rd.bitsLeft + 2) ⟨List.replicate c false, .white, 0, 0, 0, 0, rd⟩

/-- Lookup in the block's hash tables (R237). -/
def State.look (s : State) (c : Colour) (len code : Nat) : Option FaxRow := lookupRow c (s.hashOf c) len code

/-- The PutBilevel writes of row `y` from column `x` on (R270). -/
def bilevelWrites (y : Nat) : Nat → List Bool → List PixWrite
  | _, [] => []
  | x, b :: bs => .bilevel y x b :: bilevelWrites y (x + 1) bs

/-- Commit FAX_SCAN as row `y` (R270). -/
def State.commitRow (s : State) (y : Nat) : State :=
  { s with ports := { s.ports with pixOut := s.ports.pixOut ++ bilevelWrites y 0 s.faxScan } }

/-- The state after DecodeLine: FAX_SCAN, the reader and the source. -/
def State.afterLine (s : State) (l : LineState) : State := { s.setReader l.rd with faxScan := l.scan }

/-- The metadata of a decode's normal end (R276). -/
def faxDone (y null : Nat) : Results :=
  ⟨BitVec.ofNat 64 (max (y - null) 1), BitVec.ofNat 64 Config.faxXres, BitVec.ofNat 64 Config.faxYres, 1⟩

/-- The row loop of FAX_DECODE (R270): `k` rows left of `total`, `y` committed, `null` trailing null lines. Progress is
asked with the number of rows committed, the one just decoded included. -/
def faxDecodeRows (c total : Nat) : Nat → Nat → Nat → State → CmdEnd
  | 0, y, null, s => .normal { s with res := faxDone y null }
  | k + 1, y, null, s =>
    if Config.faxNullLines ≤ null then .normal { s with res := faxDone y null }
    else
      let r := decodeLine c s.look s.reader
      let s := s.afterLine r.2
      if r.1 = .eof then .raised .corruptImage (s.setRes0 (BitVec.ofNat 64 y))
      else if s.ports.nextRow then
        let null := if r.1 = .nullLine then null + 1 else 0
        let s := (s.tookRow y).commitRow y
        if s.ports.nextProgress then faxDecodeRows c total k (y + 1) null (s.tookProgress 0x13 (y + 1) total)
        else .cancelled ((s.tookProgress 0x13 (y + 1) total).setRes0 (BitVec.ofNat 64 (y + 1)))
      else .raised .resourceLimit ((s.tookRow y).setRes0 (BitVec.ofNat 64 y))

/-- FAX_DECODE's pseudocode after its allocations (R270). -/
def faxDecodePage (c m : Nat) (s : State) : CmdEnd :=
  let s := { s.initReader with res := ⟨0, 0, 0, 0⟩ }
  let r := syncReader s.reader
  if r.1 then faxDecodeRows c m m 0 0 (s.setReader r.2)
  else .raised .corruptImage (s.setReader r.2)

/-- FAX_DECODE's pseudocode (R270). -/
def faxDecodeBody (s : State) : CmdEnd :=
  let c := (s.argVal 0).toNat
  let m := (s.argVal 1).toNat
  if c = 0 ∨ m = 0 then .raised .option s
  else (buildHash s).andThen fun s =>
    if s.ports.nextAlloc then (faxDecodePage c m (s.tookAlloc .faxScan c)).mapState State.dropScan
    else .raised .resourceLimit (s.tookAlloc .faxScan c)

/-- FAX_DECODE (R270). -/
def execFaxDecode (s : State) : Outcome State Fault Refusal := runCmd .seq 0x13 faxDecodeBody s

end Sys2Proof.Machine
end

