-- ==== Sys2Proof/Machine/LzwCodec.lean ====
section
/-! DEFINITION. The LZW encoder (44_lzw.md). -/

namespace Sys2Proof.Machine

open Host

/-- The Clear code (R301). -/
def lzwClear : Nat := 256
/-- The End-of-data code (R301). -/
def lzwEnd : Nat := 257
/-- The first code AddEntry uses (R301). -/
def lzwFirst : Nat := 258

/-- The LZW registers together with the bytes the encoder has sent, first byte first. -/
structure LzwRun where
  z : Lzw
  out : List Byte
  deriving DecidableEq, Repr

/-- LZW_ENTRY[j]; an entry nothing has written holds an unspecified value that no rule reads (R43). -/
def Lzw.get (z : Lzw) (j : Nat) : LzwEntry := (tabGet z.entry j).getD ⟨none, 0, none⟩

/-- The entries InitTable seeds (R301). -/
def lzwSeeds : List (Nat × LzwEntry) := (List.range 256).map fun j => (j, ⟨none, BitVec.ofNat 8 j, none⟩)

/-- InitTable() (R301). Entries past 255 keep their values. -/
def lzwInitTable (z : Lzw) : Lzw :=
  { z with entry := lzwSeeds ++ z.entry.filter (fun e => decide (256 ≤ e.1)), nextCode := lzwFirst }

/-- FindChild's walk of the chain from `j` (R302); the fuel bounds the entries visited. -/
def lzwWalk (z : Lzw) (q : Nat) (c : Byte) : Nat → Option Nat → Option Nat
  | 0, _ => none
  | _, none => none
  | k + 1, some j =>
    if (z.get j).pre = some q ∧ (z.get j).suffix = c then some j else lzwWalk z q c k (z.get j).next

/-- FindChild(q, c) (R302). A chain visits each of the 4096 entries at most once. -/
def lzwFindChild (z : Lzw) (q : Nat) (c : Byte) : Option Nat := lzwWalk z q c (Config.lzwTableSize + 1) (some q)

/-- AddEntry(q, c) (R303). -/
def lzwAddEntry (z : Lzw) (q : Nat) (c : Byte) : Lzw :=
  let e := tabSet z.entry z.nextCode ⟨some q, c, (z.get q).next⟩
  let parent : LzwEntry := (tabGet e q).getD ⟨none, 0, none⟩
  { z with entry := tabSet e q { parent with next := some z.nextCode }, nextCode := z.nextCode + 1 }

/-- The `while LZW_NBITS >= 8` loop of OutCode (R305); the fuel is LZW_NBITS. -/
def lzwDrain : Nat → LzwRun → LzwRun
  | 0, x => x
  | k + 1, x =>
    if 8 ≤ x.z.nbits then
      lzwDrain k ⟨{ x.z with acc := x.z.acc <<< 8, nbits := x.z.nbits - 8 }, x.out ++ [x.z.acc.extractLsb' 24 8]⟩
    else x

/-- OutCode(code) (R305). -/
def lzwOutCode (code : Nat) (x : LzwRun) : LzwRun :=
  let z := { x.z with
    acc := x.z.acc + BitVec.ofNat 32 (code <<< (32 - x.z.width - x.z.nbits)), nbits := x.z.nbits + x.z.width }
  lzwDrain z.nbits ⟨z, x.out⟩

/-- FlushAcc() (R305). -/
def lzwFlush (x : LzwRun) : LzwRun :=
  if 0 < x.z.nbits then ⟨x.z, x.out ++ [x.z.acc.extractLsb' 24 8]⟩ else x

/-- The width check after an AddEntry (R304). -/
def lzwGrow (x : LzwRun) : LzwRun :=
  if x.z.nextCode >>> x.z.width = 0 then x
  else if Config.lzwMaxWidth < x.z.width + 1 then
    let y := lzwOutCode lzwClear ⟨{ x.z with width := Config.lzwMaxWidth }, x.out⟩
    ⟨{ lzwInitTable y.z with width := 9 }, y.out⟩
  else ⟨{ x.z with width := x.z.width + 1 }, x.out⟩

/-- One turn of the loop, for the byte `c` (R300). -/
def lzwByte (c : Byte) (x : LzwRun) : LzwRun :=
  match lzwFindChild x.z x.z.last c with
  | some f => ⟨{ x.z with last := f }, x.out⟩
  | none =>
    let y := lzwOutCode x.z.last x
    let y := lzwGrow ⟨lzwAddEntry y.z y.z.last c, y.out⟩
    ⟨{ y.z with last := c.toNat }, y.out⟩

/-- The loop over the bytes after the first (R300). -/
def lzwBytes : List Byte → LzwRun → LzwRun
  | [], x => x
  | c :: cs, x => lzwBytes cs (lzwByte c x)

/-- The start of a stream: the initial table, width 9, an empty accumulator, and Clear (R300, R305). -/
def lzwStart (z : Lzw) : LzwRun :=
  lzwOutCode lzwClear ⟨{ lzwInitTable z with width := 9, acc := 0, nbits := 0 }, []⟩

/-- The whole stream of the bytes `p` (R300, R306), from the registers `z`. -/
def lzwEncode (p : List Byte) (z : Lzw) : LzwRun :=
  match p with
  | [] => lzwFlush (lzwOutCode lzwEnd (lzwStart z))
  | b :: bs =>
    let x := lzwStart z
    let x := lzwBytes bs ⟨{ x.z with last := b.toNat }, x.out⟩
    lzwFlush (lzwOutCode lzwEnd (lzwOutCode x.z.last x))

/-- The checks LZW_ENCODE and PACKBITS_ENCODE share (R300, R330): the hazard, the pool and the range. -/
def bufferChecks (w : BitVec 8) (s : State) (k : Nat → Nat → CmdEnd) : CmdEnd :=
  if (s.wstat w).busy then .raised .hazard s
  else if s.pool.valid = false ∨ s.pool.n ≤ w.toNat then .raised .option s
  else if s.pool.extent.toNat < (s.argVal 0).toNat + (s.argVal 1).toNat then .raised .option s
  else k (s.argVal 0).toNat (s.argVal 1).toNat

/-- LZW_ENCODE's pseudocode (R300). RES0 is the model's choice for a count of 2^64 or more (log entry 30). -/
def lzwEncodeBody (w : BitVec 8) (port : Port) (s : State) : CmdEnd :=
  bufferChecks w s fun o n =>
    let t := s.tookAlloc .lzwTable Config.lzwTableSize
    if s.ports.nextAlloc then
      let r := lzwEncode (scratchRead t.scratch w.toNat o n) t.lzw
      .normal (({ t with lzw := r.z }.sink port r.out).setRes0 (countRes r.out.length))
    else .raised .resourceLimit t

/-- LZW_ENCODE (R300). -/
def execLzwEncode (w : BitVec 8) (port : Port) (s : State) : Outcome State Fault Refusal :=
  runCmd .seq 0x20 (lzwEncodeBody w port) s

end Sys2Proof.Machine
end

