-- ==== Sys2Proof/Machine/PoolOps.lean ====
section
/-! DEFINITION. The scratch buffer pool and its commands (48_scratch_pool.md). -/

namespace Sys2Proof.Machine

open Host

/-- Every guard byte is GUARD_SIGNATURE (R445). -/
def State.guardsIntact (s : State) : Bool :=
  (List.range s.pool.n).all fun b => s.scratchByte b s.pool.extent.toNat == Config.guardSignature

/-- PoolRelease() answers BAD (R445): with CTRL.DEBUG = 1, some guard byte is not intact. -/
def State.guardBad (s : State) : Bool := s.debug && !s.guardsIntact

/-- The state after PoolRelease() (R445): the scratch space is empty and the pool registers are 0. -/
def State.freePool (s : State) : State := { s with scratch := [], pool := Pool.reset }

/-- POOL_N of a fresh pool: `clamp(ThreadLimit(), 1, MAX_WORKERS)` (R442). -/
def State.freshN (s : State) : Nat := min (max s.ports.nextThreads 1) Config.maxWorkers

/-- PoolAcquire(e) (R442). -/
def poolAcquire (e : Nat) (s : State) : CmdEnd :=
  let n := s.freshN
  let s := { s with ports := s.ports.tookThreads }
  if Config.sizeMax < n * (e + 1) then .raised .resourceLimit s
  else
    let t := s.tookAlloc .pool (n * (e + 1))
    if s.ports.nextAlloc then
      .normal { t with pool := ⟨true, n, BitVec.ofNat 64 e⟩, scratch := freshScratch n e }
    else .raised .resourceLimit t

/-- Release the pool there is, if any, and go on with the state after it; a bad guard raises GuardViolation once the
old pool is gone (R353, R441). -/
def releaseThen (s : State) (k : State → CmdEnd) : CmdEnd :=
  if s.pool.valid then
    if s.guardBad then .raised .guardViolation s.freePool else k s.freePool
  else k s

/-- POOL_ACQUIRE's pseudocode (R441). -/
def poolAcquireBody (s : State) : CmdEnd :=
  hazardCheck s <| needDescriptor s <| releaseThen s (poolAcquire (s.argVal 0).toNat)

/-- POOL_ACQUIRE (R441). -/
def execPoolAcquire (s : State) : Outcome State Fault Refusal := runCmd .seq 0x40 poolAcquireBody s

/-- POOL_GET (R443). -/
def execPoolGet (w : BitVec 8) (s : State) : Outcome State Fault Refusal :=
  runCmd .seq 0x41 (fun s =>
    if s.pool.valid = false ∨ s.pool.n ≤ w.toNat then .raised .option s
    else .normal { s with res := { s.res with r0 := w.setWidth 64, r1 := s.pool.extent } }) s

/-- POOL_RELEASE's pseudocode (R444). -/
def poolReleaseBody (s : State) : CmdEnd :=
  hazardCheck s (releaseThen s .normal)

/-- POOL_RELEASE (R444). -/
def execPoolRelease (s : State) : Outcome State Fault Refusal := runCmd .seq 0x42 poolReleaseBody s

end Sys2Proof.Machine
end

