-- ==== Sys2Proof/Machine/Quantum.lean ====
section
/-! DEFINITION. The quantum descriptor commands (46_quantum_config.md). -/

namespace Sys2Proof.Machine

open Host

/-! ### Shared parts -/

/-- The absolute value of what `b` denotes is below EPSILON (R361). -/
def scaleIsTiny (b : DWord) : Bool :=
  match f64 b with
  | .real x => decide (-Config.epsilon < x) && decide (x < Config.epsilon)
  | _ => false

/-- Q_INV_SCALE of a Q_SCALE (R361). For a Q_SCALE that denotes no real, `1 / f64(Q_SCALE)` is not stated and the
result is the free value (log entry 11). -/
def invScaleOf (scale : DWord) : DWord :=
  if scaleIsTiny scale then 0x3FF0000000000000
  else
    match f64 scale with
    | .real x => toF64 (1 / x)
    | _ => Config.freeInvScale scale

/-- ResetState() (R361). -/
def State.resetState (s : State) : State :=
  { s with
    q := { s.q with invScale := invScaleOf s.q.scale }
    waccPixel := Vector.replicate 256 0
    waccBits := Vector.replicate 256 0 }

/-- Q_DEPTH of a request `d` under a format (R353). -/
def depthOf (format : BitVec 2) (d : Nat) : Nat :=
  if format = 2 then (if 32 < d then 64 else if 24 < d then 32 else if 16 < d then 24 else 16)
  else min (max d 1) Config.maxDepth

/-- `ceil(d / 8)`, the whole bytes of a d-bit sample. -/
def bytesOf (d : Nat) : Nat := (d + 7) / 8

/-- SetDepth's row size `q` (R353). -/
def State.poolRow (s : State) : Nat :=
  (s.img.channels.toNat + s.q.pad.toNat + 3) * bytesOf s.q.depth.toNat * 8

/-- SetDepth's pool extent `e` (R353). -/
def State.poolExtent (s : State) : Nat := max s.img.columns.toNat s.img.rows.toNat * s.poolRow

/-- SetDepth(d) up to its extent checks: Q_DEPTH and ResetState (R353). -/
def State.putDepth (s : State) (d : Nat) : State :=
  State.resetState { s with q := { s.q with depth := BitVec.ofNat 7 (depthOf s.q.format d) } }

/-- SetDepth(d) (R353). -/
def setDepth (d : Nat) (s : State) : CmdEnd :=
  let s := s.putDepth d
  if Config.sizeMax < s.poolRow then .raised .resourceLimit s
  else if Config.sizeMax < s.poolExtent then .raised .resourceLimit s
  else if s.pool.valid ∧ s.poolExtent ≤ s.pool.extent.toNat then .normal s
  else releaseThen s (poolAcquire s.poolExtent)

/-- A bound of Q_ACQUIRE: the register's pattern when the attribute record gives it, else the default (R350). -/
def boundArg (i : Fin 8) (given : Bool) (dflt : DWord) (s : State) : DWord := if given then s.argVal i else dflt

/-- SetScale(mn, mx) on the descriptor, for bounds that denote reals (R351); `mnReal`, `mxReal` are those reals. -/
def setScale (p : Params) (mn mx : DWord) (mnReal mxReal : Rat) (q : Descriptor) : Descriptor :=
  if mnReal = 0 ∧ mxReal = 0 then { q with maximum := mx, minimum := 0, scale := 0 }
  else if mnReal = mxReal then { q with maximum := mx, minimum := 0, scale := toF64 (p.range / mnReal) }
  else { q with maximum := mx, minimum := mn, scale := toF64 (p.range / (mxReal - mnReal)) }

/-- The latches Q_ACQUIRE writes (R350). -/
def acquireImg (columns rows channels attr : DWord) : ImageAttrs where
  columns := columns
  rows := rows
  channels := channels
  endian := attrEndian attr
  pseudoClass := attrPseudoClass attr
  colorspace := attrColorspace attr
  alpha := attrAlpha attr
  multispectral := attrMultispectral attr

/-- The descriptor Q_ACQUIRE writes before SetDepth (R350); Q_DEPTH and Q_INV_SCALE keep their values until then. -/
def acquireQ (p : Params) (attr mn mx : DWord) (mnReal mxReal : Rat) (q : Descriptor) : Descriptor :=
  { setScale p mn mx mnReal mxReal
      { q with
        format := attrFormat attr, endian := 0, pack := attrPack attr, pad := 0
        minIsWhite := false, alphaType := attrAlphaType attr }
    with valid := true }

/-- Q_ACQUIRE after its checks (R350). -/
def acquireWith (columns rows channels depth attr mn mx : DWord) (mnReal mxReal : Rat) (s : State) : CmdEnd :=
  setDepth depth.toNat
    { s with img := acquireImg columns rows channels attr, q := acquireQ s.params attr mn mx mnReal mxReal s.q }

/-! ### Commands -/

/-- Q_ACQUIRE's pseudocode (R350). -/
def qAcquireBody (s : State) : CmdEnd :=
  let attr := s.argVal 4
  hazardCheck s <|
    if attrReserved attr then .raised .illegalCommand s
    else if s.q.valid then .raised .option s
    else if s.argVal 0 = 0 ∨ s.argVal 1 = 0 ∨ s.argVal 2 = 0 then .raised .option s
    else
      let mn := boundArg 5 (attrHaveMin attr) 0 s
      let mx := boundArg 6 (attrHaveMax attr) 0x3FF0000000000000 s
      match f64 mn, f64 mx with
      | .real mnReal, .real mxReal =>
        acquireWith (s.argVal 0) (s.argVal 1) (s.argVal 2) (s.argVal 3) attr mn mx mnReal mxReal s
      | _, _ => .raised .option s

/-- Q_ACQUIRE (R350). -/
def execQAcquire (s : State) : Outcome State Fault Refusal := runCmd .seq 0x30 qAcquireBody s

/-- Every Q_* and IMG_* register at its reset value (R352). -/
def State.dropDescriptor (s : State) : State := { s with q := Descriptor.reset, img := ImageAttrs.reset }

/-- Q_DESTROY's pseudocode (R352). -/
def qDestroyBody (s : State) : CmdEnd :=
  hazardCheck s <|
    if s.q.valid then
      if s.guardBad then .raised .guardViolation s.freePool.dropDescriptor else .normal s.freePool.dropDescriptor
    else .normal s

/-- Q_DESTROY (R352). -/
def execQDestroy (s : State) : Outcome State Fault Refusal := runCmd .seq 0x31 qDestroyBody s

/-- Q_SET_DEPTH (R354). -/
def execQSetDepth (depth : BitVec 7) (s : State) : Outcome State Fault Refusal :=
  runCmd .seq 0x32 (fun s => hazardCheck s <| needDescriptor s <| setDepth depth.toNat s) s

/-- Q_SET_FORMAT (R356); format 3 is reserved (R130). -/
def execQSetFormat (format : BitVec 2) (s : State) : Outcome State Fault Refusal :=
  runCmd .seq 0x33 (fun s =>
    if formatOk format then
      hazardCheck s <| needDescriptor s <|
        setDepth s.q.depth.toNat { s with q := { s.q with format := format } }
    else .raised .illegalCommand s) s

/-- Q_SET_ENDIAN (R357); endian 3 is reserved (R130). -/
def execQSetEndian (endian : BitVec 2) (s : State) : Outcome State Fault Refusal :=
  runCmd .seq 0x34 (fun s =>
    if endianOk endian then
      hazardCheck s <| needDescriptor s <|
        setDepth s.q.depth.toNat { s with q := { s.q with endian := endian } }
    else .raised .illegalCommand s) s

/-- Q_SET_PAD (R358). -/
def execQSetPad (s : State) : Outcome State Fault Refusal :=
  runCmd .seq 0x35 (fun s =>
    hazardCheck s <| needDescriptor s <|
      if Config.sizeMax < (s.argVal 0).toNat * s.img.channels.toNat then .raised .option s
      else setDepth s.q.depth.toNat { s with q := { s.q with pad := s.argVal 0 } }) s

/-- Q_SET_SCALE (R359). -/
def execQSetScale (s : State) : Outcome State Fault Refusal :=
  runCmd .seq 0x36 (fun s =>
    hazardCheck s <| needDescriptor s <|
      match f64 (s.argVal 0) with
      | .real _ => .normal (State.resetState { s with q := { s.q with scale := s.argVal 0 } })
      | _ => .raised .option s) s

/-- Q_SET_POLARITY (R360). -/
def execQSetPolarity (minIsWhite : Bool) (s : State) : Outcome State Fault Refusal :=
  runCmd .seq 0x37 (fun s =>
    hazardCheck s <| needDescriptor s <| .normal { s with q := { s.q with minIsWhite := minIsWhite } }) s

/-- Q_RESET_STATE (R361). -/
def execQResetState (s : State) : Outcome State Fault Refusal :=
  runCmd .seq 0x38 (fun s => hazardCheck s <| needDescriptor s <| .normal s.resetState) s

/-! ### Extent and classification -/

/-- Channels(QT) (R362). -/
def channelCount (img : ImageAttrs) : QType → Nat
  | .gray | .index => 1
  | .grayAlpha | .indexAlpha => 2
  | .rgb | .cbYCr => 3
  | .rgba | .rgbo | .bgra | .cmyk | .cbYCrA | .cbYCrY => 4
  | .cmyka => 5
  | .multispectral => img.channels.toNat

/-- Extent(QT) (R364). -/
def extentOf (q : Descriptor) (img : ImageAttrs) (t : QType) : Nat :=
  let ch := channelCount img t
  let c := img.columns.toNat
  if q.pack then bytesOf (ch * c * q.depth.toNat) + q.pad.toNat * c
  else ch * c * bytesOf q.depth.toNat + q.pad.toNat * c

/-- Use a QT code in a command's pseudocode; a reserved code raises IllegalCommand (R130). -/
def useQType (qt : BitVec 4) (s : State) (k : QType → CmdEnd) : CmdEnd :=
  match qtypeOf qt with
  | some t => k t
  | none => .raised .illegalCommand s

/-- Q_GET_EXTENT (R363). -/
def execQGetExtent (qt : BitVec 4) (s : State) : Outcome State Fault Refusal :=
  runCmd .seq 0x39 (fun s =>
    useQType qt s fun t => needDescriptor s <|
      if Config.sizeMax < extentOf s.q s.img t then .raised .resourceLimit (s.setRes0 0)
      else .normal (s.setRes0 (BitVec.ofNat 64 (extentOf s.q s.img t)))) s

/-- The image's default quantum type, as its QT code (R370). -/
def defaultType (img : ImageAttrs) : DWord :=
  if img.multispectral then 13
  else if img.pseudoClass then (if img.alpha then 12 else 11)
  else if img.colorspace = 1 then (if img.alpha then 1 else 0)
  else if img.colorspace = 2 then (if img.alpha then 7 else 6)
  else (if img.alpha then 3 else 2)

/-- Q_GET_TYPE (R370). -/
def execQGetType (s : State) : Outcome State Fault Refusal :=
  runCmd .seq 0x3C (fun s => needDescriptor s <| .normal (s.setRes0 (defaultType s.img))) s

/-- ImageType(QT), the codes of R371 (R372). -/
def imageType (q : Descriptor) : QType → DWord
  | .gray => if q.depth = 1 then 1 else 2
  | .grayAlpha => 3
  | .rgb => 6
  | .rgba => 7
  | .rgbo => 7
  | .bgra => 7
  | .cmyk => 8
  | .cmyka => 9
  | .cbYCr => 6
  | .cbYCrA => 7
  | .cbYCrY => 6
  | .index => 4
  | .indexAlpha => 5
  | .multispectral => 0

/-- Q_SET_IMAGE_TYPE (R372). -/
def execQSetImageType (qt : BitVec 4) (s : State) : Outcome State Fault Refusal :=
  runCmd .seq 0x3D (fun s =>
    useQType qt s fun t => needDescriptor s <| .normal (s.setRes0 (imageType s.q t))) s

end Sys2Proof.Machine
end

