-- ==== Sys2Proof/Machine/RowLayout.lean ====
section
/-! DEFINITION. The layout of a packed row (R400 to R407): channels, byte order, bit order. -/

namespace Sys2Proof.Machine

/-- A sample of a pixel's row (R400): a plain selector, GRAY* with polarity, or OPACITY. -/
inductive Channel where
  | plain (sel : Sel)
  | grayStar
  | opacity
  deriving DecidableEq, Repr

/-- The selector a channel reads and writes (R420: GRAY for GRAY*, ALPHA for OPACITY). -/
def Channel.sel : Channel → Sel
  | .plain sel => sel
  | .grayStar => .gray
  | .opacity => .alpha

/-- Order(QT) (R400); `none` for the types Q_PACK and Q_UNPACK refuse. -/
def channelOrder (img : ImageAttrs) : QType → Option (List Channel)
  | .gray => some [.grayStar]
  | .grayAlpha => some [.grayStar, .plain .alpha]
  | .rgb => some [.plain .red, .plain .green, .plain .blue]
  | .rgba => some [.plain .red, .plain .green, .plain .blue, .plain .alpha]
  | .rgbo => some [.plain .red, .plain .green, .plain .blue, .opacity]
  | .bgra => some [.plain .blue, .plain .green, .plain .red, .plain .alpha]
  | .cmyk => some [.plain .cyan, .plain .magenta, .plain .yellow, .plain .black]
  | .cmyka => some [.plain .cyan, .plain .magenta, .plain .yellow, .plain .black, .plain .alpha]
  | .cbYCr => some [.plain .cb, .plain .lumaY, .plain .cr]
  | .cbYCrA => some [.plain .cb, .plain .lumaY, .plain .cr, .plain .alpha]
  | .cbYCrY => none
  | .index => none
  | .indexAlpha => none
  | .multispectral => some ((List.range img.channels.toNat).map fun i => .plain (.ch i))

/-- The type has an alpha or opacity sample (R403). -/
def hasAlpha : QType → Bool
  | .grayAlpha | .rgba | .rgbo | .bgra | .cmyka | .cbYCrA => true
  | .gray | .rgb | .cmyk | .cbYCr | .cbYCrY | .index | .indexAlpha | .multispectral => false

/-- The inversion of a channel between the pixel port and the rescaler, its own inverse (R401, R402). -/
def channelFlip (p : Params) (q : Descriptor) (c : Channel) (v : Rat) : Rat :=
  match c with
  | .plain _ => v
  | .grayStar => if q.minIsWhite then invertSample p v else v
  | .opacity => invertSample p v

/-- The effective endianness is MSB (R405). -/
def endianMsb (q : Descriptor) (img : ImageAttrs) : Bool :=
  if q.endian = 1 then false
  else if q.endian = 2 then true
  else img.endian != 1

/-- The layout of one row (R404): depth, whether samples are a bit stream, byte order, bit order, pad bytes. -/
structure Layout where
  depth : Nat
  bitStream : Bool
  msbBytes : Bool
  msbBits : Bool
  pad : Nat
  deriving DecidableEq, Repr

/-- The layout a descriptor selects (R404, R405, R406). -/
def layoutOf (p : Params) (q : Descriptor) (img : ImageAttrs) : Layout where
  depth := q.depth.toNat
  bitStream := q.pack && q.depth.toNat % 8 != 0
  msbBytes := endianMsb q img
  msbBits := p.msbAlways || endianMsb q img
  pad := q.pad.toNat

/-! ### Whole-byte samples (R405, R407) -/

/-- The `n` bytes of `u`, least significant first. -/
def bytesLsb : Nat → Nat → List Byte
  | 0, _ => []
  | n + 1, u => BitVec.ofNat 8 u :: bytesLsb n (u / 256)

/-- The value of bytes given least significant first. -/
def ofBytesLsb : List Byte → Nat
  | [] => 0
  | b :: bs => b.toNat + 256 * ofBytesLsb bs

/-- A sample as whole bytes in the layout's byte order. -/
def sampleBytes (l : Layout) (u : Nat) : List Byte :=
  if l.msbBytes then (bytesLsb (bytesOf l.depth) u).reverse else bytesLsb (bytesOf l.depth) u

/-- The code of a sample's whole bytes: the low `depth` bits (R407). -/
def sampleOfBytes (l : Layout) (bs : List Byte) : Nat :=
  ofBytesLsb (if l.msbBytes then bs.reverse else bs) % 2 ^ l.depth

/-! ### Bit streams (R406) -/

/-- The `n` bits of `u`, least significant first. -/
def bitsLsb : Nat → Nat → List Bool
  | 0, _ => []
  | n + 1, u => u.testBit 0 :: bitsLsb n (u / 2)

/-- The value of bits given least significant first. -/
def ofBitsLsb : List Bool → Nat
  | [] => 0
  | b :: bs => b.toNat + 2 * ofBitsLsb bs

/-- A code's bits in stream order. -/
def sampleBits (l : Layout) (u : Nat) : List Bool :=
  if l.msbBits then (bitsLsb l.depth u).reverse else bitsLsb l.depth u

/-- The code of bits in stream order. -/
def sampleOfBits (l : Layout) (bs : List Bool) : Nat := ofBitsLsb (if l.msbBits then bs.reverse else bs)

/-- The byte of up to 8 stream bits, the missing ones 0: bit k is bit 7 - k (MSB) or bit k (LSB) of the byte. -/
def byteOfBits (msb : Bool) (bs : List Bool) : Byte :=
  let full := bs ++ List.replicate (8 - bs.length) false
  BitVec.ofNat 8 (ofBitsLsb (if msb then full.reverse else full))

/-- The bytes of a bit stream, its last byte filled with zero bits (R404). The fuel is the number of bits. -/
def bytesOfBits (msb : Bool) : Nat → List Bool → List Byte
  | 0, _ => []
  | _, [] => []
  | k + 1, bs => byteOfBits msb (bs.take 8) :: bytesOfBits msb k (bs.drop 8)

/-- The stream bits of a byte. -/
def bitsOfByte (msb : Bool) (b : Byte) : List Bool :=
  if msb then (bitsLsb 8 b.toNat).reverse else bitsLsb 8 b.toNat

/-- The bit stream of some bytes. -/
def bitsOfBytes (msb : Bool) (bytes : List Byte) : List Bool := bytes.flatMap (bitsOfByte msb)

/-! ### Rows (R404) -/

/-- The packed row of the codes of its pixels. -/
def packRow (l : Layout) (pixels : List (List Nat)) : List Byte :=
  if l.bitStream then
    let bits := pixels.flatMap fun us => us.flatMap (sampleBits l) ++ List.replicate (8 * l.pad) false
    bytesOfBits l.msbBits bits.length bits
  else pixels.flatMap fun us => us.flatMap (sampleBytes l) ++ List.replicate l.pad 0

/-- Cut `n` pieces of `k` items off a list and read each with `f`. -/
def takePieces {α β : Type} (f : List α → β) (k : Nat) : Nat → List α → List β
  | 0, _ => []
  | n + 1, xs => f (xs.take k) :: takePieces f k n (xs.drop k)

/-- The codes of `n` pixels of `ch` samples, each pixel `ch` pieces of `k` items and then `pad` ignored items. -/
def takePixels {α : Type} (f : List α → Nat) (k ch pad : Nat) : Nat → List α → List (List Nat)
  | 0, _ => []
  | n + 1, xs => takePieces f k ch xs :: takePixels f k ch pad n (xs.drop (ch * k + pad))

/-- The codes of a packed row of `n` pixels of `ch` samples; pad and tail bits are ignored (R404, R425). -/
def unpackRow (l : Layout) (n ch : Nat) (bytes : List Byte) : List (List Nat) :=
  if l.bitStream then takePixels (sampleOfBits l) l.depth ch (8 * l.pad) n (bitsOfBytes l.msbBits bytes)
  else takePixels (sampleOfBytes l) (bytesOf l.depth) ch l.pad n bytes

end Sys2Proof.Machine
end

