-- ==== Sys2Proof/Machine/PackRow.lean ====
section
/-! DEFINITION. Q_PACK and Q_UNPACK, the workers' commands (R420, R425). -/

namespace Sys2Proof.Machine

open Host

/-- `GetSample(y, x, sel)` for each channel of a pixel (R420): the answers and the ports after them. -/
def askPixel (p : Params) (y x : Nat) : List Channel → Ports → List Rat × Ports
  | [], ports => ([], ports)
  | c :: cs, ports =>
    let r := askPixel p y x cs (ports.tookSample (.getSample y x c.sel))
    (sampleLaw p ports.nextSample :: r.1, r.2)

/-- The samples of `n` pixels from column `x` on (R420). -/
def askRow (p : Params) (y : Nat) (chs : List Channel) : Nat → Nat → Ports → List (List Rat) × Ports
  | 0, _, ports => ([], ports)
  | n + 1, x, ports =>
    let a := askPixel p y x chs ports
    let r := askRow p y chs n (x + 1) a.2
    (a.1 :: r.1, r.2)

/-- The codes of a pixel's samples (R420). -/
def pixelCodes (p : Params) (q : Descriptor) (chs : List Channel) (vs : List Rat) : List Nat :=
  List.zipWith (fun c v => exportSample p q (channelFlip p q c v)) chs vs

/-- The PutSample writes of a pixel (R425). -/
def pixelWrites (p : Params) (q : Descriptor) (y x : Nat) (chs : List Channel) (us : List Nat) : List PixWrite :=
  List.zipWith (fun c u => .sample y x c.sel (channelFlip p q c (importSample p q u))) chs us

/-- The PutSample writes of a row from column `x` on, pixel by pixel (R425). -/
def rowWrites (p : Params) (q : Descriptor) (y : Nat) (chs : List Channel) : Nat → List (List Nat) → List PixWrite
  | _, [] => []
  | x, us :: rest => pixelWrites p q y x chs us ++ rowWrites p q y chs (x + 1) rest

/-- The checks of R420, shared with Q_UNPACK (R425), then AcquireRow: they give the row, the channels and the extent. -/
def rowChecks (w : BitVec 8) (qt : BitVec 4) (s : State) (k : Nat → List Channel → Nat → State → CmdEnd) : CmdEnd :=
  useQType qt s fun t =>
    if s.seqMutating ∨ s.seqReads w then .raised .hazard s
    else if s.q.valid = false ∨ s.pool.valid = false ∨ s.pool.n ≤ w.toNat then .raised .option s
    else
      match channelOrder s.img t with
      | none => .raised .option s
      | some chs =>
        if s.q.alphaType ∧ hasAlpha t then .raised .option s
        else
          let y := (s.argVal 0).toNat
          if s.img.rows.toNat ≤ y then .raised .option s
          else if s.pool.extent.toNat < extentOf s.q s.img t then .raised .resourceLimit s
          else if s.ports.nextRow then k y chs (extentOf s.q s.img t) (s.tookRow y)
          else .raised .resourceLimit (s.tookRow y)

/-- Q_PACK after its checks (R420). -/
def packBody (w : BitVec 8) (y : Nat) (chs : List Channel) (e : Nat) (s : State) : CmdEnd :=
  let r := askRow s.params y chs s.img.columns.toNat 0 s.ports
  let bytes := packRow (layoutOf s.params s.q s.img) (r.1.map (pixelCodes s.params s.q chs))
  let t := { s.clearWacc w with ports := r.2, scratch := scratchWrite s.scratch w.toNat 0 bytes }
  .normal ((t.setWres w (BitVec.ofNat 64 e)).clearWacc w)

/-- Q_PACK (R420). -/
def execQPack (w : BitVec 8) (qt : BitVec 4) (s : State) : Outcome State Fault Refusal :=
  runCmd (.worker w) 0x3A (fun s => rowChecks w qt s (packBody w)) s

/-- Q_UNPACK after its checks (R425). -/
def unpackBody (w : BitVec 8) (y : Nat) (chs : List Channel) (e : Nat) (s : State) : CmdEnd :=
  let codes :=
    unpackRow (layoutOf s.params s.q s.img) s.img.columns.toNat chs.length (scratchRead s.scratch w.toNat 0 e)
  let t := { s.clearWacc w with
    ports := { s.ports with pixOut := s.ports.pixOut ++ rowWrites s.params s.q y chs 0 codes } }
  .normal ((t.setWres w (BitVec.ofNat 64 e)).clearWacc w)

/-- Q_UNPACK (R425). -/
def execQUnpack (w : BitVec 8) (qt : BitVec 4) (s : State) : Outcome State Fault Refusal :=
  runCmd (.worker w) 0x3B (fun s => rowChecks w qt s (unpackBody w)) s

end Sys2Proof.Machine
end

