-- ==== Sys2Proof/Machine/Packbits.lean ====
section
/-! DEFINITION. The Packbits encoder (45_packbits.md). -/

namespace Sys2Proof.Machine

open Host

/-- Triple(t) of R330: the three bytes at the front are there and equal. -/
def tripleAt : List Byte → Bool
  | a :: b :: c :: _ => a == b && b == c
  | _ => false

/-- The repeat run's length `c` (R331): from `c`, extended while the next byte is `v`, up to 127 and the bytes left. -/
def repeatLen (v : Byte) : Nat → List Byte → Nat
  | c, [] => c
  | c, b :: bs => if b = v ∧ c < Config.packbitsMaxRepeat then repeatLen v (c + 1) bs else c

/-- The literal run's length (R332): `c` bytes are collected, `rest` are the bytes left after them. -/
def literalLen : Nat → List Byte → Nat
  | c, [] => c
  | c, b :: bs =>
    if (b :: bs).length ≤ 3 ∨ Config.packbitsMaxLiteral ≤ c ∨ tripleAt (b :: bs) = true then c
    else literalLen (c + 1) bs

/-- PB_BUF after a literal run is staged: the header at 0, the bytes from 1 on (R330). -/
def stageLiteral (buf : List Byte) (bytes : List Byte) : List Byte :=
  (BitVec.ofNat 8 (bytes.length - 1) :: bytes) ++ buf.drop (bytes.length + 1)

/-- The while loop of PACKBITS_ENCODE on the bytes left (R330): the bytes sent, and PB_BUF after it. Each turn takes
at least one byte, so the fuel is the number of bytes. -/
def packbitsGo : Nat → List Byte → List Byte → List Byte × List Byte
  | 0, _, buf => ([], buf)
  | _, [], buf => ([], buf)
  | _, [a], buf => ([0x00, a], buf)
  | _, [a, b], buf => ([0x01, a, b], buf)
  | _, [a, b, c], buf => (if tripleAt [a, b, c] then [0xFE, a] else [0x02, a, b, c], buf)
  | k + 1, a :: b :: c :: d :: p, buf =>
    let bytes := a :: b :: c :: d :: p
    if tripleAt bytes then
      let n := repeatLen a 3 (d :: p)
      let r := packbitsGo k (bytes.drop n) buf
      (BitVec.ofNat 8 ((257 - n) % 256) :: a :: r.1, r.2)
    else
      let n := literalLen 1 (b :: c :: d :: p)
      let r := packbitsGo k (bytes.drop n) (stageLiteral buf (bytes.take n))
      (BitVec.ofNat 8 (n - 1) :: bytes.take n ++ r.1, r.2)

/-- The whole stream of the bytes `p`, EOD included (R330, R333), and PB_BUF after it. -/
def packbitsEncode (p buf : List Byte) : List Byte × List Byte :=
  ((packbitsGo p.length p buf).1 ++ [0x80], (packbitsGo p.length p buf).2)

/-- PACKBITS_ENCODE's pseudocode (R330). RES0 is the model's choice for a count of 2^64 or more (log entry 30). -/
def packbitsEncodeBody (w : BitVec 8) (port : Port) (s : State) : CmdEnd :=
  bufferChecks w s fun o n =>
    let t := s.tookAlloc .pbBuf 129
    if s.ports.nextAlloc then
      let r := packbitsEncode (scratchRead t.scratch w.toNat o n) t.pbBuf
      .normal (({ t with pbBuf := r.2 }.sink port r.1).setRes0 (countRes r.1.length))
    else .raised .resourceLimit t

/-- PACKBITS_ENCODE (R330). -/
def execPackbitsEncode (w : BitVec 8) (port : Port) (s : State) : Outcome State Fault Refusal :=
  runCmd .seq 0x28 (packbitsEncodeBody w port) s

end Sys2Proof.Machine
end

