-- ==== Sys2Proof/Machine/Dispatch.lean ====
section
/-! DEFINITION. One arm per command: the command's whole effect, run alone from an idle agent (R99). -/

namespace Sys2Proof.Machine

open Host

def exec (i : Instr) (s : State) : Host.Outcome State Fault Refusal :=
  match i with
  | .nop => Sys2Proof.Machine.execNop s
  | .clrStatus => Sys2Proof.Machine.execClrStatus s
  | .ctrlWrite ctrl => Sys2Proof.Machine.execCtrlWrite ctrl s
  | .bwInit port => Sys2Proof.Machine.execBwInit port s
  | .bwPutBit bit => Sys2Proof.Machine.execBwPutBit bit s
  | .bwPutCode len => Sys2Proof.Machine.execBwPutCode len s
  | .bwFlush => Sys2Proof.Machine.execBwFlush s
  | .brInit => Sys2Proof.Machine.execBrInit s
  | .brGetBit => Sys2Proof.Machine.execBrGetBit s
  | .brSync => Sys2Proof.Machine.execBrSync s
  | .faxBuildHash => Sys2Proof.Machine.execFaxBuildHash s
  | .faxLookup colour => Sys2Proof.Machine.execFaxLookup colour s
  | .faxEncode port => Sys2Proof.Machine.execFaxEncode port s
  | .faxDecode => Sys2Proof.Machine.execFaxDecode s
  | .lzwEncode w port => Sys2Proof.Machine.execLzwEncode w port s
  | .packbitsEncode w port => Sys2Proof.Machine.execPackbitsEncode w port s
  | .qAcquire => Sys2Proof.Machine.execQAcquire s
  | .qDestroy => Sys2Proof.Machine.execQDestroy s
  | .qSetDepth depth => Sys2Proof.Machine.execQSetDepth depth s
  | .qSetFormat format => Sys2Proof.Machine.execQSetFormat format s
  | .qSetEndian endian => Sys2Proof.Machine.execQSetEndian endian s
  | .qSetPad => Sys2Proof.Machine.execQSetPad s
  | .qSetScale => Sys2Proof.Machine.execQSetScale s
  | .qSetPolarity minIsWhite => Sys2Proof.Machine.execQSetPolarity minIsWhite s
  | .qResetState => Sys2Proof.Machine.execQResetState s
  | .qGetExtent qt => Sys2Proof.Machine.execQGetExtent qt s
  | .qPack w qt => Sys2Proof.Machine.execQPack w qt s
  | .qUnpack w qt => Sys2Proof.Machine.execQUnpack w qt s
  | .qGetType => Sys2Proof.Machine.execQGetType s
  | .qSetImageType qt => Sys2Proof.Machine.execQSetImageType qt s
  | .poolAcquire => Sys2Proof.Machine.execPoolAcquire s
  | .poolGet w => Sys2Proof.Machine.execPoolGet w s
  | .poolRelease => Sys2Proof.Machine.execPoolRelease s
  | .rsExport invert => Sys2Proof.Machine.execRsExport invert s
  | .rsImport invert => Sys2Proof.Machine.execRsImport invert s

end Sys2Proof.Machine
end

