-- ==== Sys2Proof/Machine/HostOps.lean ====
section
/-! DEFINITION. What the host does and how a command is accepted: the register map (R86), acceptance, drops and busy
windows (R610 to R620), scratch accesses (R84, R97), reset (R600), and the assembler's host statements (R133, R134). -/

namespace Sys2Proof.Machine

open Host

/-! ### Accepting a command -/

/-- The agent a command word goes to (R121). -/
def targetOf (c : Word) : Agent := if opcOf c = 0x3A ∨ opcOf c = 0x3B then .worker (wOf c) else .seq

/-- A command word that does not decode raises IllegalCommand in its target agent (R128 to R132). -/
def illegalWord (c : Word) (s : State) : Outcome State Fault Refusal :=
  runCmd (targetOf c) (opcOf c) (.raised .illegalCommand) s

/-- Run an accepted command word: decode it, then run the command. -/
def runWord (c : Word) (s : State) : Outcome State Fault Refusal :=
  match decode c with
  | .ok i => exec i s
  | .error _ => illegalWord c s

/-- CMD_LATENCY of the next accepted command (R620). -/
def State.nextLatency (s : State) : Nat := s.ports.latency.headD 0

/-- The state once that latency is drawn. -/
def State.tookLatency (s : State) : State := { s with ports := { s.ports with latency := s.ports.latency.tail } }

/-- The Raise exchanges a command made: those of `t` past those of `s`. -/
def newRaised (s t : State) : List (ErrKind × BitVec 8) := t.ports.raised.drop s.ports.raised.length

/-- The stretch a command added to a list of things sent. -/
def spanOf {α : Type} (before after : List α) : Span := ⟨before.length, after.length - before.length⟩

/-- What a command exchanged that found the ports `p` and left the ports `p'`. -/
def sentBetween (p p' : Ports) : Sent where
  raw := spanOf p.rawOut p'.rawOut
  text := spanOf p.textOut p'.textOut
  pix := spanOf p.pixOut p'.pixOut
  requests := spanOf p.requests p'.requests
  src := p.src.take (p.src.length - p'.src.length)

/-- A command accepted in `s` whose whole effect gives `t`, put in flight for `left` ticks: its agent reads BUSY, and
its report (status, results, Raise, sticky bits) waits for the end of its window (R32, R613). A CLR_STATUS clears the
sticky bits at acceptance (R514). -/
def putInFlight (a : Agent) (left : Nat) (i : Option Instr) (s t : State) : State :=
  match a with
  | .seq =>
    let sticky := if (newRaised s t).isEmpty then t.status else s.status
    { t with
      status := { s.status.begin with stickyErr := sticky.stickyErr, haz := sticky.haz }
      res := s.res
      ports := { t.ports with raised := s.ports.raised }
      seqFlight := some ⟨left, i, t.status, t.res, newRaised s t, sentBetween s.ports t.ports⟩ }
  | .worker w =>
    { (t.setWstat w (s.wstat w).begin).setWres w (s.wresOf w) with
      status := s.status
      ports := { t.ports with raised := s.ports.raised }
      wFlights := s.wFlights ++ [⟨w, left, t.wstat w, t.wresOf w, newRaised s t, sentBetween s.ports t.ports⟩] }

/-- The busy window of a command (R610, R620): with latency 0 it ends before the host's next access; with latency `n`
it stays busy during the host's next `n` steps. -/
def openWindow (a : Agent) (n : Nat) (i : Option Instr) (s t : State) : State :=
  if n = 0 then t else putInFlight a (n + 1) i s t

/-- The command a word decodes to, if any. -/
def decoded (c : Word) : Option Instr :=
  match decode c with
  | .ok i => some i
  | .error _ => none

/-- A CMD write (R121, R610, R612): dropped with STATUS.HAZ set when the target is busy, else accepted. -/
def issue (c : Word) (s : State) : Outcome State Fault Refusal :=
  if s.busy (targetOf c) then .next { s with status := { s.status with haz := true } }
  else
    match runWord c s.tookLatency with
    | .next t => .next (openWindow (targetOf c) s.nextLatency (decoded c) s.tookLatency t)
    | .fault f => .fault f
    | .refused r => .refused r

/-! ### The end of a busy window -/

/-- The sticky bits after some Raise exchanges (R505 step 3). -/
def Status.stickAll (t : Status) (raised : List (ErrKind × BitVec 8)) : Status :=
  { t with stickyErr := t.stickyErr || !raised.isEmpty, haz := t.haz || raised.any (fun r => r.1 == .hazard) }

/-- The sequencer's command in flight ends and reports. -/
def deliverSeq (f : SeqFlight) (s : State) : State :=
  { s with
    status := { f.status with stickyErr := s.status.stickyErr, haz := s.status.haz }.stickAll f.raised
    res := f.res
    ports := { s.ports with raised := s.ports.raised ++ f.raised }
    seqFlight := none }

/-- A worker's command in flight ends and reports. -/
def deliverWorker (f : WFlight) (s : State) : State :=
  { (s.setWstat f.worker f.status).setWres f.worker f.res with
    status := s.status.stickAll f.raised
    ports := { s.ports with raised := s.ports.raised ++ f.raised } }

/-- One host step of the sequencer's window. -/
def tickSeq (s : State) : State :=
  match s.seqFlight with
  | none => s
  | some f => if f.left ≤ 1 then deliverSeq f s else { s with seqFlight := some { f with left := f.left - 1 } }

/-- One host step of the workers' windows. -/
def tickWorkers : List WFlight → State → State
  | [], s => s
  | f :: fs, s =>
    if f.left ≤ 1 then tickWorkers fs (deliverWorker f s)
    else tickWorkers fs { s with wFlights := s.wFlights ++ [{ f with left := f.left - 1 }] }

/-- One host step of every busy window; the sequencer's end comes before the workers' (R514). -/
def tick (s : State) : State := tickWorkers s.wFlights { tickSeq s with wFlights := [] }

/-! ### The register map (R86) -/

/-- A register of P_CMD (R30). -/
inductive Reg where
  | cmd
  | status
  | ctrl
  | arg (i : Fin 8)
  | res (i : Fin 4)
  | wstatus (w : BitVec 8)
  | wres (w : BitVec 8)
  deriving DecidableEq, Repr

/-- The register at an offset, accessed at its full width only (R86). -/
def regAt (offset width : Nat) : Option Reg :=
  if width = 32 then
    if offset = 0 then some .cmd
    else if offset = 4 then some .status
    else if offset = 8 then some .ctrl
    else if 0x400 ≤ offset ∧ offset < 0x800 ∧ offset % 4 = 0 then some (.wstatus (BitVec.ofNat 8 ((offset - 0x400) / 4)))
    else none
  else if width = 64 then
    if 0x40 ≤ offset ∧ offset < 0x80 ∧ offset % 8 = 0 then some (.arg (Fin.ofNat 8 ((offset - 0x40) / 8)))
    else if 0x80 ≤ offset ∧ offset < 0xA0 ∧ offset % 8 = 0 then some (.res (Fin.ofNat 4 ((offset - 0x80) / 8)))
    else if 0x800 ≤ offset ∧ offset < 0x1000 ∧ offset % 8 = 0 then some (.wres (BitVec.ofNat 8 ((offset - 0x800) / 8)))
    else none
  else none

/-- RES[i] (R30). -/
def Results.get (r : Results) (i : Fin 4) : DWord :=
  match i.val with
  | 0 => r.r0
  | 1 => r.r1
  | 2 => r.r2
  | _ => r.r3

/-- What a host read of a register returns; CMD is write only (R30). -/
def State.readReg (s : State) : Reg → Option DWord
  | .cmd => none
  | .status => some (s.status.word.setWidth 64)
  | .ctrl => some (s.ctrl.setWidth 64)
  | .arg i => some (s.argVal i)
  | .res i => some (s.res.get i)
  | .wstatus w => some ((s.wstat w).word.setWidth 64)
  | .wres w => some (s.wresOf w)

/-- A host read of P_CMD (R86): the value is appended to what the host has seen. While RST is asserted the port makes no
exchange: the read gets no value (R600, log entry 31). -/
def hostRead (offset width : Nat) (s : State) : Outcome State Fault Refusal :=
  match (regAt offset width).bind s.readReg with
  | some v => if s.inReset then .next s else .next { s with seen := s.seen ++ [v] }
  | none => .refused (.hostRegister offset width)

/-- A host write of P_CMD (R86): CMD starts a command, ARG[i] is stored; every other register is read only. While RST is
asserted no CMD write is accepted and the port makes no exchange: the write has no effect (R600, log entry 31). -/
def hostWrite (offset width : Nat) (v : DWord) (s : State) : Outcome State Fault Refusal :=
  match regAt offset width with
  | some .cmd => if s.inReset then .next s else issue (v.setWidth 32) s
  | some (.arg i) => if s.inReset then .next s else .next (s.setArg i v)
  | _ => .refused (.hostRegister offset width)

/-! ### Scratch accesses of the host -/

/-- Buffer `b` is in use by a busy worker or by a running LZW_ENCODE or PACKBITS_ENCODE (R97). -/
def State.raced (s : State) (b : Nat) : Bool :=
  (s.wstat (BitVec.ofNat 8 b)).busy || s.seqReads (BitVec.ofNat 8 b)

/-- A host scratch access (R84, R97): no step outside the scratch space, which is empty while RST is asserted (R600), a
fault in a race. -/
def scratchAccess (b o : Nat) (s : State) (k : State) : Outcome State Fault Refusal :=
  if s.inScratch b o ∧ s.inReset = false then (if s.raced b then .fault (.scratchRace b) else .next k)
  else .refused (.hostScratch b o)

/-- What every command in flight has exchanged. -/
def State.inFlight (s : State) : List Sent :=
  (match s.seqFlight with
    | some f => [f.sent]
    | none => []) ++ s.wFlights.map (·.sent)

/-- A list of things sent, less what the abandoned commands had not sent: of the `n`-th one's stretch the first
`freeCut drawn kind n` stay (R600). -/
def abandon {α : Type} (drawn kind : Nat) (spans : List Span) (l : List α) : List α :=
  (l.zipIdx.filter fun x => !spans.zipIdx.any fun p =>
    decide (p.1.start + Config.freeCut drawn kind p.2 ≤ x.2) && decide (x.2 < p.1.start + p.1.len)).map (·.1)

/-- The ports after a reset (R600): what was sent stays sent and what was consumed stays consumed. How far a command in
flight was is not stated: a free value (log entry 10). -/
def State.portsAfterRst (s : State) : Ports :=
  if s.inFlight.isEmpty then s.ports
  else
    { s.ports with
      rawOut := abandon s.ports.drawn 0 (s.inFlight.map (·.raw)) s.ports.rawOut
      textOut := abandon s.ports.drawn 1 (s.inFlight.map (·.text)) s.ports.textOut
      pixOut := abandon s.ports.drawn 2 (s.inFlight.map (·.pix)) s.ports.pixOut
      requests := abandon s.ports.drawn 3 (s.inFlight.map (·.requests)) s.ports.requests
      src := (s.inFlight.zipIdx.flatMap fun p => p.1.src.drop (Config.freeCut s.ports.drawn 4 p.2)) ++ s.ports.src
      drawn := s.ports.drawn + 1 }

/-- Reset, RST being asserted or released (R600, R601): every piece of the block's state at its reset value; the commands
in flight are abandoned, with no Raise. The ports, the host and the parameters are outside the block. -/
def State.afterRst (s : State) (asserted : Bool) : State :=
  { State.reset with
    inReset := asserted, ports := s.portsAfterRst, host := s.host, seen := s.seen, params := s.params }

/-- The host drives RST (R600): asserting it resets the block, which then holds its reset values; releasing it leaves
every piece of state at its reset value. Releasing an RST that is not asserted changes nothing. -/
def State.driveRst (s : State) (asserted : Bool) : State :=
  if asserted ∨ s.inReset then s.afterRst asserted else s

/-- The host's poll of a DONE bit sees 1; while RST is asserted it gets no value (R133, R600). -/
def State.sees (s : State) (done : Bool) : Bool := done && !s.inReset

/-- One action of the host; a WAIT that is not over stays at the head of the host's actions (R133). -/
def hostAct (a : HostAct) (s : State) : Outcome State Fault Refusal :=
  match a with
  | .write offset width v => hostWrite offset width v s
  | .read offset width => hostRead offset width s
  | .scrRead b o => scratchAccess b o s { s with seen := s.seen ++ [(s.scratchByte b o).setWidth 64] }
  | .scrWrite b o v => scratchAccess b o s { s with scratch := memWrite s.scratch (scratchKey b o) v }
  | .feed bytes => .next { s with ports := { s.ports with src := s.ports.src ++ bytes } }
  | .waitSeq => if s.sees s.status.done then .next s else .next { s with host := .waitSeq :: s.host }
  | .waitWorker w => if s.sees (s.wstat w).done then .next s else .next { s with host := .waitWorker w :: s.host }
  | .idle => .next s
  | .rst asserted => .next (s.driveRst asserted)

/-- One host step: the host's next action, then one tick of every busy window. With no action left the host is idle. -/
def hostStep (s : State) : Outcome State Fault Refusal :=
  match s.host with
  | [] => .next (tick s)
  | a :: rest =>
    match hostAct a { s with host := rest } with
    | .next t => .next (tick t)
    | .fault f => .fault f
    | .refused r => .refused r

/-! ### Host statements and pseudo-instructions (R133, R134) -/

/-- A CMD write of a word (R86). -/
def HostAct.word (c : Word) : HostAct := .write 0 32 (c.setWidth 64)

/-- A CMD write of a command. -/
def HostAct.cmd (i : Instr) : HostAct := .word (encode i)

/-- SETARG i, v (R133). -/
def HostAct.setArg (i : Fin 8) (v : DWord) : HostAct := .write (0x40 + 8 * i.val) 64 v

/-- `Q_SET_FLOAT #d` (R134). -/
def pseudoSetFloat (d : BitVec 7) : List HostAct := [.cmd (.qSetFormat 2), .cmd (.qSetDepth d)]

/-- `Q_SET_UNSIGNED #d` (R134). -/
def pseudoSetUnsigned (d : BitVec 7) : List HostAct := [.cmd (.qSetFormat 0), .cmd (.qSetDepth d)]

/-- `BW_PUT_EOL` (R134). -/
def pseudoPutEol : List HostAct := [.setArg 0 1, .cmd (.bwPutCode 12)]

/-- `RUN cmd` (R134). -/
def pseudoRun (i : Instr) : List HostAct := [.cmd i, .waitSeq]

/-- `PACKW w, qt, y` (R134). -/
def pseudoPackw (w : BitVec 8) (qt : BitVec 4) (y : DWord) : List HostAct :=
  [.setArg 0 y, .cmd (.qPack w qt), .waitWorker w]

end Sys2Proof.Machine
end

