-- ==== Sys2Proof/Machine/Step.lean ====
section
/-! DEFINITION. One step of the machine, and a command word placed where the next step takes it. -/

namespace Sys2Proof.Machine

/-- One host step (R35, R620). The block fetches nothing: the next command is the host's next CMD write. -/
def step (s : State) : Host.Outcome State Fault Refusal := hostStep s

/-- The state whose next host action is a CMD write of the word `w`, `nbits` bits of it given (R86, R120). -/
def State.withFetchWord (s : State) (nbits w : Nat) : State :=
  { s with host := .write 0 32 (BitVec.ofNat 64 (w % 2 ^ nbits % 2 ^ 32)) :: s.host }

end Sys2Proof.Machine
end

