-- ==== Sys2Proof/Safety.lean ====
section
/-! DEFINITION. The terms the claims use: how a command's end reads in the registers, which register values are legal, the
bits a writer or reader stands for, and reference forms of the codecs' streams. Nothing here is called by the machine. -/

namespace Sys2Proof.Machine

open Host

/-! ### The ends of a command, as the registers show them (R32, R33, R505, R512) -/

/-- STATUS after a sequencer command's normal end (R32). -/
def Status.ended (t : Status) : Status := ⟨false, true, false, false, 0, 0, t.stickyErr, t.haz⟩

/-- STATUS after a sequencer command's cancelled end (R512). -/
def Status.cancelledEnd (t : Status) : Status := ⟨false, true, false, true, 0, 0, t.stickyErr, t.haz⟩

/-- STATUS after a sequencer command with opcode `op` raised `k` (R505). -/
def Status.raisedEnd (t : Status) (op : BitVec 8) (k : ErrKind) : Status :=
  ⟨false, true, true, false, k.code, op, true, t.haz || k == .hazard⟩

/-- The sticky bits after a worker's command raised `k` (R505 step 3). -/
def Status.workerRaised (t : Status) (k : ErrKind) : Status :=
  { t with stickyErr := true, haz := t.haz || k == .hazard }

/-- WSTATUS[w] after a worker command's normal end (R33). -/
def WStatus.ended : WStatus := ⟨false, true, false, 0, 0⟩

/-- WSTATUS[w] after a worker command with opcode `op` raised `k` (R505). -/
def WStatus.raisedEnd (op : BitVec 8) (k : ErrKind) : WStatus := ⟨false, true, true, k.code, op⟩

/-- The normal end of a sequencer command. -/
def State.seqEnded (s : State) : State := { s with status := s.status.ended }

/-- A sequencer command with opcode `op` raised `k` (R505). -/
def State.seqRaised (s : State) (op : BitVec 8) (k : ErrKind) : State :=
  { s with status := s.status.raisedEnd op k, ports := { s.ports with raised := s.ports.raised ++ [(k, op)] } }

/-- The normal end of a command of worker `w`. -/
def State.workerEnded (s : State) (w : BitVec 8) : State := s.setWstat w WStatus.ended

/-- A command of worker `w` with opcode `op` raised `k` (R505). -/
def State.workerRaised (s : State) (w : BitVec 8) (op : BitVec 8) (k : ErrKind) : State :=
  { s.setWstat w (WStatus.raisedEnd op k) with
    status := s.status.workerRaised k, ports := { s.ports with raised := s.ports.raised ++ [(k, op)] } }

/-- The agent that executes a command (R6, R121). -/
def agentOf : Instr → Agent
  | .nop | .clrStatus | .ctrlWrite _ | .bwInit _ | .bwPutBit _ | .bwPutCode _ | .bwFlush | .brInit | .brGetBit
  | .brSync | .faxBuildHash | .faxLookup _ | .faxEncode _ | .faxDecode | .lzwEncode _ _ | .packbitsEncode _ _
  | .qAcquire | .qDestroy | .qSetDepth _ | .qSetFormat _ | .qSetEndian _ | .qSetPad | .qSetScale | .qSetPolarity _
  | .qResetState | .qGetExtent _ | .qGetType | .qSetImageType _ | .poolAcquire | .poolGet _ | .poolRelease
  | .rsExport _ | .rsImport _ => .seq
  | .qPack w _ | .qUnpack w _ => .worker w

/-- The bytes sent so far to a port (R60). -/
def Ports.sent (p : Ports) : Port → List Byte
  | .raw => p.rawOut
  | .text => p.textOut

/-! ### Legal register values -/

/-- One of 0x80, 0x40, .., 0x01 (R41, R42). -/
def oneBit (m : Byte) : Prop := m = 0x80 ∨ m = 0x40 ∨ m = 0x20 ∨ m = 0x10 ∨ m = 8 ∨ m = 4 ∨ m = 2 ∨ m = 1

/-- The bit writer between commands: BW_MASK has one bit, BW_BYTE is 0 at and below it (R41). -/
def BitWriter.legal (b : BitWriter) : Prop := oneBit b.mask ∧ b.byte &&& (b.mask ||| (b.mask - 1)) = 0

/-- The bit reader between commands: BR_MASK is 0 or has one bit (R42). -/
def BitReader.legal (b : BitReader) : Prop := b.mask = 0 ∨ oneBit b.mask

/-- Q_DEPTH is legal for Q_FORMAT (R37). -/
def depthLegal (format : BitVec 2) (depth : BitVec 7) : Prop :=
  if format = 2 then depth = 16 ∨ depth = 24 ∨ depth = 32 ∨ depth = 64 else 1 ≤ depth.toNat ∧ depth.toNat ≤ 64

/-- A binary64 pattern of a finite value (R37). -/
def isFinite (b : DWord) : Prop := ∃ x, f64 b = .real x

/-- The descriptor and the image latches hold legal values, and their reset values while no descriptor exists
(R37, R39, R352). -/
def State.descriptorLegal (s : State) : Prop :=
  if s.q.valid then
    s.q.format ≠ 3 ∧ s.q.endian ≠ 3 ∧ depthLegal s.q.format s.q.depth ∧
    isFinite s.q.minimum ∧ isFinite s.q.maximum ∧
    s.q.pad.toNat * s.img.channels.toNat < 2 ^ 64 ∧
    1 ≤ s.img.columns.toNat ∧ 1 ≤ s.img.rows.toNat ∧ 1 ≤ s.img.channels.toNat ∧
    s.img.endian ≠ 3 ∧ s.img.colorspace ≠ 3
  else s.q = Descriptor.reset ∧ s.img = ImageAttrs.reset

/-- The pool registers are in range, a pool has a descriptor, and with no pool they are 0 (R40, R442, R444). -/
def State.poolLegal (s : State) : Prop :=
  if s.pool.valid then
    s.q.valid = true ∧ 1 ≤ s.pool.n ∧ s.pool.n ≤ Config.maxWorkers ∧
    s.pool.n * (s.pool.extent.toNat + 1) < 2 ^ 64
  else s.pool = Pool.reset

/-- The scratch memory is in its canonical form, and with no pool it is empty (R80). -/
def State.scratchLegal (s : State) : Prop :=
  memWf s.scratch = true ∧ (s.pool.valid = false → s.scratch = [])

/-- The error fields of STATUS are 0 when ERR is 0 (R32). -/
def Status.errFieldsLegal (t : Status) : Prop := t.err = false → t.errKind = 0 ∧ t.errOp = 0

/-- The error fields of WSTATUS[w] are 0 when ERR is 0 (R33). -/
def WStatus.errFieldsLegal (t : WStatus) : Prop := t.err = false → t.errKind = 0 ∧ t.errOp = 0

/-- The error fields of every status register, also of those a command in flight will write (R32, R33). -/
def State.errFieldsLegal (s : State) : Prop :=
  s.status.errFieldsLegal ∧ (∀ w, (s.wstat w).errFieldsLegal) ∧
  (∀ f, s.seqFlight = some f → f.status.errFieldsLegal) ∧ ∀ f ∈ s.wFlights, f.status.errFieldsLegal

/-- BUSY is 1 exactly in an agent's busy window (R610): each agent has at most one command in flight, and what a
command in flight will report is the status of an idle agent. -/
def State.busyLegal (s : State) : Prop :=
  (s.status.busy = s.seqFlight.isSome) ∧
  (∀ w, (s.wstat w).busy = true ↔ ∃ f ∈ s.wFlights, f.worker = w) ∧
  (s.wFlights.map (·.worker)).Nodup ∧
  (∀ f, s.seqFlight = some f → f.status.busy = false) ∧ ∀ f ∈ s.wFlights, f.status.busy = false

/-- CTRL's reserved bits are 0 (R34), and the workers' accumulators are 0 between commands (R38, R410). -/
def State.quietLegal (s : State) : Prop :=
  s.ctrl.toNat < 4 ∧ s.waccPixel = Vector.replicate 256 0 ∧ s.waccBits = Vector.replicate 256 0

/-- While RST is asserted the block holds its reset values and has no command in flight (R600, R601; log entries 1, 2 and
31 name the values the spec leaves open). -/
def State.rstLegal (s : State) : Prop :=
  s.inReset = true →
    s = { State.reset with inReset := true, ports := s.ports, host := s.host, seen := s.seen, params := s.params }

/-! ### Words -/

/-- Match and mask of each row of spec/opcode_table.json: the opcode and the fields that must be 0 (R125). -/
def cmdTable : List (Word × Word) :=
  [(0x00000000, 0xFFFFFFFF), (0x00000001, 0xFFFFFFFF), (0x00000002, 0xFFCFFFFF), (0x00000008, 0xFFEFFFFF), (0x00000009, 0xFFEFFFFF)] ++
  [(0x0000000A, 0xFC0FFFFF), (0x0000000B, 0xFFFFFFFF), (0x0000000C, 0xFFFFFFFF), (0x0000000D, 0xFFFFFFFF), (0x0000000E, 0xFFFFFFFF)] ++
  [(0x00000010, 0xFFFFFFFF), (0x00000011, 0xFFEFFFFF), (0x00000012, 0xFFEFFFFF), (0x00000013, 0xFFFFFFFF), (0x00000020, 0xFFEF00FF)] ++
  [(0x00000028, 0xFFEF00FF), (0x00000030, 0xFFFFFFFF), (0x00000031, 0xFFFFFFFF), (0x00000032, 0xF80FFFFF), (0x00000033, 0xFFCFFFFF)] ++
  [(0x00000034, 0xFFCFFFFF), (0x00000035, 0xFFFFFFFF), (0x00000036, 0xFFFFFFFF), (0x00000037, 0xFFEFFFFF), (0x00000038, 0xFFFFFFFF)] ++
  [(0x00000039, 0xFFF0FFFF), (0x0000003A, 0xFFF000FF), (0x0000003B, 0xFFF000FF), (0x0000003C, 0xFFFFFFFF), (0x0000003D, 0xFFF0FFFF)] ++
  [(0x00000040, 0xFFFFFFFF), (0x00000041, 0xFFFF00FF), (0x00000042, 0xFFFFFFFF), (0x00000048, 0xFFEFFFFF), (0x00000049, 0xFFEFFFFF)]

/-- A used field of the word holds a reserved value (R130): QT 14 or 15, format 3, endian 3. -/
def holdsReserved (c : Word) : Prop :=
  (((opcOf c).toNat = 0x39 ∨ (opcOf c).toNat = 0x3A ∨ (opcOf c).toNat = 0x3B ∨ (opcOf c).toNat = 0x3D) ∧
    14 ≤ (qtOf c).toNat) ∨
  (((opcOf c).toNat = 0x33 ∨ (opcOf c).toNat = 0x34) ∧ (immOf c).toNat % 4 = 3)

/-- `raise k` of a command with opcode `op` in agent `a`, and nothing else (R505). -/
def State.onlyRaised (s : State) (a : Agent) (op : BitVec 8) (k : ErrKind) : State :=
  match a with
  | .seq => s.seqRaised op k
  | .worker w => s.workerRaised w op k

/-! ### Sizes -/

/-- Samples per pixel of a quantum type code (R362). -/
def channelsOfCode (img : ImageAttrs) (qt : Nat) : Nat :=
  [1, 2, 3, 4, 4, 4, 4, 5, 3, 4, 4, 1, 2].getD qt img.channels.toNat

/-- The byte count of a packed row of `ch` samples per pixel (R364). -/
def rowExtent (q : Descriptor) (img : ImageAttrs) (ch : Nat) : Nat :=
  if q.pack then (ch * img.columns.toNat * q.depth.toNat + 7) / 8 + q.pad.toNat * img.columns.toNat
  else ch * img.columns.toNat * ((q.depth.toNat + 7) / 8) + q.pad.toNat * img.columns.toNat

/-- The worst-case row size SetDepth computes for a descriptor (R353). -/
def speculativeRow (q : Descriptor) (img : ImageAttrs) : Nat :=
  (img.channels.toNat + q.pad.toNat + 3) * ((q.depth.toNat + 7) / 8) * 8

/-- The pool extent SetDepth computes for a descriptor (R353). -/
def speculativeExtent (q : Descriptor) (img : ImageAttrs) : Nat :=
  max img.columns.toNat img.rows.toNat * speculativeRow q img

/-- The depth a request gets in a format (R353). -/
def depthFor (format : BitVec 2) (d : Nat) : BitVec 7 :=
  if format = 2 then (if d > 32 then 64 else if d > 24 then 32 else if d > 16 then 24 else 16)
  else if d < 1 then 1 else if d > 64 then 64 else BitVec.ofNat 7 d

/-- The descriptor with a field changed by one of the four setters that call SetDepth, and what SetDepth makes of its
depth and inverse scale (R353 to R358); none for every other command. -/
def State.retarget (s : State) (i : Instr) : Option Descriptor :=
  let q := { s.q with invScale := invScaleOf s.q.scale }
  match i with
  | .qSetDepth d => some { q with depth := depthFor q.format d.toNat }
  | .qSetFormat f => some { q with format := f, depth := depthFor f q.depth.toNat }
  | .qSetEndian e => some { q with endian := e, depth := depthFor q.format q.depth.toNat }
  | .qSetPad => some { q with pad := s.argVal 0, depth := depthFor q.format q.depth.toNat }
  | _ => none

/-- Q_SET_PAD's operand passes its check (R358). -/
def State.padGiven (s : State) (i : Instr) : Prop :=
  i = .qSetPad → (s.argVal 0).toNat * s.img.channels.toNat < 2 ^ 64

/-- The ARG registers a command's rule lists as its operands (R31, the column "reads" of R125). -/
def operandsOf : Instr → List (Fin 8)
  | .qAcquire => [0, 1, 2, 3, 4, 5, 6]
  | .faxLookup _ | .faxEncode _ | .faxDecode | .lzwEncode _ _ | .packbitsEncode _ _ => [0, 1]
  | .bwPutCode _ | .qSetPad | .qSetScale | .qPack _ _ | .qUnpack _ _ | .poolAcquire | .rsExport _ | .rsImport _ => [0]
  | .nop | .clrStatus | .ctrlWrite _ | .bwInit _ | .bwPutBit _ | .bwFlush | .brInit | .brGetBit | .brSync | .faxBuildHash
  | .qDestroy | .qSetDepth _ | .qSetFormat _ | .qSetEndian _ | .qSetPolarity _ | .qResetState | .qGetExtent _ | .qGetType
  | .qSetImageType _ | .poolGet _ | .poolRelease => []

/-! ### Bit strings -/

/-- The bits of a byte, b[7] first (R8). -/
def byteBits (b : Byte) : List Bool := codeBitsMsb b.toNat 8

/-- The bits placed in BW_BYTE that no byte has carried away yet, first one first (R41). -/
def BitWriter.pending (b : BitWriter) : List Bool := (byteBits b.byte).take (7 - b.mask.toNat.log2)

/-- All the bits a writer has put: those of the bytes it has emitted, then the pending ones. -/
def Writer.bits (x : Writer) : List Bool := x.out.flatMap byteBits ++ x.bw.pending

/-- The bits a reader will still return before EOF (R207, R208). -/
def Reader.bits (x : Reader) : List Bool :=
  if x.br.eof then []
  else (if x.br.mask = 0 then [] else (byteBits x.br.byte).drop (7 - x.br.mask.toNat.log2)) ++ x.src.flatMap byteBits

/-- What Sync leaves of a bit string, `z` zero bits having come before it (R209); none when it runs to the end. -/
def afterEol : Nat → List Bool → Option (List Bool)
  | _, [] => none
  | z, false :: bs => afterEol (z + 1) bs
  | z, true :: bs => if 11 ≤ z then some bs else afterEol 0 bs

/-- Bits as bytes, the first bit in bit 7 of the first byte, the last byte filled with 0 bits (R206, R266). -/
def bitsToBytes (bits : List Bool) : List Byte := bytesOfBits true bits.length bits

/-! ### Reference forms of the streams -/

/-- The bits of a code-table row's code (R264). -/
def FaxRow.bits (e : FaxRow) : List Bool := codeBitsMsb e.value e.length

/-- The EOL: eleven 0 bits and a 1 bit (R14, R264). -/
def eolBits : List Bool := List.replicate 11 false ++ [true]

/-- The bits of one row (R263): its runs, white first, each as its make-up codes and one terminating code. -/
def faxRowBits (row : List Bool) : List Bool :=
  (rowRuns row.length row).flatMap fun r => (runRows r.1 r.2 r.2).flatMap FaxRow.bits

/-- The bits of a page (R265): an EOL, each row followed by an EOL, six EOLs. -/
def faxPageBits (rows : List (List Bool)) : List Bool :=
  eolBits ++ rows.flatMap (fun row => faxRowBits row ++ eolBits) ++ (List.replicate 6 eolBits).flatten

/-- The PutBilevel writes that commit rows from row `y` on (R270). -/
def pageWrites : Nat → List (List Bool) → List PixWrite
  | _, [] => []
  | y, row :: rows => bilevelWrites y 0 row ++ pageWrites (y + 1) rows

/-- The binarized rows of a page of intensities (R260, R262). -/
def binarizedRows (p : Params) (page : List (List Rat)) : List (List Bool) :=
  page.map fun row => row.map fun v => binarize p (intensityLaw p v)

/-- A standard Packbits decoder (R335), strict about the end: the EOD byte is the last byte. The fuel is the number of
bytes. -/
def packbitsDecode : Nat → List Byte → Option (List Byte)
  | 0, _ => none
  | _, [] => none
  | k + 1, h :: rest =>
    if h = 0x80 then (if rest = [] then some [] else none)
    else if h.toNat < 128 then
      if rest.length < h.toNat + 1 then none
      else (packbitsDecode k (rest.drop (h.toNat + 1))).map fun tail => rest.take (h.toNat + 1) ++ tail
    else
      match rest with
      | [] => none
      | b :: rest => (packbitsDecode k rest).map fun tail => List.replicate (257 - h.toNat) b ++ tail

/-- The width of the `k`-th data code since the last Clear (R304). -/
def lzwCodeWidth (k : Nat) : Nat := if k ≤ 254 then 9 else if k ≤ 766 then 10 else if k ≤ 1790 then 11 else 12

/-- The bits of LZW codes, `k` data codes having been sent since the last Clear (R304, R305): a data code and a Clear at
the width of the next data code, End at the width of the last one. -/
def lzwCodeBits : Nat → List Nat → List Bool
  | _, [] => []
  | k, code :: codes =>
    if code = lzwEnd then codeBitsMsb code (lzwCodeWidth k) ++ lzwCodeBits k codes
    else codeBitsMsb code (lzwCodeWidth (k + 1)) ++ lzwCodeBits (if code = lzwClear then 0 else k + 1) codes

/-- The bytes a data code stands for: a byte, or an entry of the dictionary, whose first one has code 258 (R301). -/
def lzwString (dict : List (List Byte)) (code : Nat) : Option (List Byte) :=
  if code < lzwClear then some [BitVec.ofNat 8 code]
  else if code < lzwFirst then none
  else dict[code - lzwFirst]?

/-- An LZW decoder on codes (R308), strict about the reset and the end: `dict` are the strings of the entries from 258
on, `prev` the string of the code before (none just after a Clear). Each code but the first after a Clear adds the string
before it, extended by the first byte of its own; a code may name the very entry it adds. A Clear comes exactly after
3838 data codes (R304), and End is the last code. -/
def lzwDecodeFrom : List (List Byte) → Option (List Byte) → List Nat → Option (List Byte)
  | _, _, [] => none
  | dict, prev, code :: codes =>
    if code = lzwEnd then (if codes = [] then some [] else none)
    else if code = lzwClear then (if dict.length = 3837 then lzwDecodeFrom [] none codes else none)
    else
      match prev with
      | none =>
        match lzwString dict code with
        | some bytes => (lzwDecodeFrom dict (some bytes) codes).map fun rest => bytes ++ rest
        | none => none
      | some old =>
        match if code = lzwFirst + dict.length then some (old ++ old.take 1) else lzwString dict code with
        | some bytes =>
          if dict.length < 3837 then
            (lzwDecodeFrom (dict ++ [old ++ bytes.take 1]) (some bytes) codes).map fun rest => bytes ++ rest
          else none
        | none => none

/-- The whole code sequence of a stream: the initial Clear, then the codes (R300). -/
def lzwDecode : List Nat → Option (List Byte)
  | [] => none
  | code :: codes => if code = lzwClear then lzwDecodeFrom [] none codes else none

/-- The dictionary as a map from (prefix, suffix) to code (R302): the code of the entry that extends `q` by `c`. -/
def Lzw.codeOf (z : Lzw) (q : Nat) (c : Byte) : Option Nat :=
  (List.range z.nextCode).find? fun j =>
    decide (lzwFirst ≤ j) && decide ((z.get j).pre = some q) && decide ((z.get j).suffix = c)

/-- The LZW registers as LZW_ENCODE's loop meets them after the bytes `b :: bs` (R300). -/
def lzwAfter (z : Lzw) (b : Byte) (bs : List Byte) : Lzw :=
  (lzwBytes bs ⟨{ (lzwStart z).z with last := b.toNat }, (lzwStart z).out⟩).z

end Sys2Proof.Machine
end

