-- ==== Sys2Proof/Certificates/Slice0/Obligations.lean ====
section
/-! DEFINITION. The statements for the provers. -/

open Sys2Proof Sys2Proof.Machine

/-- Decoding the encoding of a well-formed command gives the command back (R120, R123, R125, R133). -/
def Obligations.DecodeOfEncodeIsTheCommand : Prop :=
  ∀ i : Instr, i.wf = true → decode (encode i) = .ok i

/-- A word that decodes is the encoding of the command it decodes to (R120, R123, R125, R129, R130). -/
def Obligations.EncodeOfDecodeIsTheWord : Prop :=
  ∀ (c : Word) (i : Instr), decode c = .ok i → i.wf = true ∧ encode i = c

/-- A word decodes exactly when it fits a row of the opcode table and holds no reserved value (R125, R128, R129,
R130). -/
def Obligations.AcceptedWordsFollowTheOpcodeTable : Prop :=
  ∀ c : Word, (∃ i, decode c = .ok i) ↔ (∃ r ∈ cmdTable, c &&& r.2 = r.1) ∧ ¬ holdsReserved c

/-- Nine words written out from the spec decode to the commands they stand for (95_test_vectors.md 3.1, R120, R125). -/
def Obligations.SpecWordsDecodeToTheirCommands : Prop :=
  decode 0x00300002 = .ok (.ctrlWrite 3) ∧ decode 0x00C0000A = .ok (.bwPutCode 12) ∧
  decode 0x00100011 = .ok (.faxLookup .black) ∧ decode 0x00100520 = .ok (.lzwEncode 5 .text) ∧
  decode 0x00000128 = .ok (.packbitsEncode 1 .raw) ∧ decode 0x07F00032 = .ok (.qSetDepth 127) ∧
  decode 0x0006023A = .ok (.qPack 2 6) ∧ decode 0x00000341 = .ok (.poolGet 3) ∧
  decode 0x00100048 = .ok (.rsExport true)

/-- A word with a reserved opcode raises IllegalCommand in the sequencer and does nothing else (R128). -/
def Obligations.ReservedOpcodeRaisesIllegalCommand : Prop :=
  ∀ (c : Word) (s : State),
    (opcOf c).toNat ∉ [0x00, 0x01, 0x02, 0x08, 0x09, 0x0A, 0x0B, 0x0C, 0x0D, 0x0E, 0x10, 0x11, 0x12, 0x13, 0x20, 0x28,
      0x30, 0x31, 0x32, 0x33, 0x34, 0x35, 0x36, 0x37, 0x38, 0x39, 0x3A, 0x3B, 0x3C, 0x3D, 0x40, 0x41, 0x42, 0x48, 0x49] →
    runWord c s = .next (s.seqRaised (opcOf c) .illegalCommand)

/-- Every word that does not decode raises IllegalCommand in its target agent and does nothing else (R121, R128, R129,
R130, R132, R505). -/
def Obligations.UndecodableWordOnlyRaises : Prop :=
  ∀ (c : Word) (e : DecodeError) (s : State), decode c = .error e →
    runWord c s = .next (s.onlyRaised (targetOf c) (opcOf c) .illegalCommand)

/-- A step at a CMD write to an idle agent runs the decoded command; a step is one host action, then one tick of the
windows (R35, R121, R610, R620). Model's choice: the host queue and the counting of windows (log entries 5, 6, 8,
9). -/
def Obligations.StepRunsTheDecodedCommand : Prop :=
  (∀ (s : State) (c : Word) (i : Instr) (rest : List HostAct),
    s.host = .write 0 32 (c.setWidth 64) :: rest → decode c = .ok i → s.inReset = false →
    s.busy (agentOf i) = false →
    step s =
      match exec i (State.tookLatency { s with host := rest }) with
      | .next t =>
        .next (tick (openWindow (agentOf i) s.nextLatency (some i) (State.tookLatency { s with host := rest }) t))
      | .fault f => .fault f
      | .refused r => .refused r) ∧
  (∀ (s t : State) (a : HostAct) (rest : List HostAct),
    s.host = a :: rest → hostAct a { s with host := rest } = .next t → step s = .next (tick t)) ∧
  ∀ s : State, s.host = [] → step s = .next (tick s)

/-- A CMD write whose target agent is busy is dropped and sets STATUS.HAZ (R612). -/
def Obligations.WriteToBusyAgentIsDropped : Prop :=
  ∀ (s : State) (c : Word), s.inReset = false → s.busy (targetOf c) = true →
    hostAct (.write 0 32 (c.setWidth 64)) s = .next { s with status := { s.status with haz := true } } ∧
    State.irq { s with status := { s.status with haz := true } } = s.ie

/-- The host reaches each register of P_CMD at its offset and full width, and the status words hold each field at its
bits (R30, R32, R33, R86, R94). Model's choice: the list of values read, and ARG read before any write (log
entries 6, 21). -/
def Obligations.HostReadsRegistersByOffsetAndField : Prop :=
  (∀ (s : State) (rest : List HostAct), s.inReset = false →
    (∀ (i : Fin 8) (v : DWord), s.host = .write (0x40 + 8 * i.val) 64 v :: rest →
      step s = .next (tick (State.setArg { s with host := rest } i v))) ∧
    (s.host = .read 4 32 :: rest →
      step s = .next (tick { s with host := rest, seen := s.seen ++ [s.status.word.setWidth 64] })) ∧
    (s.host = .read 8 32 :: rest →
      step s = .next (tick { s with host := rest, seen := s.seen ++ [s.ctrl.setWidth 64] })) ∧
    (∀ i : Fin 8, s.host = .read (0x40 + 8 * i.val) 64 :: rest →
      step s = .next (tick { s with host := rest, seen := s.seen ++ [s.argVal i] })) ∧
    (∀ i : Fin 4, s.host = .read (0x80 + 8 * i.val) 64 :: rest →
      step s = .next (tick { s with
        host := rest, seen := s.seen ++ [[s.res.r0, s.res.r1, s.res.r2, s.res.r3].getD i.val 0] })) ∧
    (∀ w : BitVec 8, s.host = .read (0x400 + 4 * w.toNat) 32 :: rest →
      step s = .next (tick { s with host := rest, seen := s.seen ++ [(s.wstat w).word.setWidth 64] })) ∧
    (∀ w : BitVec 8, s.host = .read (0x800 + 8 * w.toNat) 64 :: rest →
      step s = .next (tick { s with host := rest, seen := s.seen ++ [s.wresOf w] }))) ∧
  ((∀ t : Status,
    t.word.getLsbD 0 = t.busy ∧ t.word.getLsbD 1 = t.done ∧ t.word.getLsbD 2 = t.err ∧ t.word.getLsbD 3 = t.cancelled ∧
    t.word.extractLsb' 4 4 = t.errKind ∧ t.word.extractLsb' 8 8 = t.errOp ∧ t.word.getLsbD 16 = t.stickyErr ∧
    t.word.getLsbD 17 = t.haz ∧ t.word.toNat < 2 ^ 18) ∧
  (∀ t : WStatus,
    t.word.getLsbD 0 = t.busy ∧ t.word.getLsbD 1 = t.done ∧ t.word.getLsbD 2 = t.err ∧ t.word.getLsbD 3 = false ∧
    t.word.extractLsb' 4 4 = t.errKind ∧ t.word.extractLsb' 8 8 = t.errOp ∧ t.word.toNat < 2 ^ 16))

/-- A host scratch access inside the scratch space reads or writes one byte, the guard byte included (R80, R82, R84,
R97). Model's choice: the list of cells and of values read, a busy sequencer whose word did not decode (log
entries 6, 7, 32). -/
def Obligations.HostScratchAccessesReadAndWriteOneByte : Prop :=
  ∀ (s : State) (b o : Nat) (v : Byte) (rest : List HostAct), memWf s.scratch = true → s.inReset = false →
    s.pool.valid = true → b < s.pool.n → o ≤ s.pool.extent.toNat → s.raced b = false →
    (s.host = .scrRead b o :: rest →
      step s = .next (tick { s with host := rest, seen := s.seen ++ [(s.scratchByte b o).setWidth 64] })) ∧
    (s.host = .scrWrite b o v :: rest → ∃ m,
      step s = .next (tick { s with host := rest, scratch := m }) ∧ memRead m (scratchKey b o) = v ∧
      ∀ b' o', o' < 2 ^ 64 → ¬(b' = b ∧ o' = o) → memRead m (scratchKey b' o') = s.scratchByte b' o')

/-- A host access that has no meaning has no step, and a host access that races a busy agent is a fault (R30, R84,
R86, R97, R614). Model's choice: refusals and faults by name, a busy sequencer whose word did not decode (log
entries 23, 32). -/
def Obligations.HostAccessesWithoutMeaningDoNotStep : Prop :=
  ∀ (s : State) (rest : List HostAct),
    (∀ b o v, s.host = .scrWrite b o v :: rest ∨ s.host = .scrRead b o :: rest →
      (s.pool.valid = false ∨ s.pool.n ≤ b ∨ s.pool.extent.toNat < o) → step s = .refused (.hostScratch b o)) ∧
    (∀ b o v, s.host = .scrWrite b o v :: rest ∨ s.host = .scrRead b o :: rest →
      s.inReset = false → s.pool.valid = true → b < s.pool.n → o ≤ s.pool.extent.toNat → s.raced b = true →
      step s = .fault (.scratchRace b)) ∧
    (∀ offset width v, s.host = .write offset width v :: rest →
      ¬(width = 32 ∧ offset = 0) → ¬(width = 64 ∧ ∃ i < 8, offset = 0x40 + 8 * i) →
      step s = .refused (.hostRegister offset width)) ∧
    (∀ offset width, s.host = .read offset width :: rest →
      ¬(width = 32 ∧ (offset = 4 ∨ offset = 8 ∨ ∃ w < 256, offset = 0x400 + 4 * w)) →
      ¬(width = 64 ∧ ((∃ i < 8, offset = 0x40 + 8 * i) ∨ (∃ i < 4, offset = 0x80 + 8 * i) ∨
        ∃ w < 256, offset = 0x800 + 8 * w)) →
      step s = .refused (.hostRegister offset width))

/-- NOP, CLR_STATUS and CTRL_WRITE complete with exactly their effects, and IRQ follows CTRL.IE and the sticky bits
(R32, R34, R510, R520, R521, R522). -/
def Obligations.ControlCommandsCompleteAndDriveIrq : Prop :=
  (∀ s : State,
    exec .nop s = .next s.seqEnded ∧
    (exec .clrStatus s = .next { s with status := ⟨false, true, false, false, 0, 0, false, false⟩ }) ∧
    ∀ v : BitVec 2, exec (.ctrlWrite v) s = .next { s.seqEnded with ctrl := v.setWidth 32 }) ∧
  ((∀ s : State, s.irq = (s.ctrl.getLsbD 0 && (s.status.stickyErr || s.status.haz))) ∧
  (∀ s t : State, exec .clrStatus s = .next t → t.irq = false) ∧
  (∀ (s t : State) (v : BitVec 2), v.getLsbD 0 = false → exec (.ctrlWrite v) s = .next t → t.irq = false) ∧
  ∀ (s : State) (op : BitVec 8) (k : ErrKind), (s.seqRaised op k).irq = s.ie)

/-- Reset leaves every piece of state at its stated value; RST brings every state there, and while it is asserted no
access has an effect (R30, R32, R33, R34, R37, R38, R39, R40, R41, R42, R600, R601). Model's choice: what the
registers R601 leaves unspecified hold, what a reset keeps outside the block, the parameters as a field, FAX_SCAN
as an empty list, the block while RST is asserted (log entries 1, 2, 10, 18, 22, 29, 31). -/
def Obligations.ResetLeavesTheStatedValuesAndRstRestoresThem : Prop :=
  (let r := State.reset
  r.status.word = 0 ∧ (∀ w, (r.wstat w).word = 0) ∧ r.res = ⟨0, 0, 0, 0⟩ ∧ (∀ w, r.wresOf w = 0) ∧
  (∀ i, r.argVal i = Config.argReset i) ∧ r.params = ⟨Config.range, Config.hdri, false⟩ ∧ r.ctrl = 0 ∧ r.irq = false ∧
  r.q = ⟨false, 0, 0, 0, false, 0, 0, 0, 0, false, false, 0x3FF0000000000000⟩ ∧
  f64 r.q.invScale = .real 1 ∧ f64 r.q.scale = .real 0 ∧ (∀ n < 32, (qMask n).toNat = 2 ^ n - 1) ∧
  r.waccPixel = Vector.replicate 256 0 ∧ r.waccBits = Vector.replicate 256 0 ∧
  r.img = ⟨0, 0, 0, 0, false, 0, false, false⟩ ∧ r.pool = ⟨false, 0, 0⟩ ∧ r.scratch = [] ∧
  r.bw = ⟨0, 0x80, .raw⟩ ∧ r.br = ⟨0, 0, false, 0⟩ ∧
  (∀ slot, tabGet r.faxWhash slot = none) ∧ (∀ slot, tabGet r.faxBhash slot = none) ∧ r.faxScan = []) ∧
  ((∀ (s : State) (rest : List HostAct) (asserted : Bool),
    s.host = .rst asserted :: rest → asserted = true ∨ s.inReset = true →
    (s.seqFlight = none → s.wFlights = [] →
      step s = .next { State.reset with
        inReset := asserted, ports := s.ports, host := rest, seen := s.seen, params := s.params }) ∧
    ∃ p : Ports,
      step s = .next { State.reset with
        inReset := asserted, ports := p, host := rest, seen := s.seen, params := s.params } ∧
      p.raised = s.ports.raised ∧ p.rawOut.Sublist s.ports.rawOut ∧ p.textOut.Sublist s.ports.textOut ∧
      p.pixOut.Sublist s.ports.pixOut ∧ p.requests.Sublist s.ports.requests ∧ s.ports.src <:+ p.src ∧
      p.allocs = s.ports.allocs ∧ p.rows = s.ports.rows ∧ p.progress = s.ports.progress ∧
      p.threads = s.ports.threads ∧ p.samples = s.ports.samples ∧ p.latency = s.ports.latency) ∧
  (∀ s : State, s.inReset = true →
    (∀ v, hostAct (.write 0 32 v) s = .next s) ∧
    (∀ (i : Fin 8) (v : DWord), hostAct (.write (0x40 + 8 * i.val) 64 v) s = .next s) ∧
    (∀ offset width, offset ≠ 0 → (regAt offset width).isSome = true → hostAct (.read offset width) s = .next s) ∧
    ∀ b o v, hostAct (.scrRead b o) s = .refused (.hostScratch b o) ∧
      hostAct (.scrWrite b o v) s = .refused (.hostScratch b o)))

/-- BW_INIT, BR_INIT, BW_PUT_BIT and BW_FLUSH complete with exactly their effects; BW_PUT_CODE refuses a length out of
range (R200, R202, R203, R204, R205, R206, R210, R505). -/
def Obligations.BitUnitCommandsComplete : Prop :=
  (∀ s : State,
    (∀ port, exec (.bwInit port) s = .next { s.seqEnded with bw := ⟨0, 0x80, port⟩ }) ∧
    exec .brInit s = .next { s.seqEnded with br := ⟨0, 0, false, 0⟩ }) ∧
  (∀ (s : State) (v : Bool),
    let byte := if v then s.bw.byte ||| s.bw.mask else s.bw.byte
    (s.bw.mask >>> 1 ≠ 0 →
      exec (.bwPutBit v) s = .next { s.seqEnded with bw := ⟨byte, s.bw.mask >>> 1, s.bw.port⟩ }) ∧
    (s.bw.mask >>> 1 = 0 →
      exec (.bwPutBit v) s =
        .next { s.seqEnded with bw := ⟨0, 0x80, s.bw.port⟩, ports := s.ports.sink s.bw.port [byte] })) ∧
  (∀ s : State,
    (s.bw.mask = 0x80 → exec .bwFlush s = .next s.seqEnded) ∧
    (s.bw.mask ≠ 0x80 → exec .bwFlush s =
      .next { s.seqEnded with bw := ⟨0, 0x80, s.bw.port⟩, ports := s.ports.sink s.bw.port [s.bw.byte] })) ∧
  (∀ (s : State) (len : BitVec 6), (len.toNat = 0 ∨ 32 < len.toNat) →
    exec (.bwPutCode len) s = .next (s.seqRaised 0x0A .option))

/-- BW_PUT_CODE completes: the bits sent and pending are those before followed by the code, first bit first (R8, R41,
R200, R201, R202, R205). Model's choice: the form with ARG0 unwritten (log entry 3). -/
def Obligations.BwPutCodePutsTheCodesBits : Prop :=
  ∀ (s : State) (len : BitVec 6), 1 ≤ len.toNat → len.toNat ≤ 32 → s.bw.legal →
    ∃ (bw : BitWriter) (out : List Byte),
      exec (.bwPutCode len) s = .next { s.seqEnded with bw := bw, ports := s.ports.sink s.bw.port out } ∧
      bw.legal ∧ bw.port = s.bw.port ∧
      out.flatMap byteBits ++ bw.pending = s.bw.pending ++ codeBitsMsb (s.argVal 0).toNat len.toNat ∧
      (len.toNat = 32 → out.length = 4)

/-- BR_GET_BIT completes: it returns the next bit of the input, or 2 at its end (R42, R207, R208, R211, R212). -/
def Obligations.BrGetBitReturnsTheNextBit : Prop :=
  ∀ s : State, s.br.legal → ∃ (br : BitReader) (src : List Byte) (r : DWord),
    exec .brGetBit s =
      .next { s.seqEnded with br := br, ports := { s.ports with src := src }, res := { s.res with r0 := r } } ∧
    br.legal ∧
    match s.reader.bits with
    | [] => r = 2 ∧ br = { s.br with eof := true } ∧ src = s.ports.src
    | b :: bits =>
      r = (if b then 1 else 0) ∧ Reader.bits ⟨br, src⟩ = bits ∧ br.eof = false ∧
      br.zrun.toNat = if b then 0 else min (s.br.zrun.toNat + 1) (2 ^ 32 - 1)

/-- BR_SYNC completes: it stops just past the first 1 bit that at least 11 zero bits precede, or at the end of input
(R209, R213). -/
def Obligations.BrSyncStopsPastTheNextEol : Prop :=
  ∀ s : State, s.br.legal → ∃ (br : BitReader) (src : List Byte) (r : DWord),
    exec .brSync s =
      .next { s.seqEnded with br := br, ports := { s.ports with src := src }, res := { s.res with r0 := r } } ∧
    br.legal ∧
    match afterEol s.br.zrun.toNat s.reader.bits with
    | some bits => r = 1 ∧ Reader.bits ⟨br, src⟩ = bits ∧ br.eof = false ∧ br.zrun = 0
    | none => r = 0 ∧ Reader.bits ⟨br, src⟩ = [] ∧ br.eof = true

/-- Each colour's fax code set is prefix-free and free of slot clashes, and no sequence of codes holds 11 zeros in a
row (R239). -/
def Obligations.FaxCodeTablesAreFreeOfClashes : Prop :=
  (∀ rows c, (rows, c) = (whiteRows, Colour.white) ∨ (rows, c) = (blackRows, Colour.black) →
    rows.length = 104 ∧ (buildTable c rows).length = 104 ∧
    rows.Pairwise (fun a b => ¬(a.bits <+: b.bits) ∧ ¬(b.bits <+: a.bits)) ∧
    (∀ e ∈ rows, ¬(e.bits <+: eolBits)) ∧
    (rows.map fun e => colourSlot c e.length e.value).Nodup ∧
    (∀ e ∈ rows, e.length ≤ if c = .white then 12 else 13) ∧ (∃ e ∈ rows, e.length = if c = .white then 12 else 13) ∧
    ∀ e ∈ rows, ¬(List.replicate 8 false <+: e.bits) ∧ ¬(List.replicate 4 false <:+ e.bits)) ∧
  ∀ es : List FaxRow, (∀ e ∈ es, e ∈ whiteRows ++ blackRows) → ¬(List.replicate 11 false <:+: es.flatMap FaxRow.bits)

/-- Lookup in the built hash tables is the exact search of the colour's code set (R240). -/
def Obligations.FaxHashLookupIsExactSearch : Prop :=
  (∀ len code, lookupRow .white (buildTable .white whiteRows) len code =
    whiteRows.find? fun e => decide (e.length = len) && decide (e.value = code)) ∧
  (∀ len code, lookupRow .black (buildTable .black blackRows) len code =
    blackRows.find? fun e => decide (e.length = len) && decide (e.value = code)) ∧
  ∀ c len code, lookupRow c [] len code = none

/-- FAX_BUILD_HASH and FAX_LOOKUP complete with exactly their effects (R236, R237, R238, R508, R603). Model's choice:
the list of answers; unwritten ARG registers (log entries 3, 4). -/
def Obligations.FaxTableCommandsComplete : Prop :=
  ∀ s : State,
    (s.ports.nextAlloc = true → exec .faxBuildHash s = .next { s.seqEnded with
      faxWhash := buildTable .white whiteRows, faxBhash := buildTable .black blackRows
      ports := s.ports.tookAlloc .faxHash 2042 }) ∧
    (s.ports.nextAlloc = false →
      exec .faxBuildHash s = .next (State.seqRaised { s with ports := s.ports.tookAlloc .faxHash 2042 } 0x10 .resourceLimit)) ∧
    (∀ c, exec (.faxLookup c) s = .next { s.seqEnded with
      res := match lookupRow c (if c = .white then s.faxWhash else s.faxBhash) (s.argVal 1).toNat (s.argVal 0).toNat with
        | none => ⟨0, 0, 0, s.res.r3⟩
        | some e => ⟨1, if e.table = .tw ∨ e.table = .tb then 0 else 1, BitVec.ofNat 64 e.run, s.res.r3⟩ }) ∧
    ∀ c, (if c = .white then s.faxWhash else s.faxBhash) = [] →
      exec (.faxLookup c) s = .next { s.seqEnded with res := ⟨0, 0, 0, s.res.r3⟩ }

/-- FAX_ENCODE completes: it sends the page's EOLs and run codes as bytes and counts them in RES0 (R214, R260, R261,
R262, R263, R264, R265, R266). Model's choice: the lists of answers and of requests, FAX_SCAN after the command, a
count of 2^64 or more, the form with unwritten ARG registers (log entries 3, 4, 17, 22, 30). -/
def Obligations.FaxEncodeSendsThePage : Prop :=
  ∀ (s : State) (port : Port) (page : List (List Rat)) (moreRows moreProgress : List Bool) (moreSamples : List Rat),
    (s.argVal 0).toNat ≠ 0 → (s.argVal 1).toNat ≠ 0 →
    page.length = (s.argVal 1).toNat → (∀ row ∈ page, row.length = (s.argVal 0).toNat) →
    s.ports.nextAlloc = true → s.ports.rows = List.replicate page.length true ++ moreRows →
    s.ports.progress = List.replicate page.length true ++ moreProgress →
    s.ports.samples = page.flatten ++ moreSamples →
    let out := bitsToBytes (faxPageBits (binarizedRows s.params page))
    ∃ t, exec (.faxEncode port) s = .next t ∧ t.status = s.status.ended ∧
      t.ports.sent port = s.ports.sent port ++ out ∧
      (∀ port', port' ≠ port → t.ports.sent port' = s.ports.sent port') ∧
      t.res = { s.res with r0 := countRes out.length } ∧ t.bw = ⟨0, 0x80, port⟩ ∧ t.faxScan = [] ∧
      t.ports.requests = s.ports.requests ++ .alloc .faxScan (s.argVal 0).toNat ::
        (List.range page.length).flatMap (fun y => .acquireRow y ::
          (List.range (s.argVal 0).toNat).map (fun x => .getIntensity y x) ++ [.progress 0x12 y page.length]) ∧
      t.ports.src = s.ports.src ∧ t.ports.pixOut = s.ports.pixOut ∧ t.ports.raised = s.ports.raised ∧
      { t with status := s.status, res := s.res, bw := s.bw, faxScan := s.faxScan, ports := s.ports } = s

/-- FAX_ENCODE stopped by a progress answer sends whole rows and ends cancelled on a byte boundary (R262, R267, R512).
Model's choice: the lists of answers, a count of 2^64 or more, the form with unwritten ARG registers (log entries
3, 4, 17, 30). -/
def Obligations.FaxEncodeStopsAfterTheRow : Prop :=
  ∀ (s : State) (port : Port) (page : List (List Rat)) (moreRows moreProgress : List Bool) (moreSamples : List Rat),
    (s.argVal 0).toNat ≠ 0 → page ≠ [] →
    page.length ≤ (s.argVal 1).toNat → (∀ row ∈ page, row.length = (s.argVal 0).toNat) →
    s.ports.nextAlloc = true → s.ports.rows = List.replicate page.length true ++ moreRows →
    s.ports.progress = List.replicate (page.length - 1) true ++ false :: moreProgress →
    s.ports.samples = page.flatten ++ moreSamples →
    let out := bitsToBytes (eolBits ++ (binarizedRows s.params page).flatMap fun row => faxRowBits row ++ eolBits)
    ∃ t, exec (.faxEncode port) s = .next t ∧ t.status = s.status.cancelledEnd ∧
      t.ports.sent port = s.ports.sent port ++ out ∧ t.res = { s.res with r0 := countRes out.length } ∧
      t.bw = ⟨0, 0x80, port⟩ ∧ t.ports.raised = s.ports.raised

/-- FAX_DECODE reads an encoded page back bit for bit (R270, R271, R272, R273, R276, R278). Model's choice: the lists
of answers and of requests, FAX_SCAN after the command, the form with unwritten ARG registers (log entries 3, 4,
22). -/
def Obligations.FaxDecodeReadsAnEncodedPage : Prop :=
  ∀ (s : State) (rows : List (List Bool)) (more : List Byte) (moreAllocs moreRows moreProgress : List Bool),
    (s.argVal 0).toNat ≠ 0 → (s.argVal 1).toNat ≠ 0 →
    rows ≠ [] → (∀ row ∈ rows, row.length = (s.argVal 0).toNat) →
    s.ports.src = bitsToBytes (faxPageBits rows) ++ more → s.ports.allocs = true :: true :: moreAllocs →
    let k := min (s.argVal 1).toNat (rows.length + 3)
    s.ports.rows = List.replicate k true ++ moreRows → s.ports.progress = List.replicate k true ++ moreProgress →
    ∃ t, exec .faxDecode s = .next t ∧ t.status = s.status.ended ∧
      t.res = ⟨BitVec.ofNat 64 (min (s.argVal 1).toNat rows.length), 204, 196, 1⟩ ∧
      t.ports.pixOut = s.ports.pixOut ++
        pageWrites 0 ((rows ++ List.replicate 3 (List.replicate (s.argVal 0).toNat false)).take k) ∧
      t.faxWhash = buildTable .white whiteRows ∧ t.faxBhash = buildTable .black blackRows ∧ t.faxScan = [] ∧
      t.ports.requests = s.ports.requests ++ .alloc .faxHash 2042 :: .alloc .faxScan (s.argVal 0).toNat ::
        (List.range k).flatMap (fun y => [.acquireRow y, .progress 0x13 (y + 1) (s.argVal 1).toNat]) ∧
      t.ports.rawOut = s.ports.rawOut ∧ t.ports.textOut = s.ports.textOut ∧ t.ports.raised = s.ports.raised ∧
      { t with
        status := s.status, res := s.res, br := s.br, faxWhash := s.faxWhash, faxBhash := s.faxBhash
        faxScan := s.faxScan, ports := s.ports } = s

/-- FAX_DECODE of an input with no EOL raises CorruptImageError with no row committed (R270, R275, R505). Model's
choice: the lists of answers, the form with unwritten ARG registers (log entries 3, 4). -/
def Obligations.FaxDecodeWithoutAnEolIsCorrupt : Prop :=
  ∀ s : State, (s.argVal 0).toNat ≠ 0 → (s.argVal 1).toNat ≠ 0 →
    (∃ moreAllocs, s.ports.allocs = true :: true :: moreAllocs) → afterEol 0 (s.ports.src.flatMap byteBits) = none →
    ∃ t, exec .faxDecode s = .next t ∧ t.status = s.status.raisedEnd 0x13 .corruptImage ∧ t.res = ⟨0, 0, 0, 0⟩ ∧
      t.ports.raised = s.ports.raised ++ [(.corruptImage, 0x13)] ∧ t.ports.pixOut = s.ports.pixOut ∧
      t.ports.src = [] ∧ t.br.eof = true

/-- LZW_ENCODE and PACKBITS_ENCODE raise on a busy worker, a missing buffer or a range outside it, before any effect
(R83, R300, R330, R505, R506, R611). Model's choice: the form with unwritten ARG registers (log entry 3). -/
def Obligations.EncodersCheckHazardPoolAndRange : Prop :=
  ∀ (s : State) (w : BitVec 8) (port : Port) (i : Instr), i = .lzwEncode w port ∨ i = .packbitsEncode w port →
    ((s.wstat w).busy = true → exec i s = .next (s.seqRaised i.opcode .hazard)) ∧
    ((s.wstat w).busy = false → (s.pool.valid = false ∨ s.pool.n ≤ w.toNat) →
      exec i s = .next (s.seqRaised i.opcode .option)) ∧
    ((s.wstat w).busy = false → s.pool.valid = true → w.toNat < s.pool.n →
      s.pool.extent.toNat < (s.argVal 0).toNat + (s.argVal 1).toNat → exec i s = .next (s.seqRaised i.opcode .option))

/-- LZW_ENCODE and PACKBITS_ENCODE complete: each sends its stream of its buffer range and counts it in RES0 (R300,
R307, R330, R336, R508). Model's choice: what the LZW registers and PB_BUF hold after a command, the list of
answers, a count of 2^64 or more, the form with unwritten ARG registers (log entries 2, 3, 4, 30). -/
def Obligations.BufferEncodersSendTheirStreams : Prop :=
  (∀ (s : State) (w : BitVec 8) (port : Port), (s.wstat w).busy = false → s.pool.valid = true → w.toNat < s.pool.n →
    (s.argVal 0).toNat + (s.argVal 1).toNat ≤ s.pool.extent.toNat →
    let r := lzwEncode (scratchRead s.scratch w.toNat (s.argVal 0).toNat (s.argVal 1).toNat) s.lzw
    (s.ports.nextAlloc = true → exec (.lzwEncode w port) s = .next { s.seqEnded with
      lzw := r.z, ports := (s.ports.tookAlloc .lzwTable 4096).sink port r.out
      res := { s.res with r0 := countRes r.out.length } }) ∧
    (s.ports.nextAlloc = false → exec (.lzwEncode w port) s =
      .next (State.seqRaised { s with ports := s.ports.tookAlloc .lzwTable 4096 } 0x20 .resourceLimit))) ∧
  (∀ (s : State) (w : BitVec 8) (port : Port), (s.wstat w).busy = false → s.pool.valid = true → w.toNat < s.pool.n →
    (s.argVal 0).toNat + (s.argVal 1).toNat ≤ s.pool.extent.toNat →
    let r := packbitsEncode (scratchRead s.scratch w.toNat (s.argVal 0).toNat (s.argVal 1).toNat) s.pbBuf
    (s.ports.nextAlloc = true → exec (.packbitsEncode w port) s = .next { s.seqEnded with
      pbBuf := r.2, ports := (s.ports.tookAlloc .pbBuf 129).sink port r.1
      res := { s.res with r0 := countRes r.1.length } }) ∧
    (s.ports.nextAlloc = false → exec (.packbitsEncode w port) s =
      .next (State.seqRaised { s with ports := s.ports.tookAlloc .pbBuf 129 } 0x28 .resourceLimit)))

/-- The LZW stream is the packed codes an LZW decoder turns back into the input, whatever the dictionary held before
(R43, R44, R300, R301, R303, R304, R305, R306, R308, R601, R615). -/
def Obligations.LzwStreamDecodesToItsInput : Prop :=
  (∀ (bytes : List Byte) (z : Lzw), ∃ codes : List Nat,
    (lzwEncode bytes z).out = bitsToBytes (lzwCodeBits 0 codes) ∧ lzwDecode codes = some bytes) ∧
  (∀ (bytes : List Byte) (z z' : Lzw), (lzwEncode bytes z).out = (lzwEncode bytes z').out) ∧
  ∀ z : Lzw,
    (lzwEncode [] z).out = [0x80, 0x40, 0x40] ∧ (lzwEncode [0x41] z).out = [0x80, 0x10, 0x60, 0x20] ∧
    (lzwEncode [0x41, 0x42, 0x41, 0x42, 0x41, 0x42, 0x41] z).out = [0x80, 0x10, 0x48, 0x50, 0x28, 0x24, 0x04]

/-- FindChild's walk of the chained dictionary is a map lookup from (prefix, suffix) to code (R301, R302, R303). -/
def Obligations.LzwFindChildFindsTheExtension : Prop :=
  ∀ (z : Lzw) (b : Byte) (bs : List Byte) (q : Nat) (c : Byte),
    q < (lzwAfter z b bs).nextCode → q ≠ lzwClear → q ≠ lzwEnd →
    lzwFindChild (lzwAfter z b bs) q c = (lzwAfter z b bs).codeOf q c

/-- Between the encoder's turns the LZW registers stay in their ranges (R44, R303, R304, R305). Model's choice:
registers as natural numbers (log entry 28). -/
def Obligations.LzwRegistersStayInRange : Prop :=
  ∀ (b : Byte) (bs : List Byte) (z : Lzw), let y := lzwAfter z b bs
    9 ≤ y.width ∧ y.width ≤ 12 ∧ y.nbits ≤ 7 ∧ 258 ≤ y.nextCode ∧ y.nextCode ≤ 4095 ∧ y.nextCode < 2 ^ y.width ∧
    y.last < y.nextCode ∧ y.last ≠ lzwClear ∧ y.last ≠ lzwEnd

/-- A standard Packbits decoder gives every input of PACKBITS_ENCODE back (R330, R331, R332, R333, R335). -/
def Obligations.PackbitsStreamDecodesToItsInput : Prop :=
  ∀ bytes buf : List Byte,
    let stream := (packbitsEncode bytes buf).1
    packbitsDecode stream.length stream = some bytes

/-- Q_ACQUIRE completes: it creates the descriptor, the image latches and the pool its operands describe (R350, R351,
R353, R361, R442). Model's choice: Q_INV_SCALE where R361 states none, the lists of answers, the form with
unwritten ARG registers (log entries 3, 4, 11). -/
def Obligations.QAcquireCreatesTheDescriptor : Prop :=
  ∀ (s : State) (mn mx : Rat), s.anyWorkerBusy = false → s.q.valid = false → s.pool.valid = false →
    let attr := s.argVal 4
    attr.toNat < 2 ^ 13 → attr.extractLsb' 0 2 ≠ 3 → attr.extractLsb' 3 2 ≠ 3 → attr.extractLsb' 7 2 ≠ 3 →
    s.argVal 0 ≠ 0 → s.argVal 1 ≠ 0 → s.argVal 2 ≠ 0 →
    let mnBits := if attr.getLsbD 11 then s.argVal 5 else 0
    let mxBits := if attr.getLsbD 12 then s.argVal 6 else 0x3FF0000000000000
    f64 mnBits = .real mn → f64 mxBits = .real mx →
    let scale := if mn = 0 ∧ mx = 0 then 0 else if mn = mx then toF64 (s.params.range / mn) else toF64 (s.params.range / (mx - mn))
    let q : Descriptor := {
      valid := true, depth := depthFor (attr.extractLsb' 7 2) (s.argVal 3).toNat, format := attr.extractLsb' 7 2
      endian := 0, pack := attr.getLsbD 9, pad := 0, minimum := if mn = mx then 0 else mnBits, maximum := mxBits
      scale := scale, minIsWhite := false, alphaType := attr.getLsbD 10, invScale := invScaleOf scale }
    let img : ImageAttrs := {
      columns := s.argVal 0, rows := s.argVal 1, channels := s.argVal 2, endian := attr.extractLsb' 0 2
      pseudoClass := attr.getLsbD 2, colorspace := attr.extractLsb' 3 2, alpha := attr.getLsbD 5
      multispectral := attr.getLsbD 6 }
    let e := speculativeExtent q img
    let n := min (max s.ports.nextThreads 1) 256
    n * (e + 1) < 2 ^ 64 → s.ports.tookThreads.nextAlloc = true →
    exec .qAcquire s = .next { s.seqEnded with
      q := q, img := img, pool := ⟨true, n, BitVec.ofNat 64 e⟩, scratch := freshScratch n e
      waccPixel := Vector.replicate 256 0, waccBits := Vector.replicate 256 0
      ports := s.ports.tookThreads.tookAlloc .pool (n * (e + 1)) }

/-- Q_ACQUIRE raises the first failing check's error, in the order of its rule, with nothing else changed (R350, R505,
R506). Model's choice: the form with unwritten ARG registers (log entry 3). -/
def Obligations.QAcquireRefusesBadOperands : Prop :=
  ∀ s : State,
    (s.anyWorkerBusy = true → exec .qAcquire s = .next (s.seqRaised 0x30 .hazard)) ∧
    (s.anyWorkerBusy = false →
      ((s.argVal 4).extractLsb' 13 51 ≠ 0 ∨ (s.argVal 4).extractLsb' 0 2 = 3 ∨ (s.argVal 4).extractLsb' 3 2 = 3 ∨
        (s.argVal 4).extractLsb' 7 2 = 3 → exec .qAcquire s = .next (s.seqRaised 0x30 .illegalCommand)) ∧
      ((s.argVal 4).extractLsb' 13 51 = 0 → (s.argVal 4).extractLsb' 0 2 ≠ 3 → (s.argVal 4).extractLsb' 3 2 ≠ 3 →
        (s.argVal 4).extractLsb' 7 2 ≠ 3 →
        (s.q.valid = true → exec .qAcquire s = .next (s.seqRaised 0x30 .option)) ∧
        (s.q.valid = false →
          (s.argVal 0 = 0 ∨ s.argVal 1 = 0 ∨ s.argVal 2 = 0 → exec .qAcquire s = .next (s.seqRaised 0x30 .option)) ∧
          (s.argVal 0 ≠ 0 → s.argVal 1 ≠ 0 → s.argVal 2 ≠ 0 →
            ((s.argVal 4).getLsbD 11 = true ∧ (∀ x, f64 (s.argVal 5) ≠ .real x) ∨
              (s.argVal 4).getLsbD 12 = true ∧ (∀ x, f64 (s.argVal 6) ≠ .real x)) →
            exec .qAcquire s = .next (s.seqRaised 0x30 .option)))))

/-- Q_DESTROY completes: descriptor, latches and pool at their reset values; a bad guard is reported after (R352,
R445). -/
def Obligations.QDestroyReleasesEverything : Prop :=
  ∀ s : State, s.anyWorkerBusy = false →
    let gone := { s with q := Descriptor.reset, img := ImageAttrs.reset, pool := ⟨false, 0, 0⟩, scratch := [] }
    let bad := s.ctrl.getLsbD 1 = true ∧ ∃ b < s.pool.n, s.scratchByte b s.pool.extent.toNat ≠ 0xAB
    (s.q.valid = false → exec .qDestroy s = .next s.seqEnded) ∧
    (s.q.valid = true → ¬bad → exec .qDestroy s = .next gone.seqEnded) ∧
    (s.q.valid = true → bad → exec .qDestroy s = .next (gone.seqRaised 0x31 .guardViolation))

/-- Q_SET_DEPTH, Q_SET_FORMAT, Q_SET_ENDIAN and Q_SET_PAD complete and keep a pool that is large enough (R353, R354,
R356, R357, R358, R361). Model's choice: Q_SET_PAD with ARG0 unwritten, Q_INV_SCALE where R361 states none (log
entries 3, 11). -/
def Obligations.SettersKeepALargeEnoughPool : Prop :=
  ∀ (s : State) (i : Instr) (q : Descriptor), s.anyWorkerBusy = false → s.q.valid = true → i.wf = true →
    s.retarget i = some q → s.padGiven i → 1 ≤ s.img.columns.toNat → s.pool.valid = true →
    speculativeExtent q s.img ≤ s.pool.extent.toNat →
    exec i s = .next { s.seqEnded with
      q := q, waccPixel := Vector.replicate 256 0, waccBits := Vector.replicate 256 0 }

/-- Q_SET_DEPTH, Q_SET_FORMAT, Q_SET_ENDIAN and Q_SET_PAD complete and reallocate a missing or too small pool (R353,
R354, R356, R357, R358, R442). Model's choice: Q_SET_PAD with ARG0 unwritten, the lists of answers, Q_INV_SCALE
where R361 states none (log entries 3, 4, 11). -/
def Obligations.SettersReallocateASmallPool : Prop :=
  ∀ (s : State) (i : Instr) (q : Descriptor), s.anyWorkerBusy = false → s.q.valid = true → i.wf = true →
    s.retarget i = some q → s.padGiven i → 1 ≤ s.img.columns.toNat →
    let e := speculativeExtent q s.img
    let n := min (max s.ports.nextThreads 1) 256
    (s.pool.valid = false ∨
      s.pool.extent.toNat < e ∧
        (s.ctrl.getLsbD 1 = true → ∀ b < s.pool.n, s.scratchByte b s.pool.extent.toNat = 0xAB)) →
    n * (e + 1) < 2 ^ 64 → s.ports.tookThreads.nextAlloc = true →
    exec i s = .next { s.seqEnded with
      q := q, pool := ⟨true, n, BitVec.ofNat 64 e⟩, scratch := freshScratch n e
      waccPixel := Vector.replicate 256 0, waccBits := Vector.replicate 256 0
      ports := s.ports.tookThreads.tookAlloc .pool (n * (e + 1)) }

/-- A setter whose extent overflows raises ResourceLimitError with its field and depth written; a bad guard raises
after the free (R353, R354, R356, R357, R358, R445, R505). Model's choice: Q_SET_PAD with ARG0 unwritten,
Q_INV_SCALE where R361 states none (log entries 3, 11). -/
def Obligations.SettersReportOverflowAndBadGuards : Prop :=
  ∀ (s : State) (i : Instr) (q : Descriptor), s.anyWorkerBusy = false → s.q.valid = true → i.wf = true →
    s.retarget i = some q → s.padGiven i → 1 ≤ s.img.columns.toNat →
    let set := { s with q := q, waccPixel := Vector.replicate 256 0, waccBits := Vector.replicate 256 0 }
    (2 ^ 64 ≤ speculativeExtent q s.img → exec i s = .next (set.seqRaised i.opcode .resourceLimit)) ∧
    (speculativeExtent q s.img < 2 ^ 64 → s.pool.valid = true → s.pool.extent.toNat < speculativeExtent q s.img →
      s.ctrl.getLsbD 1 = true → (∃ b < s.pool.n, s.scratchByte b s.pool.extent.toNat ≠ 0xAB) →
      exec i s =
        .next (State.seqRaised { set with pool := ⟨false, 0, 0⟩, scratch := [] } i.opcode .guardViolation))

/-- Every depth request gives a depth legal for the format, with the source's examples (R37, R353, R355). -/
def Obligations.DepthRequestsGiveLegalDepths : Prop :=
  (∀ (f : BitVec 2) (d : Nat), depthLegal f (depthFor f d)) ∧
  (∀ (f : BitVec 2) (d : Nat), BitVec.ofNat 7 (depthOf f d) = depthFor f d) ∧
  depthFor 2 70 = 64 ∧ depthFor 2 20 = 24 ∧ depthFor 2 15 = 16 ∧ depthFor 2 17 = 24 ∧ depthFor 2 25 = 32 ∧
  depthFor 2 32 = 32 ∧ depthFor 2 33 = 64 ∧ depthFor 2 1 = 16 ∧ depthFor 0 0 = 1 ∧ depthFor 0 12 = 12 ∧ depthFor 0 127 = 64

/-- Q_SET_SCALE, Q_SET_POLARITY and Q_RESET_STATE complete with exactly their effects (R359, R360, R361). Model's
choice: EPSILON as an exact decimal, a result R361 does not state, the form with ARG0 unwritten (log entries 3,
11, 13). -/
def Obligations.ScaleAndStateCommandsComplete : Prop :=
  ∀ s : State, s.anyWorkerBusy = false → s.q.valid = true →
    (∀ x, f64 (s.argVal 0) = .real x →
      exec .qSetScale s = .next { s.seqEnded with
        q := { s.q with scale := s.argVal 0, invScale := if |x| < 1 / 10 ^ 12 then 0x3FF0000000000000 else toF64 (1 / x) }
        waccPixel := Vector.replicate 256 0, waccBits := Vector.replicate 256 0 }) ∧
    ((∀ x, f64 (s.argVal 0) ≠ .real x) → exec .qSetScale s = .next (s.seqRaised 0x36 .option)) ∧
    (∀ b, exec (.qSetPolarity b) s = .next { s.seqEnded with q := { s.q with minIsWhite := b } }) ∧
    (∃ inv, exec .qResetState s = .next { s.seqEnded with
        q := { s.q with invScale := inv }, waccPixel := Vector.replicate 256 0, waccBits := Vector.replicate 256 0 } ∧
      ∀ x, f64 s.q.scale = .real x → inv = if |x| < 1 / 10 ^ 12 then 0x3FF0000000000000 else toF64 (1 / x))

/-- Q_GET_EXTENT, Q_GET_TYPE and Q_SET_IMAGE_TYPE complete with the row size and the codes of their tables (R362,
R363, R364, R370, R371, R372). -/
def Obligations.DescriptorQueriesComplete : Prop :=
  (∀ (s : State) (qt : BitVec 4), qt.toNat < 14 → s.q.valid = true →
    let e := rowExtent s.q s.img (channelsOfCode s.img qt.toNat)
    (e < 2 ^ 64 → exec (.qGetExtent qt) s = .next { s.seqEnded with res := { s.res with r0 := BitVec.ofNat 64 e } }) ∧
    (2 ^ 64 ≤ e →
      exec (.qGetExtent qt) s = .next (State.seqRaised { s with res := { s.res with r0 := 0 } } 0x39 .resourceLimit))) ∧
  (∀ s : State, s.q.valid = true →
    (exec .qGetType s = .next { s.seqEnded with res := { s.res with
      r0 :=
        if s.img.multispectral = true then 13
        else if s.img.pseudoClass = true then (if s.img.alpha = true then 12 else 11)
        else if s.img.colorspace = 1 then (if s.img.alpha = true then 1 else 0)
        else if s.img.colorspace = 2 then (if s.img.alpha = true then 7 else 6)
        else (if s.img.alpha = true then 3 else 2) } }) ∧
    ∀ qt : BitVec 4, qt.toNat < 14 → exec (.qSetImageType qt) s = .next { s.seqEnded with res := { s.res with
      r0 := BitVec.ofNat 64
        ([if s.q.depth = 1 then 1 else 2, 3, 6, 7, 7, 7, 8, 9, 6, 7, 6, 4, 5, 0].getD qt.toNat 0) } })

/-- Every command that needs a descriptor raises OptionError without one, with nothing else changed (R354, R363, R370,
R372, R430, R431, R441, R505). Model's choice: the form with ARG registers the host has not written since reset
(log entry 3). -/
def Obligations.CommandsNeedADescriptor : Prop :=
  ∀ (s : State) (i : Instr), i.wf = true → s.anyWorkerBusy = false → s.q.valid = false →
    i.opcode.toNat ∈ [0x32, 0x33, 0x34, 0x35, 0x36, 0x37, 0x38, 0x39, 0x3C, 0x3D, 0x40, 0x48, 0x49] →
    exec i s = .next (s.seqRaised i.opcode .option)

/-- A descriptor-mutating command raises HazardViolation while any worker is busy, before any effect (R98, R505,
R611). Model's choice: the form with ARG registers the host has not written since reset (log entry 3). -/
def Obligations.BusyWorkersBlockMutation : Prop :=
  ∀ (s : State) (i : Instr), i.wf = true → (∃ w, (s.wstat w).busy = true) →
    i.opcode.toNat ∈ [0x30, 0x31, 0x32, 0x33, 0x34, 0x35, 0x36, 0x37, 0x38, 0x40, 0x42] →
    exec i s = .next (s.seqRaised i.opcode .hazard)

/-- Q_PACK and Q_UNPACK raise the first failing check's error in the worker, with nothing else changed (R83, R400,
R403, R420, R425, R448, R505, R611). Model's choice: the list of answers; an unwritten ARG register; a busy
sequencer whose word did not decode (log entries 3, 4, 32). -/
def Obligations.WorkerCommandsCheckInOrder : Prop :=
  ∀ (s : State) (w : BitVec 8) (qt : BitVec 4) (i : Instr), i = .qPack w qt ∨ i = .qUnpack w qt → qt.toNat < 14 →
    (s.seqMutating = true ∨ s.seqReads w = true → exec i s = .next (s.workerRaised w i.opcode .hazard)) ∧
    (s.seqMutating = false → s.seqReads w = false →
      (s.q.valid = false ∨ s.pool.valid = false ∨ s.pool.n ≤ w.toNat ∨ qt.toNat = 10 ∨ qt.toNat = 11 ∨ qt.toNat = 12 ∨
        s.q.alphaType = true ∧ qt.toNat ∈ [1, 3, 4, 5, 7, 9] → exec i s = .next (s.workerRaised w i.opcode .option)) ∧
      (s.q.valid = true → s.pool.valid = true → w.toNat < s.pool.n → qt.toNat ∉ [10, 11, 12] →
        (s.q.alphaType = true → qt.toNat ∉ [1, 3, 4, 5, 7, 9]) →
        (s.img.rows.toNat ≤ (s.argVal 0).toNat → exec i s = .next (s.workerRaised w i.opcode .option)) ∧
        ((s.argVal 0).toNat < s.img.rows.toNat →
          (s.pool.extent.toNat < rowExtent s.q s.img (channelsOfCode s.img qt.toNat) →
            exec i s = .next (s.workerRaised w i.opcode .resourceLimit)) ∧
          (rowExtent s.q s.img (channelsOfCode s.img qt.toNat) ≤ s.pool.extent.toNat → s.ports.nextRow = false →
            exec i s = .next (State.workerRaised { s with ports := s.ports.tookRow (s.argVal 0).toNat }
              w i.opcode .resourceLimit)))))

/-- Q_PACK completes: the row's bytes at offsets 0 to E-1 of its own buffer, and no other byte changed (R81, R392,
R400, R401, R402, R404, R410, R420). Model's choice: the lists of answers and the law applied to them, the form
with ARG0 unwritten, a busy sequencer whose word did not decode (log entries 3, 4, 17, 32). -/
def Obligations.QPackWritesTheRow : Prop :=
  ∀ (s : State) (w : BitVec 8) (qt : BitVec 4) (t : QType) (chs : List Channel) (vss : List (List Rat))
    (more : List Rat),
    qtypeOf qt = some t → channelOrder s.img t = some chs → s.seqMutating = false → s.seqReads w = false →
    s.q.valid = true → s.pool.valid = true → w.toNat < s.pool.n → ¬(s.q.alphaType = true ∧ hasAlpha t = true) →
    (s.argVal 0).toNat < s.img.rows.toNat →
    let e := rowExtent s.q s.img (channelsOfCode s.img qt.toNat)
    e ≤ s.pool.extent.toNat → s.ports.nextRow = true → memWf s.scratch = true →
    s.ports.samples = vss.flatten ++ more → vss.length = s.img.columns.toNat →
    (∀ vs ∈ vss, vs.length = chs.length) →
    let bytes := packRow (layoutOf s.params s.q s.img) (vss.map fun vs =>
      List.zipWith (fun c v => exportSample s.params s.q (channelFlip s.params s.q c (sampleLaw s.params v))) chs vs)
    bytes.length = e ∧
    ∃ u, exec (.qPack w qt) s = .next u ∧ u.wstat w = ⟨false, true, false, 0, 0⟩ ∧ u.wresOf w = BitVec.ofNat 64 e ∧
      (∀ k (hk : k < bytes.length), u.scratchByte w.toNat k = bytes[k]) ∧
      (∀ b o, o < 2 ^ 64 → ¬(b = w.toNat ∧ o < e) → u.scratchByte b o = s.scratchByte b o) ∧
      (∀ v, v ≠ w → u.wstat v = s.wstat v ∧ u.wresOf v = s.wresOf v) ∧
      u.waccPixel = s.waccPixel.set w.toNat 0 ∧ u.waccBits = s.waccBits.set w.toNat 0 ∧
      u.ports.samples = more ∧ u.ports.rawOut = s.ports.rawOut ∧ u.ports.textOut = s.ports.textOut ∧
      u.ports.pixOut = s.ports.pixOut ∧ u.ports.raised = s.ports.raised ∧ u.ports.src = s.ports.src ∧
      { u with
        wstatus := s.wstatus, wres := s.wres, scratch := s.scratch, waccPixel := s.waccPixel
        waccBits := s.waccBits, ports := s.ports } = s

/-- Q_UNPACK completes: it stores the buffer's samples pixel by pixel, channel by channel, and changes no scratch byte
(R81, R392, R400, R401, R402, R404, R410, R425). Model's choice: the list of answers, the form with ARG0
unwritten, a busy sequencer whose word did not decode (log entries 3, 4, 32). -/
def Obligations.QUnpackStoresTheRow : Prop :=
  ∀ (s : State) (w : BitVec 8) (qt : BitVec 4) (t : QType) (chs : List Channel),
    qtypeOf qt = some t → channelOrder s.img t = some chs → s.seqMutating = false → s.seqReads w = false →
    s.q.valid = true → s.pool.valid = true → w.toNat < s.pool.n → ¬(s.q.alphaType = true ∧ hasAlpha t = true) →
    (s.argVal 0).toNat < s.img.rows.toNat →
    let e := rowExtent s.q s.img (channelsOfCode s.img qt.toNat)
    e ≤ s.pool.extent.toNat → s.ports.nextRow = true →
    let codes := unpackRow (layoutOf s.params s.q s.img) s.img.columns.toNat chs.length
      (scratchRead s.scratch w.toNat 0 e)
    ∃ u, exec (.qUnpack w qt) s = .next u ∧ u.wstat w = ⟨false, true, false, 0, 0⟩ ∧ u.wresOf w = BitVec.ofNat 64 e ∧
      u.ports.pixOut = s.ports.pixOut ++ (codes.zipIdx.flatMap fun (us, x) =>
        List.zipWith (fun c v => .sample (s.argVal 0).toNat x c.sel
          (channelFlip s.params s.q c (importSample s.params s.q v))) chs us) ∧
      (∀ v, v ≠ w → u.wstat v = s.wstat v ∧ u.wresOf v = s.wresOf v) ∧
      u.waccPixel = s.waccPixel.set w.toNat 0 ∧ u.waccBits = s.waccBits.set w.toNat 0 ∧
      u.ports.samples = s.ports.samples ∧ u.ports.rawOut = s.ports.rawOut ∧ u.ports.textOut = s.ports.textOut ∧
      u.ports.raised = s.ports.raised ∧ u.ports.src = s.ports.src ∧
      { u with
        wstatus := s.wstatus, wres := s.wres, waccPixel := s.waccPixel, waccBits := s.waccBits
        ports := s.ports } = s

/-- A worker's command leaves the sequencer and other workers alone, and a sequencer command leaves the workers alone
(R37, R39, R40, R81, R96, R505, R511). Model's choice: exec is the whole command at once (log entry 8). -/
def Obligations.AgentsLeaveEachOtherAlone : Prop :=
  (∀ (s t : State) (i : Instr) (w : BitVec 8), agentOf i = .worker w → exec i s = .next t →
    (∀ v, v ≠ w → t.wstat v = s.wstat v ∧ t.wresOf v = s.wresOf v) ∧
    (∀ b o, o < 2 ^ 64 → ¬(b = w.toNat ∧ o < s.pool.extent.toNat) → t.scratchByte b o = s.scratchByte b o) ∧
    t.res = s.res ∧ t.ctrl = s.ctrl ∧ t.q = s.q ∧ t.img = s.img ∧ t.pool = s.pool ∧ t.bw = s.bw ∧ t.br = s.br ∧
    t.lzw = s.lzw ∧ t.faxWhash = s.faxWhash ∧ t.faxBhash = s.faxBhash ∧ t.faxScan = s.faxScan ∧ t.pbBuf = s.pbBuf ∧
    { t.status with stickyErr := s.status.stickyErr, haz := s.status.haz } = s.status) ∧
  (∀ (s t : State) (i : Instr), agentOf i = .seq → exec i s = .next t →
    t.wstatus = s.wstatus ∧ t.wres = s.wres ∧
    (i.opcode.toNat ∉ [0x30, 0x31, 0x32, 0x33, 0x34, 0x35, 0x36, 0x37, 0x38, 0x40, 0x42] →
      t.q = s.q ∧ t.img = s.img ∧ t.pool = s.pool ∧ t.scratch = s.scratch ∧
      t.waccPixel = s.waccPixel ∧ t.waccBits = s.waccBits))

/-- Unpacking a packed row gives every code back, in every layout (R404, R405, R406, R407, R408). -/
def Obligations.PackedRowsReadBackTheirCodes : Prop :=
  ∀ (l : Layout) (ch : Nat) (pixels : List (List Nat)),
    (∀ us ∈ pixels, us.length = ch ∧ ∀ u ∈ us, u < 2 ^ l.depth) →
    unpackRow l pixels.length ch (packRow l pixels) = pixels

/-- With HDRI = false, importing an exported Unsigned sample gives it back at every depth that can hold the range, and
at no other (R391, R393, R398). -/
def Obligations.UnsignedSamplesRoundTrip : Prop :=
  (∀ (p : Params) (d v : Nat), p.hdri = false → p.range ≤ 2 ^ d - 1 → v ≤ p.range →
    importUnsigned p d (exportUnsigned p d v) = v) ∧
  ∀ (p : Params) (d : Nat), p.hdri = false → 2 ^ d - 1 < p.range →
    ∃ v ≤ p.range, importUnsigned p d (exportUnsigned p d v) ≠ v

/-- An exported code fits the depth, and an imported sample is an integer in 0 .. RANGE when HDRI is false (R390,
R391, R393, R394, R395, R396). Model's choice: the range of opaque and free results (log entries 12, 19). -/
def Obligations.SamplesStayInTheirDomains : Prop :=
  (∀ (p : Params) (q : Descriptor) (v : Rat), exportSample p q v < 2 ^ q.depth.toNat) ∧
  (∀ (p : Params) (q : Descriptor) (u : Nat), p.hdri = false → ∃ n : Nat, n ≤ p.range ∧ importSample p q u = n) ∧
  (∀ (p : Params) (v : FpVal), p.hdri = false → ∃ n : Nat, n ≤ p.range ∧ toInternal p v = n)

/-- RS_EXPORT and RS_IMPORT complete with the mapped sample in RES0 (R62, R392, R393, R430, R431). Model's choice:
results R13 and R393 to R396 leave open, the form with ARG0 unwritten (log entries 3, 12, 14, 15, 19). -/
def Obligations.SingleSampleCommandsComplete : Prop :=
  ∀ (s : State) (invert : Bool), s.q.valid = true →
    let v := toInternal s.params (f64 (s.argVal 0))
    let v := if invert then s.params.range - v else v
    let x := importSample s.params s.q ((s.argVal 0).toNat % 2 ^ s.q.depth.toNat)
    let x := if invert then s.params.range - x else x
    exec (.rsExport invert) s =
      .next { s.seqEnded with res := { s.res with r0 := BitVec.ofNat 64 (exportSample s.params s.q v) } } ∧
    exec (.rsImport invert) s = .next { s.seqEnded with res := { s.res with r0 := toF64 x } } ∧
    (s.q.format = 0 → s.params.range ≠ 0 → exportSample s.params s.q v =
      (min (max (v * ((2 ^ s.q.depth.toNat - 1 : Nat) : Rat) / s.params.range + 1 / 2).floor 0)
        ((2 ^ s.q.depth.toNat - 1 : Nat) : Int)).toNat)

/-- Every command completes in every state, and reads no ARG register but the ones its rule lists (R31, R122, R500,
R505). Model's choice: R31 tells a model to fault where the host has not written an operand; this model runs the
command on a free value (log entries 1, 3). -/
def Obligations.EveryCommandCompletesAndReadsOnlyItsOperands : Prop :=
  (∀ (s : State) (i : Instr), ∃ t, exec i s = .next t) ∧
  ∀ (s t : State) (i : Instr) (k : Fin 8) (v : DWord), k ∉ operandsOf i → exec i s = .next t →
    exec i (s.setArg k v) = .next (t.setArg k v)

/-- POOL_ACQUIRE completes with one zero-filled guarded buffer per thread; a failed one leaves no pool (R80, R440,
R441, R442, R445, R505). Model's choice: the lists of answers, the form with ARG0 unwritten (log entries 3, 4). -/
def Obligations.PoolAcquireGivesFreshBuffersOrNone : Prop :=
  (∀ s : State, s.anyWorkerBusy = false → s.q.valid = true →
    let e := (s.argVal 0).toNat
    let n := min (max s.ports.nextThreads 1) 256
    (s.pool.valid = true → s.ctrl.getLsbD 1 = true → ∀ b < s.pool.n, s.scratchByte b s.pool.extent.toNat = 0xAB) →
    n * (e + 1) < 2 ^ 64 → s.ports.tookThreads.nextAlloc = true →
    ∃ m, exec .poolAcquire s = .next { s.seqEnded with
        pool := ⟨true, n, s.argVal 0⟩, scratch := m
        ports := s.ports.tookThreads.tookAlloc .pool (n * (e + 1)) } ∧
      memWf m = true ∧ (∀ b o, o < e → memRead m (scratchKey b o) = 0) ∧
      ∀ b < n, memRead m (scratchKey b e) = 0xAB) ∧
  (∀ s : State, s.anyWorkerBusy = false → s.q.valid = true → s.poolLegal → s.scratchLegal →
    let n := min (max s.ports.nextThreads 1) 256
    let size := n * ((s.argVal 0).toNat + 1)
    let none := { s with pool := ⟨false, 0, 0⟩, scratch := [] }
    (s.pool.valid = true → s.ctrl.getLsbD 1 = true → (∃ b < s.pool.n, s.scratchByte b s.pool.extent.toNat ≠ 0xAB) →
      exec .poolAcquire s = .next (none.seqRaised 0x40 .guardViolation)) ∧
    ((s.ctrl.getLsbD 1 = true → ∀ b < s.pool.n, s.scratchByte b s.pool.extent.toNat = 0xAB) →
      (2 ^ 64 ≤ size → exec .poolAcquire s =
        .next (State.seqRaised { none with ports := s.ports.tookThreads } 0x40 .resourceLimit)) ∧
      (size < 2 ^ 64 → s.ports.tookThreads.nextAlloc = false → exec .poolAcquire s =
        .next (State.seqRaised { none with ports := s.ports.tookThreads.tookAlloc .pool size } 0x40 .resourceLimit))))

/-- POOL_GET and POOL_RELEASE complete; a bad guard raises GuardViolation after the pool is freed (R443, R444, R445). -/
def Obligations.PoolGetAndReleaseComplete : Prop :=
  ∀ s : State,
    (∀ w : BitVec 8, s.pool.valid = true → w.toNat < s.pool.n →
      exec (.poolGet w) s = .next { s.seqEnded with res := { s.res with r0 := w.setWidth 64, r1 := s.pool.extent } }) ∧
    (∀ w : BitVec 8, s.pool.valid = false ∨ s.pool.n ≤ w.toNat →
      exec (.poolGet w) s = .next (s.seqRaised 0x41 .option)) ∧
    (s.anyWorkerBusy = false →
      let gone := { s with pool := ⟨false, 0, 0⟩, scratch := [] }
      let bad := s.ctrl.getLsbD 1 = true ∧ ∃ b < s.pool.n, s.scratchByte b s.pool.extent.toNat ≠ 0xAB
      (s.pool.valid = false → exec .poolRelease s = .next s.seqEnded) ∧
      (s.pool.valid = true → ¬bad → exec .poolRelease s = .next gone.seqEnded) ∧
      (s.pool.valid = true → bad → exec .poolRelease s = .next (gone.seqRaised 0x42 .guardViolation)))

/-- Every command ends normally, cancelled, or by one error that its agent's status and one Raise exchange report
(R32, R33, R500, R505, R512). Model's choice: exec is the whole command at once (log entry 8). -/
def Obligations.EveryCommandReportsItsEnd : Prop :=
  ∀ (s t : State) (i : Instr), exec i s = .next t →
    match agentOf i with
    | .seq =>
      (∃ k, t.status = s.status.raisedEnd i.opcode k ∧ t.ports.raised = s.ports.raised ++ [(k, i.opcode)]) ∨
      (t.ports.raised = s.ports.raised ∧
        (t.status = s.status.ended ∨
          t.status = s.status.cancelledEnd ∧ ((∃ port, i = .faxEncode port) ∨ i = .faxDecode) ∨
          i = .clrStatus ∧ t.status = ⟨false, true, false, false, 0, 0, false, false⟩))
    | .worker w =>
      (∃ k, t.wstat w = WStatus.raisedEnd i.opcode k ∧ t.status = s.status.workerRaised k ∧
        t.ports.raised = s.ports.raised ++ [(k, i.opcode)]) ∨
      (t.ports.raised = s.ports.raised ∧ t.wstat w = ⟨false, true, false, 0, 0⟩ ∧ t.status = s.status)

/-- No command writes an ARG register, the host's side or the parameters, and only CTRL_WRITE writes CTRL (R31, R34,
R101, R135). Model's choice: fields of the model (log entries 6, 31). -/
def Obligations.CommandsLeaveTheHostSideAlone : Prop :=
  ∀ (s t : State) (i : Instr), exec i s = .next t →
    t.arg = s.arg ∧ t.host = s.host ∧ t.seen = s.seen ∧ t.params = s.params ∧
    t.seqFlight = s.seqFlight ∧ t.wFlights = s.wFlights ∧ t.inReset = s.inReset ∧ t.ports.latency = s.ports.latency ∧
    ((∀ v, i ≠ .ctrlWrite v) → t.ctrl = s.ctrl)

/-- Every step keeps the pool registers legal and the scratch memory canonical, empty without a pool (R40, R80, R82,
R442, R444, R445). -/
def Obligations.StepKeepsPoolAndScratchLegal : Prop :=
  ∀ s t : State, s.poolLegal → s.scratchLegal → step s = .next t → t.poolLegal ∧ t.scratchLegal

/-- Every step keeps every descriptor register and image latch at a legal value (R37, R39, R352, R353). -/
def Obligations.StepKeepsTheDescriptorLegal : Prop :=
  ∀ s t : State, s.descriptorLegal → step s = .next t → t.descriptorLegal

/-- Every step keeps the bit writer and the bit reader legal (R41, R42). -/
def Obligations.StepKeepsTheBitUnitsLegal : Prop :=
  ∀ s t : State, s.bw.legal → s.br.legal → step s = .next t → t.bw.legal ∧ t.br.legal

/-- Every step keeps BUSY at 1 exactly in an agent's busy window, and the block at its reset values while RST is
asserted (R6, R32, R33, R600, R601, R610, R612). Model's choice: the counting of windows, the block while RST is
asserted (log entries 1, 2, 8, 9, 31). -/
def Obligations.StepKeepsBusyBitsTrue : Prop :=
  (∀ s t : State, s.busyLegal → step s = .next t → t.busyLegal) ∧
  ∀ s t : State, s.rstLegal → step s = .next t → t.rstLegal

/-- Every step keeps the error fields 0 while ERR is 0, and CTRL's reserved bits and the accumulators 0 (R32, R33,
R34, R38, R410). -/
def Obligations.StepKeepsZeroFieldsZero : Prop :=
  ∀ s t : State, s.errFieldsLegal → s.quietLegal → step s = .next t → t.errFieldsLegal ∧ t.quietLegal

/-- The state after reset meets every invariant that the steps keep (R37, R40, R41, R42, R600, R601). Model's choice:
the model's own fields after reset (log entry 29). -/
def Obligations.ResetMeetsEveryInvariant : Prop :=
  State.reset.scratchLegal ∧ State.reset.poolLegal ∧ State.reset.descriptorLegal ∧ State.reset.bw.legal ∧
  State.reset.br.legal ∧ State.reset.busyLegal ∧ State.reset.errFieldsLegal ∧ State.reset.quietLegal ∧
  State.reset.rstLegal ∧ State.reset.inReset = false
end

