-- ==== Sys2Proof/Laws/State.lean ====
section
/-! SUPPORT. One lemma per field per update of the state: what each update writes, and what it leaves. -/

namespace Sys2Proof.Machine

open Host

/-! ### setWstat -/

@[simp] theorem State.setWstat_arg (s : State) (w : BitVec 8) (t : WStatus) : (s.setWstat w t).arg = s.arg := rfl
@[simp] theorem State.setWstat_res (s : State) (w : BitVec 8) (t : WStatus) : (s.setWstat w t).res = s.res := rfl
@[simp] theorem State.setWstat_status (s : State) (w : BitVec 8) (t : WStatus) :
    (s.setWstat w t).status = s.status := rfl
@[simp] theorem State.setWstat_ctrl (s : State) (w : BitVec 8) (t : WStatus) : (s.setWstat w t).ctrl = s.ctrl := rfl
@[simp] theorem State.setWstat_wres (s : State) (w : BitVec 8) (t : WStatus) : (s.setWstat w t).wres = s.wres := rfl
@[simp] theorem State.setWstat_q (s : State) (w : BitVec 8) (t : WStatus) : (s.setWstat w t).q = s.q := rfl
@[simp] theorem State.setWstat_img (s : State) (w : BitVec 8) (t : WStatus) : (s.setWstat w t).img = s.img := rfl
@[simp] theorem State.setWstat_pool (s : State) (w : BitVec 8) (t : WStatus) : (s.setWstat w t).pool = s.pool := rfl
@[simp] theorem State.setWstat_scratch (s : State) (w : BitVec 8) (t : WStatus) :
    (s.setWstat w t).scratch = s.scratch := rfl
@[simp] theorem State.setWstat_waccPixel (s : State) (w : BitVec 8) (t : WStatus) :
    (s.setWstat w t).waccPixel = s.waccPixel := rfl
@[simp] theorem State.setWstat_waccBits (s : State) (w : BitVec 8) (t : WStatus) :
    (s.setWstat w t).waccBits = s.waccBits := rfl
@[simp] theorem State.setWstat_bw (s : State) (w : BitVec 8) (t : WStatus) : (s.setWstat w t).bw = s.bw := rfl
@[simp] theorem State.setWstat_br (s : State) (w : BitVec 8) (t : WStatus) : (s.setWstat w t).br = s.br := rfl
@[simp] theorem State.setWstat_lzw (s : State) (w : BitVec 8) (t : WStatus) : (s.setWstat w t).lzw = s.lzw := rfl
@[simp] theorem State.setWstat_faxWhash (s : State) (w : BitVec 8) (t : WStatus) :
    (s.setWstat w t).faxWhash = s.faxWhash := rfl
@[simp] theorem State.setWstat_faxBhash (s : State) (w : BitVec 8) (t : WStatus) :
    (s.setWstat w t).faxBhash = s.faxBhash := rfl
@[simp] theorem State.setWstat_faxScan (s : State) (w : BitVec 8) (t : WStatus) :
    (s.setWstat w t).faxScan = s.faxScan := rfl
@[simp] theorem State.setWstat_pbBuf (s : State) (w : BitVec 8) (t : WStatus) :
    (s.setWstat w t).pbBuf = s.pbBuf := rfl
@[simp] theorem State.setWstat_seqFlight (s : State) (w : BitVec 8) (t : WStatus) :
    (s.setWstat w t).seqFlight = s.seqFlight := rfl
@[simp] theorem State.setWstat_wFlights (s : State) (w : BitVec 8) (t : WStatus) :
    (s.setWstat w t).wFlights = s.wFlights := rfl
@[simp] theorem State.setWstat_inReset (s : State) (w : BitVec 8) (t : WStatus) :
    (s.setWstat w t).inReset = s.inReset := rfl
@[simp] theorem State.setWstat_ports (s : State) (w : BitVec 8) (t : WStatus) :
    (s.setWstat w t).ports = s.ports := rfl
@[simp] theorem State.setWstat_host (s : State) (w : BitVec 8) (t : WStatus) : (s.setWstat w t).host = s.host := rfl
@[simp] theorem State.setWstat_seen (s : State) (w : BitVec 8) (t : WStatus) : (s.setWstat w t).seen = s.seen := rfl
@[simp] theorem State.setWstat_params (s : State) (w : BitVec 8) (t : WStatus) :
    (s.setWstat w t).params = s.params := rfl

/-! ### setWres -/

@[simp] theorem State.setWres_arg (s : State) (w : BitVec 8) (v : DWord) : (s.setWres w v).arg = s.arg := rfl
@[simp] theorem State.setWres_res (s : State) (w : BitVec 8) (v : DWord) : (s.setWres w v).res = s.res := rfl
@[simp] theorem State.setWres_status (s : State) (w : BitVec 8) (v : DWord) : (s.setWres w v).status = s.status := rfl
@[simp] theorem State.setWres_ctrl (s : State) (w : BitVec 8) (v : DWord) : (s.setWres w v).ctrl = s.ctrl := rfl
@[simp] theorem State.setWres_wstatus (s : State) (w : BitVec 8) (v : DWord) :
    (s.setWres w v).wstatus = s.wstatus := rfl
@[simp] theorem State.setWres_q (s : State) (w : BitVec 8) (v : DWord) : (s.setWres w v).q = s.q := rfl
@[simp] theorem State.setWres_img (s : State) (w : BitVec 8) (v : DWord) : (s.setWres w v).img = s.img := rfl
@[simp] theorem State.setWres_pool (s : State) (w : BitVec 8) (v : DWord) : (s.setWres w v).pool = s.pool := rfl
@[simp] theorem State.setWres_scratch (s : State) (w : BitVec 8) (v : DWord) :
    (s.setWres w v).scratch = s.scratch := rfl
@[simp] theorem State.setWres_waccPixel (s : State) (w : BitVec 8) (v : DWord) :
    (s.setWres w v).waccPixel = s.waccPixel := rfl
@[simp] theorem State.setWres_waccBits (s : State) (w : BitVec 8) (v : DWord) :
    (s.setWres w v).waccBits = s.waccBits := rfl
@[simp] theorem State.setWres_bw (s : State) (w : BitVec 8) (v : DWord) : (s.setWres w v).bw = s.bw := rfl
@[simp] theorem State.setWres_br (s : State) (w : BitVec 8) (v : DWord) : (s.setWres w v).br = s.br := rfl
@[simp] theorem State.setWres_lzw (s : State) (w : BitVec 8) (v : DWord) : (s.setWres w v).lzw = s.lzw := rfl
@[simp] theorem State.setWres_faxWhash (s : State) (w : BitVec 8) (v : DWord) :
    (s.setWres w v).faxWhash = s.faxWhash := rfl
@[simp] theorem State.setWres_faxBhash (s : State) (w : BitVec 8) (v : DWord) :
    (s.setWres w v).faxBhash = s.faxBhash := rfl
@[simp] theorem State.setWres_faxScan (s : State) (w : BitVec 8) (v : DWord) :
    (s.setWres w v).faxScan = s.faxScan := rfl
@[simp] theorem State.setWres_pbBuf (s : State) (w : BitVec 8) (v : DWord) : (s.setWres w v).pbBuf = s.pbBuf := rfl
@[simp] theorem State.setWres_seqFlight (s : State) (w : BitVec 8) (v : DWord) :
    (s.setWres w v).seqFlight = s.seqFlight := rfl
@[simp] theorem State.setWres_wFlights (s : State) (w : BitVec 8) (v : DWord) :
    (s.setWres w v).wFlights = s.wFlights := rfl
@[simp] theorem State.setWres_inReset (s : State) (w : BitVec 8) (v : DWord) :
    (s.setWres w v).inReset = s.inReset := rfl
@[simp] theorem State.setWres_ports (s : State) (w : BitVec 8) (v : DWord) : (s.setWres w v).ports = s.ports := rfl
@[simp] theorem State.setWres_host (s : State) (w : BitVec 8) (v : DWord) : (s.setWres w v).host = s.host := rfl
@[simp] theorem State.setWres_seen (s : State) (w : BitVec 8) (v : DWord) : (s.setWres w v).seen = s.seen := rfl
@[simp] theorem State.setWres_params (s : State) (w : BitVec 8) (v : DWord) : (s.setWres w v).params = s.params := rfl

/-! ### clearWacc -/

@[simp] theorem State.clearWacc_arg (s : State) (w : BitVec 8) : (s.clearWacc w).arg = s.arg := rfl
@[simp] theorem State.clearWacc_res (s : State) (w : BitVec 8) : (s.clearWacc w).res = s.res := rfl
@[simp] theorem State.clearWacc_status (s : State) (w : BitVec 8) : (s.clearWacc w).status = s.status := rfl
@[simp] theorem State.clearWacc_ctrl (s : State) (w : BitVec 8) : (s.clearWacc w).ctrl = s.ctrl := rfl
@[simp] theorem State.clearWacc_wstatus (s : State) (w : BitVec 8) : (s.clearWacc w).wstatus = s.wstatus := rfl
@[simp] theorem State.clearWacc_wres (s : State) (w : BitVec 8) : (s.clearWacc w).wres = s.wres := rfl
@[simp] theorem State.clearWacc_q (s : State) (w : BitVec 8) : (s.clearWacc w).q = s.q := rfl
@[simp] theorem State.clearWacc_img (s : State) (w : BitVec 8) : (s.clearWacc w).img = s.img := rfl
@[simp] theorem State.clearWacc_pool (s : State) (w : BitVec 8) : (s.clearWacc w).pool = s.pool := rfl
@[simp] theorem State.clearWacc_scratch (s : State) (w : BitVec 8) : (s.clearWacc w).scratch = s.scratch := rfl
@[simp] theorem State.clearWacc_bw (s : State) (w : BitVec 8) : (s.clearWacc w).bw = s.bw := rfl
@[simp] theorem State.clearWacc_br (s : State) (w : BitVec 8) : (s.clearWacc w).br = s.br := rfl
@[simp] theorem State.clearWacc_lzw (s : State) (w : BitVec 8) : (s.clearWacc w).lzw = s.lzw := rfl
@[simp] theorem State.clearWacc_faxWhash (s : State) (w : BitVec 8) : (s.clearWacc w).faxWhash = s.faxWhash := rfl
@[simp] theorem State.clearWacc_faxBhash (s : State) (w : BitVec 8) : (s.clearWacc w).faxBhash = s.faxBhash := rfl
@[simp] theorem State.clearWacc_faxScan (s : State) (w : BitVec 8) : (s.clearWacc w).faxScan = s.faxScan := rfl
@[simp] theorem State.clearWacc_pbBuf (s : State) (w : BitVec 8) : (s.clearWacc w).pbBuf = s.pbBuf := rfl
@[simp] theorem State.clearWacc_seqFlight (s : State) (w : BitVec 8) : (s.clearWacc w).seqFlight = s.seqFlight := rfl
@[simp] theorem State.clearWacc_wFlights (s : State) (w : BitVec 8) : (s.clearWacc w).wFlights = s.wFlights := rfl
@[simp] theorem State.clearWacc_inReset (s : State) (w : BitVec 8) : (s.clearWacc w).inReset = s.inReset := rfl
@[simp] theorem State.clearWacc_ports (s : State) (w : BitVec 8) : (s.clearWacc w).ports = s.ports := rfl
@[simp] theorem State.clearWacc_host (s : State) (w : BitVec 8) : (s.clearWacc w).host = s.host := rfl
@[simp] theorem State.clearWacc_seen (s : State) (w : BitVec 8) : (s.clearWacc w).seen = s.seen := rfl
@[simp] theorem State.clearWacc_params (s : State) (w : BitVec 8) : (s.clearWacc w).params = s.params := rfl

/-! ### setArg -/

@[simp] theorem State.setArg_arg (s : State) (i : Fin 8) (v : DWord) : (s.setArg i v).arg = s.arg.set i v := rfl
@[simp] theorem State.setArg_res (s : State) (i : Fin 8) (v : DWord) : (s.setArg i v).res = s.res := rfl
@[simp] theorem State.setArg_status (s : State) (i : Fin 8) (v : DWord) : (s.setArg i v).status = s.status := rfl
@[simp] theorem State.setArg_ctrl (s : State) (i : Fin 8) (v : DWord) : (s.setArg i v).ctrl = s.ctrl := rfl
@[simp] theorem State.setArg_wstatus (s : State) (i : Fin 8) (v : DWord) : (s.setArg i v).wstatus = s.wstatus := rfl
@[simp] theorem State.setArg_wres (s : State) (i : Fin 8) (v : DWord) : (s.setArg i v).wres = s.wres := rfl
@[simp] theorem State.setArg_q (s : State) (i : Fin 8) (v : DWord) : (s.setArg i v).q = s.q := rfl
@[simp] theorem State.setArg_img (s : State) (i : Fin 8) (v : DWord) : (s.setArg i v).img = s.img := rfl
@[simp] theorem State.setArg_pool (s : State) (i : Fin 8) (v : DWord) : (s.setArg i v).pool = s.pool := rfl
@[simp] theorem State.setArg_scratch (s : State) (i : Fin 8) (v : DWord) : (s.setArg i v).scratch = s.scratch := rfl
@[simp] theorem State.setArg_waccPixel (s : State) (i : Fin 8) (v : DWord) :
    (s.setArg i v).waccPixel = s.waccPixel := rfl
@[simp] theorem State.setArg_waccBits (s : State) (i : Fin 8) (v : DWord) :
    (s.setArg i v).waccBits = s.waccBits := rfl
@[simp] theorem State.setArg_bw (s : State) (i : Fin 8) (v : DWord) : (s.setArg i v).bw = s.bw := rfl
@[simp] theorem State.setArg_br (s : State) (i : Fin 8) (v : DWord) : (s.setArg i v).br = s.br := rfl
@[simp] theorem State.setArg_lzw (s : State) (i : Fin 8) (v : DWord) : (s.setArg i v).lzw = s.lzw := rfl
@[simp] theorem State.setArg_faxWhash (s : State) (i : Fin 8) (v : DWord) :
    (s.setArg i v).faxWhash = s.faxWhash := rfl
@[simp] theorem State.setArg_faxBhash (s : State) (i : Fin 8) (v : DWord) :
    (s.setArg i v).faxBhash = s.faxBhash := rfl
@[simp] theorem State.setArg_faxScan (s : State) (i : Fin 8) (v : DWord) : (s.setArg i v).faxScan = s.faxScan := rfl
@[simp] theorem State.setArg_pbBuf (s : State) (i : Fin 8) (v : DWord) : (s.setArg i v).pbBuf = s.pbBuf := rfl
@[simp] theorem State.setArg_seqFlight (s : State) (i : Fin 8) (v : DWord) :
    (s.setArg i v).seqFlight = s.seqFlight := rfl
@[simp] theorem State.setArg_wFlights (s : State) (i : Fin 8) (v : DWord) :
    (s.setArg i v).wFlights = s.wFlights := rfl
@[simp] theorem State.setArg_inReset (s : State) (i : Fin 8) (v : DWord) : (s.setArg i v).inReset = s.inReset := rfl
@[simp] theorem State.setArg_ports (s : State) (i : Fin 8) (v : DWord) : (s.setArg i v).ports = s.ports := rfl
@[simp] theorem State.setArg_host (s : State) (i : Fin 8) (v : DWord) : (s.setArg i v).host = s.host := rfl
@[simp] theorem State.setArg_seen (s : State) (i : Fin 8) (v : DWord) : (s.setArg i v).seen = s.seen := rfl
@[simp] theorem State.setArg_params (s : State) (i : Fin 8) (v : DWord) : (s.setArg i v).params = s.params := rfl

/-! ### setRes0 -/

@[simp] theorem State.setRes0_arg (s : State) (v : DWord) : (s.setRes0 v).arg = s.arg := rfl
@[simp] theorem State.setRes0_res (s : State) (v : DWord) : (s.setRes0 v).res = { s.res with r0 := v } := rfl
@[simp] theorem State.setRes0_status (s : State) (v : DWord) : (s.setRes0 v).status = s.status := rfl
@[simp] theorem State.setRes0_ctrl (s : State) (v : DWord) : (s.setRes0 v).ctrl = s.ctrl := rfl
@[simp] theorem State.setRes0_wstatus (s : State) (v : DWord) : (s.setRes0 v).wstatus = s.wstatus := rfl
@[simp] theorem State.setRes0_wres (s : State) (v : DWord) : (s.setRes0 v).wres = s.wres := rfl
@[simp] theorem State.setRes0_q (s : State) (v : DWord) : (s.setRes0 v).q = s.q := rfl
@[simp] theorem State.setRes0_img (s : State) (v : DWord) : (s.setRes0 v).img = s.img := rfl
@[simp] theorem State.setRes0_pool (s : State) (v : DWord) : (s.setRes0 v).pool = s.pool := rfl
@[simp] theorem State.setRes0_scratch (s : State) (v : DWord) : (s.setRes0 v).scratch = s.scratch := rfl
@[simp] theorem State.setRes0_waccPixel (s : State) (v : DWord) : (s.setRes0 v).waccPixel = s.waccPixel := rfl
@[simp] theorem State.setRes0_waccBits (s : State) (v : DWord) : (s.setRes0 v).waccBits = s.waccBits := rfl
@[simp] theorem State.setRes0_bw (s : State) (v : DWord) : (s.setRes0 v).bw = s.bw := rfl
@[simp] theorem State.setRes0_br (s : State) (v : DWord) : (s.setRes0 v).br = s.br := rfl
@[simp] theorem State.setRes0_lzw (s : State) (v : DWord) : (s.setRes0 v).lzw = s.lzw := rfl
@[simp] theorem State.setRes0_faxWhash (s : State) (v : DWord) : (s.setRes0 v).faxWhash = s.faxWhash := rfl
@[simp] theorem State.setRes0_faxBhash (s : State) (v : DWord) : (s.setRes0 v).faxBhash = s.faxBhash := rfl
@[simp] theorem State.setRes0_faxScan (s : State) (v : DWord) : (s.setRes0 v).faxScan = s.faxScan := rfl
@[simp] theorem State.setRes0_pbBuf (s : State) (v : DWord) : (s.setRes0 v).pbBuf = s.pbBuf := rfl
@[simp] theorem State.setRes0_seqFlight (s : State) (v : DWord) : (s.setRes0 v).seqFlight = s.seqFlight := rfl
@[simp] theorem State.setRes0_wFlights (s : State) (v : DWord) : (s.setRes0 v).wFlights = s.wFlights := rfl
@[simp] theorem State.setRes0_inReset (s : State) (v : DWord) : (s.setRes0 v).inReset = s.inReset := rfl
@[simp] theorem State.setRes0_ports (s : State) (v : DWord) : (s.setRes0 v).ports = s.ports := rfl
@[simp] theorem State.setRes0_host (s : State) (v : DWord) : (s.setRes0 v).host = s.host := rfl
@[simp] theorem State.setRes0_seen (s : State) (v : DWord) : (s.setRes0 v).seen = s.seen := rfl
@[simp] theorem State.setRes0_params (s : State) (v : DWord) : (s.setRes0 v).params = s.params := rfl

/-! ### tookAlloc -/

@[simp] theorem State.tookAlloc_arg (s : State) (what : AllocTag) (size : Nat) :
    (s.tookAlloc what size).arg = s.arg := rfl
@[simp] theorem State.tookAlloc_res (s : State) (what : AllocTag) (size : Nat) :
    (s.tookAlloc what size).res = s.res := rfl
@[simp] theorem State.tookAlloc_status (s : State) (what : AllocTag) (size : Nat) :
    (s.tookAlloc what size).status = s.status := rfl
@[simp] theorem State.tookAlloc_ctrl (s : State) (what : AllocTag) (size : Nat) :
    (s.tookAlloc what size).ctrl = s.ctrl := rfl
@[simp] theorem State.tookAlloc_wstatus (s : State) (what : AllocTag) (size : Nat) :
    (s.tookAlloc what size).wstatus = s.wstatus := rfl
@[simp] theorem State.tookAlloc_wres (s : State) (what : AllocTag) (size : Nat) :
    (s.tookAlloc what size).wres = s.wres := rfl
@[simp] theorem State.tookAlloc_q (s : State) (what : AllocTag) (size : Nat) : (s.tookAlloc what size).q = s.q := rfl
@[simp] theorem State.tookAlloc_img (s : State) (what : AllocTag) (size : Nat) :
    (s.tookAlloc what size).img = s.img := rfl
@[simp] theorem State.tookAlloc_pool (s : State) (what : AllocTag) (size : Nat) :
    (s.tookAlloc what size).pool = s.pool := rfl
@[simp] theorem State.tookAlloc_scratch (s : State) (what : AllocTag) (size : Nat) :
    (s.tookAlloc what size).scratch = s.scratch := rfl
@[simp] theorem State.tookAlloc_waccPixel (s : State) (what : AllocTag) (size : Nat) :
    (s.tookAlloc what size).waccPixel = s.waccPixel := rfl
@[simp] theorem State.tookAlloc_waccBits (s : State) (what : AllocTag) (size : Nat) :
    (s.tookAlloc what size).waccBits = s.waccBits := rfl
@[simp] theorem State.tookAlloc_bw (s : State) (what : AllocTag) (size : Nat) :
    (s.tookAlloc what size).bw = s.bw := rfl
@[simp] theorem State.tookAlloc_br (s : State) (what : AllocTag) (size : Nat) :
    (s.tookAlloc what size).br = s.br := rfl
@[simp] theorem State.tookAlloc_lzw (s : State) (what : AllocTag) (size : Nat) :
    (s.tookAlloc what size).lzw = s.lzw := rfl
@[simp] theorem State.tookAlloc_faxWhash (s : State) (what : AllocTag) (size : Nat) :
    (s.tookAlloc what size).faxWhash = s.faxWhash := rfl
@[simp] theorem State.tookAlloc_faxBhash (s : State) (what : AllocTag) (size : Nat) :
    (s.tookAlloc what size).faxBhash = s.faxBhash := rfl
@[simp] theorem State.tookAlloc_faxScan (s : State) (what : AllocTag) (size : Nat) :
    (s.tookAlloc what size).faxScan = s.faxScan := rfl
@[simp] theorem State.tookAlloc_pbBuf (s : State) (what : AllocTag) (size : Nat) :
    (s.tookAlloc what size).pbBuf = s.pbBuf := rfl
@[simp] theorem State.tookAlloc_seqFlight (s : State) (what : AllocTag) (size : Nat) :
    (s.tookAlloc what size).seqFlight = s.seqFlight := rfl
@[simp] theorem State.tookAlloc_wFlights (s : State) (what : AllocTag) (size : Nat) :
    (s.tookAlloc what size).wFlights = s.wFlights := rfl
@[simp] theorem State.tookAlloc_inReset (s : State) (what : AllocTag) (size : Nat) :
    (s.tookAlloc what size).inReset = s.inReset := rfl
@[simp] theorem State.tookAlloc_ports (s : State) (what : AllocTag) (size : Nat) :
    (s.tookAlloc what size).ports = s.ports.tookAlloc what size := rfl
@[simp] theorem State.tookAlloc_host (s : State) (what : AllocTag) (size : Nat) :
    (s.tookAlloc what size).host = s.host := rfl
@[simp] theorem State.tookAlloc_seen (s : State) (what : AllocTag) (size : Nat) :
    (s.tookAlloc what size).seen = s.seen := rfl
@[simp] theorem State.tookAlloc_params (s : State) (what : AllocTag) (size : Nat) :
    (s.tookAlloc what size).params = s.params := rfl

/-! ### tookRow -/

@[simp] theorem State.tookRow_arg (s : State) (y : Nat) : (s.tookRow y).arg = s.arg := rfl
@[simp] theorem State.tookRow_res (s : State) (y : Nat) : (s.tookRow y).res = s.res := rfl
@[simp] theorem State.tookRow_status (s : State) (y : Nat) : (s.tookRow y).status = s.status := rfl
@[simp] theorem State.tookRow_ctrl (s : State) (y : Nat) : (s.tookRow y).ctrl = s.ctrl := rfl
@[simp] theorem State.tookRow_wstatus (s : State) (y : Nat) : (s.tookRow y).wstatus = s.wstatus := rfl
@[simp] theorem State.tookRow_wres (s : State) (y : Nat) : (s.tookRow y).wres = s.wres := rfl
@[simp] theorem State.tookRow_q (s : State) (y : Nat) : (s.tookRow y).q = s.q := rfl
@[simp] theorem State.tookRow_img (s : State) (y : Nat) : (s.tookRow y).img = s.img := rfl
@[simp] theorem State.tookRow_pool (s : State) (y : Nat) : (s.tookRow y).pool = s.pool := rfl
@[simp] theorem State.tookRow_scratch (s : State) (y : Nat) : (s.tookRow y).scratch = s.scratch := rfl
@[simp] theorem State.tookRow_waccPixel (s : State) (y : Nat) : (s.tookRow y).waccPixel = s.waccPixel := rfl
@[simp] theorem State.tookRow_waccBits (s : State) (y : Nat) : (s.tookRow y).waccBits = s.waccBits := rfl
@[simp] theorem State.tookRow_bw (s : State) (y : Nat) : (s.tookRow y).bw = s.bw := rfl
@[simp] theorem State.tookRow_br (s : State) (y : Nat) : (s.tookRow y).br = s.br := rfl
@[simp] theorem State.tookRow_lzw (s : State) (y : Nat) : (s.tookRow y).lzw = s.lzw := rfl
@[simp] theorem State.tookRow_faxWhash (s : State) (y : Nat) : (s.tookRow y).faxWhash = s.faxWhash := rfl
@[simp] theorem State.tookRow_faxBhash (s : State) (y : Nat) : (s.tookRow y).faxBhash = s.faxBhash := rfl
@[simp] theorem State.tookRow_faxScan (s : State) (y : Nat) : (s.tookRow y).faxScan = s.faxScan := rfl
@[simp] theorem State.tookRow_pbBuf (s : State) (y : Nat) : (s.tookRow y).pbBuf = s.pbBuf := rfl
@[simp] theorem State.tookRow_seqFlight (s : State) (y : Nat) : (s.tookRow y).seqFlight = s.seqFlight := rfl
@[simp] theorem State.tookRow_wFlights (s : State) (y : Nat) : (s.tookRow y).wFlights = s.wFlights := rfl
@[simp] theorem State.tookRow_inReset (s : State) (y : Nat) : (s.tookRow y).inReset = s.inReset := rfl
@[simp] theorem State.tookRow_ports (s : State) (y : Nat) : (s.tookRow y).ports = s.ports.tookRow y := rfl
@[simp] theorem State.tookRow_host (s : State) (y : Nat) : (s.tookRow y).host = s.host := rfl
@[simp] theorem State.tookRow_seen (s : State) (y : Nat) : (s.tookRow y).seen = s.seen := rfl
@[simp] theorem State.tookRow_params (s : State) (y : Nat) : (s.tookRow y).params = s.params := rfl

/-! ### tookProgress -/

@[simp] theorem State.tookProgress_arg (s : State) (tag : BitVec 8) (current total : Nat) :
    (s.tookProgress tag current total).arg = s.arg := rfl
@[simp] theorem State.tookProgress_res (s : State) (tag : BitVec 8) (current total : Nat) :
    (s.tookProgress tag current total).res = s.res := rfl
@[simp] theorem State.tookProgress_status (s : State) (tag : BitVec 8) (current total : Nat) :
    (s.tookProgress tag current total).status = s.status := rfl
@[simp] theorem State.tookProgress_ctrl (s : State) (tag : BitVec 8) (current total : Nat) :
    (s.tookProgress tag current total).ctrl = s.ctrl := rfl
@[simp] theorem State.tookProgress_wstatus (s : State) (tag : BitVec 8) (current total : Nat) :
    (s.tookProgress tag current total).wstatus = s.wstatus := rfl
@[simp] theorem State.tookProgress_wres (s : State) (tag : BitVec 8) (current total : Nat) :
    (s.tookProgress tag current total).wres = s.wres := rfl
@[simp] theorem State.tookProgress_q (s : State) (tag : BitVec 8) (current total : Nat) :
    (s.tookProgress tag current total).q = s.q := rfl
@[simp] theorem State.tookProgress_img (s : State) (tag : BitVec 8) (current total : Nat) :
    (s.tookProgress tag current total).img = s.img := rfl
@[simp] theorem State.tookProgress_pool (s : State) (tag : BitVec 8) (current total : Nat) :
    (s.tookProgress tag current total).pool = s.pool := rfl
@[simp] theorem State.tookProgress_scratch (s : State) (tag : BitVec 8) (current total : Nat) :
    (s.tookProgress tag current total).scratch = s.scratch := rfl
@[simp] theorem State.tookProgress_waccPixel (s : State) (tag : BitVec 8) (current total : Nat) :
    (s.tookProgress tag current total).waccPixel = s.waccPixel := rfl
@[simp] theorem State.tookProgress_waccBits (s : State) (tag : BitVec 8) (current total : Nat) :
    (s.tookProgress tag current total).waccBits = s.waccBits := rfl
@[simp] theorem State.tookProgress_bw (s : State) (tag : BitVec 8) (current total : Nat) :
    (s.tookProgress tag current total).bw = s.bw := rfl
@[simp] theorem State.tookProgress_br (s : State) (tag : BitVec 8) (current total : Nat) :
    (s.tookProgress tag current total).br = s.br := rfl
@[simp] theorem State.tookProgress_lzw (s : State) (tag : BitVec 8) (current total : Nat) :
    (s.tookProgress tag current total).lzw = s.lzw := rfl
@[simp] theorem State.tookProgress_faxWhash (s : State) (tag : BitVec 8) (current total : Nat) :
    (s.tookProgress tag current total).faxWhash = s.faxWhash := rfl
@[simp] theorem State.tookProgress_faxBhash (s : State) (tag : BitVec 8) (current total : Nat) :
    (s.tookProgress tag current total).faxBhash = s.faxBhash := rfl
@[simp] theorem State.tookProgress_faxScan (s : State) (tag : BitVec 8) (current total : Nat) :
    (s.tookProgress tag current total).faxScan = s.faxScan := rfl
@[simp] theorem State.tookProgress_pbBuf (s : State) (tag : BitVec 8) (current total : Nat) :
    (s.tookProgress tag current total).pbBuf = s.pbBuf := rfl
@[simp] theorem State.tookProgress_seqFlight (s : State) (tag : BitVec 8) (current total : Nat) :
    (s.tookProgress tag current total).seqFlight = s.seqFlight := rfl
@[simp] theorem State.tookProgress_wFlights (s : State) (tag : BitVec 8) (current total : Nat) :
    (s.tookProgress tag current total).wFlights = s.wFlights := rfl
@[simp] theorem State.tookProgress_inReset (s : State) (tag : BitVec 8) (current total : Nat) :
    (s.tookProgress tag current total).inReset = s.inReset := rfl
@[simp] theorem State.tookProgress_ports (s : State) (tag : BitVec 8) (current total : Nat) :
    (s.tookProgress tag current total).ports = s.ports.tookProgress tag current total := rfl
@[simp] theorem State.tookProgress_host (s : State) (tag : BitVec 8) (current total : Nat) :
    (s.tookProgress tag current total).host = s.host := rfl
@[simp] theorem State.tookProgress_seen (s : State) (tag : BitVec 8) (current total : Nat) :
    (s.tookProgress tag current total).seen = s.seen := rfl
@[simp] theorem State.tookProgress_params (s : State) (tag : BitVec 8) (current total : Nat) :
    (s.tookProgress tag current total).params = s.params := rfl

/-! ### sink -/

@[simp] theorem State.sink_arg (s : State) (port : Port) (bytes : List Byte) : (s.sink port bytes).arg = s.arg := rfl
@[simp] theorem State.sink_res (s : State) (port : Port) (bytes : List Byte) : (s.sink port bytes).res = s.res := rfl
@[simp] theorem State.sink_status (s : State) (port : Port) (bytes : List Byte) :
    (s.sink port bytes).status = s.status := rfl
@[simp] theorem State.sink_ctrl (s : State) (port : Port) (bytes : List Byte) :
    (s.sink port bytes).ctrl = s.ctrl := rfl
@[simp] theorem State.sink_wstatus (s : State) (port : Port) (bytes : List Byte) :
    (s.sink port bytes).wstatus = s.wstatus := rfl
@[simp] theorem State.sink_wres (s : State) (port : Port) (bytes : List Byte) :
    (s.sink port bytes).wres = s.wres := rfl
@[simp] theorem State.sink_q (s : State) (port : Port) (bytes : List Byte) : (s.sink port bytes).q = s.q := rfl
@[simp] theorem State.sink_img (s : State) (port : Port) (bytes : List Byte) : (s.sink port bytes).img = s.img := rfl
@[simp] theorem State.sink_pool (s : State) (port : Port) (bytes : List Byte) :
    (s.sink port bytes).pool = s.pool := rfl
@[simp] theorem State.sink_scratch (s : State) (port : Port) (bytes : List Byte) :
    (s.sink port bytes).scratch = s.scratch := rfl
@[simp] theorem State.sink_waccPixel (s : State) (port : Port) (bytes : List Byte) :
    (s.sink port bytes).waccPixel = s.waccPixel := rfl
@[simp] theorem State.sink_waccBits (s : State) (port : Port) (bytes : List Byte) :
    (s.sink port bytes).waccBits = s.waccBits := rfl
@[simp] theorem State.sink_bw (s : State) (port : Port) (bytes : List Byte) : (s.sink port bytes).bw = s.bw := rfl
@[simp] theorem State.sink_br (s : State) (port : Port) (bytes : List Byte) : (s.sink port bytes).br = s.br := rfl
@[simp] theorem State.sink_lzw (s : State) (port : Port) (bytes : List Byte) : (s.sink port bytes).lzw = s.lzw := rfl
@[simp] theorem State.sink_faxWhash (s : State) (port : Port) (bytes : List Byte) :
    (s.sink port bytes).faxWhash = s.faxWhash := rfl
@[simp] theorem State.sink_faxBhash (s : State) (port : Port) (bytes : List Byte) :
    (s.sink port bytes).faxBhash = s.faxBhash := rfl
@[simp] theorem State.sink_faxScan (s : State) (port : Port) (bytes : List Byte) :
    (s.sink port bytes).faxScan = s.faxScan := rfl
@[simp] theorem State.sink_pbBuf (s : State) (port : Port) (bytes : List Byte) :
    (s.sink port bytes).pbBuf = s.pbBuf := rfl
@[simp] theorem State.sink_seqFlight (s : State) (port : Port) (bytes : List Byte) :
    (s.sink port bytes).seqFlight = s.seqFlight := rfl
@[simp] theorem State.sink_wFlights (s : State) (port : Port) (bytes : List Byte) :
    (s.sink port bytes).wFlights = s.wFlights := rfl
@[simp] theorem State.sink_inReset (s : State) (port : Port) (bytes : List Byte) :
    (s.sink port bytes).inReset = s.inReset := rfl
@[simp] theorem State.sink_ports (s : State) (port : Port) (bytes : List Byte) :
    (s.sink port bytes).ports = s.ports.sink port bytes := rfl
@[simp] theorem State.sink_host (s : State) (port : Port) (bytes : List Byte) :
    (s.sink port bytes).host = s.host := rfl
@[simp] theorem State.sink_seen (s : State) (port : Port) (bytes : List Byte) :
    (s.sink port bytes).seen = s.seen := rfl
@[simp] theorem State.sink_params (s : State) (port : Port) (bytes : List Byte) :
    (s.sink port bytes).params = s.params := rfl

/-! ### runWriter -/

@[simp] theorem State.runWriter_arg (s : State) (f : Writer → Writer) : (s.runWriter f).arg = s.arg := rfl
@[simp] theorem State.runWriter_res (s : State) (f : Writer → Writer) : (s.runWriter f).res = s.res := rfl
@[simp] theorem State.runWriter_status (s : State) (f : Writer → Writer) : (s.runWriter f).status = s.status := rfl
@[simp] theorem State.runWriter_ctrl (s : State) (f : Writer → Writer) : (s.runWriter f).ctrl = s.ctrl := rfl
@[simp] theorem State.runWriter_wstatus (s : State) (f : Writer → Writer) : (s.runWriter f).wstatus = s.wstatus := rfl
@[simp] theorem State.runWriter_wres (s : State) (f : Writer → Writer) : (s.runWriter f).wres = s.wres := rfl
@[simp] theorem State.runWriter_q (s : State) (f : Writer → Writer) : (s.runWriter f).q = s.q := rfl
@[simp] theorem State.runWriter_img (s : State) (f : Writer → Writer) : (s.runWriter f).img = s.img := rfl
@[simp] theorem State.runWriter_pool (s : State) (f : Writer → Writer) : (s.runWriter f).pool = s.pool := rfl
@[simp] theorem State.runWriter_scratch (s : State) (f : Writer → Writer) : (s.runWriter f).scratch = s.scratch := rfl
@[simp] theorem State.runWriter_waccPixel (s : State) (f : Writer → Writer) :
    (s.runWriter f).waccPixel = s.waccPixel := rfl
@[simp] theorem State.runWriter_waccBits (s : State) (f : Writer → Writer) :
    (s.runWriter f).waccBits = s.waccBits := rfl
@[simp] theorem State.runWriter_bw (s : State) (f : Writer → Writer) : (s.runWriter f).bw = (f ⟨s.bw, []⟩).bw := rfl
@[simp] theorem State.runWriter_br (s : State) (f : Writer → Writer) : (s.runWriter f).br = s.br := rfl
@[simp] theorem State.runWriter_lzw (s : State) (f : Writer → Writer) : (s.runWriter f).lzw = s.lzw := rfl
@[simp] theorem State.runWriter_faxWhash (s : State) (f : Writer → Writer) :
    (s.runWriter f).faxWhash = s.faxWhash := rfl
@[simp] theorem State.runWriter_faxBhash (s : State) (f : Writer → Writer) :
    (s.runWriter f).faxBhash = s.faxBhash := rfl
@[simp] theorem State.runWriter_faxScan (s : State) (f : Writer → Writer) : (s.runWriter f).faxScan = s.faxScan := rfl
@[simp] theorem State.runWriter_pbBuf (s : State) (f : Writer → Writer) : (s.runWriter f).pbBuf = s.pbBuf := rfl
@[simp] theorem State.runWriter_seqFlight (s : State) (f : Writer → Writer) :
    (s.runWriter f).seqFlight = s.seqFlight := rfl
@[simp] theorem State.runWriter_wFlights (s : State) (f : Writer → Writer) :
    (s.runWriter f).wFlights = s.wFlights := rfl
@[simp] theorem State.runWriter_inReset (s : State) (f : Writer → Writer) : (s.runWriter f).inReset = s.inReset := rfl
@[simp] theorem State.runWriter_ports (s : State) (f : Writer → Writer) :
    (s.runWriter f).ports = s.ports.sink s.bw.port (f ⟨s.bw, []⟩).out := rfl
@[simp] theorem State.runWriter_host (s : State) (f : Writer → Writer) : (s.runWriter f).host = s.host := rfl
@[simp] theorem State.runWriter_seen (s : State) (f : Writer → Writer) : (s.runWriter f).seen = s.seen := rfl
@[simp] theorem State.runWriter_params (s : State) (f : Writer → Writer) : (s.runWriter f).params = s.params := rfl

/-! ### initWriter -/

@[simp] theorem State.initWriter_arg (s : State) (port : Port) : (s.initWriter port).arg = s.arg := rfl
@[simp] theorem State.initWriter_res (s : State) (port : Port) : (s.initWriter port).res = s.res := rfl
@[simp] theorem State.initWriter_status (s : State) (port : Port) : (s.initWriter port).status = s.status := rfl
@[simp] theorem State.initWriter_ctrl (s : State) (port : Port) : (s.initWriter port).ctrl = s.ctrl := rfl
@[simp] theorem State.initWriter_wstatus (s : State) (port : Port) : (s.initWriter port).wstatus = s.wstatus := rfl
@[simp] theorem State.initWriter_wres (s : State) (port : Port) : (s.initWriter port).wres = s.wres := rfl
@[simp] theorem State.initWriter_q (s : State) (port : Port) : (s.initWriter port).q = s.q := rfl
@[simp] theorem State.initWriter_img (s : State) (port : Port) : (s.initWriter port).img = s.img := rfl
@[simp] theorem State.initWriter_pool (s : State) (port : Port) : (s.initWriter port).pool = s.pool := rfl
@[simp] theorem State.initWriter_scratch (s : State) (port : Port) : (s.initWriter port).scratch = s.scratch := rfl
@[simp] theorem State.initWriter_waccPixel (s : State) (port : Port) :
    (s.initWriter port).waccPixel = s.waccPixel := rfl
@[simp] theorem State.initWriter_waccBits (s : State) (port : Port) : (s.initWriter port).waccBits = s.waccBits := rfl
@[simp] theorem State.initWriter_bw (s : State) (port : Port) : (s.initWriter port).bw = ⟨0, 0x80, port⟩ := rfl
@[simp] theorem State.initWriter_br (s : State) (port : Port) : (s.initWriter port).br = s.br := rfl
@[simp] theorem State.initWriter_lzw (s : State) (port : Port) : (s.initWriter port).lzw = s.lzw := rfl
@[simp] theorem State.initWriter_faxWhash (s : State) (port : Port) : (s.initWriter port).faxWhash = s.faxWhash := rfl
@[simp] theorem State.initWriter_faxBhash (s : State) (port : Port) : (s.initWriter port).faxBhash = s.faxBhash := rfl
@[simp] theorem State.initWriter_faxScan (s : State) (port : Port) : (s.initWriter port).faxScan = s.faxScan := rfl
@[simp] theorem State.initWriter_pbBuf (s : State) (port : Port) : (s.initWriter port).pbBuf = s.pbBuf := rfl
@[simp] theorem State.initWriter_seqFlight (s : State) (port : Port) :
    (s.initWriter port).seqFlight = s.seqFlight := rfl
@[simp] theorem State.initWriter_wFlights (s : State) (port : Port) : (s.initWriter port).wFlights = s.wFlights := rfl
@[simp] theorem State.initWriter_inReset (s : State) (port : Port) : (s.initWriter port).inReset = s.inReset := rfl
@[simp] theorem State.initWriter_ports (s : State) (port : Port) : (s.initWriter port).ports = s.ports := rfl
@[simp] theorem State.initWriter_host (s : State) (port : Port) : (s.initWriter port).host = s.host := rfl
@[simp] theorem State.initWriter_seen (s : State) (port : Port) : (s.initWriter port).seen = s.seen := rfl
@[simp] theorem State.initWriter_params (s : State) (port : Port) : (s.initWriter port).params = s.params := rfl

/-! ### setReader -/

@[simp] theorem State.setReader_arg (s : State) (x : Reader) : (s.setReader x).arg = s.arg := rfl
@[simp] theorem State.setReader_res (s : State) (x : Reader) : (s.setReader x).res = s.res := rfl
@[simp] theorem State.setReader_status (s : State) (x : Reader) : (s.setReader x).status = s.status := rfl
@[simp] theorem State.setReader_ctrl (s : State) (x : Reader) : (s.setReader x).ctrl = s.ctrl := rfl
@[simp] theorem State.setReader_wstatus (s : State) (x : Reader) : (s.setReader x).wstatus = s.wstatus := rfl
@[simp] theorem State.setReader_wres (s : State) (x : Reader) : (s.setReader x).wres = s.wres := rfl
@[simp] theorem State.setReader_q (s : State) (x : Reader) : (s.setReader x).q = s.q := rfl
@[simp] theorem State.setReader_img (s : State) (x : Reader) : (s.setReader x).img = s.img := rfl
@[simp] theorem State.setReader_pool (s : State) (x : Reader) : (s.setReader x).pool = s.pool := rfl
@[simp] theorem State.setReader_scratch (s : State) (x : Reader) : (s.setReader x).scratch = s.scratch := rfl
@[simp] theorem State.setReader_waccPixel (s : State) (x : Reader) : (s.setReader x).waccPixel = s.waccPixel := rfl
@[simp] theorem State.setReader_waccBits (s : State) (x : Reader) : (s.setReader x).waccBits = s.waccBits := rfl
@[simp] theorem State.setReader_bw (s : State) (x : Reader) : (s.setReader x).bw = s.bw := rfl
@[simp] theorem State.setReader_br (s : State) (x : Reader) : (s.setReader x).br = x.br := rfl
@[simp] theorem State.setReader_lzw (s : State) (x : Reader) : (s.setReader x).lzw = s.lzw := rfl
@[simp] theorem State.setReader_faxWhash (s : State) (x : Reader) : (s.setReader x).faxWhash = s.faxWhash := rfl
@[simp] theorem State.setReader_faxBhash (s : State) (x : Reader) : (s.setReader x).faxBhash = s.faxBhash := rfl
@[simp] theorem State.setReader_faxScan (s : State) (x : Reader) : (s.setReader x).faxScan = s.faxScan := rfl
@[simp] theorem State.setReader_pbBuf (s : State) (x : Reader) : (s.setReader x).pbBuf = s.pbBuf := rfl
@[simp] theorem State.setReader_seqFlight (s : State) (x : Reader) : (s.setReader x).seqFlight = s.seqFlight := rfl
@[simp] theorem State.setReader_wFlights (s : State) (x : Reader) : (s.setReader x).wFlights = s.wFlights := rfl
@[simp] theorem State.setReader_inReset (s : State) (x : Reader) : (s.setReader x).inReset = s.inReset := rfl
@[simp] theorem State.setReader_ports (s : State) (x : Reader) :
    (s.setReader x).ports = { s.ports with src := x.src } := rfl
@[simp] theorem State.setReader_host (s : State) (x : Reader) : (s.setReader x).host = s.host := rfl
@[simp] theorem State.setReader_seen (s : State) (x : Reader) : (s.setReader x).seen = s.seen := rfl
@[simp] theorem State.setReader_params (s : State) (x : Reader) : (s.setReader x).params = s.params := rfl

/-! ### initReader -/

@[simp] theorem State.initReader_arg (s : State) : s.initReader.arg = s.arg := rfl
@[simp] theorem State.initReader_res (s : State) : s.initReader.res = s.res := rfl
@[simp] theorem State.initReader_status (s : State) : s.initReader.status = s.status := rfl
@[simp] theorem State.initReader_ctrl (s : State) : s.initReader.ctrl = s.ctrl := rfl
@[simp] theorem State.initReader_wstatus (s : State) : s.initReader.wstatus = s.wstatus := rfl
@[simp] theorem State.initReader_wres (s : State) : s.initReader.wres = s.wres := rfl
@[simp] theorem State.initReader_q (s : State) : s.initReader.q = s.q := rfl
@[simp] theorem State.initReader_img (s : State) : s.initReader.img = s.img := rfl
@[simp] theorem State.initReader_pool (s : State) : s.initReader.pool = s.pool := rfl
@[simp] theorem State.initReader_scratch (s : State) : s.initReader.scratch = s.scratch := rfl
@[simp] theorem State.initReader_waccPixel (s : State) : s.initReader.waccPixel = s.waccPixel := rfl
@[simp] theorem State.initReader_waccBits (s : State) : s.initReader.waccBits = s.waccBits := rfl
@[simp] theorem State.initReader_bw (s : State) : s.initReader.bw = s.bw := rfl
@[simp] theorem State.initReader_br (s : State) : s.initReader.br = ⟨0, 0, false, 0⟩ := rfl
@[simp] theorem State.initReader_lzw (s : State) : s.initReader.lzw = s.lzw := rfl
@[simp] theorem State.initReader_faxWhash (s : State) : s.initReader.faxWhash = s.faxWhash := rfl
@[simp] theorem State.initReader_faxBhash (s : State) : s.initReader.faxBhash = s.faxBhash := rfl
@[simp] theorem State.initReader_faxScan (s : State) : s.initReader.faxScan = s.faxScan := rfl
@[simp] theorem State.initReader_pbBuf (s : State) : s.initReader.pbBuf = s.pbBuf := rfl
@[simp] theorem State.initReader_seqFlight (s : State) : s.initReader.seqFlight = s.seqFlight := rfl
@[simp] theorem State.initReader_wFlights (s : State) : s.initReader.wFlights = s.wFlights := rfl
@[simp] theorem State.initReader_inReset (s : State) : s.initReader.inReset = s.inReset := rfl
@[simp] theorem State.initReader_ports (s : State) : s.initReader.ports = s.ports := rfl
@[simp] theorem State.initReader_host (s : State) : s.initReader.host = s.host := rfl
@[simp] theorem State.initReader_seen (s : State) : s.initReader.seen = s.seen := rfl
@[simp] theorem State.initReader_params (s : State) : s.initReader.params = s.params := rfl

/-! ### resetState -/

@[simp] theorem State.resetState_arg (s : State) : s.resetState.arg = s.arg := rfl
@[simp] theorem State.resetState_res (s : State) : s.resetState.res = s.res := rfl
@[simp] theorem State.resetState_status (s : State) : s.resetState.status = s.status := rfl
@[simp] theorem State.resetState_ctrl (s : State) : s.resetState.ctrl = s.ctrl := rfl
@[simp] theorem State.resetState_wstatus (s : State) : s.resetState.wstatus = s.wstatus := rfl
@[simp] theorem State.resetState_wres (s : State) : s.resetState.wres = s.wres := rfl
@[simp] theorem State.resetState_q (s : State) : s.resetState.q = { s.q with invScale := invScaleOf s.q.scale } := rfl
@[simp] theorem State.resetState_img (s : State) : s.resetState.img = s.img := rfl
@[simp] theorem State.resetState_pool (s : State) : s.resetState.pool = s.pool := rfl
@[simp] theorem State.resetState_scratch (s : State) : s.resetState.scratch = s.scratch := rfl
@[simp] theorem State.resetState_waccPixel (s : State) : s.resetState.waccPixel = Vector.replicate 256 0 := rfl
@[simp] theorem State.resetState_waccBits (s : State) : s.resetState.waccBits = Vector.replicate 256 0 := rfl
@[simp] theorem State.resetState_bw (s : State) : s.resetState.bw = s.bw := rfl
@[simp] theorem State.resetState_br (s : State) : s.resetState.br = s.br := rfl
@[simp] theorem State.resetState_lzw (s : State) : s.resetState.lzw = s.lzw := rfl
@[simp] theorem State.resetState_faxWhash (s : State) : s.resetState.faxWhash = s.faxWhash := rfl
@[simp] theorem State.resetState_faxBhash (s : State) : s.resetState.faxBhash = s.faxBhash := rfl
@[simp] theorem State.resetState_faxScan (s : State) : s.resetState.faxScan = s.faxScan := rfl
@[simp] theorem State.resetState_pbBuf (s : State) : s.resetState.pbBuf = s.pbBuf := rfl
@[simp] theorem State.resetState_seqFlight (s : State) : s.resetState.seqFlight = s.seqFlight := rfl
@[simp] theorem State.resetState_wFlights (s : State) : s.resetState.wFlights = s.wFlights := rfl
@[simp] theorem State.resetState_inReset (s : State) : s.resetState.inReset = s.inReset := rfl
@[simp] theorem State.resetState_ports (s : State) : s.resetState.ports = s.ports := rfl
@[simp] theorem State.resetState_host (s : State) : s.resetState.host = s.host := rfl
@[simp] theorem State.resetState_seen (s : State) : s.resetState.seen = s.seen := rfl
@[simp] theorem State.resetState_params (s : State) : s.resetState.params = s.params := rfl

/-! ### putDepth -/

@[simp] theorem State.putDepth_arg (s : State) (d : Nat) : (s.putDepth d).arg = s.arg := rfl
@[simp] theorem State.putDepth_res (s : State) (d : Nat) : (s.putDepth d).res = s.res := rfl
@[simp] theorem State.putDepth_status (s : State) (d : Nat) : (s.putDepth d).status = s.status := rfl
@[simp] theorem State.putDepth_ctrl (s : State) (d : Nat) : (s.putDepth d).ctrl = s.ctrl := rfl
@[simp] theorem State.putDepth_wstatus (s : State) (d : Nat) : (s.putDepth d).wstatus = s.wstatus := rfl
@[simp] theorem State.putDepth_wres (s : State) (d : Nat) : (s.putDepth d).wres = s.wres := rfl
@[simp] theorem State.putDepth_q (s : State) (d : Nat) :
    (s.putDepth d).q =
      { s.q with depth := BitVec.ofNat 7 (depthOf s.q.format d), invScale := invScaleOf s.q.scale } := rfl
@[simp] theorem State.putDepth_img (s : State) (d : Nat) : (s.putDepth d).img = s.img := rfl
@[simp] theorem State.putDepth_pool (s : State) (d : Nat) : (s.putDepth d).pool = s.pool := rfl
@[simp] theorem State.putDepth_scratch (s : State) (d : Nat) : (s.putDepth d).scratch = s.scratch := rfl
@[simp] theorem State.putDepth_waccPixel (s : State) (d : Nat) :
    (s.putDepth d).waccPixel = Vector.replicate 256 0 := rfl
@[simp] theorem State.putDepth_waccBits (s : State) (d : Nat) :
    (s.putDepth d).waccBits = Vector.replicate 256 0 := rfl
@[simp] theorem State.putDepth_bw (s : State) (d : Nat) : (s.putDepth d).bw = s.bw := rfl
@[simp] theorem State.putDepth_br (s : State) (d : Nat) : (s.putDepth d).br = s.br := rfl
@[simp] theorem State.putDepth_lzw (s : State) (d : Nat) : (s.putDepth d).lzw = s.lzw := rfl
@[simp] theorem State.putDepth_faxWhash (s : State) (d : Nat) : (s.putDepth d).faxWhash = s.faxWhash := rfl
@[simp] theorem State.putDepth_faxBhash (s : State) (d : Nat) : (s.putDepth d).faxBhash = s.faxBhash := rfl
@[simp] theorem State.putDepth_faxScan (s : State) (d : Nat) : (s.putDepth d).faxScan = s.faxScan := rfl
@[simp] theorem State.putDepth_pbBuf (s : State) (d : Nat) : (s.putDepth d).pbBuf = s.pbBuf := rfl
@[simp] theorem State.putDepth_seqFlight (s : State) (d : Nat) : (s.putDepth d).seqFlight = s.seqFlight := rfl
@[simp] theorem State.putDepth_wFlights (s : State) (d : Nat) : (s.putDepth d).wFlights = s.wFlights := rfl
@[simp] theorem State.putDepth_inReset (s : State) (d : Nat) : (s.putDepth d).inReset = s.inReset := rfl
@[simp] theorem State.putDepth_ports (s : State) (d : Nat) : (s.putDepth d).ports = s.ports := rfl
@[simp] theorem State.putDepth_host (s : State) (d : Nat) : (s.putDepth d).host = s.host := rfl
@[simp] theorem State.putDepth_seen (s : State) (d : Nat) : (s.putDepth d).seen = s.seen := rfl
@[simp] theorem State.putDepth_params (s : State) (d : Nat) : (s.putDepth d).params = s.params := rfl

/-! ### dropDescriptor -/

@[simp] theorem State.dropDescriptor_arg (s : State) : s.dropDescriptor.arg = s.arg := rfl
@[simp] theorem State.dropDescriptor_res (s : State) : s.dropDescriptor.res = s.res := rfl
@[simp] theorem State.dropDescriptor_status (s : State) : s.dropDescriptor.status = s.status := rfl
@[simp] theorem State.dropDescriptor_ctrl (s : State) : s.dropDescriptor.ctrl = s.ctrl := rfl
@[simp] theorem State.dropDescriptor_wstatus (s : State) : s.dropDescriptor.wstatus = s.wstatus := rfl
@[simp] theorem State.dropDescriptor_wres (s : State) : s.dropDescriptor.wres = s.wres := rfl
@[simp] theorem State.dropDescriptor_q (s : State) : s.dropDescriptor.q = Descriptor.reset := rfl
@[simp] theorem State.dropDescriptor_img (s : State) : s.dropDescriptor.img = ImageAttrs.reset := rfl
@[simp] theorem State.dropDescriptor_pool (s : State) : s.dropDescriptor.pool = s.pool := rfl
@[simp] theorem State.dropDescriptor_scratch (s : State) : s.dropDescriptor.scratch = s.scratch := rfl
@[simp] theorem State.dropDescriptor_waccPixel (s : State) : s.dropDescriptor.waccPixel = s.waccPixel := rfl
@[simp] theorem State.dropDescriptor_waccBits (s : State) : s.dropDescriptor.waccBits = s.waccBits := rfl
@[simp] theorem State.dropDescriptor_bw (s : State) : s.dropDescriptor.bw = s.bw := rfl
@[simp] theorem State.dropDescriptor_br (s : State) : s.dropDescriptor.br = s.br := rfl
@[simp] theorem State.dropDescriptor_lzw (s : State) : s.dropDescriptor.lzw = s.lzw := rfl
@[simp] theorem State.dropDescriptor_faxWhash (s : State) : s.dropDescriptor.faxWhash = s.faxWhash := rfl
@[simp] theorem State.dropDescriptor_faxBhash (s : State) : s.dropDescriptor.faxBhash = s.faxBhash := rfl
@[simp] theorem State.dropDescriptor_faxScan (s : State) : s.dropDescriptor.faxScan = s.faxScan := rfl
@[simp] theorem State.dropDescriptor_pbBuf (s : State) : s.dropDescriptor.pbBuf = s.pbBuf := rfl
@[simp] theorem State.dropDescriptor_seqFlight (s : State) : s.dropDescriptor.seqFlight = s.seqFlight := rfl
@[simp] theorem State.dropDescriptor_wFlights (s : State) : s.dropDescriptor.wFlights = s.wFlights := rfl
@[simp] theorem State.dropDescriptor_inReset (s : State) : s.dropDescriptor.inReset = s.inReset := rfl
@[simp] theorem State.dropDescriptor_ports (s : State) : s.dropDescriptor.ports = s.ports := rfl
@[simp] theorem State.dropDescriptor_host (s : State) : s.dropDescriptor.host = s.host := rfl
@[simp] theorem State.dropDescriptor_seen (s : State) : s.dropDescriptor.seen = s.seen := rfl
@[simp] theorem State.dropDescriptor_params (s : State) : s.dropDescriptor.params = s.params := rfl

/-! ### freePool -/

@[simp] theorem State.freePool_arg (s : State) : s.freePool.arg = s.arg := rfl
@[simp] theorem State.freePool_res (s : State) : s.freePool.res = s.res := rfl
@[simp] theorem State.freePool_status (s : State) : s.freePool.status = s.status := rfl
@[simp] theorem State.freePool_ctrl (s : State) : s.freePool.ctrl = s.ctrl := rfl
@[simp] theorem State.freePool_wstatus (s : State) : s.freePool.wstatus = s.wstatus := rfl
@[simp] theorem State.freePool_wres (s : State) : s.freePool.wres = s.wres := rfl
@[simp] theorem State.freePool_q (s : State) : s.freePool.q = s.q := rfl
@[simp] theorem State.freePool_img (s : State) : s.freePool.img = s.img := rfl
@[simp] theorem State.freePool_pool (s : State) : s.freePool.pool = Pool.reset := rfl
@[simp] theorem State.freePool_scratch (s : State) : s.freePool.scratch = [] := rfl
@[simp] theorem State.freePool_waccPixel (s : State) : s.freePool.waccPixel = s.waccPixel := rfl
@[simp] theorem State.freePool_waccBits (s : State) : s.freePool.waccBits = s.waccBits := rfl
@[simp] theorem State.freePool_bw (s : State) : s.freePool.bw = s.bw := rfl
@[simp] theorem State.freePool_br (s : State) : s.freePool.br = s.br := rfl
@[simp] theorem State.freePool_lzw (s : State) : s.freePool.lzw = s.lzw := rfl
@[simp] theorem State.freePool_faxWhash (s : State) : s.freePool.faxWhash = s.faxWhash := rfl
@[simp] theorem State.freePool_faxBhash (s : State) : s.freePool.faxBhash = s.faxBhash := rfl
@[simp] theorem State.freePool_faxScan (s : State) : s.freePool.faxScan = s.faxScan := rfl
@[simp] theorem State.freePool_pbBuf (s : State) : s.freePool.pbBuf = s.pbBuf := rfl
@[simp] theorem State.freePool_seqFlight (s : State) : s.freePool.seqFlight = s.seqFlight := rfl
@[simp] theorem State.freePool_wFlights (s : State) : s.freePool.wFlights = s.wFlights := rfl
@[simp] theorem State.freePool_inReset (s : State) : s.freePool.inReset = s.inReset := rfl
@[simp] theorem State.freePool_ports (s : State) : s.freePool.ports = s.ports := rfl
@[simp] theorem State.freePool_host (s : State) : s.freePool.host = s.host := rfl
@[simp] theorem State.freePool_seen (s : State) : s.freePool.seen = s.seen := rfl
@[simp] theorem State.freePool_params (s : State) : s.freePool.params = s.params := rfl

/-! ### scanRow -/

@[simp] theorem State.scanRow_arg (s : State) (y c : Nat) : (s.scanRow y c).arg = s.arg := rfl
@[simp] theorem State.scanRow_res (s : State) (y c : Nat) : (s.scanRow y c).res = s.res := rfl
@[simp] theorem State.scanRow_status (s : State) (y c : Nat) : (s.scanRow y c).status = s.status := rfl
@[simp] theorem State.scanRow_ctrl (s : State) (y c : Nat) : (s.scanRow y c).ctrl = s.ctrl := rfl
@[simp] theorem State.scanRow_wstatus (s : State) (y c : Nat) : (s.scanRow y c).wstatus = s.wstatus := rfl
@[simp] theorem State.scanRow_wres (s : State) (y c : Nat) : (s.scanRow y c).wres = s.wres := rfl
@[simp] theorem State.scanRow_q (s : State) (y c : Nat) : (s.scanRow y c).q = s.q := rfl
@[simp] theorem State.scanRow_img (s : State) (y c : Nat) : (s.scanRow y c).img = s.img := rfl
@[simp] theorem State.scanRow_pool (s : State) (y c : Nat) : (s.scanRow y c).pool = s.pool := rfl
@[simp] theorem State.scanRow_scratch (s : State) (y c : Nat) : (s.scanRow y c).scratch = s.scratch := rfl
@[simp] theorem State.scanRow_waccPixel (s : State) (y c : Nat) : (s.scanRow y c).waccPixel = s.waccPixel := rfl
@[simp] theorem State.scanRow_waccBits (s : State) (y c : Nat) : (s.scanRow y c).waccBits = s.waccBits := rfl
@[simp] theorem State.scanRow_bw (s : State) (y c : Nat) : (s.scanRow y c).bw = s.bw := rfl
@[simp] theorem State.scanRow_br (s : State) (y c : Nat) : (s.scanRow y c).br = s.br := rfl
@[simp] theorem State.scanRow_lzw (s : State) (y c : Nat) : (s.scanRow y c).lzw = s.lzw := rfl
@[simp] theorem State.scanRow_faxWhash (s : State) (y c : Nat) : (s.scanRow y c).faxWhash = s.faxWhash := rfl
@[simp] theorem State.scanRow_faxBhash (s : State) (y c : Nat) : (s.scanRow y c).faxBhash = s.faxBhash := rfl
@[simp] theorem State.scanRow_faxScan (s : State) (y c : Nat) :
    (s.scanRow y c).faxScan = (askIntensities s.params y c 0 s.ports).1.map (binarize s.params) := rfl
@[simp] theorem State.scanRow_pbBuf (s : State) (y c : Nat) : (s.scanRow y c).pbBuf = s.pbBuf := rfl
@[simp] theorem State.scanRow_seqFlight (s : State) (y c : Nat) : (s.scanRow y c).seqFlight = s.seqFlight := rfl
@[simp] theorem State.scanRow_wFlights (s : State) (y c : Nat) : (s.scanRow y c).wFlights = s.wFlights := rfl
@[simp] theorem State.scanRow_inReset (s : State) (y c : Nat) : (s.scanRow y c).inReset = s.inReset := rfl
@[simp] theorem State.scanRow_ports (s : State) (y c : Nat) :
    (s.scanRow y c).ports = (askIntensities s.params y c 0 s.ports).2 := rfl
@[simp] theorem State.scanRow_host (s : State) (y c : Nat) : (s.scanRow y c).host = s.host := rfl
@[simp] theorem State.scanRow_seen (s : State) (y c : Nat) : (s.scanRow y c).seen = s.seen := rfl
@[simp] theorem State.scanRow_params (s : State) (y c : Nat) : (s.scanRow y c).params = s.params := rfl

/-! ### dropScan -/

@[simp] theorem State.dropScan_arg (s : State) : s.dropScan.arg = s.arg := rfl
@[simp] theorem State.dropScan_res (s : State) : s.dropScan.res = s.res := rfl
@[simp] theorem State.dropScan_status (s : State) : s.dropScan.status = s.status := rfl
@[simp] theorem State.dropScan_ctrl (s : State) : s.dropScan.ctrl = s.ctrl := rfl
@[simp] theorem State.dropScan_wstatus (s : State) : s.dropScan.wstatus = s.wstatus := rfl
@[simp] theorem State.dropScan_wres (s : State) : s.dropScan.wres = s.wres := rfl
@[simp] theorem State.dropScan_q (s : State) : s.dropScan.q = s.q := rfl
@[simp] theorem State.dropScan_img (s : State) : s.dropScan.img = s.img := rfl
@[simp] theorem State.dropScan_pool (s : State) : s.dropScan.pool = s.pool := rfl
@[simp] theorem State.dropScan_scratch (s : State) : s.dropScan.scratch = s.scratch := rfl
@[simp] theorem State.dropScan_waccPixel (s : State) : s.dropScan.waccPixel = s.waccPixel := rfl
@[simp] theorem State.dropScan_waccBits (s : State) : s.dropScan.waccBits = s.waccBits := rfl
@[simp] theorem State.dropScan_bw (s : State) : s.dropScan.bw = s.bw := rfl
@[simp] theorem State.dropScan_br (s : State) : s.dropScan.br = s.br := rfl
@[simp] theorem State.dropScan_lzw (s : State) : s.dropScan.lzw = s.lzw := rfl
@[simp] theorem State.dropScan_faxWhash (s : State) : s.dropScan.faxWhash = s.faxWhash := rfl
@[simp] theorem State.dropScan_faxBhash (s : State) : s.dropScan.faxBhash = s.faxBhash := rfl
@[simp] theorem State.dropScan_faxScan (s : State) : s.dropScan.faxScan = [] := rfl
@[simp] theorem State.dropScan_pbBuf (s : State) : s.dropScan.pbBuf = s.pbBuf := rfl
@[simp] theorem State.dropScan_seqFlight (s : State) : s.dropScan.seqFlight = s.seqFlight := rfl
@[simp] theorem State.dropScan_wFlights (s : State) : s.dropScan.wFlights = s.wFlights := rfl
@[simp] theorem State.dropScan_inReset (s : State) : s.dropScan.inReset = s.inReset := rfl
@[simp] theorem State.dropScan_ports (s : State) : s.dropScan.ports = s.ports := rfl
@[simp] theorem State.dropScan_host (s : State) : s.dropScan.host = s.host := rfl
@[simp] theorem State.dropScan_seen (s : State) : s.dropScan.seen = s.seen := rfl
@[simp] theorem State.dropScan_params (s : State) : s.dropScan.params = s.params := rfl

/-! ### commitRow -/

@[simp] theorem State.commitRow_arg (s : State) (y : Nat) : (s.commitRow y).arg = s.arg := rfl
@[simp] theorem State.commitRow_res (s : State) (y : Nat) : (s.commitRow y).res = s.res := rfl
@[simp] theorem State.commitRow_status (s : State) (y : Nat) : (s.commitRow y).status = s.status := rfl
@[simp] theorem State.commitRow_ctrl (s : State) (y : Nat) : (s.commitRow y).ctrl = s.ctrl := rfl
@[simp] theorem State.commitRow_wstatus (s : State) (y : Nat) : (s.commitRow y).wstatus = s.wstatus := rfl
@[simp] theorem State.commitRow_wres (s : State) (y : Nat) : (s.commitRow y).wres = s.wres := rfl
@[simp] theorem State.commitRow_q (s : State) (y : Nat) : (s.commitRow y).q = s.q := rfl
@[simp] theorem State.commitRow_img (s : State) (y : Nat) : (s.commitRow y).img = s.img := rfl
@[simp] theorem State.commitRow_pool (s : State) (y : Nat) : (s.commitRow y).pool = s.pool := rfl
@[simp] theorem State.commitRow_scratch (s : State) (y : Nat) : (s.commitRow y).scratch = s.scratch := rfl
@[simp] theorem State.commitRow_waccPixel (s : State) (y : Nat) : (s.commitRow y).waccPixel = s.waccPixel := rfl
@[simp] theorem State.commitRow_waccBits (s : State) (y : Nat) : (s.commitRow y).waccBits = s.waccBits := rfl
@[simp] theorem State.commitRow_bw (s : State) (y : Nat) : (s.commitRow y).bw = s.bw := rfl
@[simp] theorem State.commitRow_br (s : State) (y : Nat) : (s.commitRow y).br = s.br := rfl
@[simp] theorem State.commitRow_lzw (s : State) (y : Nat) : (s.commitRow y).lzw = s.lzw := rfl
@[simp] theorem State.commitRow_faxWhash (s : State) (y : Nat) : (s.commitRow y).faxWhash = s.faxWhash := rfl
@[simp] theorem State.commitRow_faxBhash (s : State) (y : Nat) : (s.commitRow y).faxBhash = s.faxBhash := rfl
@[simp] theorem State.commitRow_faxScan (s : State) (y : Nat) : (s.commitRow y).faxScan = s.faxScan := rfl
@[simp] theorem State.commitRow_pbBuf (s : State) (y : Nat) : (s.commitRow y).pbBuf = s.pbBuf := rfl
@[simp] theorem State.commitRow_seqFlight (s : State) (y : Nat) : (s.commitRow y).seqFlight = s.seqFlight := rfl
@[simp] theorem State.commitRow_wFlights (s : State) (y : Nat) : (s.commitRow y).wFlights = s.wFlights := rfl
@[simp] theorem State.commitRow_inReset (s : State) (y : Nat) : (s.commitRow y).inReset = s.inReset := rfl
@[simp] theorem State.commitRow_ports (s : State) (y : Nat) :
    (s.commitRow y).ports = { s.ports with pixOut := s.ports.pixOut ++ bilevelWrites y 0 s.faxScan } := rfl
@[simp] theorem State.commitRow_host (s : State) (y : Nat) : (s.commitRow y).host = s.host := rfl
@[simp] theorem State.commitRow_seen (s : State) (y : Nat) : (s.commitRow y).seen = s.seen := rfl
@[simp] theorem State.commitRow_params (s : State) (y : Nat) : (s.commitRow y).params = s.params := rfl

/-! ### afterLine -/

@[simp] theorem State.afterLine_arg (s : State) (l : LineState) : (s.afterLine l).arg = s.arg := rfl
@[simp] theorem State.afterLine_res (s : State) (l : LineState) : (s.afterLine l).res = s.res := rfl
@[simp] theorem State.afterLine_status (s : State) (l : LineState) : (s.afterLine l).status = s.status := rfl
@[simp] theorem State.afterLine_ctrl (s : State) (l : LineState) : (s.afterLine l).ctrl = s.ctrl := rfl
@[simp] theorem State.afterLine_wstatus (s : State) (l : LineState) : (s.afterLine l).wstatus = s.wstatus := rfl
@[simp] theorem State.afterLine_wres (s : State) (l : LineState) : (s.afterLine l).wres = s.wres := rfl
@[simp] theorem State.afterLine_q (s : State) (l : LineState) : (s.afterLine l).q = s.q := rfl
@[simp] theorem State.afterLine_img (s : State) (l : LineState) : (s.afterLine l).img = s.img := rfl
@[simp] theorem State.afterLine_pool (s : State) (l : LineState) : (s.afterLine l).pool = s.pool := rfl
@[simp] theorem State.afterLine_scratch (s : State) (l : LineState) : (s.afterLine l).scratch = s.scratch := rfl
@[simp] theorem State.afterLine_waccPixel (s : State) (l : LineState) : (s.afterLine l).waccPixel = s.waccPixel := rfl
@[simp] theorem State.afterLine_waccBits (s : State) (l : LineState) : (s.afterLine l).waccBits = s.waccBits := rfl
@[simp] theorem State.afterLine_bw (s : State) (l : LineState) : (s.afterLine l).bw = s.bw := rfl
@[simp] theorem State.afterLine_br (s : State) (l : LineState) : (s.afterLine l).br = l.rd.br := rfl
@[simp] theorem State.afterLine_lzw (s : State) (l : LineState) : (s.afterLine l).lzw = s.lzw := rfl
@[simp] theorem State.afterLine_faxWhash (s : State) (l : LineState) : (s.afterLine l).faxWhash = s.faxWhash := rfl
@[simp] theorem State.afterLine_faxBhash (s : State) (l : LineState) : (s.afterLine l).faxBhash = s.faxBhash := rfl
@[simp] theorem State.afterLine_faxScan (s : State) (l : LineState) : (s.afterLine l).faxScan = l.scan := rfl
@[simp] theorem State.afterLine_pbBuf (s : State) (l : LineState) : (s.afterLine l).pbBuf = s.pbBuf := rfl
@[simp] theorem State.afterLine_seqFlight (s : State) (l : LineState) : (s.afterLine l).seqFlight = s.seqFlight := rfl
@[simp] theorem State.afterLine_wFlights (s : State) (l : LineState) : (s.afterLine l).wFlights = s.wFlights := rfl
@[simp] theorem State.afterLine_inReset (s : State) (l : LineState) : (s.afterLine l).inReset = s.inReset := rfl
@[simp] theorem State.afterLine_ports (s : State) (l : LineState) :
    (s.afterLine l).ports = { s.ports with src := l.rd.src } := rfl
@[simp] theorem State.afterLine_host (s : State) (l : LineState) : (s.afterLine l).host = s.host := rfl
@[simp] theorem State.afterLine_seen (s : State) (l : LineState) : (s.afterLine l).seen = s.seen := rfl
@[simp] theorem State.afterLine_params (s : State) (l : LineState) : (s.afterLine l).params = s.params := rfl

/-! ### tookLatency -/

@[simp] theorem State.tookLatency_arg (s : State) : s.tookLatency.arg = s.arg := rfl
@[simp] theorem State.tookLatency_res (s : State) : s.tookLatency.res = s.res := rfl
@[simp] theorem State.tookLatency_status (s : State) : s.tookLatency.status = s.status := rfl
@[simp] theorem State.tookLatency_ctrl (s : State) : s.tookLatency.ctrl = s.ctrl := rfl
@[simp] theorem State.tookLatency_wstatus (s : State) : s.tookLatency.wstatus = s.wstatus := rfl
@[simp] theorem State.tookLatency_wres (s : State) : s.tookLatency.wres = s.wres := rfl
@[simp] theorem State.tookLatency_q (s : State) : s.tookLatency.q = s.q := rfl
@[simp] theorem State.tookLatency_img (s : State) : s.tookLatency.img = s.img := rfl
@[simp] theorem State.tookLatency_pool (s : State) : s.tookLatency.pool = s.pool := rfl
@[simp] theorem State.tookLatency_scratch (s : State) : s.tookLatency.scratch = s.scratch := rfl
@[simp] theorem State.tookLatency_waccPixel (s : State) : s.tookLatency.waccPixel = s.waccPixel := rfl
@[simp] theorem State.tookLatency_waccBits (s : State) : s.tookLatency.waccBits = s.waccBits := rfl
@[simp] theorem State.tookLatency_bw (s : State) : s.tookLatency.bw = s.bw := rfl
@[simp] theorem State.tookLatency_br (s : State) : s.tookLatency.br = s.br := rfl
@[simp] theorem State.tookLatency_lzw (s : State) : s.tookLatency.lzw = s.lzw := rfl
@[simp] theorem State.tookLatency_faxWhash (s : State) : s.tookLatency.faxWhash = s.faxWhash := rfl
@[simp] theorem State.tookLatency_faxBhash (s : State) : s.tookLatency.faxBhash = s.faxBhash := rfl
@[simp] theorem State.tookLatency_faxScan (s : State) : s.tookLatency.faxScan = s.faxScan := rfl
@[simp] theorem State.tookLatency_pbBuf (s : State) : s.tookLatency.pbBuf = s.pbBuf := rfl
@[simp] theorem State.tookLatency_seqFlight (s : State) : s.tookLatency.seqFlight = s.seqFlight := rfl
@[simp] theorem State.tookLatency_wFlights (s : State) : s.tookLatency.wFlights = s.wFlights := rfl
@[simp] theorem State.tookLatency_inReset (s : State) : s.tookLatency.inReset = s.inReset := rfl
@[simp] theorem State.tookLatency_ports (s : State) :
    s.tookLatency.ports = { s.ports with latency := s.ports.latency.tail } := rfl
@[simp] theorem State.tookLatency_host (s : State) : s.tookLatency.host = s.host := rfl
@[simp] theorem State.tookLatency_seen (s : State) : s.tookLatency.seen = s.seen := rfl
@[simp] theorem State.tookLatency_params (s : State) : s.tookLatency.params = s.params := rfl

/-! ### seqEnded -/

@[simp] theorem State.seqEnded_arg (s : State) : s.seqEnded.arg = s.arg := rfl
@[simp] theorem State.seqEnded_res (s : State) : s.seqEnded.res = s.res := rfl
@[simp] theorem State.seqEnded_status (s : State) : s.seqEnded.status = s.status.ended := rfl
@[simp] theorem State.seqEnded_ctrl (s : State) : s.seqEnded.ctrl = s.ctrl := rfl
@[simp] theorem State.seqEnded_wstatus (s : State) : s.seqEnded.wstatus = s.wstatus := rfl
@[simp] theorem State.seqEnded_wres (s : State) : s.seqEnded.wres = s.wres := rfl
@[simp] theorem State.seqEnded_q (s : State) : s.seqEnded.q = s.q := rfl
@[simp] theorem State.seqEnded_img (s : State) : s.seqEnded.img = s.img := rfl
@[simp] theorem State.seqEnded_pool (s : State) : s.seqEnded.pool = s.pool := rfl
@[simp] theorem State.seqEnded_scratch (s : State) : s.seqEnded.scratch = s.scratch := rfl
@[simp] theorem State.seqEnded_waccPixel (s : State) : s.seqEnded.waccPixel = s.waccPixel := rfl
@[simp] theorem State.seqEnded_waccBits (s : State) : s.seqEnded.waccBits = s.waccBits := rfl
@[simp] theorem State.seqEnded_bw (s : State) : s.seqEnded.bw = s.bw := rfl
@[simp] theorem State.seqEnded_br (s : State) : s.seqEnded.br = s.br := rfl
@[simp] theorem State.seqEnded_lzw (s : State) : s.seqEnded.lzw = s.lzw := rfl
@[simp] theorem State.seqEnded_faxWhash (s : State) : s.seqEnded.faxWhash = s.faxWhash := rfl
@[simp] theorem State.seqEnded_faxBhash (s : State) : s.seqEnded.faxBhash = s.faxBhash := rfl
@[simp] theorem State.seqEnded_faxScan (s : State) : s.seqEnded.faxScan = s.faxScan := rfl
@[simp] theorem State.seqEnded_pbBuf (s : State) : s.seqEnded.pbBuf = s.pbBuf := rfl
@[simp] theorem State.seqEnded_seqFlight (s : State) : s.seqEnded.seqFlight = s.seqFlight := rfl
@[simp] theorem State.seqEnded_wFlights (s : State) : s.seqEnded.wFlights = s.wFlights := rfl
@[simp] theorem State.seqEnded_inReset (s : State) : s.seqEnded.inReset = s.inReset := rfl
@[simp] theorem State.seqEnded_ports (s : State) : s.seqEnded.ports = s.ports := rfl
@[simp] theorem State.seqEnded_host (s : State) : s.seqEnded.host = s.host := rfl
@[simp] theorem State.seqEnded_seen (s : State) : s.seqEnded.seen = s.seen := rfl
@[simp] theorem State.seqEnded_params (s : State) : s.seqEnded.params = s.params := rfl

/-! ### seqRaised -/

@[simp] theorem State.seqRaised_arg (s : State) (op : BitVec 8) (k : ErrKind) : (s.seqRaised op k).arg = s.arg := rfl
@[simp] theorem State.seqRaised_res (s : State) (op : BitVec 8) (k : ErrKind) : (s.seqRaised op k).res = s.res := rfl
@[simp] theorem State.seqRaised_status (s : State) (op : BitVec 8) (k : ErrKind) :
    (s.seqRaised op k).status = s.status.raisedEnd op k := rfl
@[simp] theorem State.seqRaised_ctrl (s : State) (op : BitVec 8) (k : ErrKind) :
    (s.seqRaised op k).ctrl = s.ctrl := rfl
@[simp] theorem State.seqRaised_wstatus (s : State) (op : BitVec 8) (k : ErrKind) :
    (s.seqRaised op k).wstatus = s.wstatus := rfl
@[simp] theorem State.seqRaised_wres (s : State) (op : BitVec 8) (k : ErrKind) :
    (s.seqRaised op k).wres = s.wres := rfl
@[simp] theorem State.seqRaised_q (s : State) (op : BitVec 8) (k : ErrKind) : (s.seqRaised op k).q = s.q := rfl
@[simp] theorem State.seqRaised_img (s : State) (op : BitVec 8) (k : ErrKind) : (s.seqRaised op k).img = s.img := rfl
@[simp] theorem State.seqRaised_pool (s : State) (op : BitVec 8) (k : ErrKind) :
    (s.seqRaised op k).pool = s.pool := rfl
@[simp] theorem State.seqRaised_scratch (s : State) (op : BitVec 8) (k : ErrKind) :
    (s.seqRaised op k).scratch = s.scratch := rfl
@[simp] theorem State.seqRaised_waccPixel (s : State) (op : BitVec 8) (k : ErrKind) :
    (s.seqRaised op k).waccPixel = s.waccPixel := rfl
@[simp] theorem State.seqRaised_waccBits (s : State) (op : BitVec 8) (k : ErrKind) :
    (s.seqRaised op k).waccBits = s.waccBits := rfl
@[simp] theorem State.seqRaised_bw (s : State) (op : BitVec 8) (k : ErrKind) : (s.seqRaised op k).bw = s.bw := rfl
@[simp] theorem State.seqRaised_br (s : State) (op : BitVec 8) (k : ErrKind) : (s.seqRaised op k).br = s.br := rfl
@[simp] theorem State.seqRaised_lzw (s : State) (op : BitVec 8) (k : ErrKind) : (s.seqRaised op k).lzw = s.lzw := rfl
@[simp] theorem State.seqRaised_faxWhash (s : State) (op : BitVec 8) (k : ErrKind) :
    (s.seqRaised op k).faxWhash = s.faxWhash := rfl
@[simp] theorem State.seqRaised_faxBhash (s : State) (op : BitVec 8) (k : ErrKind) :
    (s.seqRaised op k).faxBhash = s.faxBhash := rfl
@[simp] theorem State.seqRaised_faxScan (s : State) (op : BitVec 8) (k : ErrKind) :
    (s.seqRaised op k).faxScan = s.faxScan := rfl
@[simp] theorem State.seqRaised_pbBuf (s : State) (op : BitVec 8) (k : ErrKind) :
    (s.seqRaised op k).pbBuf = s.pbBuf := rfl
@[simp] theorem State.seqRaised_seqFlight (s : State) (op : BitVec 8) (k : ErrKind) :
    (s.seqRaised op k).seqFlight = s.seqFlight := rfl
@[simp] theorem State.seqRaised_wFlights (s : State) (op : BitVec 8) (k : ErrKind) :
    (s.seqRaised op k).wFlights = s.wFlights := rfl
@[simp] theorem State.seqRaised_inReset (s : State) (op : BitVec 8) (k : ErrKind) :
    (s.seqRaised op k).inReset = s.inReset := rfl
@[simp] theorem State.seqRaised_ports (s : State) (op : BitVec 8) (k : ErrKind) :
    (s.seqRaised op k).ports = { s.ports with raised := s.ports.raised ++ [(k, op)] } := rfl
@[simp] theorem State.seqRaised_host (s : State) (op : BitVec 8) (k : ErrKind) :
    (s.seqRaised op k).host = s.host := rfl
@[simp] theorem State.seqRaised_seen (s : State) (op : BitVec 8) (k : ErrKind) :
    (s.seqRaised op k).seen = s.seen := rfl
@[simp] theorem State.seqRaised_params (s : State) (op : BitVec 8) (k : ErrKind) :
    (s.seqRaised op k).params = s.params := rfl

/-! ### workerEnded -/

@[simp] theorem State.workerEnded_arg (s : State) (w : BitVec 8) : (s.workerEnded w).arg = s.arg := rfl
@[simp] theorem State.workerEnded_res (s : State) (w : BitVec 8) : (s.workerEnded w).res = s.res := rfl
@[simp] theorem State.workerEnded_status (s : State) (w : BitVec 8) : (s.workerEnded w).status = s.status := rfl
@[simp] theorem State.workerEnded_ctrl (s : State) (w : BitVec 8) : (s.workerEnded w).ctrl = s.ctrl := rfl
@[simp] theorem State.workerEnded_wres (s : State) (w : BitVec 8) : (s.workerEnded w).wres = s.wres := rfl
@[simp] theorem State.workerEnded_q (s : State) (w : BitVec 8) : (s.workerEnded w).q = s.q := rfl
@[simp] theorem State.workerEnded_img (s : State) (w : BitVec 8) : (s.workerEnded w).img = s.img := rfl
@[simp] theorem State.workerEnded_pool (s : State) (w : BitVec 8) : (s.workerEnded w).pool = s.pool := rfl
@[simp] theorem State.workerEnded_scratch (s : State) (w : BitVec 8) : (s.workerEnded w).scratch = s.scratch := rfl
@[simp] theorem State.workerEnded_waccPixel (s : State) (w : BitVec 8) :
    (s.workerEnded w).waccPixel = s.waccPixel := rfl
@[simp] theorem State.workerEnded_waccBits (s : State) (w : BitVec 8) : (s.workerEnded w).waccBits = s.waccBits := rfl
@[simp] theorem State.workerEnded_bw (s : State) (w : BitVec 8) : (s.workerEnded w).bw = s.bw := rfl
@[simp] theorem State.workerEnded_br (s : State) (w : BitVec 8) : (s.workerEnded w).br = s.br := rfl
@[simp] theorem State.workerEnded_lzw (s : State) (w : BitVec 8) : (s.workerEnded w).lzw = s.lzw := rfl
@[simp] theorem State.workerEnded_faxWhash (s : State) (w : BitVec 8) : (s.workerEnded w).faxWhash = s.faxWhash := rfl
@[simp] theorem State.workerEnded_faxBhash (s : State) (w : BitVec 8) : (s.workerEnded w).faxBhash = s.faxBhash := rfl
@[simp] theorem State.workerEnded_faxScan (s : State) (w : BitVec 8) : (s.workerEnded w).faxScan = s.faxScan := rfl
@[simp] theorem State.workerEnded_pbBuf (s : State) (w : BitVec 8) : (s.workerEnded w).pbBuf = s.pbBuf := rfl
@[simp] theorem State.workerEnded_seqFlight (s : State) (w : BitVec 8) :
    (s.workerEnded w).seqFlight = s.seqFlight := rfl
@[simp] theorem State.workerEnded_wFlights (s : State) (w : BitVec 8) : (s.workerEnded w).wFlights = s.wFlights := rfl
@[simp] theorem State.workerEnded_inReset (s : State) (w : BitVec 8) : (s.workerEnded w).inReset = s.inReset := rfl
@[simp] theorem State.workerEnded_ports (s : State) (w : BitVec 8) : (s.workerEnded w).ports = s.ports := rfl
@[simp] theorem State.workerEnded_host (s : State) (w : BitVec 8) : (s.workerEnded w).host = s.host := rfl
@[simp] theorem State.workerEnded_seen (s : State) (w : BitVec 8) : (s.workerEnded w).seen = s.seen := rfl
@[simp] theorem State.workerEnded_params (s : State) (w : BitVec 8) : (s.workerEnded w).params = s.params := rfl

/-! ### workerRaised -/

@[simp] theorem State.workerRaised_arg (s : State) (w : BitVec 8) (op : BitVec 8) (k : ErrKind) :
    (s.workerRaised w op k).arg = s.arg := rfl
@[simp] theorem State.workerRaised_res (s : State) (w : BitVec 8) (op : BitVec 8) (k : ErrKind) :
    (s.workerRaised w op k).res = s.res := rfl
@[simp] theorem State.workerRaised_status (s : State) (w : BitVec 8) (op : BitVec 8) (k : ErrKind) :
    (s.workerRaised w op k).status = s.status.workerRaised k := rfl
@[simp] theorem State.workerRaised_ctrl (s : State) (w : BitVec 8) (op : BitVec 8) (k : ErrKind) :
    (s.workerRaised w op k).ctrl = s.ctrl := rfl
@[simp] theorem State.workerRaised_wres (s : State) (w : BitVec 8) (op : BitVec 8) (k : ErrKind) :
    (s.workerRaised w op k).wres = s.wres := rfl
@[simp] theorem State.workerRaised_q (s : State) (w : BitVec 8) (op : BitVec 8) (k : ErrKind) :
    (s.workerRaised w op k).q = s.q := rfl
@[simp] theorem State.workerRaised_img (s : State) (w : BitVec 8) (op : BitVec 8) (k : ErrKind) :
    (s.workerRaised w op k).img = s.img := rfl
@[simp] theorem State.workerRaised_pool (s : State) (w : BitVec 8) (op : BitVec 8) (k : ErrKind) :
    (s.workerRaised w op k).pool = s.pool := rfl
@[simp] theorem State.workerRaised_scratch (s : State) (w : BitVec 8) (op : BitVec 8) (k : ErrKind) :
    (s.workerRaised w op k).scratch = s.scratch := rfl
@[simp] theorem State.workerRaised_waccPixel (s : State) (w : BitVec 8) (op : BitVec 8) (k : ErrKind) :
    (s.workerRaised w op k).waccPixel = s.waccPixel := rfl
@[simp] theorem State.workerRaised_waccBits (s : State) (w : BitVec 8) (op : BitVec 8) (k : ErrKind) :
    (s.workerRaised w op k).waccBits = s.waccBits := rfl
@[simp] theorem State.workerRaised_bw (s : State) (w : BitVec 8) (op : BitVec 8) (k : ErrKind) :
    (s.workerRaised w op k).bw = s.bw := rfl
@[simp] theorem State.workerRaised_br (s : State) (w : BitVec 8) (op : BitVec 8) (k : ErrKind) :
    (s.workerRaised w op k).br = s.br := rfl
@[simp] theorem State.workerRaised_lzw (s : State) (w : BitVec 8) (op : BitVec 8) (k : ErrKind) :
    (s.workerRaised w op k).lzw = s.lzw := rfl
@[simp] theorem State.workerRaised_faxWhash (s : State) (w : BitVec 8) (op : BitVec 8) (k : ErrKind) :
    (s.workerRaised w op k).faxWhash = s.faxWhash := rfl
@[simp] theorem State.workerRaised_faxBhash (s : State) (w : BitVec 8) (op : BitVec 8) (k : ErrKind) :
    (s.workerRaised w op k).faxBhash = s.faxBhash := rfl
@[simp] theorem State.workerRaised_faxScan (s : State) (w : BitVec 8) (op : BitVec 8) (k : ErrKind) :
    (s.workerRaised w op k).faxScan = s.faxScan := rfl
@[simp] theorem State.workerRaised_pbBuf (s : State) (w : BitVec 8) (op : BitVec 8) (k : ErrKind) :
    (s.workerRaised w op k).pbBuf = s.pbBuf := rfl
@[simp] theorem State.workerRaised_seqFlight (s : State) (w : BitVec 8) (op : BitVec 8) (k : ErrKind) :
    (s.workerRaised w op k).seqFlight = s.seqFlight := rfl
@[simp] theorem State.workerRaised_wFlights (s : State) (w : BitVec 8) (op : BitVec 8) (k : ErrKind) :
    (s.workerRaised w op k).wFlights = s.wFlights := rfl
@[simp] theorem State.workerRaised_inReset (s : State) (w : BitVec 8) (op : BitVec 8) (k : ErrKind) :
    (s.workerRaised w op k).inReset = s.inReset := rfl
@[simp] theorem State.workerRaised_ports (s : State) (w : BitVec 8) (op : BitVec 8) (k : ErrKind) :
    (s.workerRaised w op k).ports = { s.ports with raised := s.ports.raised ++ [(k, op)] } := rfl
@[simp] theorem State.workerRaised_host (s : State) (w : BitVec 8) (op : BitVec 8) (k : ErrKind) :
    (s.workerRaised w op k).host = s.host := rfl
@[simp] theorem State.workerRaised_seen (s : State) (w : BitVec 8) (op : BitVec 8) (k : ErrKind) :
    (s.workerRaised w op k).seen = s.seen := rfl
@[simp] theorem State.workerRaised_params (s : State) (w : BitVec 8) (op : BitVec 8) (k : ErrKind) :
    (s.workerRaised w op k).params = s.params := rfl

/-! ### Ports.tookAlloc -/

@[simp] theorem Ports.tookAlloc_src (p : Ports) (what : AllocTag) (size : Nat) :
    (p.tookAlloc what size).src = p.src := rfl
@[simp] theorem Ports.tookAlloc_allocs (p : Ports) (what : AllocTag) (size : Nat) :
    (p.tookAlloc what size).allocs = p.allocs.tail := rfl
@[simp] theorem Ports.tookAlloc_rows (p : Ports) (what : AllocTag) (size : Nat) :
    (p.tookAlloc what size).rows = p.rows := rfl
@[simp] theorem Ports.tookAlloc_progress (p : Ports) (what : AllocTag) (size : Nat) :
    (p.tookAlloc what size).progress = p.progress := rfl
@[simp] theorem Ports.tookAlloc_threads (p : Ports) (what : AllocTag) (size : Nat) :
    (p.tookAlloc what size).threads = p.threads := rfl
@[simp] theorem Ports.tookAlloc_samples (p : Ports) (what : AllocTag) (size : Nat) :
    (p.tookAlloc what size).samples = p.samples := rfl
@[simp] theorem Ports.tookAlloc_latency (p : Ports) (what : AllocTag) (size : Nat) :
    (p.tookAlloc what size).latency = p.latency := rfl
@[simp] theorem Ports.tookAlloc_drawn (p : Ports) (what : AllocTag) (size : Nat) :
    (p.tookAlloc what size).drawn = p.drawnAfter p.allocs := rfl
@[simp] theorem Ports.tookAlloc_rawOut (p : Ports) (what : AllocTag) (size : Nat) :
    (p.tookAlloc what size).rawOut = p.rawOut := rfl
@[simp] theorem Ports.tookAlloc_textOut (p : Ports) (what : AllocTag) (size : Nat) :
    (p.tookAlloc what size).textOut = p.textOut := rfl
@[simp] theorem Ports.tookAlloc_pixOut (p : Ports) (what : AllocTag) (size : Nat) :
    (p.tookAlloc what size).pixOut = p.pixOut := rfl
@[simp] theorem Ports.tookAlloc_requests (p : Ports) (what : AllocTag) (size : Nat) :
    (p.tookAlloc what size).requests = p.requests ++ [.alloc what size] := rfl
@[simp] theorem Ports.tookAlloc_raised (p : Ports) (what : AllocTag) (size : Nat) :
    (p.tookAlloc what size).raised = p.raised := rfl

/-! ### Ports.tookRow -/

@[simp] theorem Ports.tookRow_src (p : Ports) (y : Nat) : (p.tookRow y).src = p.src := rfl
@[simp] theorem Ports.tookRow_allocs (p : Ports) (y : Nat) : (p.tookRow y).allocs = p.allocs := rfl
@[simp] theorem Ports.tookRow_rows (p : Ports) (y : Nat) : (p.tookRow y).rows = p.rows.tail := rfl
@[simp] theorem Ports.tookRow_progress (p : Ports) (y : Nat) : (p.tookRow y).progress = p.progress := rfl
@[simp] theorem Ports.tookRow_threads (p : Ports) (y : Nat) : (p.tookRow y).threads = p.threads := rfl
@[simp] theorem Ports.tookRow_samples (p : Ports) (y : Nat) : (p.tookRow y).samples = p.samples := rfl
@[simp] theorem Ports.tookRow_latency (p : Ports) (y : Nat) : (p.tookRow y).latency = p.latency := rfl
@[simp] theorem Ports.tookRow_drawn (p : Ports) (y : Nat) : (p.tookRow y).drawn = p.drawnAfter p.rows := rfl
@[simp] theorem Ports.tookRow_rawOut (p : Ports) (y : Nat) : (p.tookRow y).rawOut = p.rawOut := rfl
@[simp] theorem Ports.tookRow_textOut (p : Ports) (y : Nat) : (p.tookRow y).textOut = p.textOut := rfl
@[simp] theorem Ports.tookRow_pixOut (p : Ports) (y : Nat) : (p.tookRow y).pixOut = p.pixOut := rfl
@[simp] theorem Ports.tookRow_requests (p : Ports) (y : Nat) :
    (p.tookRow y).requests = p.requests ++ [.acquireRow y] := rfl
@[simp] theorem Ports.tookRow_raised (p : Ports) (y : Nat) : (p.tookRow y).raised = p.raised := rfl

/-! ### Ports.tookProgress -/

@[simp] theorem Ports.tookProgress_src (p : Ports) (tag : BitVec 8) (current total : Nat) :
    (p.tookProgress tag current total).src = p.src := rfl
@[simp] theorem Ports.tookProgress_allocs (p : Ports) (tag : BitVec 8) (current total : Nat) :
    (p.tookProgress tag current total).allocs = p.allocs := rfl
@[simp] theorem Ports.tookProgress_rows (p : Ports) (tag : BitVec 8) (current total : Nat) :
    (p.tookProgress tag current total).rows = p.rows := rfl
@[simp] theorem Ports.tookProgress_progress (p : Ports) (tag : BitVec 8) (current total : Nat) :
    (p.tookProgress tag current total).progress = p.progress.tail := rfl
@[simp] theorem Ports.tookProgress_threads (p : Ports) (tag : BitVec 8) (current total : Nat) :
    (p.tookProgress tag current total).threads = p.threads := rfl
@[simp] theorem Ports.tookProgress_samples (p : Ports) (tag : BitVec 8) (current total : Nat) :
    (p.tookProgress tag current total).samples = p.samples := rfl
@[simp] theorem Ports.tookProgress_latency (p : Ports) (tag : BitVec 8) (current total : Nat) :
    (p.tookProgress tag current total).latency = p.latency := rfl
@[simp] theorem Ports.tookProgress_drawn (p : Ports) (tag : BitVec 8) (current total : Nat) :
    (p.tookProgress tag current total).drawn = p.drawnAfter p.progress := rfl
@[simp] theorem Ports.tookProgress_rawOut (p : Ports) (tag : BitVec 8) (current total : Nat) :
    (p.tookProgress tag current total).rawOut = p.rawOut := rfl
@[simp] theorem Ports.tookProgress_textOut (p : Ports) (tag : BitVec 8) (current total : Nat) :
    (p.tookProgress tag current total).textOut = p.textOut := rfl
@[simp] theorem Ports.tookProgress_pixOut (p : Ports) (tag : BitVec 8) (current total : Nat) :
    (p.tookProgress tag current total).pixOut = p.pixOut := rfl
@[simp] theorem Ports.tookProgress_requests (p : Ports) (tag : BitVec 8) (current total : Nat) :
    (p.tookProgress tag current total).requests = p.requests ++ [.progress tag current total] := rfl
@[simp] theorem Ports.tookProgress_raised (p : Ports) (tag : BitVec 8) (current total : Nat) :
    (p.tookProgress tag current total).raised = p.raised := rfl

/-! ### Ports.tookThreads -/

@[simp] theorem Ports.tookThreads_src (p : Ports) : p.tookThreads.src = p.src := rfl
@[simp] theorem Ports.tookThreads_allocs (p : Ports) : p.tookThreads.allocs = p.allocs := rfl
@[simp] theorem Ports.tookThreads_rows (p : Ports) : p.tookThreads.rows = p.rows := rfl
@[simp] theorem Ports.tookThreads_progress (p : Ports) : p.tookThreads.progress = p.progress := rfl
@[simp] theorem Ports.tookThreads_threads (p : Ports) : p.tookThreads.threads = p.threads.tail := rfl
@[simp] theorem Ports.tookThreads_samples (p : Ports) : p.tookThreads.samples = p.samples := rfl
@[simp] theorem Ports.tookThreads_latency (p : Ports) : p.tookThreads.latency = p.latency := rfl
@[simp] theorem Ports.tookThreads_drawn (p : Ports) : p.tookThreads.drawn = p.drawnAfter p.threads := rfl
@[simp] theorem Ports.tookThreads_rawOut (p : Ports) : p.tookThreads.rawOut = p.rawOut := rfl
@[simp] theorem Ports.tookThreads_textOut (p : Ports) : p.tookThreads.textOut = p.textOut := rfl
@[simp] theorem Ports.tookThreads_pixOut (p : Ports) : p.tookThreads.pixOut = p.pixOut := rfl
@[simp] theorem Ports.tookThreads_requests (p : Ports) : p.tookThreads.requests = p.requests ++ [.threadLimit] := rfl
@[simp] theorem Ports.tookThreads_raised (p : Ports) : p.tookThreads.raised = p.raised := rfl

/-! ### Ports.tookSample -/

@[simp] theorem Ports.tookSample_src (p : Ports) (r : Request) : (p.tookSample r).src = p.src := rfl
@[simp] theorem Ports.tookSample_allocs (p : Ports) (r : Request) : (p.tookSample r).allocs = p.allocs := rfl
@[simp] theorem Ports.tookSample_rows (p : Ports) (r : Request) : (p.tookSample r).rows = p.rows := rfl
@[simp] theorem Ports.tookSample_progress (p : Ports) (r : Request) : (p.tookSample r).progress = p.progress := rfl
@[simp] theorem Ports.tookSample_threads (p : Ports) (r : Request) : (p.tookSample r).threads = p.threads := rfl
@[simp] theorem Ports.tookSample_samples (p : Ports) (r : Request) : (p.tookSample r).samples = p.samples.tail := rfl
@[simp] theorem Ports.tookSample_latency (p : Ports) (r : Request) : (p.tookSample r).latency = p.latency := rfl
@[simp] theorem Ports.tookSample_drawn (p : Ports) (r : Request) :
    (p.tookSample r).drawn = p.drawnAfter p.samples := rfl
@[simp] theorem Ports.tookSample_rawOut (p : Ports) (r : Request) : (p.tookSample r).rawOut = p.rawOut := rfl
@[simp] theorem Ports.tookSample_textOut (p : Ports) (r : Request) : (p.tookSample r).textOut = p.textOut := rfl
@[simp] theorem Ports.tookSample_pixOut (p : Ports) (r : Request) : (p.tookSample r).pixOut = p.pixOut := rfl
@[simp] theorem Ports.tookSample_requests (p : Ports) (r : Request) :
    (p.tookSample r).requests = p.requests ++ [r] := rfl
@[simp] theorem Ports.tookSample_raised (p : Ports) (r : Request) : (p.tookSample r).raised = p.raised := rfl

/-! ### Ports.raise -/

@[simp] theorem Ports.raise_src (p : Ports) (k : ErrKind) (op : BitVec 8) : (p.raise k op).src = p.src := rfl
@[simp] theorem Ports.raise_allocs (p : Ports) (k : ErrKind) (op : BitVec 8) : (p.raise k op).allocs = p.allocs := rfl
@[simp] theorem Ports.raise_rows (p : Ports) (k : ErrKind) (op : BitVec 8) : (p.raise k op).rows = p.rows := rfl
@[simp] theorem Ports.raise_progress (p : Ports) (k : ErrKind) (op : BitVec 8) :
    (p.raise k op).progress = p.progress := rfl
@[simp] theorem Ports.raise_threads (p : Ports) (k : ErrKind) (op : BitVec 8) :
    (p.raise k op).threads = p.threads := rfl
@[simp] theorem Ports.raise_samples (p : Ports) (k : ErrKind) (op : BitVec 8) :
    (p.raise k op).samples = p.samples := rfl
@[simp] theorem Ports.raise_latency (p : Ports) (k : ErrKind) (op : BitVec 8) :
    (p.raise k op).latency = p.latency := rfl
@[simp] theorem Ports.raise_drawn (p : Ports) (k : ErrKind) (op : BitVec 8) : (p.raise k op).drawn = p.drawn := rfl
@[simp] theorem Ports.raise_rawOut (p : Ports) (k : ErrKind) (op : BitVec 8) : (p.raise k op).rawOut = p.rawOut := rfl
@[simp] theorem Ports.raise_textOut (p : Ports) (k : ErrKind) (op : BitVec 8) :
    (p.raise k op).textOut = p.textOut := rfl
@[simp] theorem Ports.raise_pixOut (p : Ports) (k : ErrKind) (op : BitVec 8) : (p.raise k op).pixOut = p.pixOut := rfl
@[simp] theorem Ports.raise_requests (p : Ports) (k : ErrKind) (op : BitVec 8) :
    (p.raise k op).requests = p.requests := rfl
@[simp] theorem Ports.raise_raised (p : Ports) (k : ErrKind) (op : BitVec 8) :
    (p.raise k op).raised = p.raised ++ [(k, op)] := rfl

/-! ### Ports.sink -/

@[simp] theorem Ports.sink_src (p : Ports) (port : Port) (bytes : List Byte) :
    (p.sink port bytes).src = p.src := by cases port <;> rfl
@[simp] theorem Ports.sink_allocs (p : Ports) (port : Port) (bytes : List Byte) :
    (p.sink port bytes).allocs = p.allocs := by cases port <;> rfl
@[simp] theorem Ports.sink_rows (p : Ports) (port : Port) (bytes : List Byte) :
    (p.sink port bytes).rows = p.rows := by cases port <;> rfl
@[simp] theorem Ports.sink_progress (p : Ports) (port : Port) (bytes : List Byte) :
    (p.sink port bytes).progress = p.progress := by cases port <;> rfl
@[simp] theorem Ports.sink_threads (p : Ports) (port : Port) (bytes : List Byte) :
    (p.sink port bytes).threads = p.threads := by cases port <;> rfl
@[simp] theorem Ports.sink_samples (p : Ports) (port : Port) (bytes : List Byte) :
    (p.sink port bytes).samples = p.samples := by cases port <;> rfl
@[simp] theorem Ports.sink_latency (p : Ports) (port : Port) (bytes : List Byte) :
    (p.sink port bytes).latency = p.latency := by cases port <;> rfl
@[simp] theorem Ports.sink_drawn (p : Ports) (port : Port) (bytes : List Byte) :
    (p.sink port bytes).drawn = p.drawn := by cases port <;> rfl
@[simp] theorem Ports.sink_pixOut (p : Ports) (port : Port) (bytes : List Byte) :
    (p.sink port bytes).pixOut = p.pixOut := by cases port <;> rfl
@[simp] theorem Ports.sink_requests (p : Ports) (port : Port) (bytes : List Byte) :
    (p.sink port bytes).requests = p.requests := by cases port <;> rfl
@[simp] theorem Ports.sink_raised (p : Ports) (port : Port) (bytes : List Byte) :
    (p.sink port bytes).raised = p.raised := by cases port <;> rfl
@[simp] theorem Ports.sink_sent (p : Ports) (port : Port) (bytes : List Byte) :
    (p.sink port bytes).sent port = p.sent port ++ bytes := by cases port <;> rfl
theorem Ports.sink_sent_other (p : Ports) (port port' : Port) (bytes : List Byte) (h : port' ≠ port) :
    (p.sink port bytes).sent port' = p.sent port' := by cases port <;> cases port' <;> first | rfl | exact absurd rfl h
@[simp] theorem Ports.sink_nil (p : Ports) (port : Port) : p.sink port [] = p := by
  cases port <;> simp [Ports.sink]
theorem Ports.sink_sink (p : Ports) (port : Port) (a b : List Byte) :
    (p.sink port a).sink port b = p.sink port (a ++ b) := by cases port <;> simp [Ports.sink]

/-! ### Worker registers -/

@[simp] theorem State.wstat_setWstat (s : State) (w : BitVec 8) (t : WStatus) : (s.setWstat w t).wstat w = t := by
  simp [State.wstat, State.setWstat]
theorem State.wstat_setWstat_other (s : State) (w v : BitVec 8) (t : WStatus) (h : v ≠ w) :
    (s.setWstat w t).wstat v = s.wstat v := by
  have : w.toNat ≠ v.toNat := fun e => h (BitVec.eq_of_toNat_eq e.symm)
  simp [State.wstat, State.setWstat, this]
@[simp] theorem State.wresOf_setWres (s : State) (w : BitVec 8) (v : DWord) : (s.setWres w v).wresOf w = v := by
  simp [State.wresOf, State.setWres]
theorem State.wresOf_setWres_other (s : State) (w u : BitVec 8) (v : DWord) (h : u ≠ w) :
    (s.setWres w v).wresOf u = s.wresOf u := by
  have : w.toNat ≠ u.toNat := fun e => h (BitVec.eq_of_toNat_eq e.symm)
  simp [State.wresOf, State.setWres, this]
@[simp] theorem State.wstat_setWres (s : State) (w u : BitVec 8) (v : DWord) :
    (s.setWres w v).wstat u = s.wstat u := rfl
@[simp] theorem State.wresOf_setWstat (s : State) (w u : BitVec 8) (t : WStatus) :
    (s.setWstat w t).wresOf u = s.wresOf u := rfl
theorem State.setWstat_setWstat (s : State) (w : BitVec 8) (t t' : WStatus) :
    (s.setWstat w t).setWstat w t' = s.setWstat w t' := by simp [State.setWstat, Vector.set_set]

/-! ### Argument registers -/

@[simp] theorem State.argVal_setArg (s : State) (i : Fin 8) (v : DWord) : (s.setArg i v).argVal i = v := by
  simp [State.argVal, State.setArg]
theorem State.argVal_setArg_other (s : State) (i j : Fin 8) (v : DWord) (h : j ≠ i) :
    (s.setArg i v).argVal j = s.argVal j := by
  have : i.val ≠ j.val := fun e => h (Fin.ext e.symm)
  simp [State.argVal, State.setArg, this]
/-! ### The ends of a command -/

@[simp] theorem Status.finish_begin (t : Status) : t.begin.finish = t.ended := rfl
@[simp] theorem Status.cancel_begin (t : Status) : t.begin.cancel = t.cancelledEnd := rfl
@[simp] theorem Status.fail_begin (t : Status) (op : BitVec 8) (k : ErrKind) :
    (t.begin.fail op k).stick k = t.raisedEnd op k := rfl
@[simp] theorem WStatus.finish_begin (t : WStatus) : t.begin.finish = WStatus.ended := rfl
@[simp] theorem WStatus.fail_raisedEnd (t : WStatus) (op : BitVec 8) (k : ErrKind) :
    t.fail op k = WStatus.raisedEnd op k := rfl
@[simp] theorem Status.stick_workerRaised (t : Status) (k : ErrKind) : t.stick k = t.workerRaised k := rfl

end Sys2Proof.Machine
end

