-- ==== Sys2Proof/Laws/Commands.lean ====
section
/-! SUPPORT. What each shared operation of the commands can do, said once: the provers cite these instead of unfolding. -/

namespace Sys2Proof.Machine

open Host

/-! ### Arguments and checks -/

/-- A bound of Q_ACQUIRE that the attribute record gives is the argument's value. -/
@[simp] theorem boundArg_given (i : Fin 8) (dflt : DWord) (s : State) : boundArg i true dflt s = s.argVal i := rfl

/-- A bound of Q_ACQUIRE that the attribute record does not give is the default. -/
@[simp] theorem boundArg_default (i : Fin 8) (dflt : DWord) (s : State) : boundArg i false dflt s = dflt := rfl

/-- The hazard check of R611 case 1 passes or raises HazardViolation with the state unchanged. -/
theorem hazardCheck_cases (s : State) (k : CmdEnd) :
    (s.anyWorkerBusy = false ∧ hazardCheck s k = k) ∨ (s.anyWorkerBusy = true ∧ hazardCheck s k = .raised .hazard s) := by
  cases h : s.anyWorkerBusy <;> simp [hazardCheck, h]

/-- The descriptor check passes or raises OptionError with the state unchanged. -/
theorem needDescriptor_cases (s : State) (k : CmdEnd) :
    (s.q.valid = true ∧ needDescriptor s k = k) ∨ (s.q.valid = false ∧ needDescriptor s k = .raised .option s) := by
  cases h : s.q.valid <;> simp [needDescriptor, h]

/-- A QT code names a type or raises IllegalCommand with the state unchanged (R130). -/
theorem useQType_cases (qt : BitVec 4) (s : State) (k : QType → CmdEnd) :
    (∃ t, qtypeOf qt = some t ∧ useQType qt s k = k t) ∨
    (qtypeOf qt = none ∧ useQType qt s k = .raised .illegalCommand s) := by
  cases h : qtypeOf qt
  · exact .inr ⟨rfl, by simp [useQType, h]⟩
  · exact .inl ⟨_, rfl, by simp [useQType, h]⟩

/-- A QT code names a type exactly when it is not reserved (R124, R130). -/
theorem qtypeOf_isSome (qt : BitVec 4) : (qtypeOf qt).isSome = qtOk qt := by
  revert qt
  decide

/-! ### The pool -/

/-- PoolAcquire raises ResourceLimitError (after the ThreadLimit exchange, and the Alloc exchange if it was asked), or
gives a fresh pool (R442). -/
theorem poolAcquire_cases (e : Nat) (s : State) :
    (Config.sizeMax < s.freshN * (e + 1) ∧
      poolAcquire e s = .raised .resourceLimit { s with ports := s.ports.tookThreads }) ∨
    (s.freshN * (e + 1) ≤ Config.sizeMax ∧ s.ports.tookThreads.nextAlloc = false ∧
      poolAcquire e s = .raised .resourceLimit
        { s with ports := s.ports.tookThreads.tookAlloc .pool (s.freshN * (e + 1)) }) ∨
    (s.freshN * (e + 1) ≤ Config.sizeMax ∧ s.ports.tookThreads.nextAlloc = true ∧
      poolAcquire e s = .normal
        { s with
          ports := s.ports.tookThreads.tookAlloc .pool (s.freshN * (e + 1))
          pool := ⟨true, s.freshN, BitVec.ofNat 64 e⟩
          scratch := freshScratch s.freshN e }) := by
  simp only [poolAcquire]
  split
  · rename_i h; exact .inl ⟨h, rfl⟩
  · rename_i h
    split
    · rename_i h'; exact .inr (.inr ⟨by omega, h', rfl⟩)
    · rename_i h'; exact .inr (.inl ⟨by omega, by simpa using h', rfl⟩)

/-- Releasing the pool: there is none and the command goes on; or it is freed and the command goes on, or a bad guard
raises GuardViolation (R441, R445). -/
theorem releaseThen_cases (s : State) (k : State → CmdEnd) :
    (s.pool.valid = false ∧ releaseThen s k = k s) ∨
    (s.pool.valid = true ∧ s.guardBad = false ∧ releaseThen s k = k s.freePool) ∨
    (s.pool.valid = true ∧ s.guardBad = true ∧ releaseThen s k = .raised .guardViolation s.freePool) := by
  cases h : s.pool.valid <;> cases h' : s.guardBad <;> simp [releaseThen, h, h']

/-- SetDepth: Q_DEPTH and the reset state are written; then the extent is too large, or the pool is kept, or it is
reallocated (R353). -/
theorem setDepth_cases (d : Nat) (s : State) :
    ((Config.sizeMax < (s.putDepth d).poolRow ∨ Config.sizeMax < (s.putDepth d).poolExtent) ∧
      setDepth d s = .raised .resourceLimit (s.putDepth d)) ∨
    ((s.putDepth d).poolRow ≤ Config.sizeMax ∧ (s.putDepth d).poolExtent ≤ Config.sizeMax ∧
      s.pool.valid = true ∧ (s.putDepth d).poolExtent ≤ s.pool.extent.toNat ∧
      setDepth d s = .normal (s.putDepth d)) ∨
    ((s.putDepth d).poolRow ≤ Config.sizeMax ∧ (s.putDepth d).poolExtent ≤ Config.sizeMax ∧
      ¬(s.pool.valid = true ∧ (s.putDepth d).poolExtent ≤ s.pool.extent.toNat) ∧
      setDepth d s = releaseThen (s.putDepth d) (poolAcquire (s.putDepth d).poolExtent)) := by
  simp only [setDepth]
  split
  · rename_i h; exact .inl ⟨.inl h, rfl⟩
  · rename_i h1
    split
    · rename_i h; exact .inl ⟨.inr h, rfl⟩
    · rename_i h2
      split
      · rename_i h; exact .inr (.inl ⟨by omega, by omega, h.1, h.2, rfl⟩)
      · rename_i h; exact .inr (.inr ⟨by omega, by omega, h, rfl⟩)

/-! ### The encoders' and the workers' checks -/

/-- The checks of LZW_ENCODE and PACKBITS_ENCODE: a hazard, an OptionError, or the command goes on with an offset and a count in range (R300, R330). -/
theorem bufferChecks_cases (w : BitVec 8) (s : State) (k : Nat → Nat → CmdEnd) :
    ((s.wstat w).busy = true ∧ bufferChecks w s k = .raised .hazard s) ∨
    ((s.wstat w).busy = false ∧ bufferChecks w s k = .raised .option s) ∨
    ((s.wstat w).busy = false ∧ s.pool.valid = true ∧ w.toNat < s.pool.n ∧
      (s.argVal 0).toNat + (s.argVal 1).toNat ≤ s.pool.extent.toNat ∧
      bufferChecks w s k = k (s.argVal 0).toNat (s.argVal 1).toNat) := by
  simp only [bufferChecks]
  split
  · rename_i h; exact .inl ⟨h, rfl⟩
  · rename_i hb
    split
    · exact .inr (.inl ⟨by simpa using hb, rfl⟩)
    · rename_i hp
      simp only [not_or, Bool.not_eq_false, not_le] at hp
      split
      · exact .inr (.inl ⟨by simpa using hb, rfl⟩)
      · exact .inr (.inr ⟨by simpa using hb, hp.1, hp.2, by omega, rfl⟩)

/-- The checks of Q_PACK and Q_UNPACK: an error with the state unchanged, a row the pixel cache does not supply, or the command goes on with an acquired row (R420). -/
theorem rowChecks_cases (w : BitVec 8) (qt : BitVec 4) (s : State) (k : Nat → List Channel → Nat → State → CmdEnd) :
    (∃ e, rowChecks w qt s k = .raised e s) ∨
    (∃ t chs, qtypeOf qt = some t ∧ channelOrder s.img t = some chs ∧ s.seqMutating = false ∧ s.seqReads w = false ∧
      s.q.valid = true ∧ s.pool.valid = true ∧ w.toNat < s.pool.n ∧ ¬(s.q.alphaType = true ∧ hasAlpha t = true) ∧
      (s.argVal 0).toNat < s.img.rows.toNat ∧ extentOf s.q s.img t ≤ s.pool.extent.toNat ∧
      rowChecks w qt s k =
        if s.ports.nextRow then k (s.argVal 0).toNat chs (extentOf s.q s.img t) (s.tookRow (s.argVal 0).toNat)
        else .raised .resourceLimit (s.tookRow (s.argVal 0).toNat)) := by
  simp only [rowChecks, useQType]
  split
  · rename_i t ht
    split
    · exact .inl ⟨_, rfl⟩
    · rename_i hz
      split
      · exact .inl ⟨_, rfl⟩
      · rename_i hv
        split
        · exact .inl ⟨_, rfl⟩
        · rename_i chs hc
          split
          · exact .inl ⟨_, rfl⟩
          · rename_i ha
            split
            · exact .inl ⟨_, rfl⟩
            · rename_i hr
              split
              · exact .inl ⟨_, rfl⟩
              · rename_i he
                simp only [not_or, Bool.not_eq_false, Bool.not_eq_true, not_le] at hv hz
                exact .inr ⟨t, chs, ht, hc, hz.1, hz.2, hv.1, hv.2.1, hv.2.2, ha, by omega, by omega, rfl⟩
  · exact .inl ⟨_, rfl⟩

/-! ### The start and the end of a command -/

/-- A sequencer command, by how its pseudocode ends. -/
theorem runCmd_seq (op : BitVec 8) (body : State → CmdEnd) (s : State) :
    runCmd .seq op body s = .next (
      match body { s with status := s.status.begin } with
      | .normal t => { t with status := t.status.finish }
      | .cancelled t => { t with status := t.status.cancel }
      | .raised k t => { t with status := (t.status.fail op k).stick k, ports := t.ports.raise k op }) := rfl

/-- A worker's command, by how its pseudocode ends. -/
theorem runCmd_worker (w op : BitVec 8) (body : State → CmdEnd) (s : State) :
    runCmd (.worker w) op body s = .next (
      match body (s.setWstat w (s.wstat w).begin) with
      | .normal t => t.setWstat w (t.wstat w).finish
      | .cancelled t => t.setWstat w (t.wstat w).finish
      | .raised k t => t.workerRaised w op k) := rfl

/-- A command answers a next state, whichever way its pseudocode ends. -/
theorem runCmd_cases (a : Agent) (op : BitVec 8) (body : State → CmdEnd) (s : State) :
    (∃ t, body (s.beginCmd a) = .normal t ∧ runCmd a op body s = .next (t.endCmd a)) ∨
    (∃ t, body (s.beginCmd a) = .cancelled t ∧ runCmd a op body s = .next (t.cancelCmd a)) ∨
    (∃ k t, body (s.beginCmd a) = .raised k t ∧ runCmd a op body s = .next (t.raiseErr a op k)) := by
  unfold runCmd
  cases body (s.beginCmd a) with
  | normal t => exact .inl ⟨t, rfl, rfl⟩
  | cancelled t => exact .inr (.inl ⟨t, rfl, rfl⟩)
  | raised k t => exact .inr (.inr ⟨k, t, rfl, rfl⟩)

/-! ### Windows -/

/-- With no command in flight a tick changes nothing. -/
@[simp] theorem tick_idle (s : State) (h : s.seqFlight = none) (h' : s.wFlights = []) : tick s = s := by
  simp only [tick, tickSeq, h, h', tickWorkers]
  cases s
  simp_all

/-- A tick of the sequencer's window: nothing in flight, its last step, or one step less. -/
theorem tickSeq_cases (s : State) :
    (s.seqFlight = none ∧ tickSeq s = s) ∨
    (∃ f, s.seqFlight = some f ∧ f.left ≤ 1 ∧ tickSeq s = deliverSeq f s) ∨
    (∃ f, s.seqFlight = some f ∧ 1 < f.left ∧
      tickSeq s = { s with seqFlight := some { f with left := f.left - 1 } }) := by
  simp only [tickSeq]
  cases h : s.seqFlight with
  | none => exact .inl ⟨rfl, rfl⟩
  | some f =>
    by_cases hf : f.left ≤ 1
    · exact .inr (.inl ⟨f, rfl, hf, by simp [hf]⟩)
    · exact .inr (.inr ⟨f, rfl, by omega, by simp [hf]⟩)

/-- A CMD write is dropped at a busy target, or runs the command and opens its busy window (R610, R612). -/
theorem issue_cases (c : Word) (s : State) :
    (s.busy (targetOf c) = true ∧ issue c s = .next { s with status := { s.status with haz := true } }) ∨
    (s.busy (targetOf c) = false ∧ ∃ t, runWord c s.tookLatency = .next t ∧
      issue c s = .next (openWindow (targetOf c) s.nextLatency (decoded c) s.tookLatency t)) ∨
    (s.busy (targetOf c) = false ∧ ∃ f, runWord c s.tookLatency = .fault f ∧ issue c s = .fault f) ∨
    (s.busy (targetOf c) = false ∧ ∃ r, runWord c s.tookLatency = .refused r ∧ issue c s = .refused r) := by
  cases hb : s.busy (targetOf c)
  · cases hr : runWord c s.tookLatency with
    | next t => exact .inr (.inl ⟨rfl, t, rfl, by simp [issue, hb, hr]⟩)
    | fault f => exact .inr (.inr (.inl ⟨rfl, f, rfl, by simp [issue, hb, hr]⟩))
    | refused r => exact .inr (.inr (.inr ⟨rfl, r, rfl, by simp [issue, hb, hr]⟩))
  · exact .inl ⟨rfl, by simp [issue, hb]⟩

/-- A host scratch access steps, races or is refused (R84, R97). -/
theorem scratchAccess_cases (b o : Nat) (s k : State) :
    (s.inScratch b o = true ∧ s.inReset = false ∧ s.raced b = false ∧ scratchAccess b o s k = .next k) ∨
    (s.inScratch b o = true ∧ s.inReset = false ∧ s.raced b = true ∧
      scratchAccess b o s k = .fault (.scratchRace b)) ∨
    ((s.inScratch b o = false ∨ s.inReset = true) ∧ scratchAccess b o s k = .refused (.hostScratch b o)) := by
  cases h : s.inScratch b o <;> cases h' : s.raced b <;> cases hr : s.inReset <;> simp [scratchAccess, h, h', hr]

/-! ### Reset -/

/-- Driving RST resets the block, or releases an RST that is not asserted and changes nothing (R600). -/
theorem driveRst_cases (s : State) (asserted : Bool) :
    ((asserted = true ∨ s.inReset = true) ∧ s.driveRst asserted = s.afterRst asserted) ∨
    (asserted = false ∧ s.inReset = false ∧ s.driveRst asserted = s) := by
  cases asserted <;> cases h : s.inReset <;> simp [State.driveRst, h]

/-- A reset of an idle block leaves the ports as they are (R600). -/
@[simp] theorem portsAfterRst_idle (s : State) (h : s.seqFlight = none) (h' : s.wFlights = []) :
    s.portsAfterRst = s.ports := by
  simp [State.portsAfterRst, State.inFlight, h, h']

/-- A list less what abandoned commands had not sent keeps the order of what stays (R600). -/
theorem abandon_sublist {α : Type} (drawn kind : Nat) (spans : List Span) (l : List α) :
    (abandon drawn kind spans l).Sublist l := by
  unfold abandon
  simpa using (List.filter_sublist (l := l.zipIdx)).map (·.1)

/-- While RST is asserted an action of the host leaves the state, feeds the source, polls on, drives RST, or is refused
(R600). -/
theorem hostAct_inReset (a : HostAct) (s : State) (h : s.inReset = true) :
    hostAct a s = .next s ∨
    (∃ bytes, a = .feed bytes ∧ hostAct a s = .next { s with ports := { s.ports with src := s.ports.src ++ bytes } }) ∨
    (hostAct a s = .next { s with host := a :: s.host }) ∨
    (∃ asserted, a = .rst asserted ∧ hostAct a s = .next (s.afterRst asserted)) ∨
    ∃ r, hostAct a s = .refused r := by
  cases a with
  | write offset width v =>
    simp only [hostAct, hostWrite, h]
    split <;> simp
  | read offset width =>
    simp only [hostAct, hostRead, h]
    split <;> simp
  | scrRead b o => simp [hostAct, scratchAccess, h]
  | scrWrite b o v => simp [hostAct, scratchAccess, h]
  | feed bytes => simp [hostAct]
  | waitSeq => simp [hostAct, State.sees, h]
  | waitWorker w => simp [hostAct, State.sees, h]
  | idle => simp [hostAct]
  | rst asserted => simp [hostAct, State.driveRst, h]

end Sys2Proof.Machine
end

