-- ==== Sys2Proof/Laws/Memory.lean ====
section
/-! SUPPORT. The laws of the scratch memory: read after write, and every operation keeps the canonical form (R80, R82). -/

namespace Sys2Proof.Machine

open Host

/-! ### One byte -/

/-- A byte written reads back. -/
@[simp] theorem memRead_memWrite_same (m : List Cell) (a : Nat) (v : Byte) (h : memWf m = true) :
    memRead (memWrite m a v) a = v := by
  suffices ∀ lo, memWfFrom lo m = true → memRead (memWrite m a v) a = v from this 0 h
  clear h
  have below : ∀ (m : List Cell) lo, a < lo → memWfFrom lo m = true → memRead m a = memFill := by
    intro m
    induction m with
    | nil => intros; rfl
    | cons c m ih =>
      intro lo ha h
      simp only [memWfFrom, Bool.and_eq_true, decide_eq_true_eq] at h
      simp only [memRead]
      rw [if_neg (by omega), ih (c.1 + 1) (by omega) h.2]
  induction m with
  | nil => intro lo _; simp only [memWrite]; split <;> simp_all [memRead]
  | cons c m ih =>
    obtain ⟨k, u⟩ := c
    intro lo h
    simp only [memWfFrom, Bool.and_eq_true, decide_eq_true_eq] at h
    simp only [memWrite]
    split
    · rename_i hk
      split
      · rename_i hv
        simp only [memRead]
        rw [if_neg (by omega), below m (k + 1) (by omega) h.2, hv]
      · simp [memRead]
    · split
      · rename_i hk
        split
        · rename_i hv; rw [below m (k + 1) (by omega) h.2, hv]
        · simp [memRead]
      · rename_i hk hk'
        simp only [memRead]
        rw [if_neg (by omega)]
        exact ih (k + 1) h.2

/-- A write leaves every other byte alone. -/
theorem memRead_memWrite_other (m : List Cell) (a b : Nat) (v : Byte) (hab : b ≠ a) :
    memRead (memWrite m a v) b = memRead m b := by
  induction m with
  | nil => simp only [memWrite]; split <;> simp [memRead, hab.symm]
  | cons c m ih =>
    obtain ⟨k, u⟩ := c
    simp only [memWrite]
    split
    · split <;> simp [memRead, hab.symm]
    · split
      · rename_i hk; subst hk; split <;> simp [memRead, hab.symm]
      · simp only [memRead, ih]

/-- The canonical form from a bound holds from every lower bound. -/
theorem memWfFrom_mono (m : List Cell) {lo lo' : Nat} (hl : lo ≤ lo') (h : memWfFrom lo' m = true) :
    memWfFrom lo m = true := by
  cases m with
  | nil => rfl
  | cons c m =>
    simp only [memWfFrom, Bool.and_eq_true, decide_eq_true_eq] at h ⊢
    exact ⟨⟨by omega, h.1.2⟩, h.2⟩

/-- A write keeps the canonical form from any lower bound the address respects. -/
theorem memWfFrom_memWrite (m : List Cell) (lo a : Nat) (v : Byte) (ha : lo ≤ a) (h : memWfFrom lo m = true) :
    memWfFrom lo (memWrite m a v) = true := by
  induction m generalizing lo with
  | nil => simp only [memWrite]; split <;> simp_all [memWfFrom]
  | cons c m ih =>
    obtain ⟨k, u⟩ := c
    simp only [memWfFrom, Bool.and_eq_true, decide_eq_true_eq, bne_iff_ne, ne_eq] at h
    simp only [memWrite]
    split
    · split
      · simp [memWfFrom, h]
      · rename_i hk hv; simp [memWfFrom, h, hv, ha]; omega
    · split
      · rename_i hk
        subst hk
        split
        · exact memWfFrom_mono m (by omega : lo ≤ a + 1) h.2
        · rename_i hv; simp [memWfFrom, h, hv]
      · simp only [memWfFrom, Bool.and_eq_true, decide_eq_true_eq, bne_iff_ne, ne_eq]
        exact ⟨h.1, ih (k + 1) (by omega) h.2⟩

/-- A write keeps the canonical form. -/
theorem memWf_memWrite (m : List Cell) (a : Nat) (v : Byte) (h : memWf m = true) : memWf (memWrite m a v) = true :=
  memWfFrom_memWrite m 0 a v (Nat.zero_le a) h

/-! ### Byte lists -/

/-- MemWrite keeps the canonical form. -/
theorem memWf_scratchWrite (m : List Cell) (b o : Nat) (bytes : List Byte) (h : memWf m = true) :
    memWf (scratchWrite m b o bytes) = true := by
  induction bytes generalizing m o with
  | nil => exact h
  | cons v bytes ih => exact ih _ _ (memWf_memWrite _ _ _ h)

/-- MemWrite leaves every byte outside its range alone. -/
theorem memRead_scratchWrite_other (m : List Cell) (b o a : Nat) (bytes : List Byte)
    (h : a < scratchKey b o ∨ scratchKey b o + bytes.length ≤ a) :
    memRead (scratchWrite m b o bytes) a = memRead m a := by
  induction bytes generalizing m o with
  | nil => rfl
  | cons v bytes ih =>
    have hk : scratchKey b (o + 1) = scratchKey b o + 1 := by simp only [scratchKey]; omega
    simp only [List.length_cons] at h
    rw [scratchWrite, ih _ _ (by omega), memRead_memWrite_other _ _ _ _ (by omega)]

/-- MemWrite stores its bytes in order. -/
theorem memRead_scratchWrite_at (m : List Cell) (b o : Nat) (bytes : List Byte) (h : memWf m = true) (i : Nat)
    (hi : i < bytes.length) : memRead (scratchWrite m b o bytes) (scratchKey b (o + i)) = bytes[i] := by
  induction bytes generalizing m o i with
  | nil => simp at hi
  | cons v bytes ih =>
    cases i with
    | zero =>
      rw [scratchWrite, memRead_scratchWrite_other _ _ _ _ _ (by simp only [scratchKey]; omega)]
      simp [h]
    | succ i =>
      have := ih _ (o + 1) (memWf_memWrite m (scratchKey b o) v h) i (by simpa using hi)
      rw [scratchWrite, show o + (i + 1) = o + 1 + i by omega, this]
      simp

/-- MemRead after MemWrite of the same range gives the bytes. -/
theorem scratchRead_scratchWrite (m : List Cell) (b o : Nat) (bytes : List Byte) (h : memWf m = true) :
    scratchRead (scratchWrite m b o bytes) b o bytes.length = bytes := by
  apply List.ext_getElem
  · simp [scratchRead]
  · intro i h1 h2
    simp [scratchRead, memRead_scratchWrite_at m b o bytes h i h2]

/-- Distinct places of the scratch space have distinct cells. -/
theorem scratchKey_inj {b o b' o' : Nat} (ho : o < 2 ^ 64) (ho' : o' < 2 ^ 64) (h : scratchKey b o = scratchKey b' o') :
    b = b' ∧ o = o' := by
  simp only [scratchKey] at h
  omega

/-! ### A fresh pool -/

/-- The cells of a fresh pool are in the canonical form (R442). -/
theorem memWf_freshScratch (n e : Nat) : memWf (freshScratch n e) = true := by
  suffices ∀ (k n : Nat), memWfFrom (scratchKey k e)
      ((List.range' k n).map fun b => (scratchKey b e, Config.guardSignature)) = true by
    have h := this 0 n
    rw [memWf, freshScratch, List.range_eq_range']
    exact memWfFrom_mono _ (Nat.zero_le _) h
  intro k n
  induction n generalizing k with
  | zero => rfl
  | succ n ih =>
    simp only [List.range'_succ, List.map_cons, memWfFrom, Bool.and_eq_true, decide_eq_true_eq]
    refine ⟨⟨Nat.le_refl _, by decide⟩, memWfFrom_mono _ (lo' := scratchKey (k + 1) e) ?_ (ih (k + 1))⟩
    simp only [scratchKey]
    omega

/-- A byte of a fresh pool: the guard signature at offset `e` of a buffer, else 0 (R442). -/
theorem memRead_freshScratch (n e b o : Nat) (he : e < 2 ^ 64) (ho : o < 2 ^ 64) :
    memRead (freshScratch n e) (scratchKey b o) = if b < n ∧ o = e then Config.guardSignature else 0 := by
  suffices ∀ (k n : Nat), memRead ((List.range' k n).map fun b => (scratchKey b e, Config.guardSignature)) (scratchKey b o) =
      if (k ≤ b ∧ b < k + n) ∧ o = e then Config.guardSignature else 0 by
    rw [freshScratch, List.range_eq_range', this 0 n]
    simp
  intro k n
  induction n generalizing k with
  | zero =>
    have : ¬((k ≤ b ∧ b < k + 0) ∧ o = e) := by omega
    rw [if_neg this]
    rfl
  | succ n ih =>
    simp only [List.range'_succ, List.map_cons, memRead, ih]
    by_cases hkey : scratchKey k e = scratchKey b o
    · obtain ⟨rfl, rfl⟩ := scratchKey_inj he ho hkey
      rw [if_pos rfl, if_pos ⟨by omega, rfl⟩]
    · rw [if_neg hkey]
      have : ¬(k = b ∧ o = e) := fun ⟨h1, h2⟩ => hkey (by rw [h1, h2])
      have hiff : ((k + 1 ≤ b ∧ b < k + 1 + n) ∧ o = e) = ((k ≤ b ∧ b < k + (n + 1)) ∧ o = e) := propext (by omega)
      simp only [hiff]

/-- The memory after reset is in the canonical form. -/
theorem memWf_reset : memWf State.reset.scratch = true := rfl

/-! ### Sparse tables -/

/-- A table entry just stored reads back. -/
@[simp] theorem tabGet_tabSet_same {α : Type} (t : List (Nat × α)) (i : Nat) (v : α) : tabGet (tabSet t i v) i = some v := by
  induction t with
  | nil => simp [tabSet, tabGet]
  | cons c t ih =>
    simp only [tabSet]
    split
    · simp [tabGet]
    · split
      · simp [tabGet]
      · rename_i h1 h2; simp [tabGet, ih, Ne.symm h2]

/-- Storing a table entry leaves the others alone. -/
theorem tabGet_tabSet_other {α : Type} (t : List (Nat × α)) (i j : Nat) (v : α) (h : j ≠ i) :
    tabGet (tabSet t i v) j = tabGet t j := by
  induction t with
  | nil => simp [tabSet, tabGet, h.symm]
  | cons c t ih =>
    obtain ⟨k, u⟩ := c
    simp only [tabSet]
    split
    · simp [tabGet, h.symm]
    · split
      · rename_i h1 h2; subst h2; simp [tabGet, h.symm]
      · simp only [tabGet, ih]

end Sys2Proof.Machine
end

