-- ==== Sys2Proof/Laws/PerInstr.lean ====
section
/-! SUPPORT. Families of statements made per command. -/

namespace Sys2Proof.Laws

/-- The word of a command goes to the agent that executes the command (R6, R121, R125). -/
def EncodedAgent.Statement (i : Instr) : Prop := Machine.targetOf (encode i) = Machine.agentOf i

/-- The bits of a packed word (R120, R133). -/
theorem packWord_getLsbD (opc w : BitVec 8) (qt : BitVec 4) (imm : BitVec 12) (j : Nat) :
    (packWord opc w qt imm).getLsbD j =
      if j < 8 then opc.getLsbD j else if j < 16 then w.getLsbD (j - 8)
      else if j < 20 then qt.getLsbD (j - 16) else imm.getLsbD (j - 20) := by
  have h1 : (packWord opc w qt imm).getLsbD j = _ := BitVec.getLsbD_append (x := imm ++ qt ++ w) (y := opc)
  have h2 := BitVec.getLsbD_append (x := imm ++ qt) (y := w) (i := j - 8)
  have h3 := BitVec.getLsbD_append (x := imm) (y := qt) (i := j - 8 - 8)
  have e1 : (j - 8 < 8) = (j < 16) := propext (by omega)
  have e2 : (j - 16 < 4) = (j < 20) := propext (by omega)
  rw [h1, h2, h3]
  simp only [e1, e2, show j - 8 - 8 = j - 16 by omega, show j - 16 - 4 = j - 20 by omega]

/-- The opcode field of a packed word (R120, R133). -/
@[simp] theorem opcOf_packWord (opc w : BitVec 8) (qt : BitVec 4) (imm : BitVec 12) :
    opcOf (packWord opc w qt imm) = opc := by
  apply BitVec.eq_of_getLsbD_eq
  intro j hj
  simp [opcOf, packWord_getLsbD, hj]

/-- The W field of a packed word (R120, R133). -/
@[simp] theorem wOf_packWord (opc w : BitVec 8) (qt : BitVec 4) (imm : BitVec 12) :
    wOf (packWord opc w qt imm) = w := by
  apply BitVec.eq_of_getLsbD_eq
  intro j hj
  simp [wOf, packWord_getLsbD, hj, show 8 + j < 16 by omega]

theorem EncodedAgent.nop : EncodedAgent.Statement .nop := by
  simp [EncodedAgent.Statement, encode, Machine.targetOf, Machine.agentOf]

theorem EncodedAgent.clrStatus : EncodedAgent.Statement .clrStatus := by
  simp [EncodedAgent.Statement, encode, Machine.targetOf, Machine.agentOf]

theorem EncodedAgent.ctrlWrite (ctrl : BitVec 2) : EncodedAgent.Statement (.ctrlWrite ctrl) := by
  simp [EncodedAgent.Statement, encode, Machine.targetOf, Machine.agentOf]

theorem EncodedAgent.bwInit (port : Port) : EncodedAgent.Statement (.bwInit port) := by
  simp [EncodedAgent.Statement, encode, Machine.targetOf, Machine.agentOf]

theorem EncodedAgent.bwPutBit (bit : Bool) : EncodedAgent.Statement (.bwPutBit bit) := by
  simp [EncodedAgent.Statement, encode, Machine.targetOf, Machine.agentOf]

theorem EncodedAgent.bwPutCode (len : BitVec 6) : EncodedAgent.Statement (.bwPutCode len) := by
  simp [EncodedAgent.Statement, encode, Machine.targetOf, Machine.agentOf]

theorem EncodedAgent.bwFlush : EncodedAgent.Statement .bwFlush := by
  simp [EncodedAgent.Statement, encode, Machine.targetOf, Machine.agentOf]

theorem EncodedAgent.brInit : EncodedAgent.Statement .brInit := by
  simp [EncodedAgent.Statement, encode, Machine.targetOf, Machine.agentOf]

theorem EncodedAgent.brGetBit : EncodedAgent.Statement .brGetBit := by
  simp [EncodedAgent.Statement, encode, Machine.targetOf, Machine.agentOf]

theorem EncodedAgent.brSync : EncodedAgent.Statement .brSync := by
  simp [EncodedAgent.Statement, encode, Machine.targetOf, Machine.agentOf]

theorem EncodedAgent.faxBuildHash : EncodedAgent.Statement .faxBuildHash := by
  simp [EncodedAgent.Statement, encode, Machine.targetOf, Machine.agentOf]

theorem EncodedAgent.faxLookup (colour : Colour) : EncodedAgent.Statement (.faxLookup colour) := by
  simp [EncodedAgent.Statement, encode, Machine.targetOf, Machine.agentOf]

theorem EncodedAgent.faxEncode (port : Port) : EncodedAgent.Statement (.faxEncode port) := by
  simp [EncodedAgent.Statement, encode, Machine.targetOf, Machine.agentOf]

theorem EncodedAgent.faxDecode : EncodedAgent.Statement .faxDecode := by
  simp [EncodedAgent.Statement, encode, Machine.targetOf, Machine.agentOf]

theorem EncodedAgent.lzwEncode (w : BitVec 8) (port : Port) : EncodedAgent.Statement (.lzwEncode w port) := by
  simp [EncodedAgent.Statement, encode, Machine.targetOf, Machine.agentOf]

theorem EncodedAgent.packbitsEncode (w : BitVec 8) (port : Port) : EncodedAgent.Statement (.packbitsEncode w port) := by
  simp [EncodedAgent.Statement, encode, Machine.targetOf, Machine.agentOf]

theorem EncodedAgent.qAcquire : EncodedAgent.Statement .qAcquire := by
  simp [EncodedAgent.Statement, encode, Machine.targetOf, Machine.agentOf]

theorem EncodedAgent.qDestroy : EncodedAgent.Statement .qDestroy := by
  simp [EncodedAgent.Statement, encode, Machine.targetOf, Machine.agentOf]

theorem EncodedAgent.qSetDepth (depth : BitVec 7) : EncodedAgent.Statement (.qSetDepth depth) := by
  simp [EncodedAgent.Statement, encode, Machine.targetOf, Machine.agentOf]

theorem EncodedAgent.qSetFormat (format : BitVec 2) : EncodedAgent.Statement (.qSetFormat format) := by
  simp [EncodedAgent.Statement, encode, Machine.targetOf, Machine.agentOf]

theorem EncodedAgent.qSetEndian (endian : BitVec 2) : EncodedAgent.Statement (.qSetEndian endian) := by
  simp [EncodedAgent.Statement, encode, Machine.targetOf, Machine.agentOf]

theorem EncodedAgent.qSetPad : EncodedAgent.Statement .qSetPad := by
  simp [EncodedAgent.Statement, encode, Machine.targetOf, Machine.agentOf]

theorem EncodedAgent.qSetScale : EncodedAgent.Statement .qSetScale := by
  simp [EncodedAgent.Statement, encode, Machine.targetOf, Machine.agentOf]

theorem EncodedAgent.qSetPolarity (minIsWhite : Bool) : EncodedAgent.Statement (.qSetPolarity minIsWhite) := by
  simp [EncodedAgent.Statement, encode, Machine.targetOf, Machine.agentOf]

theorem EncodedAgent.qResetState : EncodedAgent.Statement .qResetState := by
  simp [EncodedAgent.Statement, encode, Machine.targetOf, Machine.agentOf]

theorem EncodedAgent.qGetExtent (qt : BitVec 4) : EncodedAgent.Statement (.qGetExtent qt) := by
  simp [EncodedAgent.Statement, encode, Machine.targetOf, Machine.agentOf]

theorem EncodedAgent.qPack (w : BitVec 8) (qt : BitVec 4) : EncodedAgent.Statement (.qPack w qt) := by
  simp [EncodedAgent.Statement, encode, Machine.targetOf, Machine.agentOf]

theorem EncodedAgent.qUnpack (w : BitVec 8) (qt : BitVec 4) : EncodedAgent.Statement (.qUnpack w qt) := by
  simp [EncodedAgent.Statement, encode, Machine.targetOf, Machine.agentOf]

theorem EncodedAgent.qGetType : EncodedAgent.Statement .qGetType := by
  simp [EncodedAgent.Statement, encode, Machine.targetOf, Machine.agentOf]

theorem EncodedAgent.qSetImageType (qt : BitVec 4) : EncodedAgent.Statement (.qSetImageType qt) := by
  simp [EncodedAgent.Statement, encode, Machine.targetOf, Machine.agentOf]

theorem EncodedAgent.poolAcquire : EncodedAgent.Statement .poolAcquire := by
  simp [EncodedAgent.Statement, encode, Machine.targetOf, Machine.agentOf]

theorem EncodedAgent.poolGet (w : BitVec 8) : EncodedAgent.Statement (.poolGet w) := by
  simp [EncodedAgent.Statement, encode, Machine.targetOf, Machine.agentOf]

theorem EncodedAgent.poolRelease : EncodedAgent.Statement .poolRelease := by
  simp [EncodedAgent.Statement, encode, Machine.targetOf, Machine.agentOf]

theorem EncodedAgent.rsExport (invert : Bool) : EncodedAgent.Statement (.rsExport invert) := by
  simp [EncodedAgent.Statement, encode, Machine.targetOf, Machine.agentOf]

theorem EncodedAgent.rsImport (invert : Bool) : EncodedAgent.Statement (.rsImport invert) := by
  simp [EncodedAgent.Statement, encode, Machine.targetOf, Machine.agentOf]

end Sys2Proof.Laws
end

