-- ==== Sys2Proof/Tests/Slice0.lean ====
section
/-! SUPPORT. Tests: ill-formed terms refused, words written out from R125, the spec's own vectors (95_test_vectors.md,
the examples of the rules), and a witness for the hypotheses of each statement of Certificates/Slice0. -/

namespace Sys2Proof.Tests

open Sys2Proof Sys2Proof.Machine Host

set_option Elab.async false

/-! ### Ill-formed terms (R130) -/

theorem test_wf_refuses_quantum_types :
    Instr.wf (.qGetExtent 14) = false ∧ Instr.wf (.qPack 0 15) = false ∧ Instr.wf (.qUnpack 7 14) = false ∧
    Instr.wf (.qSetImageType 15) = false ∧ Instr.wf (.qPack 255 13) = true := by decide

theorem test_wf_refuses_format_three : Instr.wf (.qSetFormat 3) = false ∧ Instr.wf (.qSetFormat 2) = true := by decide

theorem test_wf_refuses_endian_three : Instr.wf (.qSetEndian 3) = false ∧ Instr.wf (.qSetEndian 2) = true := by decide

/-! ### Decoding: one word of every command, written out as IMM, QT, W, OPC (R120, R125) -/

theorem test_decode_control :
    decode 0b000000000000_0000_00000000_00000000 = .ok .nop ∧
    decode 0b000000000000_0000_00000000_00000001 = .ok .clrStatus ∧
    decode 0b000000000011_0000_00000000_00000010 = .ok (.ctrlWrite 3) := by decide

theorem test_decode_bit_units :
    decode 0b000000000001_0000_00000000_00001000 = .ok (.bwInit .text) ∧
    decode 0b000000000001_0000_00000000_00001001 = .ok (.bwPutBit true) ∧
    decode 0b000000100001_0000_00000000_00001010 = .ok (.bwPutCode 33) ∧
    decode 0b000000000000_0000_00000000_00001011 = .ok .bwFlush ∧
    decode 0b000000000000_0000_00000000_00001100 = .ok .brInit ∧
    decode 0b000000000000_0000_00000000_00001101 = .ok .brGetBit ∧
    decode 0b000000000000_0000_00000000_00001110 = .ok .brSync := by decide

theorem test_decode_fax :
    decode 0b000000000000_0000_00000000_00010000 = .ok .faxBuildHash ∧
    decode 0b000000000001_0000_00000000_00010001 = .ok (.faxLookup .black) ∧
    decode 0b000000000001_0000_00000000_00010010 = .ok (.faxEncode .text) ∧
    decode 0b000000000000_0000_00000000_00010011 = .ok .faxDecode := by decide

theorem test_decode_buffer_encoders :
    decode 0b000000000001_0000_00000101_00100000 = .ok (.lzwEncode 5 .text) ∧
    decode 0b000000000000_0000_00000001_00101000 = .ok (.packbitsEncode 1 .raw) := by decide

theorem test_decode_descriptor :
    decode 0b000000000000_0000_00000000_00110000 = .ok .qAcquire ∧
    decode 0b000000000000_0000_00000000_00110001 = .ok .qDestroy ∧
    decode 0b000001111111_0000_00000000_00110010 = .ok (.qSetDepth 127) ∧
    decode 0b000000000010_0000_00000000_00110011 = .ok (.qSetFormat 2) ∧
    decode 0b000000000001_0000_00000000_00110100 = .ok (.qSetEndian 1) ∧
    decode 0b000000000000_0000_00000000_00110101 = .ok .qSetPad ∧
    decode 0b000000000000_0000_00000000_00110110 = .ok .qSetScale ∧
    decode 0b000000000001_0000_00000000_00110111 = .ok (.qSetPolarity true) ∧
    decode 0b000000000000_0000_00000000_00111000 = .ok .qResetState := by decide

theorem test_decode_queries_and_rows :
    decode 0b000000000000_0010_00000000_00111001 = .ok (.qGetExtent 2) ∧
    decode 0b000000000000_0110_00000010_00111010 = .ok (.qPack 2 6) ∧
    decode 0b000000000000_0001_00000011_00111011 = .ok (.qUnpack 3 1) ∧
    decode 0b000000000000_0000_00000000_00111100 = .ok .qGetType ∧
    decode 0b000000000000_1101_00000000_00111101 = .ok (.qSetImageType 13) := by decide

theorem test_decode_pool_and_samples :
    decode 0b000000000000_0000_00000000_01000000 = .ok .poolAcquire ∧
    decode 0b000000000000_0000_00000011_01000001 = .ok (.poolGet 3) ∧
    decode 0b000000000000_0000_00000000_01000010 = .ok .poolRelease ∧
    decode 0b000000000001_0000_00000000_01001000 = .ok (.rsExport true) ∧
    decode 0b000000000000_0000_00000000_01001001 = .ok (.rsImport false) := by decide

/-- The words 95_test_vectors.md 3.1 lists as illegal, with the check that refuses each (R132). -/
theorem test_decode_refuses :
    decode 0x00000003 = .error .reservedOpcode ∧ decode 0x000000FF = .error .reservedOpcode ∧
    decode 0x00000100 = .error .unusedField ∧ decode 0x00100001 = .error .unusedField ∧
    decode 0x00400002 = .error .unusedField ∧ decode 0x04C0000A = .error .unusedField ∧
    decode 0x00010020 = .error .unusedField ∧ decode 0x0010003A = .error .unusedField ∧
    decode 0x08000032 = .error .unusedField ∧ decode 0x0D01033B = .error .unusedField ∧
    decode 0x000E0039 = .error .reservedValue ∧ decode 0x000F003D = .error .reservedValue ∧
    decode 0x00300033 = .error .reservedValue ∧ decode 0x00300034 = .error .reservedValue := by decide

/-! ### Helpers -/

/-- The state after reset with RANGE = 65535, HDRI = false, every ARG 0, and some of each port's answers. -/
def base : State :=
  { State.reset with
    params := ⟨65535, false, false⟩, arg := Vector.replicate 8 0
    ports := { Ports.reset with
      allocs := [true, true], rows := [true, true, true], progress := [true, true, true], threads := [1] } }

/-- ARG0 .. ARG4. -/
def args (a b c d e : DWord) (s : State) : State :=
  ((((s.setArg 0 a).setArg 1 b).setArg 2 c).setArg 3 d).setArg 4 e

/-- A state with a descriptor (format, depth, pack), an image of MSB byte order and a pool of one buffer of 16 bytes. -/
def quantum (columns channels : DWord) (format : BitVec 2) (depth : BitVec 7) (pack : Bool) (s : State) : State :=
  { s with
    q := ⟨true, depth, format, 0, pack, 0, 0, 0x3FF0000000000000, 0x40EFFFE000000000, false, false, 0x3EF0001000100010⟩
    img := ⟨columns, 1, channels, 2, false, 0, false, false⟩
    pool := ⟨true, 1, 16⟩, scratch := freshScratch 1 16 }

/-- With these samples still to come from the pixel port. -/
def given (vs : List Rat) (s : State) : State := { s with ports := { s.ports with samples := vs } }

/-- With these bytes at offset 0 of buffer 0. -/
def filled (bytes : List Byte) (s : State) : State := { s with scratch := scratchWrite s.scratch 0 0 bytes }

/-- A command that has exchanged nothing. -/
def noneSent : Sent := ⟨⟨0, 0⟩, ⟨0, 0⟩, ⟨0, 0⟩, ⟨0, 0⟩, []⟩

/-- The outcome is a next state and it meets `p`. -/
def gives (o : Outcome State Fault Refusal) (p : State → Bool) : Bool :=
  match o with
  | .next t => p t
  | _ => false

/-- The command completes in a state that meets `p`. -/
def after (i : Instr) (s : State) (p : State → Bool) : Bool := gives (exec i s) p

/-! ### Control and status (95_test_vectors.md 3.1, 3.12) -/

theorem test_nop :
    after .nop base (fun t => t.status.word == 2) = true ∧
    after .nop { base with status := ⟨false, true, true, false, 5, 0x20, true, false⟩ }
      (fun t => t.status.word == 0x00010002) = true := by decide +kernel

theorem test_clr_status :
    after .clrStatus { base with ctrl := 1, status := ⟨false, true, true, false, 5, 0x20, true, false⟩ }
      (fun t => t.status.word == 2 && !t.irq) = true := by decide +kernel

theorem test_ctrl_write : after (.ctrlWrite 3) base (fun t => t.ctrl == 3) = true := by decide +kernel

theorem test_illegal_words :
    gives (runWord 0x00000003 base) (fun t => t.status.word == 0x00010366) = true ∧
    gives (runWord 0x00000100 base) (fun t => t.status.word == 0x00010066) = true ∧
    gives (runWord 0x00400002 base) (fun t => t.status.word == 0x00010266 && t.ctrl == 0) = true ∧
    gives (runWord 0x00300034 base) (fun t => t.status.word == 0x00013466) = true ∧
    gives (runWord 0x0010003A base)
      (fun t => (t.wstat 0).word == 0x00003A66 && t.status.word == 0x00010000) = true := by decide +kernel

/-! ### Bit writer and reader (95_test_vectors.md 3.2) -/

theorem test_bw_init : after (.bwInit .raw) { base with bw := ⟨0x80, 0x40, .text⟩ }
    (fun t => t.bw == ⟨0, 0x80, .raw⟩ && t.ports.textOut == []) = true := by decide +kernel

theorem test_bw_put_bit :
    after (.bwPutBit true) base (fun t => t.bw == ⟨0x80, 0x40, .raw⟩ && t.ports.rawOut == []) = true ∧
    after (.bwPutBit false) { base with bw := ⟨0xB2, 0x01, .raw⟩ }
      (fun t => t.bw == ⟨0, 0x80, .raw⟩ && t.ports.rawOut == [0xB2]) = true := by decide +kernel

theorem test_bw_put_code :
    after (.bwPutCode 12) (base.setArg 0 0xFFFFFFFFFFFFF001)
      (fun t => t.bw == ⟨0x10, 0x08, .raw⟩ && t.ports.rawOut == [0]) = true ∧
    after (.bwPutCode 32) ({ base with bw := ⟨0x80, 0x40, .raw⟩ }.setArg 0 0xDEADBEEF)
      (fun t => t.bw == ⟨0x80, 0x40, .raw⟩ && t.ports.rawOut == [0xEF, 0x56, 0xDF, 0x77]) = true := by decide +kernel

theorem test_bw_put_code_length :
    after (.bwPutCode 0) State.reset (fun t => t.status.word == 0x00010A56) = true ∧
    after (.bwPutCode 33) State.reset (fun t => t.status.word == 0x00010A56 && t.bw == BitWriter.reset) = true := by
  decide +kernel

theorem test_bw_flush :
    after .bwFlush { base with bw := ⟨0x10, 0x08, .text⟩ }
      (fun t => t.bw == ⟨0, 0x80, .text⟩ && t.ports.textOut == [0x10]) = true ∧
    after .bwFlush base (fun t => t.ports.rawOut == []) = true := by decide +kernel

theorem test_br_init :
    after .brInit { base with br := ⟨0x40, 0x20, true, 9⟩ } (fun t => t.br == ⟨0, 0, false, 0⟩) = true := by
  decide +kernel

/-- Source bytes `s` still to come. -/
def fed (s : List Byte) : State := { base with ports := { base.ports with src := s } }

theorem test_br_get_bit :
    after .brGetBit (fed [0x40]) (fun t => t.res.r0 == 0 && t.br == ⟨0x40, 0x40, false, 1⟩) = true ∧
    after .brGetBit (fed []) (fun t => t.res.r0 == 2 && t.br.eof) = true := by decide +kernel

theorem test_br_sync :
    after .brSync (fed [0x00, 0x10, 0x35])
      (fun t => t.res.r0 == 1 && t.br == ⟨0x10, 0x08, false, 0⟩ && t.ports.src == [0x35]) = true ∧
    after .brSync (fed [0x00, 0x0F]) (fun t => t.res.r0 == 1 && t.br.mask == 0x04) = true := by decide +kernel

/-! ### Fax (R231 to R235, 95_test_vectors.md 2, 3.3 to 3.5) -/

/-- Slots the rules print: TW run 0 and 63, MW 64, EX 1792 and 2560; TB run 1 and 0, MB 64, EX 1792. -/
theorem test_fax_build_hash :
    after .faxBuildHash base (fun t =>
      tabGet t.faxWhash 597 == some ⟨.tw, 0, 8, 0b00110101⟩ && tabGet t.faxWhash 142 == some ⟨.tw, 63, 8, 0b00110100⟩ &&
      tabGet t.faxWhash 467 == some ⟨.mw, 64, 5, 0b11011⟩ && tabGet t.faxWhash 16 == some ⟨.ex, 1792, 11, 0b1000⟩ &&
      tabGet t.faxWhash 528 == some ⟨.ex, 2560, 12, 0b11111⟩ && tabGet t.faxWhash 0 == none &&
      tabGet t.faxBhash 911 == some ⟨.tb, 1, 3, 0b010⟩ && tabGet t.faxBhash 114 == some ⟨.tb, 0, 10, 0b0000110111⟩ &&
      tabGet t.faxBhash 246 == some ⟨.mb, 64, 10, 0b1111⟩ &&
      tabGet t.faxBhash 828 == some ⟨.ex, 1792, 11, 0b1000⟩) = true := by decide +kernel

theorem test_fax_lookup :
    after (.faxLookup .black) { args 2 3 0 0 0 base with faxBhash := buildTable .black blackRows }
      (fun t => t.res == ⟨1, 0, 1, 0⟩) = true ∧
    after (.faxLookup .white) { args 53 0 0 0 0 base with faxWhash := buildTable .white whiteRows }
      (fun t => t.res == ⟨0, 0, 0, 0⟩) = true := by decide +kernel

/-- A make-up row; and the first FAX_LOOKUP after reset gives 0, 0, 0 (95_test_vectors.md 3.13). -/
theorem test_fax_lookup_make_up :
    after (.faxLookup .white) { args 27 5 0 0 0 base with faxWhash := buildTable .white whiteRows }
      (fun t => t.res == ⟨1, 1, 64, 0⟩) = true ∧
    after (.faxLookup .white) State.reset (fun t => t.res == ⟨0, 0, 0, 0⟩ && t.status.word == 2) = true ∧
    after (.faxLookup .black) { State.reset with res := ⟨1, 0, 1, 7⟩ } (fun t => t.res == ⟨0, 0, 0, 7⟩) = true := by
  decide +kernel

/-- The page of three rows of two pixels, 19 bytes (95_test_vectors.md 3.4). -/
theorem test_fax_encode_rows :
    after (.faxEncode .raw) (given [65535, 0, 0, 65535, 65535, 65535] (args 2 3 0 0 0 base))
      (fun t => t.ports.rawOut == [0x00, 0x11, 0xD0, 0x00, 0x9A, 0xA1, 0xC0, 0x05, 0xC0, 0x04, 0x00, 0x40, 0x04, 0x00,
        0x40, 0x04, 0x00, 0x40, 0x04] && t.res.r0 == 19 && t.status.word == 2) = true := by decide +kernel

/-- 64 white pixels: a make-up code and TW[0], 14 bytes (95_test_vectors.md 3.4). -/
theorem test_fax_encode_make_up :
    after (.faxEncode .text) (given (List.replicate 64 65535) (args 64 1 0 0 0 base))
      (fun t => t.ports.textOut == [0x00, 0x1D, 0x9A, 0x80, 0x08, 0x00, 0x80, 0x08, 0x00, 0x80, 0x08, 0x00, 0x80, 0x08] &&
        t.res.r0 == 14) = true := by decide +kernel

/-- A line that an EOL ends early, then three null lines (95_test_vectors.md 3.5); Progress is asked with the rows
committed so far (R270). -/
theorem test_fax_decode_short_line :
    after .faxDecode { args 8 100 0 0 0 (fed [0x00, 0x17, 0x80, 0x04, 0x00, 0x40, 0x04, 0x00, 0x40, 0x04, 0x00, 0x40, 0x04])
        with ports := { (fed [0x00, 0x17, 0x80, 0x04, 0x00, 0x40, 0x04, 0x00, 0x40, 0x04, 0x00, 0x40, 0x04]).ports with
          rows := List.replicate 4 true, progress := List.replicate 4 true } }
      (fun t => t.res == ⟨1, 204, 196, 1⟩ && t.ports.pixOut.take 8 ==
        bilevelWrites 0 0 [false, false, true, true, true, false, false, false] &&
        t.ports.requests.filter (fun r => match r with | .progress _ _ _ => true | _ => false) ==
          [.progress 0x13 1 100, .progress 0x13 2 100, .progress 0x13 3 100, .progress 0x13 4 100]) = true := by
  decide +kernel

/-- The first 12 bytes of the scenario's page: CorruptImageError in the Sync that ends row 0 (95_test_vectors.md 3.5). -/
theorem test_fax_decode_corrupt :
    after .faxDecode (args 16 100 0 0 0 (fed [0x00, 0x13, 0x54, 0x3A, 0x1D, 0x0E, 0x87, 0x43, 0xA1, 0xD0, 0xE8, 0x70]))
      (fun t => t.status.word == 0x00011326 && t.res == ⟨0, 0, 0, 0⟩ && t.ports.pixOut == []) = true := by decide +kernel

/-! ### Buffer encoders (R308, R335) -/

/-- "ABABABA", and no pool. -/
theorem test_lzw_encode :
    after (.lzwEncode 0 .raw)
      (filled [0x41, 0x42, 0x41, 0x42, 0x41, 0x42, 0x41] (quantum 10 1 0 8 true (args 0 7 0 0 0 base)))
      (fun t => t.ports.rawOut == [0x80, 0x10, 0x48, 0x50, 0x28, 0x24, 0x04] && t.res.r0 == 7) = true ∧
    after (.lzwEncode 0 .raw) base (fun t => t.status.word == 0x00012056 && t.ports.rawOut == []) = true := by
  decide +kernel

theorem test_lzw_encode_empty :
    after (.lzwEncode 0 .text) (quantum 10 1 0 8 true (args 16 0 0 0 0 base))
      (fun t => t.ports.textOut == [0x80, 0x40, 0x40] && t.res.r0 == 3) = true := by decide +kernel

/-- The codes R308 lists for "ABABABA", decoded and packed by the reference forms. -/
theorem test_lzw_reference :
    lzwDecode [256, 65, 66, 258, 260, 257] = some [0x41, 0x42, 0x41, 0x42, 0x41, 0x42, 0x41] ∧
    bitsToBytes (lzwCodeBits 0 [256, 65, 66, 258, 260, 257]) = [0x80, 0x10, 0x48, 0x50, 0x28, 0x24, 0x04] := by
  decide +kernel

theorem test_packbits_encode :
    after (.packbitsEncode 0 .raw) (filled [9, 9, 9, 1, 2] (quantum 10 1 0 8 true (args 0 5 0 0 0 base)))
      (fun t => t.ports.rawOut == [0xFE, 9, 1, 1, 2, 0x80] && t.res.r0 == 6) = true ∧
    after (.packbitsEncode 0 .raw) { quantum 10 1 0 8 true (args 0 5 0 0 0 base) with
        ports := { base.ports with allocs := [false] } }
      (fun t => t.status.word == 0x00012816 && t.ports.rawOut == []) = true := by decide +kernel

theorem test_packbits_literal :
    (packbitsEncode [0x41, 0x42, 0x41, 0x42, 0x41, 0x42, 0x41] []).1 =
      [0x03, 0x41, 0x42, 0x41, 0x42, 0x02, 0x41, 0x42, 0x41, 0x80] ∧
    (packbitsEncode (List.replicate 128 5) []).1 = [0x82, 0x05, 0x00, 0x05, 0x80] := by decide +kernel

/-! ### Descriptor and pool (95_test_vectors.md 3.8, 3.11, R365, R447) -/

theorem test_q_acquire :
    after .qAcquire { args 640 480 3 8 0x200 base with ports := { base.ports with threads := [4] } }
      (fun t => t.q.depth == 8 && t.q.scale == 0x40EFFFE000000000 && t.q.invScale == 0x3EF0001000100010 &&
        t.pool == ⟨true, 4, 30720⟩ && t.ports.requests == [.threadLimit, .alloc .pool 122884]) = true := by decide +kernel

theorem test_q_acquire_refusals :
    after .qAcquire (args (2 ^ 60) 1 1 8 0 base)
      (fun t => t.status.word == 0x00013016 && t.q.valid && !t.pool.valid) = true ∧
    after .qAcquire (args 10 1 1 8 0x2000 base) (fun t => t.status.word == 0x00013066) = true ∧
    after .qAcquire (args 0 1 1 8 0 base) (fun t => t.status.word == 0x00013056 && !t.q.valid) = true := by decide +kernel

theorem test_q_destroy : after .qDestroy (quantum 10 1 0 8 true base)
    (fun t => t.q == Descriptor.reset && t.img == ImageAttrs.reset && t.pool == Pool.reset && t.scratch == []) = true := by
  decide +kernel

/-- SetDepth(16) on the 640 x 480 descriptor of R447 asks for 61440 bytes a buffer. -/
theorem test_q_set_depth :
    after (.qSetDepth 16) { quantum 640 3 0 8 true base with ports := { base.ports with threads := [4] } }
      (fun t => t.q.depth == 16 && t.pool == ⟨true, 4, 61440⟩) = true ∧
    after (.qSetDepth 20) { quantum 1 1 2 16 true base with pool := ⟨true, 1, 1000⟩ }
      (fun t => t.q.depth == 24 && t.pool == ⟨true, 1, 1000⟩) = true := by decide +kernel

theorem test_q_set_format :
    after (.qSetFormat 2) (quantum 1 1 0 8 true base) (fun t => t.q.depth == 16 && t.q.format == 2) = true ∧
    after (.qSetFormat 0) (quantum 1 1 2 16 true base) (fun t => t.q.depth == 16 && t.q.format == 0) = true := by decide +kernel

theorem test_q_set_endian : after (.qSetEndian 1) (quantum 1 1 0 8 true base) (fun t => t.q.endian == 1) = true := by
  decide +kernel

theorem test_q_set_pad :
    after .qSetPad ((quantum 10 3 0 8 true base).setArg 0 (2 ^ 63))
      (fun t => t.status.word == 0x00013556 && t.q.pad == 0) = true ∧
    after .qSetPad ((quantum 1 1 0 8 true base).setArg 0 1) (fun t => t.q.pad == 1 && t.pool.extent == 40) = true := by
  decide +kernel

theorem test_q_set_scale :
    after .qSetScale ((quantum 1 1 0 8 true base).setArg 0 0x4000000000000000)
      (fun t => t.q.scale == 0x4000000000000000 && t.q.invScale == 0x3FE0000000000000) = true ∧
    after .qSetScale ((quantum 1 1 0 8 true base).setArg 0 0x7FF8000000000000)
      (fun t => t.status.word == 0x00013656) = true := by decide +kernel

theorem test_q_set_polarity : after (.qSetPolarity true) (quantum 1 1 0 8 true base) (fun t => t.q.minIsWhite) = true := by
  decide +kernel

theorem test_q_reset_state :
    after .qResetState { quantum 1 1 0 8 true base with q := { (quantum 1 1 0 8 true base).q with scale := 0 } }
      (fun t => t.q.invScale == 0x3FF0000000000000) = true := by decide +kernel

/-- CMYK of 7 columns at depth 1: 4 bytes packed, 28 not (95_test_vectors.md 3.8). -/
theorem test_q_get_extent :
    after (.qGetExtent 6) (quantum 7 1 0 1 true base) (fun t => t.res.r0 == 4) = true ∧
    after (.qGetExtent 6) (quantum 7 1 0 1 false base) (fun t => t.res.r0 == 28) = true := by decide +kernel

theorem test_q_get_type :
    after .qGetType { quantum 1 1 0 8 true base with img := ⟨1, 1, 1, 0, true, 1, true, false⟩ } (fun t => t.res.r0 == 12) =
      true ∧
    after .qGetType { quantum 1 1 0 8 true base with img := ⟨1, 1, 1, 0, false, 2, false, true⟩ } (fun t => t.res.r0 == 13) =
      true := by decide +kernel

theorem test_q_set_image_type :
    after (.qSetImageType 0) (quantum 1 1 0 1 true base) (fun t => t.res.r0 == 1) = true ∧
    after (.qSetImageType 4) (quantum 1 1 0 8 true base) (fun t => t.res.r0 == 7) = true := by decide +kernel

theorem test_pool_acquire :
    after .poolAcquire ((quantum 1 1 0 8 true base).setArg 0 0)
      (fun t => t.pool == ⟨true, 1, 0⟩ && t.scratchByte 0 0 == 0xAB) = true ∧
    after .poolAcquire { (quantum 1 1 0 8 true base).setArg 0 3 with ports := { base.ports with threads := [1000] } }
      (fun t => t.pool == ⟨true, 256, 3⟩ && t.scratchByte 255 2 == 0 && t.scratchByte 255 3 == 0xAB) = true := by
  decide +kernel

theorem test_pool_get :
    after (.poolGet 0) (quantum 1 1 0 8 true base) (fun t => t.res.r0 == 0 && t.res.r1 == 16) = true ∧
    after (.poolGet 1) (quantum 1 1 0 8 true base) (fun t => t.status.word == 0x00014156) = true := by decide +kernel

/-- The guard byte overwritten, with DEBUG set and clear (95_test_vectors.md 3.12). -/
theorem test_pool_release :
    after .poolRelease { quantum 1 1 0 8 true base with ctrl := 3, scratch := [] }
      (fun t => t.status.word == 0x00014286 && !t.pool.valid && t.irq) = true ∧
    after .poolRelease { quantum 1 1 0 8 true base with ctrl := 1, scratch := [] }
      (fun t => t.status.word == 2 && !t.pool.valid) = true := by decide +kernel

/-! ### Rows (R408, R428, 95_test_vectors.md 3.10) -/

/-- The row of R428: `55 40`, and `AA 80` with the polarity inverted. -/
theorem test_q_pack :
    after (.qPack 0 0) (given [0, 65535, 0, 65535, 0, 65535, 0, 65535, 0, 65535] ((quantum 10 1 0 1 true base).setArg 0 0))
      (fun t => scratchRead t.scratch 0 0 3 == [0x55, 0x40, 0] && t.wresOf 0 == 2 && (t.wstat 0).word == 2) = true ∧
    after (.qPack 0 4) (given [65535, 0, 32768, 65535] ((quantum 1 1 0 8 true base).setArg 0 0))
      (fun t => scratchRead t.scratch 0 0 4 == [0xFF, 0x00, 0x80, 0x00]) = true := by decide +kernel

theorem test_q_pack_checks :
    after (.qPack 0 10) ((quantum 1 1 0 8 true base).setArg 0 0) (fun t => (t.wstat 0).word == 0x00003A56) = true ∧
    after (.qPack 2 0) base (fun t => (t.wstat 2).word == 0x00003A56 && t.status.word == 0x00010000) = true ∧
    after (.qPack 0 0) { (quantum 1 1 0 8 true base).setArg 0 0 with
        seqFlight := some ⟨1, some (.qSetDepth 16), Status.reset, ⟨0, 0, 0, 0⟩, [], noneSent⟩ }
      (fun t => (t.wstat 0).word == 0x00003A76 && t.status.haz) = true := by decide +kernel

/-- The row `55 40` read back (R428), and the depth-12 row of R408. -/
theorem test_q_unpack :
    after (.qUnpack 0 0) (filled [0x55, 0x40] ((quantum 2 1 0 1 true base).setArg 0 0))
      (fun t => t.ports.pixOut == [.sample 0 0 .gray 0, .sample 0 1 .gray 65535] && t.wresOf 0 == 1) = true ∧
    after (.qUnpack 0 2) (filled [0xAB, 0xC1, 0x23, 0x45, 0x60] ((quantum 1 1 0 12 true base).setArg 0 0))
      (fun t => t.ports.pixOut.take 2 == [.sample 0 0 .red 43978, .sample 0 0 .green 4657]) = true := by decide +kernel

/-- Pad and both byte orders at depth 4, and 24-bit samples (R408). -/
theorem test_row_layouts :
    packRow ⟨4, true, true, true, 1⟩ [[1], [2], [3]] = [0x10, 0x02, 0x00, 0x30, 0x00] ∧
    packRow ⟨4, true, false, false, 1⟩ [[1], [2], [3]] = [0x01, 0x20, 0x00, 0x03, 0x00] ∧
    packRow ⟨24, false, false, false, 0⟩ [[0x123456]] = [0x56, 0x34, 0x12] := by decide +kernel

/-! ### Single samples (R397, 95_test_vectors.md 3.9) -/

theorem test_rs_export :
    after (.rsExport false) ((quantum 1 1 0 12 true base).setArg 0 (toF64 43979)) (fun t => t.res.r0 == 0xABC) = true ∧
    after (.rsExport false) ((quantum 1 1 2 32 true base).setArg 0 (toF64 32768))
      (fun t => t.res.r0 == 0x3F000080) = true := by decide +kernel

theorem test_rs_export_bounds :
    after (.rsExport true) ((quantum 1 1 0 8 true base).setArg 0 0) (fun t => t.res.r0 == 0xFF) = true ∧
    after (.rsExport false) ((quantum 1 1 0 8 true base).setArg 0 0x7FF8000000000000) (fun t => t.res.r0 == 0) = true ∧
    after (.rsExport false) ((quantum 1 1 2 16 true base).setArg 0 (toF64 1)) (fun t => t.res.r0 == 0x0100) = true := by
  decide +kernel

theorem test_rs_import :
    after (.rsImport false) ((quantum 1 1 0 8 true base).setArg 0 0x180) (fun t => t.res.r0 == toF64 32896) = true ∧
    after (.rsImport false) ((quantum 1 1 2 64 true base).setArg 0 0x3FE0000000000000)
      (fun t => t.res.r0 == 0x40E0000000000000) = true := by decide +kernel

theorem test_rs_import_limits :
    after (.rsImport false) ((quantum 1 1 2 32 true base).setArg 0 0x7F800000) (fun t => t.res.r0 == toF64 65535) = true ∧
    after (.rsImport false) ((quantum 1 1 2 32 true base).setArg 0 0xBF800000) (fun t => t.res.r0 == 0) = true ∧
    after (.rsImport true) ((quantum 1 1 0 8 true base).setArg 0 0xFF) (fun t => t.res.r0 == 0) = true := by decide +kernel

/-! ### One step (R35, R612, R620) -/

/-- The word is the first thing the next step runs. -/
theorem test_with_fetch_word :
    gives (step (base.withFetchWord 32 0x00300002)) (fun t => t.ctrl == 3 && t.status.word == 2 && t.host == []) = true ∧
    decodeTableWord 32 0x0006023A = some (.qPack 2 6) ∧ decodeTableWord 32 0x00000100 = none := by decide +kernel

/-- A command with latency 1 leaves its agent busy for the host's next step. -/
theorem test_busy_window :
    gives (step { base.withFetchWord 32 0 with ports := { base.ports with latency := [1] } })
      (fun t => t.status.word == 1 && t.seqFlight.isSome) = true := by decide +kernel

/-- Asserting RST resets the block, a CMD write then does nothing, and releasing it leaves the reset values (R600). -/
theorem test_rst :
    gives (step { base with ctrl := 1, host := [.rst true] }) (fun t => t.inReset && t.ctrl == 0) = true ∧
    gives (step { base.withFetchWord 32 0 with inReset := true })
      (fun t => t.inReset && t.host == [] && t.status.word == 0) = true ∧
    gives (step { base with inReset := true, host := [.rst false] })
      (fun t => !t.inReset && t.status.word == 0 && t.pool.n == 0) = true := by decide +kernel

/-! ### Witnesses: states and operands that meet the hypotheses of the statements -/

theorem witness_DecodeOfEncodeIsTheCommand :
    Instr.wf (.qUnpack 255 13) = true ∧ Instr.wf (.bwPutCode 63) = true ∧ Instr.wf (.qSetFormat 2) = true := by decide

theorem witness_EncodeOfDecodeIsTheWord : decode 0x07F00032 = .ok (.qSetDepth 127) := by decide

theorem witness_AcceptedWordsFollowTheOpcodeTable :
    (∃ r ∈ cmdTable, (0x000D0039 : Word) &&& r.2 = r.1) ∧ ¬holdsReserved 0x000D0039 ∧ holdsReserved 0x000E0039 := by
  refine ⟨by decide, ?_, ?_⟩ <;> unfold holdsReserved <;> decide

theorem witness_ReservedOpcodeRaisesIllegalCommand :
    (opcOf 0x00000003).toNat ∉ [0x00, 0x01, 0x02, 0x08, 0x09, 0x0A, 0x0B, 0x0C, 0x0D, 0x0E, 0x10, 0x11, 0x12, 0x13,
      0x20, 0x28, 0x30, 0x31, 0x32, 0x33, 0x34, 0x35, 0x36, 0x37, 0x38, 0x39, 0x3A, 0x3B, 0x3C, 0x3D, 0x40, 0x41, 0x42,
      0x48, 0x49] := by decide

theorem witness_UndecodableWordOnlyRaises :
    decode 0x000000FF = .error .reservedOpcode ∧ decode 0x0D01033B = .error .unusedField ∧
    decode 0x000E0039 = .error .reservedValue := by decide

/-- A word at the head of the host's actions. -/
def writing (c : Word) (s : State) : State := { s with host := [.write 0 32 (c.setWidth 64)] }

theorem witness_StepRunsTheDecodedCommand :
    (writing 0x0006023A base).host = .write 0 32 ((0x0006023A : Word).setWidth 64) :: [] ∧
    decode 0x0006023A = .ok (.qPack 2 6) ∧ (writing 0x0006023A base).busy (agentOf (.qPack 2 6)) = false ∧
    (writing 0x0006023A base).inReset = false ∧
    (writing 0x00000003 base).host = .write 0 32 ((0x00000003 : Word).setWidth 64) :: [] ∧
    gives (hostAct (.write 0 32 ((0x00000003 : Word).setWidth 64)) base) (fun _ => true) = true ∧ base.host = [] := by
  decide +kernel

/-- The sequencer is in the window of a Q_SET_DEPTH. -/
def seqBusy (s : State) : State :=
  { s with
    status := ⟨true, false, false, false, 0, 0, false, false⟩
    seqFlight := some ⟨2, some (.qSetDepth 16), ⟨false, true, false, false, 0, 0, false, false⟩, ⟨0, 0, 0, 0⟩, [],
      noneSent⟩ }

/-- Worker `w` is in the window of its command. -/
def workerBusy (w : BitVec 8) (s : State) : State :=
  { s.setWstat w ⟨true, false, false, 0, 0⟩ with wFlights := [⟨w, 2, ⟨false, true, false, 0, 0⟩, 0, [], noneSent⟩] }

theorem witness_WriteToBusyAgentIsDropped :
    (seqBusy base).busy (targetOf 0) = true ∧ (workerBusy 255 base).busy (targetOf 0x0000FF3A) = true ∧
    (seqBusy base).inReset = false ∧ (workerBusy 255 base).inReset = false := by
  decide +kernel

/-- An action at the head of the host's actions. -/
def doing (a : HostAct) (s : State) : State := { s with host := [a] }

theorem witness_HostReadsRegistersByOffsetAndField :
    (doing (.write 0x78 64 5) base).inReset = false ∧
    (doing (.write 0x78 64 5) base).host = .write (0x40 + 8 * (7 : Fin 8).val) 64 5 :: [] ∧
    (doing (.read 4 32) base).host = .read 4 32 :: [] ∧ (doing (.read 8 32) base).host = .read 8 32 :: [] ∧
    (doing (.read 0x40 64) base).host = .read (0x40 + 8 * (0 : Fin 8).val) 64 :: [] ∧
    (doing (.read 0x98 64) base).host = .read (0x80 + 8 * (3 : Fin 4).val) 64 :: [] ∧
    (doing (.read 0x7FC 32) base).host = .read (0x400 + 4 * (255 : BitVec 8).toNat) 32 :: [] ∧
    (doing (.read 0xFF8 64) base).host = .read (0x800 + 8 * (255 : BitVec 8).toNat) 64 :: [] := by decide +kernel

theorem witness_HostScratchAccessesReadAndWriteOneByte :
    let s := doing (.scrWrite 0 16 7) (quantum 1 1 0 8 true base)
    memWf s.scratch = true ∧ s.pool.valid = true ∧ 0 < s.pool.n ∧ 16 ≤ s.pool.extent.toNat ∧ s.raced 0 = false ∧
    s.inReset = false ∧ s.host = .scrWrite 0 16 7 :: [] ∧
    (doing (.scrRead 0 16) (quantum 1 1 0 8 true base)).host = .scrRead 0 16 :: [] := by decide +kernel

theorem witness_HostAccessesWithoutMeaningDoNotStep :
    ((doing (.scrRead 0 0) base).host = .scrRead 0 0 :: [] ∧ (doing (.scrRead 0 0) base).pool.valid = false) ∧
    ((doing (.scrWrite 1 0 7) (quantum 1 1 0 8 true base)).host = .scrWrite 1 0 7 :: [] ∧
      (quantum 1 1 0 8 true base).pool.n ≤ 1) ∧
    ((doing (.scrRead 0 17) (quantum 1 1 0 8 true base)).host = .scrRead 0 17 :: [] ∧
      (quantum 1 1 0 8 true base).pool.extent.toNat < 17) ∧
    (let s := doing (.scrRead 0 16) (workerBusy 0 (quantum 1 1 0 8 true base));
      s.host = .scrRead 0 16 :: [] ∧ s.pool.valid = true ∧ 0 < s.pool.n ∧ 16 ≤ s.pool.extent.toNat ∧ s.raced 0 = true ∧
      s.inReset = false) ∧
    (∀ a ∈ [(0, 16), (4, 32), (8, 32), (0x40, 32), (0x3C, 64), (0x80, 64), (0x400, 32), (0x800, 64)],
      (doing (.write a.1 a.2 7) base).host = .write a.1 a.2 7 :: [] ∧
      ¬(a.2 = 32 ∧ a.1 = 0) ∧ ¬(a.2 = 64 ∧ ∃ i < 8, a.1 = 0x40 + 8 * i)) ∧
    (∀ a ∈ [(0, 32), (4, 64), (12, 32), (0x80, 32), (0xA0, 64), (0x800, 32), (0x3FC, 32), (0x1000, 64)],
      (doing (.read a.1 a.2) base).host = .read a.1 a.2 :: [] ∧
      ¬(a.2 = 32 ∧ (a.1 = 4 ∨ a.1 = 8 ∨ ∃ w < 256, a.1 = 0x400 + 4 * w)) ∧
      ¬(a.2 = 64 ∧ ((∃ i < 8, a.1 = 0x40 + 8 * i) ∨ (∃ i < 4, a.1 = 0x80 + 8 * i) ∨
        ∃ w < 256, a.1 = 0x800 + 8 * w))) := by decide +kernel

theorem witness_ControlCommandsCompleteAndDriveIrq :
    after .clrStatus base (fun _ => true) = true ∧ (2 : BitVec 2).getLsbD 0 = false ∧
    after (.ctrlWrite 2) base (fun _ => true) = true := by decide +kernel

theorem witness_ResetLeavesTheStatedValuesAndRstRestoresThem :
    (let s := doing (.rst true) base; s.host = .rst true :: [] ∧ s.seqFlight = none ∧ s.wFlights = []) ∧
    (let s := doing (.rst false) { base with inReset := true };
      s.host = .rst false :: [] ∧ s.inReset = true ∧ s.seqFlight = none ∧ s.wFlights = []) ∧
    (doing (.rst true) (seqBusy base)).host = .rst true :: [] ∧ (regAt 4 32).isSome = true ∧
    (regAt 0xFF8 64).isSome = true := by decide +kernel

theorem witness_BitUnitCommandsComplete :
    base.bw.mask >>> 1 ≠ 0 ∧ ({ base with bw := ⟨0, 1, .raw⟩ } : State).bw.mask >>> 1 = 0 ∧ base.bw.mask = 0x80 ∧
    ({ base with bw := ⟨0, 1, .raw⟩ } : State).bw.mask ≠ 0x80 ∧ (0 : BitVec 6).toNat = 0 ∧ 32 < (33 : BitVec 6).toNat := by
  decide +kernel

theorem witness_BwPutCodePutsTheCodesBits :
    1 ≤ (1 : BitVec 6).toNat ∧ (32 : BitVec 6).toNat ≤ 32 ∧ base.bw.legal ∧
    BitWriter.legal ⟨0xFE, 1, .text⟩ :=
  ⟨by decide, by decide, ⟨by unfold oneBit; decide, by decide⟩, ⟨by unfold oneBit; decide, by decide⟩⟩

theorem witness_BrGetBitReturnsTheNextBit :
    (fed [0x40]).br.legal ∧ (fed [0x40]).reader.bits = false :: true :: List.replicate 6 false ∧
    (fed []).reader.bits = [] ∧ BitReader.legal ⟨0x55, 1, false, 3⟩ :=
  ⟨Or.inl rfl, by decide, by decide, by unfold BitReader.legal oneBit; decide⟩

theorem witness_BrSyncStopsPastTheNextEol :
    (fed [0x00, 0x10]).br.legal ∧
    afterEol (fed [0x00, 0x10]).br.zrun.toNat (fed [0x00, 0x10]).reader.bits = some (List.replicate 4 false) ∧
    afterEol (fed [0xFF]).br.zrun.toNat (fed [0xFF]).reader.bits = none :=
  ⟨Or.inl rfl, by decide, by decide⟩

theorem witness_FaxCodeTablesAreFreeOfClashes :
    ((whiteRows, Colour.white) = (whiteRows, Colour.white) ∨ (whiteRows, Colour.white) = (blackRows, Colour.black)) ∧
    ∀ e ∈ [(⟨.tw, 63, 8, 52⟩ : FaxRow), ⟨.tb, 2, 2, 3⟩], e ∈ whiteRows ++ blackRows := by
  exact ⟨Or.inl rfl, by decide +kernel⟩

theorem witness_FaxTableCommandsComplete :
    base.ports.nextAlloc = true ∧ ({ base.ports with allocs := [false] } : Ports).nextAlloc = false ∧
    State.reset.faxWhash = [] ∧ State.reset.faxBhash = [] := by
  decide +kernel

/-- A page of one row of two pixels. -/
def onePage (progress : List Bool) : State :=
  { given [65535, 0] (args 2 1 0 0 0 base) with
    ports := { (given [65535, 0] (args 2 1 0 0 0 base)).ports with rows := [true], progress := progress } }

theorem witness_FaxEncodeSendsThePage :
    let s := onePage [true]
    let page : List (List Rat) := [[65535, 0]]
    (s.argVal 0).toNat ≠ 0 ∧ (s.argVal 1).toNat ≠ 0 ∧
    page.length = (s.argVal 1).toNat ∧ (∀ row ∈ page, row.length = (s.argVal 0).toNat) ∧ s.ports.nextAlloc = true ∧
    s.ports.rows = List.replicate page.length true ++ [] ∧ s.ports.progress = List.replicate page.length true ++ [] ∧
    s.ports.samples = page.flatten ++ [] := by decide +kernel

theorem witness_FaxEncodeStopsAfterTheRow :
    let s := onePage [false]
    let page : List (List Rat) := [[65535, 0]]
    (s.argVal 0).toNat ≠ 0 ∧ page ≠ [] ∧ page.length ≤ (s.argVal 1).toNat ∧
    (∀ row ∈ page, row.length = (s.argVal 0).toNat) ∧ s.ports.nextAlloc = true ∧
    s.ports.rows = List.replicate page.length true ++ [] ∧
    s.ports.progress = List.replicate (page.length - 1) true ++ false :: [] ∧
    s.ports.samples = page.flatten ++ [] := by decide +kernel

/-- A source that holds the encoded page of one row of two pixels, and answers for four rows. -/
def pageSource : State :=
  { args 2 100 0 0 0 base with
    ports := { base.ports with
      src := bitsToBytes (faxPageBits [[false, true]]), rows := List.replicate 4 true, progress := List.replicate 4 true } }

theorem witness_FaxDecodeReadsAnEncodedPage :
    let s := pageSource
    let rows := [[false, true]]
    (s.argVal 0).toNat ≠ 0 ∧ (s.argVal 1).toNat ≠ 0 ∧ rows ≠ [] ∧
    (∀ row ∈ rows, row.length = (s.argVal 0).toNat) ∧ s.ports.src = bitsToBytes (faxPageBits rows) ++ [] ∧
    s.ports.allocs = true :: true :: [] ∧
    s.ports.rows = List.replicate (min (s.argVal 1).toNat (rows.length + 3)) true ++ [] ∧
    s.ports.progress = List.replicate (min (s.argVal 1).toNat (rows.length + 3)) true ++ [] := by decide +kernel

theorem witness_FaxDecodeWithoutAnEolIsCorrupt :
    let s := args 2 1 0 0 0 (fed [0x00, 0xFF])
    (s.argVal 0).toNat ≠ 0 ∧ (s.argVal 1).toNat ≠ 0 ∧
    s.ports.allocs = true :: true :: [] ∧ afterEol 0 (s.ports.src.flatMap byteBits) = none := by decide +kernel

/-- Each clause: a busy worker; no pool, and W = POOL_N; a range one byte past the extent. -/
theorem witness_EncodersCheckHazardPoolAndRange :
    ((workerBusy 255 base).wstat 255).busy = true ∧
    ((base.wstat 0).busy = false ∧ base.pool.valid = false) ∧
    (quantum 1 1 0 8 true base).pool.n ≤ (1 : BitVec 8).toNat ∧
    (let s := quantum 1 1 0 8 true (args 16 1 0 0 0 base);
      (s.wstat 0).busy = false ∧ s.pool.valid = true ∧ (0 : BitVec 8).toNat < s.pool.n ∧
      s.pool.extent.toNat < (s.argVal 0).toNat + (s.argVal 1).toNat) := by decide +kernel

theorem witness_BufferEncodersSendTheirStreams :
    let s := quantum 1 1 0 8 true (args 15 1 0 0 0 base)
    (s.wstat 0).busy = false ∧ s.pool.valid = true ∧ (0 : BitVec 8).toNat < s.pool.n ∧
    (s.argVal 0).toNat + (s.argVal 1).toNat ≤ s.pool.extent.toNat ∧ s.ports.nextAlloc = true ∧
    ({ s.ports with allocs := [false] } : Ports).nextAlloc = false := by decide +kernel

theorem witness_LzwFindChildFindsTheExtension :
    258 < (lzwAfter Lzw.reset 7 [7, 7]).nextCode ∧ 258 ≠ lzwClear ∧ 258 ≠ lzwEnd := by decide +kernel

/-- Operands of a 4 x 2 image of one channel, format 2, both bounds given: 1.0 and 3.0. -/
def acquiring : State :=
  ((args 4 2 1 16 0x1900 base).setArg 5 0x3FF0000000000000).setArg 6 0x4008000000000000

theorem witness_QAcquireCreatesTheDescriptor :
    let s := acquiring
    let attr := s.argVal 4
    s.anyWorkerBusy = false ∧ s.q.valid = false ∧ s.pool.valid = false ∧
    attr.toNat < 2 ^ 13 ∧ attr.extractLsb' 0 2 ≠ 3 ∧ attr.extractLsb' 3 2 ≠ 3 ∧ attr.extractLsb' 7 2 ≠ 3 ∧
    s.argVal 0 ≠ 0 ∧ s.argVal 1 ≠ 0 ∧ s.argVal 2 ≠ 0 ∧ attr.getLsbD 11 = true ∧ attr.getLsbD 12 = true ∧
    f64 (s.argVal 5) = .real 1 ∧ f64 (s.argVal 6) = .real 3 ∧
    min (max s.ports.nextThreads 1) 256 * (4 * (1 + 0 + 3) * 2 * 8 + 1) < 2 ^ 64 ∧
    s.ports.tookThreads.nextAlloc = true := by decide +kernel

theorem witness_QAcquireRefusesBadOperands :
    (workerBusy 0 base).anyWorkerBusy = true ∧
    (base.anyWorkerBusy = false ∧ ((args 1 1 1 8 0x2000 base).argVal 4).extractLsb' 13 51 ≠ 0) ∧
    ((args 1 1 1 8 3 base).argVal 4).extractLsb' 0 2 = 3 ∧ ((args 1 1 1 8 0x18 base).argVal 4).extractLsb' 3 2 = 3 ∧
    ((args 1 1 1 8 0x180 base).argVal 4).extractLsb' 7 2 = 3 ∧
    (quantum 1 1 0 8 true (args 1 1 1 8 0x208 base)).q.valid = true ∧
    (acquiring.q.valid = false ∧ (args 1 0 1 8 0x208 base).argVal 1 = 0) ∧
    (acquiring.setArg 6 0x7FF8000000000000).argVal 0 ≠ 0 ∧
    f64 ((acquiring.setArg 6 0x7FF8000000000000).argVal 6) = .nan := by decide +kernel

/-- The pool's guard byte is overwritten and DEBUG is 1. -/
def badGuard (s : State) : State := { s with ctrl := 2, scratch := [] }

theorem witness_QDestroyReleasesEverything :
    base.anyWorkerBusy = false ∧ base.q.valid = false ∧ (quantum 1 1 0 8 true base).q.valid = true ∧
    (quantum 1 1 0 8 true base).ctrl.getLsbD 1 = false ∧
    (let s := badGuard (quantum 1 1 0 8 true base);
      s.anyWorkerBusy = false ∧ s.q.valid = true ∧ s.ctrl.getLsbD 1 = true ∧
      ∃ b < s.pool.n, s.scratchByte b s.pool.extent.toNat ≠ 0xAB) := by decide +kernel

/-- A pool of exactly the extent that Q_SET_PAD of 0 on a 1 x 1 image of one channel asks for. -/
def padKeeps : State := { (quantum 1 1 0 8 true base).setArg 0 0 with pool := ⟨true, 1, 32⟩ }

theorem witness_SettersKeepALargeEnoughPool :
    ∃ q, padKeeps.retarget .qSetPad = some q ∧ padKeeps.anyWorkerBusy = false ∧ padKeeps.q.valid = true ∧
      Instr.wf .qSetPad = true ∧ padKeeps.padGiven .qSetPad ∧ 1 ≤ padKeeps.img.columns.toNat ∧
      padKeeps.pool.valid = true ∧ speculativeExtent q padKeeps.img ≤ padKeeps.pool.extent.toNat :=
  ⟨_, rfl, by decide +kernel, by decide +kernel, rfl, fun _ => by decide +kernel, by decide +kernel, by decide +kernel,
    by decide +kernel⟩

/-- Each case of the old pool: none, and one too small whose guards are intact with DEBUG = 1. -/
theorem witness_SettersReallocateASmallPool :
    ∃ q, (quantum 1 1 0 8 true base).retarget (.qSetFormat 2) = some q ∧
      (quantum 1 1 0 8 true base).anyWorkerBusy = false ∧ (quantum 1 1 0 8 true base).q.valid = true ∧
      Instr.wf (.qSetFormat 2) = true ∧ (quantum 1 1 0 8 true base).padGiven (.qSetFormat 2) ∧
      1 ≤ (quantum 1 1 0 8 true base).img.columns.toNat ∧
      ({ quantum 1 1 0 8 true base with pool := Pool.reset, scratch := [] } : State).pool.valid = false ∧
      (let s := { quantum 1 1 0 8 true base with ctrl := 2 };
        s.pool.extent.toNat < speculativeExtent q s.img ∧ ∀ b < s.pool.n, s.scratchByte b s.pool.extent.toNat = 0xAB) ∧
      min (max base.ports.nextThreads 1) 256 * (speculativeExtent q (quantum 1 1 0 8 true base).img + 1) < 2 ^ 64 ∧
      base.ports.tookThreads.nextAlloc = true :=
  ⟨_, rfl, by decide +kernel, by decide +kernel, rfl, fun h => by simp at h, by decide +kernel, by decide +kernel,
    by decide +kernel, by decide +kernel, by decide +kernel⟩

/-- Each clause: a pad that makes the extent 2^64 or more, and a bad guard of a pool that is too small. -/
theorem witness_SettersReportOverflowAndBadGuards :
    (∃ q, ((quantum 1 1 0 8 true base).setArg 0 (2 ^ 63)).retarget .qSetPad = some q ∧
      ((quantum 1 1 0 8 true base).setArg 0 (2 ^ 63)).padGiven .qSetPad ∧
      2 ^ 64 ≤ speculativeExtent q (quantum 1 1 0 8 true base).img) ∧
    ∃ q, (badGuard (quantum 1 1 0 8 true base)).retarget (.qSetDepth 8) = some q ∧
      (badGuard (quantum 1 1 0 8 true base)).anyWorkerBusy = false ∧ (badGuard (quantum 1 1 0 8 true base)).q.valid = true ∧
      (badGuard (quantum 1 1 0 8 true base)).padGiven (.qSetDepth 8) ∧
      1 ≤ (badGuard (quantum 1 1 0 8 true base)).img.columns.toNat ∧
      speculativeExtent q (quantum 1 1 0 8 true base).img < 2 ^ 64 ∧
      (let s := badGuard (quantum 1 1 0 8 true base);
        s.pool.valid = true ∧ s.pool.extent.toNat < speculativeExtent q s.img ∧ s.ctrl.getLsbD 1 = true ∧
        ∃ b < s.pool.n, s.scratchByte b s.pool.extent.toNat ≠ 0xAB) :=
  ⟨⟨_, rfl, fun _ => by decide +kernel, by decide +kernel⟩,
    ⟨_, rfl, by decide +kernel, by decide +kernel, fun h => by simp at h, by decide +kernel, by decide +kernel,
      by decide +kernel⟩⟩

theorem witness_ScaleAndStateCommandsComplete :
    let s := (quantum 1 1 0 8 true base).setArg 0 0x4000000000000000
    s.anyWorkerBusy = false ∧ s.q.valid = true ∧ f64 (s.argVal 0) = .real 2 ∧
    f64 s.q.scale = .real 65535 ∧ f64 ((s.setArg 0 0x7FF0000000000000).argVal 0) = .inf false := by decide +kernel

/-- Both clauses of Q_GET_EXTENT: a row below 2^64 bytes, and one of exactly 2^64. -/
theorem witness_DescriptorQueriesComplete :
    (13 : BitVec 4).toNat < 14 ∧ (quantum 7 1 0 1 true base).q.valid = true ∧
    rowExtent (quantum 7 1 0 1 true base).q (quantum 7 1 0 1 true base).img 4 < 2 ^ 64 ∧
    rowExtent (quantum (2 ^ 63) 2 0 8 true base).q (quantum (2 ^ 63) 2 0 8 true base).img
      (channelsOfCode (quantum (2 ^ 63) 2 0 8 true base).img 13) = 2 ^ 64 := by decide +kernel

theorem witness_CommandsNeedADescriptor :
    Instr.wf (.qGetExtent 13) = true ∧ base.anyWorkerBusy = false ∧ base.q.valid = false ∧
    (Instr.qGetExtent 13).opcode.toNat = 0x39 := by decide +kernel

theorem witness_BusyWorkersBlockMutation :
    Instr.wf .poolRelease = true ∧ ((workerBusy 255 base).wstat 255).busy = true ∧
    Instr.poolRelease.opcode.toNat = 0x42 := by decide +kernel

/-- Every clause: both hazards; each option check; a row just past the image; an extent just past the pool's; a row the
pixel port refuses. -/
theorem witness_WorkerCommandsCheckInOrder :
    (seqBusy base).seqMutating = true ∧
    ({ base with
      seqFlight := some ⟨1, some (.lzwEncode 3 .raw), Status.reset, ⟨0, 0, 0, 0⟩, [], noneSent⟩ } : State).seqReads 3 = true ∧
    (base.seqMutating = false ∧ base.seqReads 0 = false ∧ base.q.valid = false) ∧
    (quantum 1 1 0 8 true base).pool.n ≤ (1 : BitVec 8).toNat ∧ (12 : BitVec 4).toNat = 12 ∧
    (let s := quantum 1 1 0 8 true (args 1 0 0 0 0 base);
      s.q.valid = true ∧ s.pool.valid = true ∧ (0 : BitVec 8).toNat < s.pool.n ∧ (0 : BitVec 4).toNat ∉ [10, 11, 12] ∧
      s.q.alphaType = false ∧ s.img.rows.toNat ≤ (s.argVal 0).toNat) ∧
    (let s := quantum 17 1 0 8 true (args 0 0 0 0 0 base);
      (s.argVal 0).toNat < s.img.rows.toNat ∧ s.pool.extent.toNat < rowExtent s.q s.img (channelsOfCode s.img 0)) ∧
    (let s := quantum 16 1 0 8 true (args 0 0 0 0 0 base);
      rowExtent s.q s.img (channelsOfCode s.img 0) ≤ s.pool.extent.toNat ∧
      ({ s.ports with rows := [false] } : Ports).nextRow = false) := by decide +kernel

theorem witness_QPackWritesTheRow :
    let s := given [1, 2, 3] (quantum 1 1 0 8 true (args 0 0 0 0 0 base))
    let chs : List Channel := [.plain .red, .plain .green, .plain .blue]
    let vss : List (List Rat) := [[1, 2, 3]]
    qtypeOf 2 = some .rgb ∧ channelOrder s.img .rgb = some chs ∧ s.seqMutating = false ∧ s.seqReads 0 = false ∧
    s.q.valid = true ∧ s.pool.valid = true ∧ (0 : BitVec 8).toNat < s.pool.n ∧
    ¬(s.q.alphaType = true ∧ hasAlpha .rgb = true) ∧ (s.argVal 0).toNat < s.img.rows.toNat ∧
    rowExtent s.q s.img (channelsOfCode s.img 2) ≤ s.pool.extent.toNat ∧ s.ports.nextRow = true ∧
    memWf s.scratch = true ∧ s.ports.samples = vss.flatten ++ [] ∧ vss.length = s.img.columns.toNat ∧
    ∀ vs ∈ vss, vs.length = chs.length := by decide +kernel

theorem witness_QUnpackStoresTheRow :
    let s := quantum 2 1 0 8 true (args 0 0 0 0 0 base)
    let chs : List Channel := [.grayStar]
    qtypeOf 0 = some .gray ∧ channelOrder s.img .gray = some chs ∧ s.seqMutating = false ∧ s.seqReads 0 = false ∧
    s.q.valid = true ∧ s.pool.valid = true ∧ (0 : BitVec 8).toNat < s.pool.n ∧
    ¬(s.q.alphaType = true ∧ hasAlpha .gray = true) ∧ (s.argVal 0).toNat < s.img.rows.toNat ∧
    rowExtent s.q s.img (channelsOfCode s.img 0) ≤ s.pool.extent.toNat ∧ s.ports.nextRow = true := by decide +kernel

theorem witness_AgentsLeaveEachOtherAlone :
    agentOf (.qUnpack 0 0) = .worker 0 ∧
    after (.qUnpack 0 0) (quantum 2 1 0 8 true (args 0 0 0 0 0 base)) (fun _ => true) = true ∧
    agentOf .poolRelease = .seq ∧ after .poolRelease (quantum 2 1 0 8 true base) (fun _ => true) = true ∧
    Instr.nop.opcode.toNat ∉ [0x30, 0x31, 0x32, 0x33, 0x34, 0x35, 0x36, 0x37, 0x38, 0x40, 0x42] := by decide +kernel

theorem witness_PackedRowsReadBackTheirCodes :
    ∀ us ∈ [[4095, 0], [1, 2]], us.length = 2 ∧ ∀ u ∈ us, u < 2 ^ (Layout.depth ⟨12, true, true, true, 1⟩) := by decide

theorem witness_UnsignedSamplesRoundTrip :
    base.params.hdri = false ∧ base.params.range ≤ 2 ^ 16 - 1 ∧ 65535 ≤ base.params.range ∧
    2 ^ 15 - 1 < base.params.range := by decide

theorem witness_SamplesStayInTheirDomains : base.params.hdri = false := rfl

theorem witness_SingleSampleCommandsComplete :
    (quantum 1 1 0 8 true base).q.valid = true ∧
    (quantum 1 1 0 8 true base).q.format = 0 ∧ (quantum 1 1 0 8 true base).params.range ≠ 0 := by decide +kernel

theorem witness_EveryCommandCompletesAndReadsOnlyItsOperands :
    (1 : Fin 8) ∉ operandsOf (.bwPutCode 32) ∧ (7 : Fin 8) ∉ operandsOf .qAcquire ∧
    after (.bwPutCode 32) (base.setArg 0 0xFF) (fun t => t.ports.rawOut == [0, 0, 0, 0xFF]) = true ∧
    after .qAcquire base (fun t => t.status.err) = true := by decide +kernel

/-- Commands with ARG operands run on the values the registers hold at reset, which nothing in Lean can evaluate (R31). -/
theorem test_operands_at_reset (i : Fin 8) :
    State.reset.argVal i = Config.argReset i ∧
    exec (.bwPutCode 1) State.reset =
      .next { State.reset.seqEnded with
        bw := ((putCodeBits (Config.argReset 0).toNat 1) ⟨State.reset.bw, []⟩).bw
        ports := State.reset.ports.sink .raw ((putCodeBits (Config.argReset 0).toNat 1) ⟨State.reset.bw, []⟩).out } := by
  have h : State.reset.argVal i = Config.argReset i := by simp [State.argVal, State.reset]
  exact ⟨h, rfl⟩

/-- The old pool of each clause: intact, overwritten; the total that fits, the one that does not; an allocation refused. -/
theorem witness_PoolAcquireGivesFreshBuffersOrNone :
    (let s := { quantum 1 1 0 8 true (args 3 0 0 0 0 base) with ctrl := 2 };
      s.anyWorkerBusy = false ∧ s.q.valid = true ∧
      (∀ b < s.pool.n, s.scratchByte b s.pool.extent.toNat = 0xAB) ∧
      min (max s.ports.nextThreads 1) 256 * ((s.argVal 0).toNat + 1) < 2 ^ 64 ∧ s.ports.tookThreads.nextAlloc = true) ∧
    (let s := badGuard (quantum 1 1 0 8 true base);
      s.pool.valid = true ∧ s.ctrl.getLsbD 1 = true ∧ ∃ b < s.pool.n, s.scratchByte b s.pool.extent.toNat ≠ 0xAB) ∧
    (let s := quantum 1 1 0 8 true (args (2 ^ 64 - 1) 0 0 0 0 base);
      2 ^ 64 ≤ min (max s.ports.nextThreads 1) 256 * ((s.argVal 0).toNat + 1)) ∧
    ({ base.ports with allocs := [false] } : Ports).tookThreads.nextAlloc = false := by decide +kernel

/-- The pool of these states is legal. -/
theorem witness_pool_and_scratch_legal (c : Word) :
    State.poolLegal { quantum 1 1 0 8 true (args 3 0 0 0 0 base) with ctrl := c } ∧
    State.scratchLegal { quantum 1 1 0 8 true (args 3 0 0 0 0 base) with ctrl := c } ∧
    State.poolLegal (badGuard (quantum 1 1 0 8 true base)) ∧ State.scratchLegal (badGuard (quantum 1 1 0 8 true base)) := by
  refine ⟨?_, ⟨?_, ?_⟩, ?_, ⟨?_, ?_⟩⟩
  · exact (by decide : true = true ∧ 1 ≤ 1 ∧ 1 ≤ Config.maxWorkers ∧ 1 * ((16 : DWord).toNat + 1) < 2 ^ 64)
  · exact (by decide +kernel : memWf (freshScratch 1 16) = true)
  · exact fun h => Bool.noConfusion (h : true = false)
  · exact (by decide : true = true ∧ 1 ≤ 1 ∧ 1 ≤ Config.maxWorkers ∧ 1 * ((16 : DWord).toNat + 1) < 2 ^ 64)
  · rfl
  · exact fun h => Bool.noConfusion (h : true = false)

theorem witness_PoolGetAndReleaseComplete :
    ((quantum 1 1 0 8 true base).pool.valid = true ∧ (0 : BitVec 8).toNat < (quantum 1 1 0 8 true base).pool.n) ∧
    base.pool.valid = false ∧ (quantum 1 1 0 8 true base).pool.n ≤ (1 : BitVec 8).toNat ∧ base.anyWorkerBusy = false ∧
    (quantum 1 1 0 8 true base).ctrl.getLsbD 1 = false ∧
    (let s := badGuard (quantum 1 1 0 8 true base);
      s.pool.valid = true ∧ s.ctrl.getLsbD 1 = true ∧ ∃ b < s.pool.n, s.scratchByte b s.pool.extent.toNat ≠ 0xAB) := by
  decide +kernel

/-- A normal, a cancelled and a raised end, and a worker's. -/
theorem witness_EveryCommandReportsItsEnd :
    after (.faxEncode .raw) (onePage [true]) (fun t => t.status.word == 2) = true ∧
    after (.faxEncode .raw) (onePage [false]) (fun t => t.status.word == 0xA) = true ∧
    after .poolAcquire base (fun t => t.status.word == 0x00014056) = true ∧
    after (.qUnpack 0 0) (quantum 2 1 0 8 true (args 0 0 0 0 0 base)) (fun t => (t.wstat 0).word == 2) = true := by
  decide +kernel

theorem witness_CommandsLeaveTheHostSideAlone :
    after .poolRelease (quantum 2 1 0 8 true base) (fun _ => true) = true ∧ ∀ v, Instr.poolRelease ≠ .ctrlWrite v :=
  ⟨by decide +kernel, fun v h => by simp at h⟩

theorem witness_StepKeepsPoolAndScratchLegal :
    State.poolLegal State.reset ∧ State.scratchLegal State.reset ∧
    gives (step (writing 0x00000040 (quantum 2 1 0 8 true (args 3 0 0 0 0 base)))) (fun t => t.pool.extent == 3) = true :=
  ⟨rfl, ⟨rfl, fun _ => rfl⟩, by decide +kernel⟩

theorem witness_StepKeepsTheDescriptorLegal :
    (quantum 2 1 0 8 true base).descriptorLegal ∧
    gives (step (writing 0x01000032 (quantum 2 1 0 8 true base))) (fun t => t.q.depth == 16) = true := by
  refine ⟨?_, by decide +kernel⟩
  have h0 : isFinite 0 := ⟨0, by decide +kernel⟩
  have h1 : isFinite 0x3FF0000000000000 := ⟨1, by decide +kernel⟩
  exact (⟨by decide, by decide, by unfold depthLegal; decide, h0, h1, by decide, by decide, by decide, by decide, by decide,
    by decide⟩ : (0 : BitVec 2) ≠ 3 ∧ (0 : BitVec 2) ≠ 3 ∧ depthLegal 0 8 ∧ isFinite 0 ∧ isFinite 0x3FF0000000000000 ∧
    (0 : DWord).toNat * (1 : DWord).toNat < 2 ^ 64 ∧ 1 ≤ (2 : DWord).toNat ∧ 1 ≤ (1 : DWord).toNat ∧
    1 ≤ (1 : DWord).toNat ∧ (2 : BitVec 2) ≠ 3 ∧ (0 : BitVec 2) ≠ 3)

theorem witness_StepKeepsTheBitUnitsLegal :
    base.bw.legal ∧ base.br.legal ∧ gives (step (writing 0x00100009 base)) (fun t => t.bw.mask == 0x40) = true :=
  ⟨⟨by unfold oneBit; decide, by decide⟩, Or.inl rfl, by decide +kernel⟩

/-- Both agents in their windows. -/
theorem witness_StepKeepsBusyBitsTrue :
    (workerBusy 3 (seqBusy base)).busyLegal ∧
    gives (step (workerBusy 3 (seqBusy base))) (fun t => t.status.busy && (t.wstat 3).busy) = true := by
  refine ⟨⟨by decide +kernel, by decide +kernel, by decide, ?_, by decide⟩, by decide +kernel⟩
  intro f hf
  cases hf
  rfl

theorem witness_StepKeepsZeroFieldsZero :
    (seqBusy base).errFieldsLegal ∧ (seqBusy base).quietLegal ∧ gives (step (seqBusy base)) (fun _ => true) = true := by
  refine ⟨⟨fun _ => ⟨rfl, rfl⟩, ?_, ?_, ?_⟩, ⟨by decide, rfl, rfl⟩, by decide +kernel⟩
  · intro w _
    revert w
    decide +kernel
  · intro f hf _
    cases hf
    exact ⟨rfl, rfl⟩
  · intro f hf
    cases hf

end Sys2Proof.Tests
end

section
/-! PROOFS. What a command's pseudocode leaves alone, whatever the command: the busy windows and the host's side. -/

namespace Sys2Proof.Machine

open Host

/-! ### The frame of a pseudocode -/

/-- The fields that say which agent is in its busy window and whether RST is asserted (R32, R33, R600, R610). -/
structure Windows where
  seqBusy : Bool
  wstatus : Vector WStatus 256
  seqFlight : Option SeqFlight
  wFlights : List WFlight
  inReset : Bool

/-- The fields no command's pseudocode writes: the windows, the host's side, and the Raise exchanges (only the end of a
command makes one, R505). -/
structure Frame extends Windows where
  arg : Vector DWord 8
  host : List HostAct
  seen : List DWord
  params : Params
  latency : List Nat
  raised : List (ErrKind × BitVec 8)

/-- The windows of a state. -/
def State.windows (s : State) : Windows := ⟨s.status.busy, s.wstatus, s.seqFlight, s.wFlights, s.inReset⟩

/-- The frame of a state. -/
def State.frame (s : State) : Frame :=
  ⟨s.windows, s.arg, s.host, s.seen, s.params, s.ports.latency, s.ports.raised⟩

/-- The state a pseudocode leaves, however it ends. -/
def CmdEnd.state : CmdEnd → State
  | .normal s => s
  | .cancelled s => s
  | .raised _ s => s

/-- A pseudocode started in `s` has written no field of the frame. -/
def CmdEnd.Keeps (s : State) (e : CmdEnd) : Prop := e.state.frame = s.frame

/-- Equal frames have equal windows. -/
theorem windows_of_frame {s t : State} (h : t.frame = s.frame) : t.windows = s.windows :=
  congrArg Frame.toWindows h

/-! ### The state's operations keep the frame -/

@[simp] theorem State.tookRow_frame (s : State) (y : Nat) : (s.tookRow y).frame = s.frame := rfl
@[simp] theorem State.tookProgress_frame (s : State) (tag : BitVec 8) (current total : Nat) :
    (s.tookProgress tag current total).frame = s.frame := rfl
@[simp] theorem State.setRes0_frame (s : State) (v : DWord) : (s.setRes0 v).frame = s.frame := rfl
@[simp] theorem State.setReader_frame (s : State) (x : Reader) : (s.setReader x).frame = s.frame := rfl
@[simp] theorem State.commitRow_frame (s : State) (y : Nat) : (s.commitRow y).frame = s.frame := rfl
@[simp] theorem State.afterLine_frame (s : State) (l : LineState) : (s.afterLine l).frame = s.frame := rfl
@[simp] theorem State.sink_frame (s : State) (port : Port) (bytes : List Byte) :
    (s.sink port bytes).frame = s.frame := by cases port <;> rfl
@[simp] theorem State.runWriter_frame (s : State) (f : Writer → Writer) : (s.runWriter f).frame = s.frame :=
  s.sink_frame s.bw.port (f ⟨s.bw, []⟩).out

/-- New ports with the same latencies and Raise exchanges keep the frame. -/
theorem frame_ports (s : State) (p : Ports) (hl : p.latency = s.ports.latency) (hr : p.raised = s.ports.raised) :
    { s with ports := p }.frame = s.frame := by
  simp [State.frame, State.windows, hl, hr]

/-- Asking a row of intensities draws no latency and makes no Raise exchange. -/
theorem askIntensities_ports (p : Params) (y n x : Nat) (ports : Ports) :
    (askIntensities p y n x ports).2.latency = ports.latency ∧
    (askIntensities p y n x ports).2.raised = ports.raised := by
  induction n generalizing x ports with
  | zero => exact ⟨rfl, rfl⟩
  | succ n ih => exact ih (x + 1) (ports.tookSample (.getIntensity y x))

/-- Asking a pixel's samples draws no latency and makes no Raise exchange. -/
theorem askPixel_ports (p : Params) (y x : Nat) (chs : List Channel) (ports : Ports) :
    (askPixel p y x chs ports).2.latency = ports.latency ∧ (askPixel p y x chs ports).2.raised = ports.raised := by
  induction chs generalizing ports with
  | nil => exact ⟨rfl, rfl⟩
  | cons c cs ih => exact ih (ports.tookSample (.getSample y x c.sel))

/-- Asking a row of pixels draws no latency and makes no Raise exchange. -/
theorem askRow_ports (p : Params) (y : Nat) (chs : List Channel) (n x : Nat) (ports : Ports) :
    (askRow p y chs n x ports).2.latency = ports.latency ∧ (askRow p y chs n x ports).2.raised = ports.raised := by
  induction n generalizing x ports with
  | zero => exact ⟨rfl, rfl⟩
  | succ n ih =>
    obtain ⟨hl, hr⟩ := askPixel_ports p y x chs ports
    obtain ⟨hl', hr'⟩ := ih (x + 1) (askPixel p y x chs ports).2
    exact ⟨hl'.trans hl, hr'.trans hr⟩

@[simp] theorem State.scanRow_frame (s : State) (y c : Nat) : (s.scanRow y c).frame = s.frame := by
  obtain ⟨hl, hr⟩ := askIntensities_ports s.params y c 0 s.ports
  exact frame_ports s _ hl hr

/-! ### The shared parts of the pseudocodes keep the frame -/

theorem CmdEnd.mapState_state (e : CmdEnd) (f : State → State) : (e.mapState f).state = f e.state := by
  cases e <;> rfl

@[simp] theorem keeps_normal {s t : State} : (CmdEnd.normal t).Keeps s ↔ t.frame = s.frame := .rfl
@[simp] theorem keeps_cancelled {s t : State} : (CmdEnd.cancelled t).Keeps s ↔ t.frame = s.frame := .rfl
@[simp] theorem keeps_raised {s t : State} {k : ErrKind} : (CmdEnd.raised k t).Keeps s ↔ t.frame = s.frame := .rfl

/-- What starts from a state with the same frame keeps the frame of the state before it. -/
theorem CmdEnd.Keeps.of_frame {s t : State} {e : CmdEnd} (he : e.Keeps t) (h : t.frame = s.frame) : e.Keeps s :=
  Eq.trans he h

theorem keeps_dropScan {s : State} {e : CmdEnd} (h : e.Keeps s) : (e.mapState State.dropScan).Keeps s := by
  rw [CmdEnd.Keeps, CmdEnd.mapState_state]
  exact h

theorem keeps_andThen {s : State} {e : CmdEnd} {next : State → CmdEnd} (he : e.Keeps s)
    (hn : ∀ t, (next t).Keeps t) : (e.andThen next).Keeps s := by
  cases e with
  | normal t => exact (hn t).of_frame he
  | cancelled t => exact he
  | raised k t => exact he

theorem keeps_hazardCheck {s : State} {k : CmdEnd} (h : k.Keeps s) : (hazardCheck s k).Keeps s := by
  obtain ⟨-, e⟩ | ⟨-, e⟩ := hazardCheck_cases s k <;> rw [e]
  · exact h
  · rfl

theorem keeps_needDescriptor {s : State} {k : CmdEnd} (h : k.Keeps s) : (needDescriptor s k).Keeps s := by
  obtain ⟨-, e⟩ | ⟨-, e⟩ := needDescriptor_cases s k <;> rw [e]
  · exact h
  · rfl

theorem keeps_useQType {s : State} {qt : BitVec 4} {k : QType → CmdEnd} (h : ∀ t, (k t).Keeps s) :
    (useQType qt s k).Keeps s := by
  obtain ⟨t, -, e⟩ | ⟨-, e⟩ := useQType_cases qt s k <;> rw [e]
  · exact h t
  · rfl

theorem keeps_ite {s : State} {p : Prop} [Decidable p] {e e' : CmdEnd} (h : e.Keeps s) (h' : e'.Keeps s) :
    (if p then e else e').Keeps s := by
  split
  · exact h
  · exact h'

theorem keeps_releaseThen {s : State} {k : State → CmdEnd} (h : ∀ t, (k t).Keeps t) : (releaseThen s k).Keeps s := by
  obtain ⟨-, e⟩ | ⟨-, -, e⟩ | ⟨-, -, e⟩ := releaseThen_cases s k <;> rw [e]
  · exact h s
  · exact h s.freePool
  · rfl

theorem keeps_poolAcquire (e : Nat) (s : State) : (poolAcquire e s).Keeps s := by
  obtain ⟨-, h⟩ | ⟨-, -, h⟩ | ⟨-, -, h⟩ := poolAcquire_cases e s <;> rw [h] <;> rfl

/-- SetDepth's pool is released or acquired from the state with the new depth (R353). -/
theorem keeps_setDepth (d : Nat) (s : State) : (setDepth d s).Keeps s := by
  obtain ⟨-, e⟩ | ⟨-, -, -, -, e⟩ | ⟨-, -, -, e⟩ := setDepth_cases d s <;> rw [e]
  · rfl
  · rfl
  · exact keeps_releaseThen (s := s.putDepth d) (keeps_poolAcquire _)

theorem keeps_bufferChecks {w : BitVec 8} {s : State} {k : Nat → Nat → CmdEnd} (h : ∀ o n, (k o n).Keeps s) :
    (bufferChecks w s k).Keeps s := by
  obtain ⟨-, e⟩ | ⟨-, e⟩ | ⟨-, -, -, -, e⟩ := bufferChecks_cases w s k <;> rw [e]
  · rfl
  · rfl
  · exact h _ _

theorem keeps_rowChecks {w : BitVec 8} {qt : BitVec 4} {s : State} {k : Nat → List Channel → Nat → State → CmdEnd}
    (h : ∀ y chs e t, (k y chs e t).Keeps t) : (rowChecks w qt s k).Keeps s := by
  obtain ⟨_, e⟩ | ⟨_, _, -, -, -, -, -, -, -, -, -, -, e⟩ := rowChecks_cases w qt s k <;> rw [e]
  · rfl
  · exact keeps_ite (h _ _ _ (s.tookRow _)) rfl

/-! ### The long pseudocodes keep the frame -/

theorem keeps_buildHash (s : State) : (buildHash s).Keeps s := keeps_ite rfl rfl

theorem keeps_faxEncodeRows (c total k y n : Nat) (s : State) : (faxEncodeRows c total k y n s).Keeps s := by
  induction k generalizing y n s with
  | zero => simp [faxEncodeRows]
  | succ k ih =>
    simp only [faxEncodeRows]
    split
    · split
      · exact (ih _ _ _).of_frame (by simp)
      · simp
    · simp

theorem keeps_faxEncodeBody (port : Port) (s : State) : (faxEncodeBody port s).Keeps s := by
  refine keeps_ite rfl (keeps_ite (keeps_dropScan ?_) rfl)
  exact (keeps_faxEncodeRows _ _ _ _ _ _).of_frame (State.runWriter_frame _ _)

theorem keeps_faxDecodeRows (c total k y null : Nat) (s : State) : (faxDecodeRows c total k y null s).Keeps s := by
  induction k generalizing y null s with
  | zero => rfl
  | succ k ih =>
    simp only [faxDecodeRows]
    refine keeps_ite rfl (keeps_ite (by simp) (keeps_ite (keeps_ite ?_ (by simp)) (by simp)))
    exact (ih _ _ _).of_frame (by simp)

theorem keeps_faxDecodePage (c m : Nat) (s : State) : (faxDecodePage c m s).Keeps s :=
  keeps_ite (keeps_faxDecodeRows _ _ _ _ _ _) rfl

theorem keeps_faxDecodeBody (s : State) : (faxDecodeBody s).Keeps s :=
  keeps_ite rfl (keeps_andThen (keeps_buildHash s) fun t =>
    keeps_ite (keeps_dropScan (keeps_faxDecodePage _ _ (t.tookAlloc .faxScan _))) rfl)

theorem keeps_lzwEncodeBody (w : BitVec 8) (port : Port) (s : State) : (lzwEncodeBody w port s).Keeps s :=
  keeps_bufferChecks fun _ _ => keeps_ite (s := s) (State.sink_frame { s.tookAlloc _ _ with lzw := _ } _ _) rfl

theorem keeps_packbitsEncodeBody (w : BitVec 8) (port : Port) (s : State) : (packbitsEncodeBody w port s).Keeps s :=
  keeps_bufferChecks fun _ _ => keeps_ite (s := s) (State.sink_frame { s.tookAlloc _ _ with pbBuf := _ } _ _) rfl

theorem keeps_qAcquireBody (s : State) : (qAcquireBody s).Keeps s := by
  simp only [qAcquireBody]
  refine keeps_hazardCheck (keeps_ite rfl (keeps_ite rfl (keeps_ite rfl ?_)))
  split
  · exact (keeps_setDepth _ _).of_frame rfl
  · rfl

theorem keeps_packBody (w : BitVec 8) (y : Nat) (chs : List Channel) (e : Nat) (s : State) :
    (packBody w y chs e s).Keeps s := by
  obtain ⟨hl, hr⟩ := askRow_ports s.params y chs s.img.columns.toNat 0 s.ports
  exact frame_ports s _ hl hr

theorem keeps_unpackBody (w : BitVec 8) (y : Nat) (chs : List Channel) (e : Nat) (s : State) :
    (unpackBody w y chs e s).Keeps s := rfl

/-! ### Every command -/

/-- The opcode is left for `simp`, so that a case of `exec_eq_runCmd` has only its pseudocode to speak of. -/
theorem exec_eq_runCmd_of_body {i : Instr} {op : BitVec 8} {body : State → CmdEnd}
    (he : ∀ s, exec i s = runCmd (agentOf i) op body s) (hk : ∀ s, (body s).Keeps s)
    (hop : i.opcode = op := by simp [Instr.opcode, encode]) :
    ∃ body : State → CmdEnd,
      (∀ s, exec i s = runCmd (agentOf i) i.opcode body s) ∧ ∀ s, (body s).Keeps s := by
  subst hop
  exact ⟨body, he, hk⟩

/-- Every command is a pseudocode of the command's agent that keeps the frame (R12, R121). -/
theorem exec_eq_runCmd (i : Instr) : ∃ body : State → CmdEnd,
    (∀ s, exec i s = runCmd (agentOf i) i.opcode body s) ∧ ∀ s, (body s).Keeps s := by
  cases i <;> refine exec_eq_runCmd_of_body (fun s => by rw [exec]; rfl) fun s => ?_
  case nop => rfl
  case clrStatus => rfl
  case ctrlWrite => rfl
  case bwInit => rfl
  case bwPutBit => exact s.runWriter_frame _
  case bwPutCode => exact keeps_ite rfl (s.runWriter_frame _)
  case bwFlush => exact s.runWriter_frame _
  case brInit => rfl
  case brGetBit => rfl
  case brSync => rfl
  case faxBuildHash => exact keeps_buildHash s
  case faxLookup => rfl
  case faxEncode port => exact keeps_faxEncodeBody port s
  case faxDecode => exact keeps_faxDecodeBody s
  case lzwEncode w port => exact keeps_lzwEncodeBody w port s
  case packbitsEncode w port => exact keeps_packbitsEncodeBody w port s
  case qAcquire => exact keeps_qAcquireBody s
  case qDestroy => exact keeps_hazardCheck (keeps_ite (keeps_ite rfl rfl) rfl)
  case qSetDepth => exact keeps_hazardCheck (keeps_needDescriptor (keeps_setDepth _ s))
  case qSetFormat =>
    exact keeps_ite (keeps_hazardCheck (keeps_needDescriptor ((keeps_setDepth _ _).of_frame rfl))) rfl
  case qSetEndian =>
    exact keeps_ite (keeps_hazardCheck (keeps_needDescriptor ((keeps_setDepth _ _).of_frame rfl))) rfl
  case qSetPad =>
    exact keeps_hazardCheck (keeps_needDescriptor (keeps_ite rfl ((keeps_setDepth _ _).of_frame rfl)))
  case qSetScale =>
    refine keeps_hazardCheck (keeps_needDescriptor ?_)
    split <;> rfl
  case qSetPolarity => exact keeps_hazardCheck (keeps_needDescriptor rfl)
  case qResetState => exact keeps_hazardCheck (keeps_needDescriptor rfl)
  case qGetExtent => exact keeps_useQType fun _ => keeps_needDescriptor (keeps_ite rfl rfl)
  case qPack w qt => exact keeps_rowChecks (keeps_packBody w)
  case qUnpack w qt => exact keeps_rowChecks (keeps_unpackBody w)
  case qGetType => exact keeps_needDescriptor rfl
  case qSetImageType => exact keeps_useQType fun _ => keeps_needDescriptor rfl
  case poolAcquire =>
    exact keeps_hazardCheck (keeps_needDescriptor (keeps_releaseThen (keeps_poolAcquire _)))
  case poolGet => exact keeps_ite rfl rfl
  case poolRelease => exact keeps_hazardCheck (keeps_releaseThen fun _ => rfl)
  case rsExport => exact keeps_needDescriptor rfl
  case rsImport => exact keeps_needDescriptor rfl

end Sys2Proof.Machine
end

section
/-! PROOFS. What one step does to the busy windows, and O58: BUSY is true of them, and RST holds the reset values. -/

namespace Sys2Proof.Machine

open Host

/-! ### A command's own agent -/

/-- A word that decodes goes to the agent that executes the command (R121, R125). -/
theorem targetOf_of_decode {c : Word} {i : Instr} (h : decode c = .ok i) : targetOf c = agentOf i := by
  have hopc : ∀ o : BitVec 8, opcOf c = o ↔ (opcOf c).toNat = o.toNat := fun o => BitVec.toNat_inj.symm
  unfold decode opRow at h
  split at h
  · cases h
  · rename_i r hr
    split at h
    · simp only at h
      split at h
      · injection h with h
        subst h
        split at hr <;> cases hr <;> simp [targetOf, agentOf, *]
      · cases h
    · cases h

/-- `t` has the windows of `s`, but that agent `a` may have another status. -/
structure WindowsButFor (a : Agent) (s t : State) : Prop where
  seqFlight : t.seqFlight = s.seqFlight
  wFlights : t.wFlights = s.wFlights
  inReset : t.inReset = s.inReset
  busy : ∀ b ≠ a, t.busy b = s.busy b

theorem WindowsButFor.trans {a : Agent} {s t u : State} (h : WindowsButFor a s t) (h' : WindowsButFor a t u) :
    WindowsButFor a s u :=
  ⟨h'.seqFlight.trans h.seqFlight, h'.wFlights.trans h.wFlights, h'.inReset.trans h.inReset,
    fun b hb => (h'.busy b hb).trans (h.busy b hb)⟩

theorem busy_of_windows {s t : State} (h : t.windows = s.windows) (a : Agent) : t.busy a = s.busy a := by
  cases a with
  | seq => exact congrArg Windows.seqBusy h
  | worker w =>
    have hw : t.wstatus = s.wstatus := congrArg Windows.wstatus h
    simp [State.busy, State.wstat, hw]

theorem windowsButFor_of_windows {s t : State} (a : Agent) (h : t.windows = s.windows) : WindowsButFor a s t :=
  ⟨congrArg Windows.seqFlight h, congrArg Windows.wFlights h, congrArg Windows.inReset h,
    fun b _ => busy_of_windows h b⟩

theorem State.busy_setWstat_other (s : State) (w : BitVec 8) (t : WStatus) {b : Agent} (h : b ≠ .worker w) :
    (s.setWstat w t).busy b = s.busy b := by
  cases b with
  | seq => rfl
  | worker v => exact congrArg WStatus.busy (s.wstat_setWstat_other w v t fun e => h (e ▸ rfl))

/-- A sequencer command writes no worker's status. -/
theorem windowsButFor_seq {s t : State} (hseq : t.seqFlight = s.seqFlight) (hw : t.wFlights = s.wFlights)
    (hr : t.inReset = s.inReset) (hwstatus : t.wstatus = s.wstatus) : WindowsButFor .seq s t := by
  refine ⟨hseq, hw, hr, fun b hb => ?_⟩
  cases b with
  | seq => exact absurd rfl hb
  | worker w => simp [State.busy, State.wstat, hwstatus]

/-- A write of one worker's status is no other agent's affair. -/
theorem windowsButFor_setWstat (s : State) (w : BitVec 8) (t : WStatus) :
    WindowsButFor (.worker w) s (s.setWstat w t) :=
  ⟨rfl, rfl, rfl, fun _ hb => s.busy_setWstat_other w t hb⟩

theorem beginCmd_windows (s : State) (a : Agent) : WindowsButFor a s (s.beginCmd a) := by
  cases a with
  | seq => exact windowsButFor_seq rfl rfl rfl rfl
  | worker w => exact windowsButFor_setWstat s w _

theorem endCmd_windows (s : State) (a : Agent) : WindowsButFor a s (s.endCmd a) := by
  cases a with
  | seq => exact windowsButFor_seq rfl rfl rfl rfl
  | worker w => exact windowsButFor_setWstat s w _

theorem cancelCmd_windows (s : State) (a : Agent) : WindowsButFor a s (s.cancelCmd a) := by
  cases a with
  | seq => exact windowsButFor_seq rfl rfl rfl rfl
  | worker w => exact windowsButFor_setWstat s w _

theorem raiseErr_windows (s : State) (a : Agent) (op : BitVec 8) (k : ErrKind) :
    WindowsButFor a s (s.raiseErr a op k) := by
  cases a with
  | seq => exact windowsButFor_seq rfl rfl rfl rfl
  | worker w => exact (windowsButFor_setWstat s w ((s.wstat w).fail op k)).trans (windowsButFor_of_windows _ rfl)

/-- However a command ends, its agent is idle then (R32, R33, R505, R512). -/
theorem endCmd_busy (s : State) (a : Agent) : (s.endCmd a).busy a = false := by
  cases a <;> simp [State.busy, State.endCmd, Status.finish, WStatus.finish]

theorem cancelCmd_busy (s : State) (a : Agent) : (s.cancelCmd a).busy a = false := by
  cases a <;> simp [State.busy, State.cancelCmd, Status.cancel, WStatus.finish]

theorem raiseErr_busy (s : State) (a : Agent) (op : BitVec 8) (k : ErrKind) :
    (s.raiseErr a op k).busy a = false := by
  cases a with
  | seq => rfl
  | worker w => exact congrArg WStatus.busy (s.wstat_setWstat w ((s.wstat w).fail op k))

/-- A command whose pseudocode keeps the frame leaves its agent idle and the other windows alone. -/
theorem runCmd_windows {a : Agent} {op : BitVec 8} {body : State → CmdEnd} {s t : State}
    (hk : ∀ s, (body s).Keeps s) (h : runCmd a op body s = .next t) : WindowsButFor a s t ∧ t.busy a = false := by
  have hbody : WindowsButFor a s (body (s.beginCmd a)).state :=
    (beginCmd_windows s a).trans (windowsButFor_of_windows a (windows_of_frame (hk _)))
  obtain ⟨u, hu, e⟩ | ⟨u, hu, e⟩ | ⟨k, u, hu, e⟩ := runCmd_cases a op body s
  all_goals
    obtain rfl : _ = t := Outcome.next.inj (e.symm.trans h)
    rw [hu] at hbody
  · exact ⟨hbody.trans (endCmd_windows u a), endCmd_busy u a⟩
  · exact ⟨hbody.trans (cancelCmd_windows u a), cancelCmd_busy u a⟩
  · exact ⟨hbody.trans (raiseErr_windows u a op k), raiseErr_busy u a op k⟩

/-- An accepted word, decoded or not, leaves its agent idle and the other windows alone. -/
theorem runWord_windows {c : Word} {s t : State} (h : runWord c s = .next t) :
    WindowsButFor (targetOf c) s t ∧ t.busy (targetOf c) = false := by
  unfold runWord at h
  split at h
  · rename_i i hi
    obtain ⟨body, hrun, hk⟩ := exec_eq_runCmd i
    rw [targetOf_of_decode hi]
    exact runCmd_windows hk ((hrun s).symm.trans h)
  · exact runCmd_windows (body := .raised .illegalCommand) (fun _ => rfl) h

/-! ### BUSY in every window (R610) -/

/-- The sequencer's part of `busyLegal`. -/
def State.seqLegal (s : State) : Prop :=
  (s.status.busy = s.seqFlight.isSome) ∧ ∀ f, s.seqFlight = some f → f.status.busy = false

/-- The workers' part of `busyLegal`, for the commands in flight that `fs` lists in any order. -/
def State.workersLegal (s : State) (fs : List WFlight) : Prop :=
  (∀ w, (s.wstat w).busy = true ↔ ∃ f ∈ fs, f.worker = w) ∧ (fs.map (·.worker)).Nodup ∧
  ∀ f ∈ fs, f.status.busy = false

theorem busyLegal_iff (s : State) : s.busyLegal ↔ s.seqLegal ∧ s.workersLegal s.wFlights :=
  ⟨fun ⟨h1, h2, h3, h4, h5⟩ => ⟨⟨h1, h4⟩, h2, h3, h5⟩, fun ⟨⟨h1, h4⟩, h2, h3, h5⟩ => ⟨h1, h2, h3, h4, h5⟩⟩

theorem State.seqLegal.congr {s t : State} (h : s.seqLegal) (hseq : t.seqFlight = s.seqFlight)
    (hbusy : t.status.busy = s.status.busy) : t.seqLegal := by
  simpa only [State.seqLegal, hseq, hbusy] using h

theorem State.workersLegal.congr {s t : State} {fs : List WFlight} (h : s.workersLegal fs)
    (hbusy : ∀ w, (t.wstat w).busy = (s.wstat w).busy) : t.workersLegal fs := by
  simpa only [State.workersLegal, hbusy] using h

/-- The order of the workers' commands in flight is of no matter. -/
theorem State.workersLegal.perm {s : State} {fs gs : List WFlight} (h : s.workersLegal fs) (hp : fs.Perm gs) :
    s.workersLegal gs := by
  obtain ⟨hworker, hnodup, hidle⟩ := h
  exact ⟨fun w => (hworker w).trans (by simp only [hp.mem_iff]), (hp.map _).nodup_iff.1 hnodup,
    fun f hf => hidle f (hp.mem_iff.2 hf)⟩

/-- A worker that was idle and is now busy has the one command in flight that is new (R610). -/
theorem workersLegal_cons {s t : State} {f : WFlight} {fs : List WFlight} (h : s.workersLegal fs)
    (hs : (s.wstat f.worker).busy = false) (hf : f.status.busy = false) (ht : (t.wstat f.worker).busy = true)
    (hother : ∀ w ≠ f.worker, (t.wstat w).busy = (s.wstat w).busy) : t.workersLegal (f :: fs) := by
  obtain ⟨hworker, hnodup, hidle⟩ := h
  have hnew : ∀ g ∈ fs, g.worker ≠ f.worker := fun g hg e =>
    Bool.false_ne_true (hs.symm.trans ((hworker f.worker).2 ⟨g, hg, e⟩))
  refine ⟨fun w => ?_, by simpa [hnodup] using hnew, by simpa [hf] using hidle⟩
  by_cases hw : w = f.worker
  · simp [hw, ht]
  · simp [hother w hw, hworker, Ne.symm hw]

/-- A worker that was busy and is now idle has no command in flight any more (R610). -/
theorem workersLegal_tail {s t : State} {f : WFlight} {fs : List WFlight} (h : s.workersLegal (f :: fs))
    (ht : (t.wstat f.worker).busy = false) (hother : ∀ w ≠ f.worker, (t.wstat w).busy = (s.wstat w).busy) :
    t.workersLegal fs := by
  obtain ⟨hworker, hnodup, hidle⟩ := h
  rw [List.map_cons, List.nodup_cons] at hnodup
  obtain ⟨hnew, hnodup⟩ := hnodup
  refine ⟨fun w => ?_, hnodup, fun g hg => hidle g (List.mem_cons_of_mem f hg)⟩
  by_cases hw : w = f.worker
  · simpa [hw, ht] using hnew
  · simp [hother w hw, hworker, Ne.symm hw]

/-- BUSY and the windows are all that `busyLegal` speaks of. -/
theorem State.busyLegal.congr {s t : State} (h : s.busyLegal) (hseq : t.seqFlight = s.seqFlight)
    (hw : t.wFlights = s.wFlights) (hbusy : ∀ a, t.busy a = s.busy a) : t.busyLegal := by
  obtain ⟨hs, hws⟩ := (busyLegal_iff s).1 h
  exact (busyLegal_iff t).2 ⟨hs.congr hseq (hbusy .seq), hw ▸ hws.congr fun w => hbusy (.worker w)⟩

theorem busyLegal_of_windows {s t : State} (h : s.busyLegal) (hw : t.windows = s.windows) : t.busyLegal :=
  h.congr (congrArg Windows.seqFlight hw) (congrArg Windows.wFlights hw) (busy_of_windows hw)

/-- A worker's command in flight makes that worker busy and leaves the others. -/
theorem putInFlight_worker_wstat (w v : BitVec 8) (left : Nat) (i : Option Instr) (s t : State) :
    (putInFlight (.worker w) left i s t).wstat v = if v = w then (s.wstat w).begin else t.wstat v := by
  split
  · subst v
    exact t.wstat_setWstat w _
  · exact t.wstat_setWstat_other w v _ ‹_›

theorem busyLegal_putInFlight_seq {left : Nat} {i : Option Instr} {s t : State} (h : s.busyLegal)
    (hw : WindowsButFor .seq s t) (ht : t.busy .seq = false) : (putInFlight .seq left i s t).busyLegal := by
  obtain ⟨-, hworkers⟩ := (busyLegal_iff s).1 h
  refine (busyLegal_iff _).2 ⟨⟨rfl, fun f hf => ?_⟩, ?_⟩
  · cases hf
    exact ht
  · exact hw.wFlights ▸ hworkers.congr fun w => hw.busy (.worker w) nofun

theorem busyLegal_putInFlight_worker {w : BitVec 8} {left : Nat} {i : Option Instr} {s t : State} (h : s.busyLegal)
    (hw : WindowsButFor (.worker w) s t) (hs : s.busy (.worker w) = false) (ht : t.busy (.worker w) = false) :
    (putInFlight (.worker w) left i s t).busyLegal := by
  obtain ⟨hseq, hworkers⟩ := (busyLegal_iff s).1 h
  refine (busyLegal_iff _).2 ⟨hseq.congr hw.seqFlight rfl, ?_⟩
  refine State.workersLegal.perm ?_ (List.perm_append_singleton _ s.wFlights).symm
  refine workersLegal_cons hworkers hs ht ?_ fun v hv => ?_
  · simp [putInFlight_worker_wstat, WStatus.begin]
  · rw [putInFlight_worker_wstat, if_neg hv]
    exact hw.busy (.worker v) (by simpa using hv)

/-- An accepted command opens its agent's window, or has ended (R610, R620). -/
theorem busyLegal_openWindow {a : Agent} {n : Nat} {i : Option Instr} {s t : State} (h : s.busyLegal)
    (hw : WindowsButFor a s t) (hs : s.busy a = false) (ht : t.busy a = false) :
    (openWindow a n i s t).busyLegal := by
  unfold openWindow
  split
  · refine h.congr hw.seqFlight hw.wFlights fun b => ?_
    by_cases hb : b = a
    · rw [hb, hs, ht]
    · exact hw.busy b hb
  · cases a with
    | seq => exact busyLegal_putInFlight_seq h hw ht
    | worker w => exact busyLegal_putInFlight_worker h hw hs ht

theorem busyLegal_issue {c : Word} {s t : State} (h : s.busyLegal) (hi : issue c s = .next t) : t.busyLegal := by
  obtain ⟨-, e⟩ | ⟨hs, u, hu, e⟩ | ⟨-, _, -, e⟩ | ⟨-, _, -, e⟩ := issue_cases c s <;> rw [e] at hi <;> cases hi
  · exact busyLegal_of_windows h rfl
  · obtain ⟨hw, hbusy⟩ := runWord_windows hu
    exact busyLegal_openWindow (busyLegal_of_windows h rfl) hw hs hbusy

/-! ### One action of the host -/

/-- An action of the host writes CMD, drives RST, or leaves the windows alone. -/
theorem hostAct_next {a : HostAct} {s t : State} (h : hostAct a s = .next t) :
    (∃ c, issue c s = .next t) ∨ (∃ asserted, t = s.driveRst asserted) ∨ t.windows = s.windows := by
  cases a with
  | write offset width v =>
    simp only [hostAct, hostWrite] at h
    split at h
    · split at h
      · cases h
        exact .inr (.inr rfl)
      · exact .inl ⟨_, h⟩
    · split at h <;> cases h <;> exact .inr (.inr rfl)
    · cases h
  | read offset width =>
    simp only [hostAct, hostRead] at h
    split at h
    · split at h <;> cases h <;> exact .inr (.inr rfl)
    · cases h
  | scrRead b o =>
    obtain ⟨-, -, -, e⟩ | ⟨-, -, -, e⟩ | ⟨-, e⟩ := scratchAccess_cases b o s _ <;> cases e.symm.trans h
    exact .inr (.inr rfl)
  | scrWrite b o v =>
    obtain ⟨-, -, -, e⟩ | ⟨-, -, -, e⟩ | ⟨-, e⟩ := scratchAccess_cases b o s _ <;> cases e.symm.trans h
    exact .inr (.inr rfl)
  | feed bytes =>
    cases h
    exact .inr (.inr rfl)
  | waitSeq =>
    simp only [hostAct] at h
    split at h <;> cases h <;> exact .inr (.inr rfl)
  | waitWorker w =>
    simp only [hostAct] at h
    split at h <;> cases h <;> exact .inr (.inr rfl)
  | idle =>
    cases h
    exact .inr (.inr rfl)
  | rst asserted =>
    cases h
    exact .inr (.inl ⟨asserted, rfl⟩)

/-- A reset leaves every agent idle and no command in flight (R600, R601). -/
theorem busyLegal_afterRst (s : State) (asserted : Bool) : (s.afterRst asserted).busyLegal := by
  have hidle : ∀ w, (s.afterRst asserted).wstat w = WStatus.reset := fun w => by
    simp [State.afterRst, State.reset, State.wstat]
  have hseq : (s.afterRst asserted).seqFlight = none := rfl
  have hw : (s.afterRst asserted).wFlights = [] := rfl
  refine ⟨rfl, ?_, ?_, ?_, ?_⟩ <;> simp [hidle, hseq, hw, WStatus.reset]

theorem busyLegal_hostAct {a : HostAct} {s t : State} (h : s.busyLegal) (ha : hostAct a s = .next t) :
    t.busyLegal := by
  obtain ⟨c, hc⟩ | ⟨asserted, rfl⟩ | hw := hostAct_next ha
  · exact busyLegal_issue h hc
  · obtain ⟨-, e⟩ | ⟨-, -, e⟩ := driveRst_cases s asserted <;> rw [e]
    · exact busyLegal_afterRst s asserted
    · exact h
  · exact busyLegal_of_windows h hw

/-! ### One tick of the windows -/

theorem busyLegal_tickSeq {s : State} (h : s.busyLegal) : (tickSeq s).busyLegal := by
  obtain ⟨⟨hseq, hidle⟩, hworkers⟩ := (busyLegal_iff s).1 h
  obtain ⟨-, e⟩ | ⟨f, hf, -, e⟩ | ⟨f, hf, -, e⟩ := tickSeq_cases s <;> rw [e]
  · exact h
  · exact (busyLegal_iff _).2 ⟨⟨hidle f hf, by simp [deliverSeq]⟩, hworkers⟩
  · exact (busyLegal_iff _).2 ⟨⟨hseq.trans (by simp [hf]), by simpa using hidle f hf⟩, hworkers⟩

/-- The end of a worker's command makes that worker idle, and it had no other command in flight (R33, R610). -/
theorem workersLegal_deliverWorker {f : WFlight} {fs : List WFlight} {s : State} (h : s.workersLegal (f :: fs)) :
    (deliverWorker f s).workersLegal fs := by
  have hstat : (deliverWorker f s).wstat f.worker = f.status := s.wstat_setWstat f.worker f.status
  have hidle : f.status.busy = false := by
    obtain ⟨-, -, hidle⟩ := h
    exact hidle f List.mem_cons_self
  refine workersLegal_tail h (hstat ▸ hidle) fun w hw => ?_
  exact congrArg WStatus.busy (s.wstat_setWstat_other f.worker w f.status hw)

/-- A worker's window counts down (R620). -/
theorem workersLegal_countDown {f : WFlight} {fs : List WFlight} {s : State} (n : Nat)
    (h : s.workersLegal (f :: fs)) : s.workersLegal ({ f with left := n } :: fs) := by
  simpa [State.workersLegal] using h

/-- The workers' windows: of the commands in flight, `fs` are still to tick. -/
theorem workersLegal_tickWorkers (fs : List WFlight) {s : State} (h : s.workersLegal (s.wFlights ++ fs)) :
    (tickWorkers fs s).workersLegal (tickWorkers fs s).wFlights := by
  induction fs generalizing s with
  | nil => simpa [tickWorkers] using h
  | cons f fs ih =>
    unfold tickWorkers
    have h : s.workersLegal (f :: (s.wFlights ++ fs)) := h.perm List.perm_middle
    split
    · exact ih (workersLegal_deliverWorker h)
    · refine ih ((workersLegal_countDown (f.left - 1) h).perm ?_)
      simpa using List.perm_middle.symm

/-- The workers' windows leave the sequencer's, and RST, alone. -/
theorem tickWorkers_seq (fs : List WFlight) (s : State) :
    (tickWorkers fs s).seqFlight = s.seqFlight ∧ (tickWorkers fs s).status.busy = s.status.busy ∧
    (tickWorkers fs s).inReset = s.inReset := by
  induction fs generalizing s with
  | nil => exact ⟨rfl, rfl, rfl⟩
  | cons f fs ih =>
    unfold tickWorkers
    split
    · exact ih (deliverWorker f s)
    · exact ih _

/-- The sequencer's window leaves the workers', and RST, alone. -/
theorem tickSeq_workers (s : State) :
    (tickSeq s).wFlights = s.wFlights ∧ (tickSeq s).inReset = s.inReset := by
  obtain ⟨-, e⟩ | ⟨f, -, -, e⟩ | ⟨f, -, -, e⟩ := tickSeq_cases s <;> rw [e] <;> exact ⟨rfl, rfl⟩

@[simp] theorem tick_inReset (s : State) : (tick s).inReset = s.inReset := by
  obtain ⟨-, -, h⟩ := tickWorkers_seq s.wFlights { tickSeq s with wFlights := [] }
  exact h.trans (tickSeq_workers s).2

theorem busyLegal_tick {s : State} (h : s.busyLegal) : (tick s).busyLegal := by
  obtain ⟨hseq, hworkers⟩ := (busyLegal_iff _).1 (busyLegal_tickSeq h)
  obtain ⟨hflight, hbusy, -⟩ := tickWorkers_seq s.wFlights { tickSeq s with wFlights := [] }
  obtain ⟨hw, -⟩ := tickSeq_workers s
  exact (busyLegal_iff _).2 ⟨hseq.congr hflight hbusy, workersLegal_tickWorkers s.wFlights (hw ▸ hworkers)⟩

/-! ### One step -/

/-- What taking the host's next action off its queue, every action and every tick keep, every step keeps. -/
theorem step_keeps (P : State → Prop) (hhost : ∀ s rest, P s → P { s with host := rest })
    (hact : ∀ a s t, P s → hostAct a s = .next t → P t) (htick : ∀ s, P s → P (tick s)) {s t : State} (hs : P s)
    (h : step s = .next t) : P t := by
  unfold step hostStep at h
  split at h
  · cases h
    exact htick s hs
  · rename_i a rest _
    split at h <;> cases h
    rename_i u hu
    exact htick u (hact a _ u (hhost s rest hs) hu)

theorem step_keeps_busyLegal {s t : State} (hs : s.busyLegal) (h : step s = .next t) : t.busyLegal :=
  step_keeps State.busyLegal (fun _ _ hs => busyLegal_of_windows hs rfl) (fun _ _ _ => busyLegal_hostAct)
    (fun _ => busyLegal_tick) hs h

/-! ### RST (R600) -/

/-- A CMD write leaves RST as it is. -/
theorem issue_inReset {c : Word} {s t : State} (h : issue c s = .next t) : t.inReset = s.inReset := by
  obtain ⟨-, e⟩ | ⟨-, u, hu, e⟩ | ⟨-, _, -, e⟩ | ⟨-, _, -, e⟩ := issue_cases c s <;> rw [e] at h <;> cases h
  · rfl
  · obtain ⟨⟨-, -, hr, -⟩, -⟩ := runWord_windows hu
    unfold openWindow
    split
    · exact hr
    · cases targetOf c <;> exact hr

/-- A reset leaves the block at its reset values (R601). -/
theorem rstLegal_afterRst (s : State) (asserted : Bool) : (s.afterRst asserted).rstLegal := by
  intro (h : asserted = true)
  subst h
  rfl

/-- While RST is asserted the block holds its reset values, whatever the host's queue and the ports hold. -/
theorem State.rstLegal.withHost {s : State} (h : s.rstLegal) (rest : List HostAct) :
    { s with host := rest }.rstLegal := fun hr => by
  conv_lhs => rw [h hr]

theorem rstLegal_hostAct {a : HostAct} {s t : State} (hs : s.rstLegal) (h : hostAct a s = .next t) :
    t.rstLegal := by
  cases hr : s.inReset with
  | true =>
    obtain e | ⟨bytes, -, e⟩ | e | ⟨asserted, -, e⟩ | ⟨r, e⟩ := hostAct_inReset a s hr <;> cases e.symm.trans h
    · exact hs
    · intro _
      conv_lhs => rw [hs hr]
    · exact hs.withHost _
    · exact rstLegal_afterRst s asserted
  | false =>
    obtain ⟨c, hc⟩ | ⟨asserted, rfl⟩ | hw := hostAct_next h
    · exact fun ht => absurd (ht.symm.trans (issue_inReset hc)) (by simp [hr])
    · obtain ⟨-, e⟩ | ⟨-, -, e⟩ := driveRst_cases s asserted <;> rw [e]
      · exact rstLegal_afterRst s asserted
      · exact hs
    · have : t.inReset = s.inReset := congrArg Windows.inReset hw
      exact fun ht => absurd (ht.symm.trans this) (by simp [hr])

/-- A block that holds its reset values has no window to tick. -/
theorem rstLegal_tick {s : State} (hs : s.rstLegal) : (tick s).rstLegal := by
  intro ht
  have hr : s.inReset = true := (tick_inReset s).symm.trans ht
  have hseq : s.seqFlight = none := by rw [hs hr]; rfl
  have hw : s.wFlights = [] := by rw [hs hr]; rfl
  rw [tick_idle s hseq hw]
  exact hs hr

theorem step_keeps_rstLegal {s t : State} (hs : s.rstLegal) (h : step s = .next t) : t.rstLegal :=
  step_keeps State.rstLegal (fun _ rest hs => hs.withHost rest) (fun _ _ _ => rstLegal_hostAct)
    (fun _ => rstLegal_tick) hs h

/-- Settles O58: an action of the host opens an idle agent's window only, a tick closes a window with its report, and
RST, once asserted, leaves no window to open. -/
theorem stepKeepsBusyBitsTrue : Obligations.StepKeepsBusyBitsTrue :=
  ⟨fun _ _ => step_keeps_busyLegal, fun _ _ => step_keeps_rstLegal⟩

end Sys2Proof.Machine
end

section
/-! PROOFS. The bits a bit writer stands for, and O15: BW_PUT_CODE appends a code's bits to them. -/

namespace Sys2Proof.Machine

open Host

/-! ### Codes as bit lists -/

@[simp] theorem codeBitsMsb_length (code n : Nat) : (codeBitsMsb code n).length = n := by
  induction n with
  | zero => rfl
  | succ n ih => simp [codeBitsMsb, ih]

theorem codeBitsMsb_getElem (code n i : Nat) (hi : i < (codeBitsMsb code n).length) :
    (codeBitsMsb code n)[i] = code.testBit (n - 1 - i) := by
  induction n generalizing i with
  | zero => simp at hi
  | succ n ih =>
    cases i with
    | zero => rfl
    | succ i =>
      simp only [codeBitsMsb, List.getElem_cons_succ, ih]
      congr 1
      omega

@[simp] theorem byteBits_length (b : Byte) : (byteBits b).length = 8 := codeBitsMsb_length _ 8

/-- Bit `i` of a byte's bits is b[7 - i] (R8). -/
theorem byteBits_getElem (b : Byte) (i : Nat) (hi : i < (byteBits b).length) :
    (byteBits b)[i] = b.getLsbD (7 - i) :=
  codeBitsMsb_getElem b.toNat 8 i hi

/-- Bytes that agree above bit `k` agree in their first bits. -/
theorem take_byteBits_congr {b c : Byte} {k : Nat} (hk : k < 8)
    (h : ∀ i, k < i → i < 8 → b.getLsbD i = c.getLsbD i) : (byteBits b).take (7 - k) = (byteBits c).take (7 - k) := by
  refine List.ext_getElem (by simp) fun i hi _ => ?_
  simp only [List.length_take, byteBits_length] at hi
  simp only [List.getElem_take, byteBits_getElem]
  exact h (7 - i) (by omega) (by omega)

/-- One more of a byte's first bits. -/
theorem take_byteBits_succ (b : Byte) {k : Nat} (hk : k < 8) :
    (byteBits b).take (8 - k) = (byteBits b).take (7 - k) ++ [b.getLsbD k] := by
  have hi : 7 - k < (byteBits b).length := by rw [byteBits_length]; omega
  rw [show 8 - k = 7 - k + 1 by omega, List.take_succ_eq_append_getElem hi, byteBits_getElem,
    show 7 - (7 - k) = k by omega]

/-! ### Legal writers -/

/-- BW_MASK is bit `k`, where the next bit goes, and BW_BYTE is 0 at and below it (R41). -/
structure BitWriter.AtBit (b : BitWriter) (k : Nat) : Prop where
  lt : k < 8
  mask : b.mask = BitVec.twoPow 8 k
  low : ∀ i ≤ k, b.byte.getLsbD i = false

theorem oneBit_iff (m : Byte) : oneBit m ↔ ∃ k < 8, m = BitVec.twoPow 8 k := by
  unfold oneBit
  revert m
  decide

/-- A one-bit mask and the bits below it. -/
theorem getLsbD_lowMask : ∀ k < 8, ∀ i < 8,
    (BitVec.twoPow 8 k ||| (BitVec.twoPow 8 k - 1)).getLsbD i = decide (i ≤ k) := by decide

theorem and_lowMask_eq_zero {k : Nat} (hk : k < 8) (b : Byte) :
    b &&& (BitVec.twoPow 8 k ||| (BitVec.twoPow 8 k - 1)) = 0 ↔ ∀ i ≤ k, b.getLsbD i = false := by
  constructor
  · intro h i hi
    have hbit : (b &&& (BitVec.twoPow 8 k ||| (BitVec.twoPow 8 k - 1))).getLsbD i = false := by rw [h]; simp
    rw [BitVec.getLsbD_and, getLsbD_lowMask k hk i (by omega)] at hbit
    simpa [hi] using hbit
  · intro h
    refine BitVec.eq_of_getLsbD_eq fun i hi => ?_
    rw [BitVec.getLsbD_and, getLsbD_lowMask k hk i hi]
    by_cases hik : i ≤ k
    · simp [h i hik]
    · simp [hik]

/-- A legal writer is at some bit. -/
theorem BitWriter.legal_iff (b : BitWriter) : b.legal ↔ ∃ k, b.AtBit k := by
  rw [BitWriter.legal, oneBit_iff]
  constructor
  · rintro ⟨⟨k, hk, hm⟩, hb⟩
    exact ⟨k, hk, hm, (and_lowMask_eq_zero hk b.byte).1 (hm ▸ hb)⟩
  · rintro ⟨k, hk, hm, hb⟩
    exact ⟨⟨k, hk, hm⟩, hm ▸ (and_lowMask_eq_zero hk b.byte).2 hb⟩

theorem log2_twoPow : ∀ k < 8, (BitVec.twoPow 8 k).toNat.log2 = k := by decide

theorem BitWriter.AtBit.pending {b : BitWriter} {k : Nat} (h : b.AtBit k) :
    b.pending = (byteBits b.byte).take (7 - k) := by
  obtain ⟨hk, hm, -⟩ := h
  rw [BitWriter.pending, hm, log2_twoPow k hk]

/-- The writer just after a byte is sent (R200), or after BW_INIT (R203). -/
theorem BitWriter.atBit_fresh (port : Port) : BitWriter.AtBit ⟨0, 0x80, port⟩ 7 := ⟨by decide, rfl, by simp⟩

/-- Less than a byte is pending in a legal writer. -/
theorem BitWriter.legal.pending_length {b : BitWriter} (h : b.legal) : b.pending.length < 8 := by
  obtain ⟨k, hk⟩ := b.legal_iff.1 h
  simp [hk.pending]
  omega

/-! ### PutBit -/

/-- BW_BYTE with a bit placed under BW_MASK (R200). -/
def BitWriter.placed (b : BitWriter) (v : Bool) : Byte := if v then b.byte ||| b.mask else b.byte

theorem BitWriter.AtBit.getLsbD_placed {b : BitWriter} {k : Nat} (h : b.AtBit k) (v : Bool) {i : Nat} (hi : i < 8) :
    (b.placed v).getLsbD i = if i = k then v else b.byte.getLsbD i := by
  obtain ⟨-, hm, hb⟩ := h
  have hk : b.byte.getLsbD k = false := hb k le_rfl
  cases v with
  | false =>
    split
    · simp [BitWriter.placed, *]
    · rfl
  | true =>
    have hi' : (BitVec.twoPow 8 k).getLsbD i = decide (i = k) := by simp [hi, eq_comm]
    simp only [BitWriter.placed, if_true, BitVec.getLsbD_or, hm, hi']
    by_cases hik : i = k <;> simp [hik]

/-- The bits pending with one more placed. -/
theorem BitWriter.AtBit.take_placed {b : BitWriter} {k : Nat} (h : b.AtBit k) (v : Bool) :
    (byteBits (b.placed v)).take (8 - k) = b.pending ++ [v] := by
  have hk : k < 8 := h.lt
  rw [take_byteBits_succ _ hk, h.getLsbD_placed v hk, if_pos rfl, h.pending,
    take_byteBits_congr hk fun i hki hi => (h.getLsbD_placed v hi).trans (if_neg (by omega))]

theorem twoPow_zero_shiftRight : BitVec.twoPow 8 0 >>> 1 = 0 := by decide

theorem twoPow_succ_shiftRight : ∀ k < 7, BitVec.twoPow 8 (k + 1) >>> 1 = BitVec.twoPow 8 k := by decide

theorem twoPow_ne_zero : ∀ k < 8, BitVec.twoPow 8 k ≠ 0 := by decide

/-- PutBit of the last bit of a byte sends the byte (R200). -/
theorem putBit_last {x : Writer} (h : x.bw.AtBit 0) (v : Bool) :
    putBit v x = ⟨{ x.bw with byte := 0, mask := 0x80 }, x.out ++ [x.bw.placed v]⟩ := by
  obtain ⟨-, hm, -⟩ := h
  simp only [putBit, hm, twoPow_zero_shiftRight, if_pos, BitWriter.placed]

/-- PutBit of any other bit of a byte moves BW_MASK on (R200). -/
theorem putBit_inner {x : Writer} {k : Nat} (h : x.bw.AtBit (k + 1)) (v : Bool) :
    putBit v x = ⟨{ x.bw with byte := x.bw.placed v, mask := BitVec.twoPow 8 k }, x.out⟩ := by
  obtain ⟨hk, hm, -⟩ := h
  simp only [putBit, hm, twoPow_succ_shiftRight k (by omega), if_neg (twoPow_ne_zero k (by omega)),
    BitWriter.placed]

/-- PutBit appends its bit to the bits of a legal writer (R200). -/
theorem putBit_appends (v : Bool) {x : Writer} (h : x.bw.legal) :
    (putBit v x).bw.legal ∧ (putBit v x).bw.port = x.bw.port ∧ (putBit v x).bits = x.bits ++ [v] := by
  obtain ⟨k, hk⟩ := x.bw.legal_iff.1 h
  have hplaced := hk.take_placed v
  cases k with
  | zero =>
    have hat := BitWriter.atBit_fresh x.bw.port
    have hempty : BitWriter.pending ⟨0, 0x80, x.bw.port⟩ = [] := hat.pending
    rw [List.take_of_length_le (by simp)] at hplaced
    rw [putBit_last hk]
    refine ⟨(BitWriter.legal_iff _).2 ⟨7, hat⟩, rfl, ?_⟩
    simp only [Writer.bits, hempty, List.flatMap_append, List.flatMap_singleton, hplaced, List.append_nil,
      List.append_assoc]
  | succ k =>
    have hlt : k + 1 < 8 := hk.lt
    have hat : BitWriter.AtBit { x.bw with byte := x.bw.placed v, mask := BitVec.twoPow 8 k } k := by
      refine ⟨by omega, rfl, fun i hi => ?_⟩
      rw [hk.getLsbD_placed v (by omega), if_neg (by omega)]
      exact hk.low i (by omega)
    rw [putBit_inner hk]
    refine ⟨(BitWriter.legal_iff _).2 ⟨k, hat⟩, rfl, ?_⟩
    simpa [Writer.bits, hat.pending] using hplaced

/-- PutBit of each bit in turn appends the bits. -/
theorem putBits_appends (vs : List Bool) {x : Writer} (h : x.bw.legal) :
    (putBits vs x).bw.legal ∧ (putBits vs x).bw.port = x.bw.port ∧ (putBits vs x).bits = x.bits ++ vs := by
  induction vs generalizing x with
  | nil => exact ⟨h, rfl, (List.append_nil _).symm⟩
  | cons v vs ih =>
    obtain ⟨hlegal, hport, hbits⟩ := putBit_appends v h
    obtain ⟨hlegal', hport', hbits'⟩ := ih hlegal
    exact ⟨hlegal', hport'.trans hport, by rw [putBits, hbits', hbits, List.append_assoc, List.singleton_append]⟩

/-! ### BW_PUT_CODE -/

theorem flatMap_byteBits_length (bytes : List Byte) : (bytes.flatMap byteBits).length = 8 * bytes.length := by
  simp [List.length_flatMap, mul_comm]

/-- Whole bytes put between less than a byte pending before and after are whole bytes sent. -/
theorem emitted_of_whole_bytes {before after : List Bool} {bits : List Bool} {out : List Byte} {n : Nat}
    (hb : before.length < 8) (ha : after.length < 8) (hn : bits.length = 8 * n)
    (h : out.flatMap byteBits ++ after = before ++ bits) : out.length = n := by
  have hlen := congrArg List.length h
  rw [List.length_append, List.length_append, flatMap_byteBits_length] at hlen
  omega

/-- BW_PUT_CODE with a length 1 to 32 runs PutCodeBits on the block's writer (R205). -/
theorem exec_bwPutCode {len : BitVec 6} (s : State) (h1 : 1 ≤ len.toNat) (h32 : len.toNat ≤ 32) :
    exec (.bwPutCode len) s =
      let x := putCodeBits (s.argVal 0).toNat len.toNat ⟨s.bw, []⟩
      .next { s.seqEnded with bw := x.bw, ports := s.ports.sink s.bw.port x.out } := by
  have hlen : ¬(len.toNat = 0 ∨ 32 < len.toNat) := by omega
  rw [exec, execBwPutCode, runCmd_seq, if_neg hlen]
  rfl

/-- Settles O15: PutCodeBits is PutBit of the code's bits, each of which appends itself to the writer's bits. -/
theorem bwPutCodePutsTheCodesBits : Obligations.BwPutCodePutsTheCodesBits := by
  intro s len h1 h32 hlegal
  have hput := putBits_appends (codeBitsMsb (s.argVal 0).toNat len.toNat) (x := ⟨s.bw, []⟩) hlegal
  obtain ⟨hlegal', hport, hbits⟩ := hput
  refine ⟨_, _, exec_bwPutCode s h1 h32, hlegal', hport, hbits, fun h => ?_⟩
  exact emitted_of_whole_bytes hlegal.pending_length hlegal'.pending_length (by simp [h]) hbits

end Sys2Proof.Machine
end

section
/-! PROOFS. The pseudocode of every command, and which parts of the state it leaves. -/

namespace Sys2Proof.Machine

open Host

/-! ### The pseudocode of a command -/

/-- What a command's pseudocode does between the command's start and its end (R12); `exec_eq` ties it to `exec`. -/
def bodyOf : Instr → State → CmdEnd
  | .nop => .normal
  | .clrStatus => fun s => .normal { s with status := { s.status with stickyErr := false, haz := false } }
  | .ctrlWrite v => fun s => .normal { s with ctrl := v.setWidth 32 }
  | .bwInit port => fun s => .normal (s.initWriter port)
  | .bwPutBit bit => fun s => .normal (s.runWriter (putBit bit))
  | .bwPutCode len => fun s =>
    if len.toNat = 0 ∨ 32 < len.toNat then .raised .option s
    else .normal (s.runWriter (putCodeBits (s.argVal 0).toNat len.toNat))
  | .bwFlush => fun s => .normal (s.runWriter flushWriter)
  | .brInit => fun s => .normal s.initReader
  | .brGetBit => fun s => .normal ((s.setReader (getBit s.reader).2).setRes0 (bitResult (getBit s.reader).1))
  | .brSync => fun s =>
    .normal ((s.setReader (syncReader s.reader).2).setRes0 (if (syncReader s.reader).1 then 1 else 0))
  | .faxBuildHash => buildHash
  | .faxLookup colour => fun s =>
    .normal { s with
      res := lookupResults s.res (lookupRow colour (s.hashOf colour) (s.argVal 1).toNat (s.argVal 0).toNat) }
  | .faxEncode port => faxEncodeBody port
  | .faxDecode => faxDecodeBody
  | .lzwEncode w port => lzwEncodeBody w port
  | .packbitsEncode w port => packbitsEncodeBody w port
  | .qAcquire => qAcquireBody
  | .qDestroy => qDestroyBody
  | .qSetDepth depth => fun s => hazardCheck s <| needDescriptor s <| setDepth depth.toNat s
  | .qSetFormat format => fun s =>
    if formatOk format then
      hazardCheck s <| needDescriptor s <| setDepth s.q.depth.toNat { s with q := { s.q with format := format } }
    else .raised .illegalCommand s
  | .qSetEndian endian => fun s =>
    if endianOk endian then
      hazardCheck s <| needDescriptor s <| setDepth s.q.depth.toNat { s with q := { s.q with endian := endian } }
    else .raised .illegalCommand s
  | .qSetPad => fun s =>
    hazardCheck s <| needDescriptor s <|
      if Config.sizeMax < (s.argVal 0).toNat * s.img.channels.toNat then .raised .option s
      else setDepth s.q.depth.toNat { s with q := { s.q with pad := s.argVal 0 } }
  | .qSetScale => fun s =>
    hazardCheck s <| needDescriptor s <|
      match f64 (s.argVal 0) with
      | .real _ => .normal (State.resetState { s with q := { s.q with scale := s.argVal 0 } })
      | _ => .raised .option s
  | .qSetPolarity minIsWhite => fun s =>
    hazardCheck s <| needDescriptor s <| .normal { s with q := { s.q with minIsWhite := minIsWhite } }
  | .qResetState => fun s => hazardCheck s <| needDescriptor s <| .normal s.resetState
  | .qGetExtent qt => fun s =>
    useQType qt s fun t => needDescriptor s <|
      if Config.sizeMax < extentOf s.q s.img t then .raised .resourceLimit (s.setRes0 0)
      else .normal (s.setRes0 (BitVec.ofNat 64 (extentOf s.q s.img t)))
  | .qPack w qt => fun s => rowChecks w qt s (packBody w)
  | .qUnpack w qt => fun s => rowChecks w qt s (unpackBody w)
  | .qGetType => fun s => needDescriptor s <| .normal (s.setRes0 (defaultType s.img))
  | .qSetImageType qt => fun s => useQType qt s fun t => needDescriptor s <| .normal (s.setRes0 (imageType s.q t))
  | .poolAcquire => poolAcquireBody
  | .poolGet w => fun s =>
    if s.pool.valid = false ∨ s.pool.n ≤ w.toNat then .raised .option s
    else .normal { s with res := { s.res with r0 := w.setWidth 64, r1 := s.pool.extent } }
  | .poolRelease => poolReleaseBody
  | .rsExport invert => fun s =>
    needDescriptor s <|
      let v := toInternal s.params (f64 (s.argVal 0))
      let v := if invert then invertSample s.params v else v
      .normal (s.setRes0 (BitVec.ofNat 64 (exportSample s.params s.q v)))
  | .rsImport invert => fun s =>
    needDescriptor s <|
      let v := importSample s.params s.q ((s.argVal 0).toNat % 2 ^ s.q.depth.toNat)
      let v := if invert then invertSample s.params v else v
      .normal (s.setRes0 (toF64 v))

/-- A command runs its pseudocode as a command of its agent with its opcode (R12, R121). -/
theorem exec_eq (i : Instr) (s : State) : exec i s = runCmd (agentOf i) i.opcode (bodyOf i) s := by
  cases i <;> simp only [Instr.opcode, encode, Laws.opcOf_packWord] <;> rw [exec] <;> rfl

/-! ### A property of every end of the shared parts -/

section Shared

variable {P : CmdEnd → Prop} {s : State}

theorem of_hazardCheck {k : CmdEnd} (hr : P (.raised .hazard s)) (hk : P k) : P (hazardCheck s k) := by
  obtain ⟨-, e⟩ | ⟨-, e⟩ := hazardCheck_cases s k <;> rw [e]
  · exact hk
  · exact hr

theorem of_needDescriptor {k : CmdEnd} (hr : P (.raised .option s)) (hk : s.q.valid = true → P k) :
    P (needDescriptor s k) := by
  obtain ⟨h, e⟩ | ⟨-, e⟩ := needDescriptor_cases s k <;> rw [e]
  · exact hk h
  · exact hr

theorem of_useQType {qt : BitVec 4} {k : QType → CmdEnd} (hr : P (.raised .illegalCommand s)) (hk : ∀ t, P (k t)) :
    P (useQType qt s k) := by
  obtain ⟨t, -, e⟩ | ⟨-, e⟩ := useQType_cases qt s k <;> rw [e]
  · exact hk t
  · exact hr

theorem of_bufferChecks {w : BitVec 8} {k : Nat → Nat → CmdEnd} (hr : ∀ e, P (.raised e s)) (hk : ∀ o n, P (k o n)) :
    P (bufferChecks w s k) := by
  obtain ⟨-, e⟩ | ⟨-, e⟩ | ⟨-, -, -, -, e⟩ := bufferChecks_cases w s k <;> rw [e]
  · exact hr _
  · exact hr _
  · exact hk _ _

theorem of_rowChecks {w : BitVec 8} {qt : BitVec 4} {k : Nat → List Channel → Nat → State → CmdEnd}
    (hr : ∀ e, P (.raised e s)) (hrow : ∀ y, P (.raised .resourceLimit (s.tookRow y)))
    (hk : ∀ t chs, channelOrder s.img t = some chs → s.pool.valid = true → extentOf s.q s.img t ≤ s.pool.extent.toNat →
      ∀ y, P (k y chs (extentOf s.q s.img t) (s.tookRow y))) : P (rowChecks w qt s k) := by
  obtain ⟨_, e⟩ | ⟨t, chs, -, hchs, -, -, -, hp, -, -, -, he, e⟩ := rowChecks_cases w qt s k <;> rw [e]
  · exact hr _
  · exact iteInduction (fun _ => hk t chs hchs hp he _) fun _ => hrow _

theorem of_releaseThen {k : State → CmdEnd} (hn : s.pool.valid = false → P (k s))
    (hk : s.pool.valid = true → P (k s.freePool)) (hr : s.pool.valid = true → P (.raised .guardViolation s.freePool)) :
    P (releaseThen s k) := by
  obtain ⟨h, e⟩ | ⟨h, -, e⟩ | ⟨h, -, e⟩ := releaseThen_cases s k <;> rw [e]
  · exact hn h
  · exact hk h
  · exact hr h

end Shared

/-! ### What the commands leave -/

/-- The state but for what the codecs' and the query commands write: RES, the bit units, the LZW registers, the fax
tables, PB_BUF and the ports. -/
def State.butCodecs (s : State) : State :=
  { s with
    res := ⟨0, 0, 0, 0⟩, bw := BitWriter.reset, br := BitReader.reset, lzw := Lzw.reset, faxWhash := []
    faxBhash := [], faxScan := [], pbBuf := []
    ports := { Ports.reset with latency := s.ports.latency, raised := s.ports.raised } }

/-- The state but for what the descriptor-mutating commands write: the descriptor, the latches, the pool, the
accumulators and the ports (R611 case 1). -/
def State.butSetup (s : State) : State :=
  { s with
    q := Descriptor.reset, img := ImageAttrs.reset, pool := Pool.reset, scratch := []
    waccPixel := Vector.replicate 256 0, waccBits := Vector.replicate 256 0
    ports := { Ports.reset with latency := s.ports.latency, raised := s.ports.raised } }

/-- The state but for what a command of worker `w` writes: WRES[w], the scratch space, the accumulators and the ports. -/
def State.butRow (w : BitVec 8) (s : State) : State :=
  { s.setWres w 0 with
    scratch := [], waccPixel := Vector.replicate 256 0, waccBits := Vector.replicate 256 0
    ports := { Ports.reset with latency := s.ports.latency, raised := s.ports.raised } }

/-- A pseudocode started in `s` has the part of the state that `view` shows as it was. -/
def CmdEnd.Leaves {α : Type} (view : State → α) (s : State) (e : CmdEnd) : Prop := view e.state = view s

section Leaves

variable {α : Type} {view : State → α} {s t : State} {e : CmdEnd}

@[simp] theorem leaves_normal : (CmdEnd.normal t).Leaves view s ↔ view t = view s := .rfl
@[simp] theorem leaves_cancelled : (CmdEnd.cancelled t).Leaves view s ↔ view t = view s := .rfl
@[simp] theorem leaves_raised {k : ErrKind} : (CmdEnd.raised k t).Leaves view s ↔ view t = view s := .rfl

/-- What starts from a state that shows the same leaves what the state before it shows. -/
theorem CmdEnd.Leaves.of_view (he : e.Leaves view t) (h : view t = view s) : e.Leaves view s := Eq.trans he h

/-- A part of what it shows is left too. -/
theorem CmdEnd.Leaves.field {β : Type} (he : e.Leaves view s) (f : α → β) : f (view e.state) = f (view s) :=
  congrArg f he

theorem leaves_mapState {f : State → State} (h : e.Leaves view s) (hf : ∀ u, view (f u) = view u) :
    (e.mapState f).Leaves view s := by
  rw [CmdEnd.Leaves, CmdEnd.mapState_state, hf]
  exact h

theorem leaves_andThen {next : State → CmdEnd} (he : e.Leaves view s) (hn : ∀ u, (next u).Leaves view u) :
    (e.andThen next).Leaves view s := by
  cases e with
  | normal u => exact (hn u).of_view he
  | cancelled u => exact he
  | raised k u => exact he

end Leaves

/-! ### The codecs' and the query commands -/

@[simp] theorem State.sink_butCodecs (s : State) (port : Port) (bytes : List Byte) :
    (s.sink port bytes).butCodecs = s.butCodecs := by cases port <;> rfl
@[simp] theorem State.runWriter_butCodecs (s : State) (f : Writer → Writer) :
    (s.runWriter f).butCodecs = s.butCodecs := s.sink_butCodecs s.bw.port (f ⟨s.bw, []⟩).out
@[simp] theorem State.tookRow_butCodecs (s : State) (y : Nat) : (s.tookRow y).butCodecs = s.butCodecs := rfl
@[simp] theorem State.tookProgress_butCodecs (s : State) (tag : BitVec 8) (current total : Nat) :
    (s.tookProgress tag current total).butCodecs = s.butCodecs := rfl
@[simp] theorem State.setRes0_butCodecs (s : State) (v : DWord) : (s.setRes0 v).butCodecs = s.butCodecs := rfl
@[simp] theorem State.commitRow_butCodecs (s : State) (y : Nat) : (s.commitRow y).butCodecs = s.butCodecs := rfl
@[simp] theorem State.afterLine_butCodecs (s : State) (l : LineState) : (s.afterLine l).butCodecs = s.butCodecs := rfl
@[simp] theorem State.scanRow_butCodecs (s : State) (y c : Nat) : (s.scanRow y c).butCodecs = s.butCodecs := by
  obtain ⟨hl, hr⟩ := askIntensities_ports s.params y c 0 s.ports
  simp [State.butCodecs, State.scanRow, hl, hr]

theorem leaves_buildHash (s : State) : (buildHash s).Leaves State.butCodecs s :=
  iteInduction (fun _ => rfl) fun _ => rfl

theorem leaves_faxEncodeRows (c total k y n : Nat) (s : State) :
    (faxEncodeRows c total k y n s).Leaves State.butCodecs s := by
  induction k generalizing y n s with
  | zero => simp [faxEncodeRows]
  | succ k ih =>
    simp only [faxEncodeRows]
    split
    · split
      · exact (ih _ _ _).of_view (by simp)
      · simp
    · simp

theorem leaves_faxEncodeBody (port : Port) (s : State) : (faxEncodeBody port s).Leaves State.butCodecs s := by
  refine iteInduction (fun _ => rfl) fun _ => iteInduction (fun _ => leaves_mapState ?_ fun _ => rfl) fun _ => rfl
  exact (leaves_faxEncodeRows _ _ _ _ _ _).of_view (State.runWriter_butCodecs _ _)

theorem leaves_faxDecodeRows (c total k y null : Nat) (s : State) :
    (faxDecodeRows c total k y null s).Leaves State.butCodecs s := by
  induction k generalizing y null s with
  | zero => rfl
  | succ k ih =>
    simp only [faxDecodeRows]
    split
    · rfl
    · split
      · simp
      · split
        · split
          · exact (ih _ _ _).of_view (by simp)
          · simp
        · simp

theorem leaves_faxDecodePage (c m : Nat) (s : State) : (faxDecodePage c m s).Leaves State.butCodecs s :=
  iteInduction (fun _ => leaves_faxDecodeRows _ _ _ _ _ _) fun _ => rfl

theorem leaves_faxDecodeBody (s : State) : (faxDecodeBody s).Leaves State.butCodecs s :=
  iteInduction (fun _ => rfl) fun _ => leaves_andThen (leaves_buildHash s) fun t =>
    iteInduction (fun _ => leaves_mapState (leaves_faxDecodePage _ _ (t.tookAlloc .faxScan _)) fun _ => rfl)
      fun _ => rfl

theorem leaves_lzwEncodeBody (w : BitVec 8) (port : Port) (s : State) :
    (lzwEncodeBody w port s).Leaves State.butCodecs s :=
  of_bufferChecks (fun _ => rfl) fun _ _ =>
    iteInduction (fun _ => State.sink_butCodecs { s.tookAlloc _ _ with lzw := _ } _ _) fun _ => rfl

theorem leaves_packbitsEncodeBody (w : BitVec 8) (port : Port) (s : State) :
    (packbitsEncodeBody w port s).Leaves State.butCodecs s :=
  of_bufferChecks (fun _ => rfl) fun _ _ =>
    iteInduction (fun _ => State.sink_butCodecs { s.tookAlloc _ _ with pbBuf := _ } _ _) fun _ => rfl

/-- The commands that write no more than what `State.butCodecs` hides: all sequencer commands but the
descriptor-mutating ones and those that write STATUS' sticky bits or CTRL. -/
def isCodecOrQuery : Instr → Bool
  | .clrStatus | .ctrlWrite _ | .qPack _ _ | .qUnpack _ _ => false
  | i => !isMutating i

/-- What a command can write by its kind. -/
theorem instr_kinds (i : Instr) :
    isCodecOrQuery i = true ∨ isMutating i = true ∨ (∃ w, agentOf i = .worker w) ∨ i = .clrStatus ∨
    ∃ v, i = .ctrlWrite v := by
  cases i <;> simp [isCodecOrQuery, isMutating, agentOf]

theorem bodyOf_leaves_butCodecs {i : Instr} (hi : isCodecOrQuery i = true) (s : State) :
    (bodyOf i s).Leaves State.butCodecs s := by
  cases i
  case clrStatus | ctrlWrite | qPack | qUnpack => cases hi
  case qAcquire | qDestroy | qSetDepth | qSetFormat | qSetEndian | qSetPad | qSetScale | qSetPolarity | qResetState
    | poolAcquire | poolRelease => cases hi
  case nop | bwInit | brInit | brGetBit | brSync | faxLookup => rfl
  case bwPutBit | bwFlush => exact s.runWriter_butCodecs _
  case bwPutCode => exact iteInduction (fun _ => rfl) fun _ => s.runWriter_butCodecs _
  case faxBuildHash => exact leaves_buildHash s
  case faxEncode port => exact leaves_faxEncodeBody port s
  case faxDecode => exact leaves_faxDecodeBody s
  case lzwEncode w port => exact leaves_lzwEncodeBody w port s
  case packbitsEncode w port => exact leaves_packbitsEncodeBody w port s
  case qGetExtent =>
    exact of_useQType rfl fun _ => of_needDescriptor rfl fun _ => iteInduction (fun _ => rfl) fun _ => rfl
  case qSetImageType => exact of_useQType rfl fun _ => of_needDescriptor rfl fun _ => rfl
  case qGetType | rsExport | rsImport => exact of_needDescriptor rfl fun _ => rfl
  case poolGet => exact iteInduction (fun _ => rfl) fun _ => rfl

/-! ### The descriptor-mutating commands -/

theorem leaves_poolAcquire (e : Nat) (s : State) : (poolAcquire e s).Leaves State.butSetup s := by
  obtain ⟨-, h⟩ | ⟨-, -, h⟩ | ⟨-, -, h⟩ := poolAcquire_cases e s <;> rw [h] <;> rfl

theorem leaves_setDepth (d : Nat) (s : State) : (setDepth d s).Leaves State.butSetup s := by
  obtain ⟨-, e⟩ | ⟨-, -, -, -, e⟩ | ⟨-, -, -, e⟩ := setDepth_cases d s <;> rw [e]
  · rfl
  · rfl
  · exact of_releaseThen (fun _ => (leaves_poolAcquire _ _).of_view rfl)
      (fun _ => (leaves_poolAcquire _ _).of_view rfl) fun _ => rfl

theorem leaves_qAcquireBody (s : State) : (qAcquireBody s).Leaves State.butSetup s := by
  refine of_hazardCheck rfl (iteInduction (fun _ => rfl) fun _ => iteInduction (fun _ => rfl) fun _ =>
    iteInduction (fun _ => rfl) fun _ => ?_)
  dsimp only
  split
  · exact (leaves_setDepth _ _).of_view rfl
  · rfl

theorem bodyOf_leaves_butSetup {i : Instr} (hi : isMutating i = true) (s : State) :
    (bodyOf i s).Leaves State.butSetup s := by
  cases i <;> try cases hi
  case qAcquire => exact leaves_qAcquireBody s
  case qDestroy =>
    exact of_hazardCheck rfl (iteInduction (fun _ => iteInduction (fun _ => rfl) fun _ => rfl) fun _ => rfl)
  case qSetDepth => exact of_hazardCheck rfl (of_needDescriptor rfl fun _ => (leaves_setDepth _ _).of_view rfl)
  case qSetFormat | qSetEndian =>
    exact iteInduction (fun _ => of_hazardCheck rfl (of_needDescriptor rfl fun _ => (leaves_setDepth _ _).of_view rfl)) fun _ => rfl
  case qSetPad =>
    exact of_hazardCheck rfl (of_needDescriptor rfl fun _ =>
      iteInduction (fun _ => rfl) fun _ => (leaves_setDepth _ _).of_view rfl)
  case qSetScale =>
    refine of_hazardCheck rfl (of_needDescriptor rfl fun _ => ?_)
    split <;> rfl
  case qSetPolarity | qResetState => exact of_hazardCheck rfl (of_needDescriptor rfl fun _ => rfl)
  case poolAcquire =>
    exact of_hazardCheck rfl (of_needDescriptor rfl fun _ =>
      of_releaseThen (fun _ => (leaves_poolAcquire _ _).of_view rfl)
      (fun _ => (leaves_poolAcquire _ _).of_view rfl) fun _ => rfl)
  case poolRelease => exact of_hazardCheck rfl (of_releaseThen (fun _ => rfl) (fun _ => rfl) fun _ => rfl)

/-! ### The workers' commands -/

theorem leaves_packBody (w : BitVec 8) (y : Nat) (chs : List Channel) (e : Nat) (s : State) :
    (packBody w y chs e s).Leaves (State.butRow w) s := by
  obtain ⟨hl, hr⟩ := askRow_ports s.params y chs s.img.columns.toNat 0 s.ports
  simp [packBody, State.butRow, State.setWres, State.clearWacc, hl, hr]

theorem leaves_unpackBody (w : BitVec 8) (y : Nat) (chs : List Channel) (e : Nat) (s : State) :
    (unpackBody w y chs e s).Leaves (State.butRow w) s := by
  simp [unpackBody, State.butRow, State.setWres, State.clearWacc]

theorem bodyOf_leaves_butRow {i : Instr} {w : BitVec 8} (hi : agentOf i = .worker w) (s : State) :
    (bodyOf i s).Leaves (State.butRow w) s := by
  cases i <;> cases hi
  case qPack qt => exact of_rowChecks (fun _ => rfl) (fun _ => rfl) fun _ _ _ _ _ _ => leaves_packBody w _ _ _ (s.tookRow _)
  case qUnpack qt =>
    exact of_rowChecks (fun _ => rfl) (fun _ => rfl) fun _ _ _ _ _ _ => leaves_unpackBody w _ _ _ (s.tookRow _)

end Sys2Proof.Machine
end

section
/-! PROOFS. How every command ends and what no command writes: O53, O54. -/

namespace Sys2Proof.Machine

open Host

/-! ### A view through every command -/

/-- What the codec commands and the descriptor-mutating ones all leave, every sequencer command leaves, but for the two
that write STATUS' sticky bits and CTRL. -/
theorem bodyOf_leaves_seq {α : Type} {view : State → α} {i : Instr} (hi : agentOf i = .seq) (hclr : i ≠ .clrStatus)
    (hctrl : ∀ v, i ≠ .ctrlWrite v) (hc : ∀ s, view s.butCodecs = view s) (hq : ∀ s, view s.butSetup = view s)
    (s : State) : (bodyOf i s).Leaves view s := by
  obtain h | h | ⟨w, h⟩ | h | ⟨v, h⟩ := instr_kinds i
  · exact (hc _).symm.trans (((bodyOf_leaves_butCodecs h s).field view).trans (hc s))
  · exact (hq _).symm.trans (((bodyOf_leaves_butSetup h s).field view).trans (hq s))
  · cases hi.symm.trans h
  · exact absurd h hclr
  · exact absurd h (hctrl v)

/-- What the workers' commands leave too, every command leaves. -/
theorem bodyOf_leaves {α : Type} {view : State → α} {i : Instr} (hclr : i ≠ .clrStatus)
    (hctrl : ∀ v, i ≠ .ctrlWrite v) (hc : ∀ s, view s.butCodecs = view s) (hq : ∀ s, view s.butSetup = view s)
    (hw : ∀ w s, view (State.butRow w s) = view s) (s : State) : (bodyOf i s).Leaves view s := by
  cases ha : agentOf i with
  | seq => exact bodyOf_leaves_seq ha hclr hctrl hc hq s
  | worker w => exact (hw w _).symm.trans (((bodyOf_leaves_butRow ha s).field view).trans (hw w s))

/-- The start and every end of a command of agent `a` leave what `view` shows. -/
structure EndsLeave {α : Type} (a : Agent) (view : State → α) : Prop where
  beginCmd : ∀ s, view (s.beginCmd a) = view s
  endCmd : ∀ s, view (s.endCmd a) = view s
  cancelCmd : ∀ s, view (s.cancelCmd a) = view s
  raiseErr : ∀ s op k, view (s.raiseErr a op k) = view s

theorem runCmd_leaves {α : Type} {view : State → α} {a : Agent} (hv : EndsLeave a view) {op : BitVec 8}
    {body : State → CmdEnd} {s t : State} (hb : (body (s.beginCmd a)).Leaves view (s.beginCmd a))
    (h : runCmd a op body s = .next t) : view t = view s := by
  obtain ⟨u, hu, e⟩ | ⟨u, hu, e⟩ | ⟨k, u, hu, e⟩ := runCmd_cases a op body s
  all_goals
    obtain rfl : _ = t := Outcome.next.inj (e.symm.trans h)
    have hb : view u = view s := (hu ▸ hb).trans (hv.beginCmd s)
  · exact (hv.endCmd u).trans hb
  · exact (hv.cancelCmd u).trans hb
  · exact (hv.raiseErr u op k).trans hb

/-! ### The host's side (R31, R34, R101) -/

/-- What no command writes: the ARG registers, the host's side, the parameters, the commands in flight, RST and the
latencies to come. -/
structure HostSide where
  arg : Vector DWord 8
  host : List HostAct
  seen : List DWord
  params : Params
  seqFlight : Option SeqFlight
  wFlights : List WFlight
  inReset : Bool
  latency : List Nat

def State.hostSide (s : State) : HostSide :=
  ⟨s.arg, s.host, s.seen, s.params, s.seqFlight, s.wFlights, s.inReset, s.ports.latency⟩

theorem endsLeave_hostSide (a : Agent) : EndsLeave a State.hostSide := by
  cases a <;> exact ⟨fun _ => rfl, fun _ => rfl, fun _ => rfl, fun _ _ _ => rfl⟩

theorem endsLeave_ctrl (a : Agent) : EndsLeave a State.ctrl := by
  cases a <;> exact ⟨fun _ => rfl, fun _ => rfl, fun _ => rfl, fun _ _ _ => rfl⟩

theorem bodyOf_leaves_hostSide (i : Instr) (s : State) : (bodyOf i s).Leaves State.hostSide s := by
  by_cases hclr : i = .clrStatus
  · subst hclr; rfl
  · by_cases hctrl : ∃ v, i = .ctrlWrite v
    · obtain ⟨v, rfl⟩ := hctrl; rfl
    · exact bodyOf_leaves hclr (not_exists.1 hctrl) (fun _ => rfl) (fun _ => rfl) (fun _ _ => rfl) s

theorem exec_hostSide {i : Instr} {s t : State} (h : exec i s = .next t) : t.hostSide = s.hostSide :=
  runCmd_leaves (endsLeave_hostSide _) (bodyOf_leaves_hostSide i _) (exec_eq i s ▸ h)

theorem bodyOf_leaves_ctrl {i : Instr} (hi : ∀ v, i ≠ .ctrlWrite v) (s : State) :
    (bodyOf i s).Leaves State.ctrl s := by
  by_cases hclr : i = .clrStatus
  · subst hclr; rfl
  · exact bodyOf_leaves hclr hi (fun _ => rfl) (fun _ => rfl) (fun _ _ => rfl) s

theorem exec_ctrl {i : Instr} (hi : ∀ v, i ≠ .ctrlWrite v) {s t : State} (h : exec i s = .next t) :
    t.ctrl = s.ctrl :=
  runCmd_leaves (endsLeave_ctrl _) (bodyOf_leaves_ctrl hi _) (exec_eq i s ▸ h)

/-- Settles O54: no pseudocode, and no start or end of a command, writes the host's side; only CTRL_WRITE's pseudocode
writes CTRL. -/
theorem commandsLeaveTheHostSideAlone : Obligations.CommandsLeaveTheHostSideAlone := by
  intro s t i h
  obtain ⟨harg, hhost, hseen, hparams, hseq, hw, hrst, hlat⟩ := HostSide.mk.inj (exec_hostSide h)
  exact ⟨harg, hhost, hseen, hparams, hseq, hw, hrst, hlat, fun hi => exec_ctrl hi h⟩

/-! ### How a command ends (R505, R512) -/

/-- The pseudocode does not end cancelled. -/
def CmdEnd.Uncancelled : CmdEnd → Prop
  | .cancelled _ => False
  | _ => True

theorem uncancelled_poolAcquire (e : Nat) (s : State) : (poolAcquire e s).Uncancelled := by
  obtain ⟨-, h⟩ | ⟨-, -, h⟩ | ⟨-, -, h⟩ := poolAcquire_cases e s <;> rw [h] <;> trivial

theorem uncancelled_setDepth (d : Nat) (s : State) : (setDepth d s).Uncancelled := by
  obtain ⟨-, e⟩ | ⟨-, -, -, -, e⟩ | ⟨-, -, -, e⟩ := setDepth_cases d s <;> rw [e]
  · trivial
  · trivial
  · exact of_releaseThen (fun _ => uncancelled_poolAcquire _ _) (fun _ => uncancelled_poolAcquire _ _) fun _ => trivial

theorem uncancelled_qAcquireBody (s : State) : (qAcquireBody s).Uncancelled := by
  refine of_hazardCheck trivial (iteInduction (fun _ => trivial) fun _ => iteInduction (fun _ => trivial) fun _ =>
    iteInduction (fun _ => trivial) fun _ => ?_)
  dsimp only
  split
  · exact uncancelled_setDepth _ _
  · trivial

/-- Only FAX_ENCODE and FAX_DECODE have a cancelled end (R512). -/
theorem bodyOf_uncancelled {i : Instr} (hfax : ¬((∃ port, i = .faxEncode port) ∨ i = .faxDecode)) (s : State) :
    (bodyOf i s).Uncancelled := by
  cases i
  case faxEncode port => exact absurd (.inl ⟨port, rfl⟩) hfax
  case faxDecode => exact absurd (.inr rfl) hfax
  case nop | clrStatus | ctrlWrite | bwInit | bwPutBit | bwFlush | brInit | brGetBit | brSync | faxLookup => trivial
  case bwPutCode | faxBuildHash | poolGet => exact iteInduction (fun _ => trivial) fun _ => trivial
  case lzwEncode | packbitsEncode =>
    exact of_bufferChecks (fun _ => trivial) fun _ _ => iteInduction (fun _ => trivial) fun _ => trivial
  case qAcquire => exact uncancelled_qAcquireBody s
  case qDestroy =>
    exact of_hazardCheck trivial (iteInduction (fun _ => iteInduction (fun _ => trivial) fun _ => trivial)
      fun _ => trivial)
  case qSetDepth => exact of_hazardCheck trivial (of_needDescriptor trivial fun _ => uncancelled_setDepth _ _)
  case qSetFormat | qSetEndian =>
    exact iteInduction (fun _ => of_hazardCheck trivial (of_needDescriptor trivial fun _ => uncancelled_setDepth _ _))
      fun _ => trivial
  case qSetPad =>
    exact of_hazardCheck trivial (of_needDescriptor trivial fun _ =>
      iteInduction (fun _ => trivial) fun _ => uncancelled_setDepth _ _)
  case qSetScale =>
    refine of_hazardCheck trivial (of_needDescriptor trivial fun _ => ?_)
    split <;> trivial
  case qSetPolarity | qResetState => exact of_hazardCheck trivial (of_needDescriptor trivial fun _ => trivial)
  case qGetExtent =>
    exact of_useQType trivial fun _ => of_needDescriptor trivial fun _ =>
      iteInduction (fun _ => trivial) fun _ => trivial
  case qPack | qUnpack => exact of_rowChecks (fun _ => trivial) (fun _ => trivial) fun _ _ _ _ _ _ => trivial
  case qSetImageType => exact of_useQType trivial fun _ => of_needDescriptor trivial fun _ => trivial
  case qGetType | rsExport | rsImport => exact of_needDescriptor trivial fun _ => trivial
  case poolAcquire =>
    exact of_hazardCheck trivial (of_needDescriptor trivial fun _ => of_releaseThen
      (fun _ => uncancelled_poolAcquire _ _) (fun _ => uncancelled_poolAcquire _ _) fun _ => trivial)
  case poolRelease =>
    exact of_hazardCheck trivial (of_releaseThen (fun _ => trivial) (fun _ => trivial) fun _ => trivial)

/-- What a command's report is made of: STATUS and the Raise exchanges. -/
def State.reported (s : State) : Status × List (ErrKind × BitVec 8) := (s.status, s.ports.raised)

theorem bodyOf_leaves_reported {i : Instr} (hclr : i ≠ .clrStatus) (s : State) :
    (bodyOf i s).Leaves State.reported s := by
  by_cases hctrl : ∃ v, i = .ctrlWrite v
  · obtain ⟨v, rfl⟩ := hctrl; rfl
  · exact bodyOf_leaves hclr (not_exists.1 hctrl) (fun _ => rfl) (fun _ => rfl) (fun _ _ => rfl) s

/-- How a sequencer command other than CLR_STATUS ends (R32, R505, R512). -/
theorem exec_seq_reported {i : Instr} {s t : State} (ha : agentOf i = .seq) (hclr : i ≠ .clrStatus)
    (h : exec i s = .next t) :
    (∃ k, t.reported = (s.status.raisedEnd i.opcode k, s.ports.raised ++ [(k, i.opcode)])) ∨
    t.reported = (s.status.ended, s.ports.raised) ∨
    (t.reported = (s.status.cancelledEnd, s.ports.raised) ∧ ((∃ port, i = .faxEncode port) ∨ i = .faxDecode)) := by
  rw [exec_eq, ha] at h
  have hb := bodyOf_leaves_reported hclr (s.beginCmd .seq)
  obtain ⟨u, hu, e⟩ | ⟨u, hu, e⟩ | ⟨k, u, hu, e⟩ := runCmd_cases .seq i.opcode (bodyOf i) s
  all_goals
    obtain rfl : _ = t := Outcome.next.inj (e.symm.trans h)
    rw [hu] at hb
    obtain ⟨hstatus, hraised⟩ : u.status = s.status.begin ∧ u.ports.raised = s.ports.raised := Prod.mk.inj hb
  · exact .inr (.inl (by simp [State.reported, State.endCmd, hstatus, hraised]))
  · refine .inr (.inr ⟨by simp [State.reported, State.cancelCmd, hstatus, hraised], ?_⟩)
    by_contra hfax
    simpa [hu, CmdEnd.Uncancelled] using bodyOf_uncancelled hfax (s.beginCmd .seq)
  · exact .inl ⟨k, by simp [State.reported, State.raiseErr, Ports.raise, hstatus, hraised]; rfl⟩

/-- How a worker's command ends (R33, R505). -/
theorem exec_worker_reported {i : Instr} {w : BitVec 8} {s t : State} (ha : agentOf i = .worker w)
    (h : exec i s = .next t) :
    (∃ k, t.wstat w = WStatus.raisedEnd i.opcode k ∧
      t.reported = (s.status.workerRaised k, s.ports.raised ++ [(k, i.opcode)])) ∨
    (t.wstat w = WStatus.ended ∧ t.reported = s.reported) := by
  have hclr : i ≠ .clrStatus := fun e => by cases e; cases ha
  have hfax : ¬((∃ port, i = .faxEncode port) ∨ i = .faxDecode) := by rintro (⟨_, rfl⟩ | rfl) <;> cases ha
  have hstat : (bodyOf i (s.beginCmd (.worker w))).Leaves (·.wstat w) (s.beginCmd (.worker w)) :=
    bodyOf_leaves hclr (fun v e => by cases e; cases ha) (fun _ => rfl) (fun _ => rfl) (fun _ _ => rfl) _
  have hb := bodyOf_leaves_reported hclr (s.beginCmd (.worker w))
  have hc := bodyOf_uncancelled hfax (s.beginCmd (.worker w))
  rw [exec_eq, ha] at h
  obtain ⟨u, hu, e⟩ | ⟨u, hu, -⟩ | ⟨k, u, hu, e⟩ := runCmd_cases (.worker w) i.opcode (bodyOf i) s
  · obtain rfl : _ = t := Outcome.next.inj (e.symm.trans h)
    rw [hu] at hb hstat
    refine .inr ⟨(State.wstat_setWstat _ _ _).trans ?_, hb⟩
    have : u.wstat w = (s.wstat w).begin := hstat.trans (State.wstat_setWstat _ _ _)
    rw [this, WStatus.finish_begin]
  · exact (hu ▸ hc : (CmdEnd.cancelled u).Uncancelled).elim
  · obtain rfl : _ = t := Outcome.next.inj (e.symm.trans h)
    rw [hu] at hb
    obtain ⟨hstatus, hraised⟩ : u.status = s.status ∧ u.ports.raised = s.ports.raised := Prod.mk.inj hb
    refine .inl ⟨k, State.wstat_setWstat _ _ _, ?_⟩
    simp [State.reported, State.raiseErr, Ports.raise, hstatus, hraised]

/-- CLR_STATUS clears the sticky bits and ends normally (R522). -/
theorem exec_clrStatus (s : State) :
    exec .clrStatus s = .next { s with status := ⟨false, true, false, false, 0, 0, false, false⟩ } := by
  rw [exec]; rfl

/-- Settles O53: the pseudocode writes neither its agent's status nor P_ERR, so what the end of the command writes is
what they show. -/
theorem everyCommandReportsItsEnd : Obligations.EveryCommandReportsItsEnd := by
  intro s t i h
  cases ha : agentOf i with
  | seq =>
    by_cases hclr : i = .clrStatus
    · subst hclr
      obtain rfl := Outcome.next.inj ((exec_clrStatus s).symm.trans h)
      exact .inr ⟨rfl, .inr (.inr ⟨rfl, rfl⟩)⟩
    · obtain ⟨k, hk⟩ | hn | ⟨hc, hfax⟩ := exec_seq_reported ha hclr h
      · exact .inl ⟨k, Prod.mk.inj hk⟩
      · obtain ⟨hstatus, hraised⟩ := Prod.mk.inj hn
        exact .inr ⟨hraised, .inl hstatus⟩
      · obtain ⟨hstatus, hraised⟩ := Prod.mk.inj hc
        exact .inr ⟨hraised, .inr (.inl ⟨hstatus, hfax⟩)⟩
  | worker w =>
    obtain ⟨k, hw, hk⟩ | ⟨hw, hn⟩ := exec_worker_reported ha h
    · exact .inl ⟨k, hw, Prod.mk.inj hk⟩
    · obtain ⟨hstatus, hraised⟩ := Prod.mk.inj hn
      exact .inr ⟨hraised, hw, hstatus⟩

end Sys2Proof.Machine
end

section
/-! PROOFS. What one step does to the registers no window holds back, and the step lemmas O55, O56 and O57. -/

namespace Sys2Proof.Machine

open Host

/-! ### The registers a command writes at once -/

/-- The registers and memories that no busy window, no report and no host register access touches. -/
structure Held where
  q : Descriptor
  img : ImageAttrs
  pool : Pool
  scratch : List Cell
  bw : BitWriter
  br : BitReader
  ctrl : Word
  waccPixel : Vector Word 256
  waccBits : Vector (BitVec 6) 256

def State.held (s : State) : Held :=
  ⟨s.q, s.img, s.pool, s.scratch, s.bw, s.br, s.ctrl, s.waccPixel, s.waccBits⟩

theorem endsLeave_held (a : Agent) : EndsLeave a State.held := by
  cases a <;> exact ⟨fun _ => rfl, fun _ => rfl, fun _ => rfl, fun _ _ _ => rfl⟩

@[simp] theorem openWindow_held (a : Agent) (n : Nat) (i : Option Instr) (s t : State) :
    (openWindow a n i s t).held = t.held := by
  unfold openWindow
  split
  · rfl
  · cases a <;> rfl

theorem tickWorkers_held (fs : List WFlight) (s : State) : (tickWorkers fs s).held = s.held := by
  induction fs generalizing s with
  | nil => rfl
  | cons f fs ih =>
    unfold tickWorkers
    split
    · exact ih (deliverWorker f s)
    · exact ih _

@[simp] theorem tick_held (s : State) : (tick s).held = s.held := by
  refine (tickWorkers_held _ _).trans ?_
  obtain ⟨-, e⟩ | ⟨f, -, -, e⟩ | ⟨f, -, -, e⟩ := tickSeq_cases s <;> rw [e] <;> rfl

/-- An action of the host writes CMD, drives RST, or writes no more than ARG, one byte of the scratch space, the source
and the host's own side (R30, R84, R133). -/
theorem hostAct_writes {a : HostAct} {s t : State} (h : hostAct a s = .next t) :
    (∃ c, issue c s = .next t) ∨ (∃ asserted, t = s.driveRst asserted) ∨
    ∃ arg ports host seen scratch,
      t = { s with arg := arg, ports := ports, host := host, seen := seen, scratch := scratch } ∧
      (scratch = s.scratch ∨ ∃ b o v, s.inScratch b o = true ∧ scratch = memWrite s.scratch (scratchKey b o) v) := by
  cases a with
  | write offset width v =>
    simp only [hostAct, hostWrite] at h
    split at h
    · split at h
      · cases h
        exact .inr (.inr ⟨_, _, _, _, _, rfl, .inl rfl⟩)
      · exact .inl ⟨_, h⟩
    · split at h <;> cases h <;> exact .inr (.inr ⟨_, _, _, _, _, rfl, .inl rfl⟩)
    · cases h
  | read offset width =>
    simp only [hostAct, hostRead] at h
    split at h
    · split at h <;> cases h <;> exact .inr (.inr ⟨_, _, _, _, _, rfl, .inl rfl⟩)
    · cases h
  | scrRead b o =>
    obtain ⟨-, -, -, e⟩ | ⟨-, -, -, e⟩ | ⟨-, e⟩ := scratchAccess_cases b o s _ <;> cases e.symm.trans h
    exact .inr (.inr ⟨_, _, _, _, _, rfl, .inl rfl⟩)
  | scrWrite b o v =>
    obtain ⟨hin, -, -, e⟩ | ⟨-, -, -, e⟩ | ⟨-, e⟩ := scratchAccess_cases b o s _ <;> cases e.symm.trans h
    exact .inr (.inr ⟨_, _, _, _, _, rfl, .inr ⟨b, o, v, hin, rfl⟩⟩)
  | waitSeq | waitWorker w =>
    simp only [hostAct] at h
    split at h <;> cases h <;> exact .inr (.inr ⟨_, _, _, _, _, rfl, .inl rfl⟩)
  | feed bytes | idle =>
    cases h
    exact .inr (.inr ⟨_, _, _, _, _, rfl, .inl rfl⟩)
  | rst asserted =>
    cases h
    exact .inr (.inl ⟨asserted, rfl⟩)

/-! ### A property of these registers through one step -/

/-- The pseudocode leaves a state with the property `P`, however it ends. -/
def CmdEnd.Ensures (P : State → Prop) (e : CmdEnd) : Prop := P e.state

/-- A property of the registers of `State.held` that a reset, a host scratch write and every pseudocode keep. -/
structure HeldInvariant (P : State → Prop) : Prop where
  congr : ∀ {s t}, P s → t.held = s.held → P t
  reset : P State.reset
  scrWrite : ∀ {s : State} {b o : Nat} (v : Byte), P s → s.inScratch b o = true →
    P { s with scratch := memWrite s.scratch (scratchKey b o) v }
  body : ∀ i {s}, P s → (bodyOf i s).Ensures P

section HeldInvariant

variable {P : State → Prop} (hP : HeldInvariant P)
include hP

theorem HeldInvariant.runCmd {a : Agent} {op : BitVec 8} {body : State → CmdEnd}
    (hb : ∀ {s}, P s → (body s).Ensures P) {s t : State} (hs : P s) (h : runCmd a op body s = .next t) : P t := by
  have hbody := hb (hP.congr hs ((endsLeave_held a).beginCmd s))
  obtain ⟨u, hu, e⟩ | ⟨u, hu, e⟩ | ⟨k, u, hu, e⟩ := runCmd_cases a op body s
  all_goals
    obtain rfl : _ = t := Outcome.next.inj (e.symm.trans h)
    rw [hu] at hbody
  · exact hP.congr hbody ((endsLeave_held a).endCmd u)
  · exact hP.congr hbody ((endsLeave_held a).cancelCmd u)
  · exact hP.congr hbody ((endsLeave_held a).raiseErr u op k)

theorem HeldInvariant.runWord {c : Word} {s t : State} (hs : P s) (h : runWord c s = .next t) : P t := by
  unfold Machine.runWord at h
  split at h
  · rename_i i _
    exact hP.runCmd (fun hs => hP.body i hs) hs (exec_eq i s ▸ h)
  · exact hP.runCmd (body := .raised .illegalCommand) (fun hs => hs) hs h

theorem HeldInvariant.hostAct {a : HostAct} {s t : State} (hs : P s) (h : hostAct a s = .next t) : P t := by
  obtain ⟨c, hc⟩ | ⟨asserted, rfl⟩ | ⟨arg, ports, host, seen, scratch, rfl, hscr⟩ := hostAct_writes h
  · obtain ⟨-, e⟩ | ⟨-, u, hu, e⟩ | ⟨-, _, -, e⟩ | ⟨-, _, -, e⟩ := issue_cases c s <;> cases e.symm.trans hc
    · exact hP.congr hs rfl
    · exact hP.congr (hP.runWord (s := s.tookLatency) (hP.congr hs rfl) hu) (openWindow_held _ _ _ _ _)
  · obtain ⟨-, e⟩ | ⟨-, -, e⟩ := driveRst_cases s asserted <;> rw [e]
    · exact hP.congr hP.reset rfl
    · exact hs
  · obtain rfl | ⟨b, o, v, hin, rfl⟩ := hscr
    · exact hP.congr hs rfl
    · exact hP.congr (hP.scrWrite v hs hin) rfl

/-- Such a property is kept by every step: ticks and reports do not touch these registers. -/
theorem HeldInvariant.step {s t : State} (hs : P s) (h : step s = .next t) : P t :=
  step_keeps P (fun _ _ hs => hP.congr hs rfl) (fun _ _ _ => hP.hostAct) (fun s hs => hP.congr hs (tick_held s)) hs h

end HeldInvariant

/-! ### The pool and the scratch space (R40, R80, R82) -/

/-- What O55 keeps. -/
def State.storageLegal (s : State) : Prop := s.poolLegal ∧ s.scratchLegal

theorem State.storageLegal.congr {s t : State} (h : s.storageLegal) (hv : t.q.valid = s.q.valid)
    (hp : t.pool = s.pool) (hm : t.scratch = s.scratch) : t.storageLegal := by
  simpa only [State.storageLegal, State.poolLegal, State.scratchLegal, hv, hp, hm] using h

/-- With no pool and nothing in the scratch space the storage is legal, whatever the descriptor. -/
theorem storageLegal_of_noPool {s : State} (hp : s.pool = Pool.reset) (hm : s.scratch = []) : s.storageLegal := by
  simp [State.storageLegal, State.poolLegal, State.scratchLegal, hp, hm, Pool.reset, memWf, memWfFrom]

theorem storageLegal_poolAcquire (e : Nat) {s : State} (hs : s.storageLegal) (hq : s.q.valid = true) :
    (poolAcquire e s).Ensures State.storageLegal := by
  obtain ⟨-, h⟩ | ⟨-, -, h⟩ | ⟨hsize, -, h⟩ := poolAcquire_cases e s <;> rw [h]
  · exact hs.congr rfl rfl rfl
  · exact hs.congr rfl rfl rfl
  · refine ⟨?_, memWf_freshScratch _ _, nofun⟩
    have hn : 1 ≤ s.freshN ∧ s.freshN ≤ Config.maxWorkers := by
      simp only [State.freshN, Config.maxWorkers]
      omega
    have hle : s.freshN * ((BitVec.ofNat 64 e).toNat + 1) ≤ s.freshN * (e + 1) :=
      Nat.mul_le_mul_left _ (Nat.succ_le_succ (Nat.mod_le _ _))
    have hmax : Config.sizeMax < 2 ^ 64 := by decide
    exact ⟨hq, hn.1, hn.2, (hle.trans hsize).trans_lt hmax⟩

theorem storageLegal_releaseThen {e : Nat} {s : State} (hs : s.storageLegal) (hq : s.q.valid = true) :
    (releaseThen s (poolAcquire e)).Ensures State.storageLegal :=
  of_releaseThen (fun _ => storageLegal_poolAcquire e hs hq)
    (fun _ => storageLegal_poolAcquire e (storageLegal_of_noPool rfl rfl) hq) fun _ => storageLegal_of_noPool rfl rfl

theorem storageLegal_setDepth (d : Nat) {s : State} (hs : s.storageLegal) (hq : s.q.valid = true) :
    (setDepth d s).Ensures State.storageLegal := by
  have hput : (s.putDepth d).storageLegal := hs.congr rfl rfl rfl
  obtain ⟨-, e⟩ | ⟨-, -, -, -, e⟩ | ⟨-, -, -, e⟩ := setDepth_cases d s <;> rw [e]
  · exact hput
  · exact hput
  · exact storageLegal_releaseThen hput hq

/-- A pool has a descriptor, so there is none while there is no descriptor (R40). -/
theorem State.storageLegal.noPool {s : State} (hs : s.storageLegal) (hq : s.q.valid = false) :
    s.pool = Pool.reset ∧ s.scratch = [] := by
  obtain ⟨hpool, -, hempty⟩ := hs
  cases hv : s.pool.valid with
  | false => exact ⟨by simpa [State.poolLegal, hv] using hpool, hempty hv⟩
  | true =>
    simp only [State.poolLegal, hv, if_true] at hpool
    exact absurd (hpool.1.symm.trans hq) (by decide)

theorem storageLegal_qAcquireBody {s : State} (hs : s.storageLegal) :
    (qAcquireBody s).Ensures State.storageLegal := by
  refine of_hazardCheck hs (iteInduction (fun _ => hs) fun _ => iteInduction (fun _ => hs) fun hq =>
    iteInduction (fun _ => hs) fun _ => ?_)
  dsimp only
  split
  · obtain ⟨hp, hm⟩ := hs.noPool (by simpa using hq)
    exact storageLegal_setDepth _ (storageLegal_of_noPool hp hm) rfl
  · exact hs

theorem State.storageLegal.write {s t : State} (hs : s.storageLegal) (hv : t.q.valid = s.q.valid)
    (hp : t.pool = s.pool) (hpv : s.pool.valid = true) (hm : memWf t.scratch = true) : t.storageLegal := by
  obtain ⟨hpool, -, -⟩ := hs
  refine ⟨by simpa only [State.poolLegal, hv, hp] using hpool, hm, fun h => ?_⟩
  exact absurd (hpv.symm.trans (hp ▸ h)) (by decide)

theorem storageLegal_mutating {i : Instr} (hi : isMutating i = true) {s : State} (hs : s.storageLegal) :
    (bodyOf i s).Ensures State.storageLegal := by
  cases i <;> try cases hi
  case qAcquire => exact storageLegal_qAcquireBody hs
  case qDestroy =>
    have hfree : s.freePool.dropDescriptor.storageLegal := storageLegal_of_noPool rfl rfl
    exact of_hazardCheck hs (iteInduction (fun _ => iteInduction (fun _ => hfree) fun _ => hfree) fun _ => hs)
  case qSetDepth => exact of_hazardCheck hs (of_needDescriptor hs fun hq => storageLegal_setDepth _ hs hq)
  case qSetFormat | qSetEndian =>
    exact iteInduction (fun _ => of_hazardCheck hs (of_needDescriptor hs fun hq =>
      storageLegal_setDepth _ (hs.congr rfl rfl rfl) hq)) fun _ => hs
  case qSetPad =>
    exact of_hazardCheck hs (of_needDescriptor hs fun hq => iteInduction (fun _ => hs) fun _ =>
      storageLegal_setDepth _ (hs.congr rfl rfl rfl) hq)
  case qSetScale =>
    refine of_hazardCheck hs (of_needDescriptor hs fun _ => ?_)
    split
    · exact hs.congr rfl rfl rfl
    · exact hs
  case qSetPolarity | qResetState => exact of_hazardCheck hs (of_needDescriptor hs fun _ => hs.congr rfl rfl rfl)
  case poolAcquire => exact of_hazardCheck hs (of_needDescriptor hs fun hq => storageLegal_releaseThen hs hq)
  case poolRelease =>
    have hfree : s.freePool.storageLegal := storageLegal_of_noPool rfl rfl
    exact of_hazardCheck hs (of_releaseThen (fun _ => hs) (fun _ => hfree) fun _ => hfree)

/-- The registers and memory that the descriptor-mutating commands write. -/
structure Setup where
  q : Descriptor
  img : ImageAttrs
  pool : Pool
  scratch : List Cell
  waccPixel : Vector Word 256
  waccBits : Vector (BitVec 6) 256

def State.setup (s : State) : Setup := ⟨s.q, s.img, s.pool, s.scratch, s.waccPixel, s.waccBits⟩

/-- No other command of the sequencer writes them. -/
theorem bodyOf_leaves_setup {i : Instr} (ha : agentOf i = .seq) (hi : isMutating i = false) (s : State) :
    (bodyOf i s).Leaves State.setup s := by
  obtain h | h | ⟨w, h⟩ | rfl | ⟨v, rfl⟩ := instr_kinds i
  · exact (bodyOf_leaves_butCodecs h s).field fun t => Setup.mk t.q t.img t.pool t.scratch t.waccPixel t.waccBits
  · cases hi.symm.trans h
  · cases ha.symm.trans h
  · rfl
  · rfl

theorem State.inScratch_valid {s : State} {b o : Nat} (h : s.inScratch b o = true) : s.pool.valid = true := by
  simp only [State.inScratch, Bool.and_eq_true] at h
  exact h.1.1

theorem storageLegal_worker {i : Instr} {w : BitVec 8} (ha : agentOf i = .worker w) {s : State}
    (hs : s.storageLegal) : (bodyOf i s).Ensures State.storageLegal := by
  have hrow : ∀ y, (s.tookRow y).storageLegal := fun _ => hs.congr rfl rfl rfl
  cases i <;> cases ha
  case qPack qt =>
    refine of_rowChecks (fun _ => hs) hrow fun _ _ _ hp _ _ => ?_
    obtain ⟨-, hm, -⟩ := id hs
    exact hs.write rfl rfl hp (memWf_scratchWrite _ _ _ _ hm)
  case qUnpack qt => exact of_rowChecks (fun _ => hs) hrow fun _ _ _ _ _ _ => hs.congr rfl rfl rfl

theorem storageLegal_invariant : HeldInvariant State.storageLegal where
  congr hs h := by
    obtain ⟨hq, -, hp, hm, -⟩ := Held.mk.inj h
    exact hs.congr (congrArg Descriptor.valid hq) hp hm
  reset := storageLegal_of_noPool rfl rfl
  scrWrite v hs hin := by
    obtain ⟨-, hm, -⟩ := id hs
    exact hs.write rfl rfl (State.inScratch_valid hin) (memWf_memWrite _ _ v hm)
  body i s hs := by
    cases ha : agentOf i with
    | worker w => exact storageLegal_worker ha hs
    | seq =>
      cases hi : isMutating i with
      | true => exact storageLegal_mutating hi hs
      | false =>
        obtain ⟨hq, -, hp, hm, -⟩ := Setup.mk.inj (bodyOf_leaves_setup ha hi s)
        exact hs.congr (congrArg Descriptor.valid hq) hp hm

/-- Settles O55: PoolAcquire gives a legal pool or leaves none, and only a pool's bytes are written. -/
theorem stepKeepsPoolAndScratchLegal : Obligations.StepKeepsPoolAndScratchLegal :=
  fun _ _ hp hm h => storageLegal_invariant.step ⟨hp, hm⟩ h

end Sys2Proof.Machine
end

section
/-! PROOFS. The depths a request gives (O37), and O56: every step keeps the descriptor legal. -/

namespace Sys2Proof.Machine

open Host

/-! ### Depths (R353) -/

/-- The machine's depth is the one the rule states (R353). -/
theorem depthOf_eq_depthFor (f : BitVec 2) (d : Nat) : BitVec.ofNat 7 (depthOf f d) = depthFor f d := by
  unfold depthOf depthFor
  split
  · split
    · rfl
    · split
      · rfl
      · split <;> rfl
  · simp only [Config.maxDepth]
    split
    · rw [show min (max d 1) 64 = 1 by omega]
      rfl
    · split
      · rw [show min (max d 1) 64 = 64 by omega]
        rfl
      · rw [show min (max d 1) 64 = d by omega]

theorem depthLegal_depthFor (f : BitVec 2) (d : Nat) : depthLegal f (depthFor f d) := by
  unfold depthLegal depthFor
  split
  · split
    · simp
    · split
      · simp
      · split <;> simp
  · split
    · decide
    · split
      · decide
      · rw [BitVec.toNat_ofNat, Nat.mod_eq_of_lt (by omega)]
        omega

/-- Settles O37: a float request snaps to one of four depths, any other is clamped to 1 .. 64. -/
theorem depthRequestsGiveLegalDepths : Obligations.DepthRequestsGiveLegalDepths :=
  ⟨depthLegal_depthFor, depthOf_eq_depthFor, by decide⟩

/-! ### Legal settings (R37, R39) -/

/-- A descriptor and latches that are legal but for the depth: what SetDepth needs to make them legal. -/
structure SettingsLegal (q : Descriptor) (img : ImageAttrs) : Prop where
  valid : q.valid = true
  format : q.format ≠ 3
  endian : q.endian ≠ 3
  minimum : isFinite q.minimum
  maximum : isFinite q.maximum
  pad : q.pad.toNat * img.channels.toNat < 2 ^ 64
  columns : 1 ≤ img.columns.toNat
  rows : 1 ≤ img.rows.toNat
  channels : 1 ≤ img.channels.toNat
  imgEndian : img.endian ≠ 3
  colorspace : img.colorspace ≠ 3

theorem SettingsLegal.legal {s : State} (h : SettingsLegal s.q s.img) (hd : depthLegal s.q.format s.q.depth) :
    s.descriptorLegal := by
  rw [State.descriptorLegal, if_pos h.valid]
  exact ⟨h.format, h.endian, hd, h.minimum, h.maximum, h.pad, h.columns, h.rows, h.channels, h.imgEndian, h.colorspace⟩

theorem State.descriptorLegal.settings {s : State} (h : s.descriptorLegal) (hv : s.q.valid = true) :
    SettingsLegal s.q s.img ∧ depthLegal s.q.format s.q.depth := by
  rw [State.descriptorLegal, if_pos hv] at h
  obtain ⟨h1, h2, hd, h3, h4, h5, h6, h7, h8, h9, h10⟩ := h
  exact ⟨⟨hv, h1, h2, h3, h4, h5, h6, h7, h8, h9, h10⟩, hd⟩

theorem State.descriptorLegal.congr {s t : State} (h : s.descriptorLegal) (hq : t.q = s.q) (hi : t.img = s.img) :
    t.descriptorLegal := by
  simpa only [State.descriptorLegal, hq, hi] using h

/-- The reset values are legal while there is no descriptor (R352). -/
theorem descriptorLegal_of_none {s : State} (hq : s.q = Descriptor.reset) (hi : s.img = ImageAttrs.reset) :
    s.descriptorLegal := by
  simp [State.descriptorLegal, hq, hi, Descriptor.reset]

theorem isFinite_zero : isFinite 0 := ⟨0, by decide +kernel⟩

/-! ### SetDepth -/

/-- Neither PoolAcquire nor a release of the pool is the descriptor's affair. -/
theorem descriptorLegal_releaseThen {s : State} (hs : s.descriptorLegal) (e : Nat) :
    (releaseThen s (poolAcquire e)).Ensures State.descriptorLegal := by
  have hpool : ∀ u : State, u.descriptorLegal → (poolAcquire e u).Ensures State.descriptorLegal := fun u hu => by
    obtain ⟨-, h⟩ | ⟨-, -, h⟩ | ⟨-, -, h⟩ := poolAcquire_cases e u <;> rw [h] <;> exact hu.congr rfl rfl
  exact of_releaseThen (fun _ => hpool s hs) (fun _ => hpool _ (hs.congr rfl rfl)) fun _ => hs.congr rfl rfl

/-- SetDepth gives a legal depth to settings that are legal (R353). -/
theorem descriptorLegal_setDepth (d : Nat) {s : State} (hs : SettingsLegal s.q s.img) :
    (setDepth d s).Ensures State.descriptorLegal := by
  have hput : (s.putDepth d).descriptorLegal := by
    have hd := depthLegal_depthFor s.q.format d
    rw [← depthOf_eq_depthFor] at hd
    exact SettingsLegal.legal (s := s.putDepth d) { hs with } hd
  obtain ⟨-, e⟩ | ⟨-, -, -, -, e⟩ | ⟨-, -, -, e⟩ := setDepth_cases d s <;> rw [e]
  · exact hput
  · exact hput
  · exact descriptorLegal_releaseThen hput _

/-! ### Q_ACQUIRE -/

/-- What SetScale writes of a descriptor (R351). -/
theorem setScale_eq (p : Params) (mn mx : DWord) (mnReal mxReal : Rat) (q : Descriptor) :
    ∃ minimum scale, setScale p mn mx mnReal mxReal q = { q with maximum := mx, minimum := minimum, scale := scale } ∧
      (minimum = 0 ∨ minimum = mn) := by
  unfold setScale
  split
  · exact ⟨_, _, rfl, .inl rfl⟩
  · split
    · exact ⟨_, _, rfl, .inl rfl⟩
    · exact ⟨_, _, rfl, .inr rfl⟩

theorem one_le_toNat {v : DWord} (h : v ≠ 0) : 1 ≤ v.toNat :=
  Nat.one_le_iff_ne_zero.2 fun e => h (BitVec.eq_of_toNat_eq e)

/-- What Q_ACQUIRE writes before SetDepth is legal but for the depth (R350). -/
theorem settingsLegal_acquire {p : Params} {q : Descriptor} {columns rows channels attr mn mx : DWord}
    {mnReal mxReal : Rat} (hattr : attrReserved attr = false) (hc : columns ≠ 0) (hr : rows ≠ 0) (hch : channels ≠ 0)
    (hmn : f64 mn = .real mnReal) (hmx : f64 mx = .real mxReal) :
    SettingsLegal (acquireQ p attr mn mx mnReal mxReal q) (acquireImg columns rows channels attr) := by
  simp only [attrReserved, Bool.or_eq_false_iff, beq_eq_false_iff_ne] at hattr
  obtain ⟨⟨⟨-, hendian⟩, hcolour⟩, hformat⟩ := hattr
  obtain ⟨minimum, scale, hscale, hmin⟩ := setScale_eq p mn mx mnReal mxReal
    { q with
      format := attrFormat attr, endian := 0, pack := attrPack attr, pad := 0, minIsWhite := false
      alphaType := attrAlphaType attr }
  rw [acquireQ, hscale]
  refine ⟨rfl, hformat, ?_, ?_, ⟨_, hmx⟩, ?_, one_le_toNat hc, one_le_toNat hr, one_le_toNat hch, hendian, hcolour⟩
  · exact (by decide : (0 : BitVec 2) ≠ 3)
  · obtain h | h := hmin
    · exact h ▸ isFinite_zero
    · exact h ▸ ⟨_, hmn⟩
  · simp

theorem descriptorLegal_qAcquireBody {s : State} (hs : s.descriptorLegal) :
    (qAcquireBody s).Ensures State.descriptorLegal := by
  refine of_hazardCheck hs (iteInduction (fun _ => hs) fun hattr => iteInduction (fun _ => hs) fun _ =>
    iteInduction (fun _ => hs) fun hzero => ?_)
  obtain ⟨hc, hr, hch⟩ : _ ∧ _ ∧ _ := by simpa only [not_or] using hzero
  dsimp only
  split
  · rename_i hmn hmx
    exact descriptorLegal_setDepth _ (settingsLegal_acquire (by simpa using hattr) hc hr hch hmn hmx)
  · exact hs

/-! ### Every command -/

theorem descriptorLegal_mutating {i : Instr} (hi : isMutating i = true) {s : State} (hs : s.descriptorLegal) :
    (bodyOf i s).Ensures State.descriptorLegal := by
  cases i <;> try cases hi
  case qAcquire => exact descriptorLegal_qAcquireBody hs
  case qDestroy =>
    have hnone : s.freePool.dropDescriptor.descriptorLegal := descriptorLegal_of_none rfl rfl
    exact of_hazardCheck hs (iteInduction (fun _ => iteInduction (fun _ => hnone) fun _ => hnone) fun _ => hs)
  case qSetDepth =>
    exact of_hazardCheck hs (of_needDescriptor hs fun hq => descriptorLegal_setDepth _ (hs.settings hq).1)
  case qSetFormat f =>
    refine iteInduction (fun hf => of_hazardCheck hs (of_needDescriptor hs fun hq => ?_)) fun _ => hs
    refine descriptorLegal_setDepth _ { (hs.settings hq).1 with format := ?_ }
    simpa [formatOk] using hf
  case qSetEndian e =>
    refine iteInduction (fun he => of_hazardCheck hs (of_needDescriptor hs fun hq => ?_)) fun _ => hs
    refine descriptorLegal_setDepth _ { (hs.settings hq).1 with endian := ?_ }
    simpa [endianOk] using he
  case qSetPad =>
    refine of_hazardCheck hs (of_needDescriptor hs fun hq => iteInduction (fun _ => hs) fun hpad => ?_)
    have hmax : Config.sizeMax + 1 = 2 ^ 64 := by decide
    exact descriptorLegal_setDepth _ { (hs.settings hq).1 with pad := by simpa using by omega }
  case qSetScale =>
    refine of_hazardCheck hs (of_needDescriptor hs fun hq => ?_)
    obtain ⟨hset, hd⟩ := hs.settings hq
    split
    · exact SettingsLegal.legal { hset with } hd
    · exact hs
  case qSetPolarity | qResetState =>
    refine of_hazardCheck hs (of_needDescriptor hs fun hq => ?_)
    obtain ⟨hset, hd⟩ := hs.settings hq
    exact SettingsLegal.legal { hset with } hd
  case poolAcquire => exact of_hazardCheck hs (of_needDescriptor hs fun _ => descriptorLegal_releaseThen hs _)
  case poolRelease =>
    have hfree : s.freePool.descriptorLegal := hs.congr rfl rfl
    exact of_hazardCheck hs (of_releaseThen (fun _ => hs) (fun _ => hfree) fun _ => hfree)

theorem descriptorLegal_invariant : HeldInvariant State.descriptorLegal where
  congr hs h := by
    obtain ⟨hq, himg, -⟩ := Held.mk.inj h
    exact hs.congr hq himg
  reset := descriptorLegal_of_none rfl rfl
  scrWrite _ hs _ := hs.congr rfl rfl
  body i s hs := by
    cases ha : agentOf i with
    | worker w =>
      have hrow := bodyOf_leaves_butRow ha s
      exact hs.congr (hrow.field State.q) (hrow.field State.img)
    | seq =>
      cases hi : isMutating i with
      | true => exact descriptorLegal_mutating hi hs
      | false =>
        obtain ⟨hq, himg, -⟩ := Setup.mk.inj (bodyOf_leaves_setup ha hi s)
        exact hs.congr hq himg

/-- Settles O56: Q_ACQUIRE checks what it writes and every setter checks its field, and SetDepth makes the depth legal. -/
theorem stepKeepsTheDescriptorLegal : Obligations.StepKeepsTheDescriptorLegal :=
  fun _ _ hs h => descriptorLegal_invariant.step hs h

end Sys2Proof.Machine
end

section
/-! PROOFS. O57: every step keeps the bit writer and the bit reader legal. -/

namespace Sys2Proof.Machine

open Host

/-! ### The writer (R41, R200, R206) -/

/-- A writer operation that keeps the writer legal. -/
def KeepsWriter (f : Writer → Writer) : Prop := ∀ {x : Writer}, x.bw.legal → (f x).bw.legal

theorem keepsWriter_putBit (v : Bool) : KeepsWriter (putBit v) := fun h => (putBit_appends v h).1

theorem keepsWriter_putCodeBits (code n : Nat) : KeepsWriter (putCodeBits code n) := fun h => (putBits_appends _ h).1

theorem legal_freshWriter (port : Port) : BitWriter.legal ⟨0, 0x80, port⟩ :=
  (BitWriter.legal_iff _).2 ⟨7, BitWriter.atBit_fresh port⟩

theorem keepsWriter_flushWriter : KeepsWriter flushWriter := by
  intro x h
  unfold flushWriter
  split
  · exact h
  · exact legal_freshWriter _

theorem keepsWriter_putRows (rows : List FaxRow) : KeepsWriter (putRows rows) := by
  intro x h
  induction rows generalizing x with
  | nil => exact h
  | cons e es ih => exact ih (keepsWriter_putCodeBits _ _ h)

theorem keepsWriter_emitRuns (runs : List (Colour × Nat)) : KeepsWriter (emitRuns runs) := by
  intro x h
  induction runs generalizing x with
  | nil => exact h
  | cons r rs ih => exact ih (keepsWriter_putRows _ h)

theorem keepsWriter_putEol : KeepsWriter putEol := keepsWriter_putCodeBits _ _

theorem keepsWriter_putEols (n : Nat) : KeepsWriter (putEols n) := by
  intro x h
  induction n generalizing x with
  | zero => exact h
  | succ n ih => exact ih (keepsWriter_putEol h)

/-- A row and the EOL after it (R262). -/
theorem keepsWriter_line (scan : List Bool) : KeepsWriter fun x => putEol (encodeRow scan x) :=
  fun h => keepsWriter_putEol (keepsWriter_emitRuns _ h)

/-! ### The reader (R42, R207, R209) -/

/-- The mask moves down one bit, or past the last (R207). -/
theorem legal_takeBit {x : Reader} (h : oneBit x.br.mask) : (takeBit x).2.br.legal := by
  obtain ⟨k, hk, hm⟩ := (oneBit_iff _).1 h
  rw [BitReader.legal, takeBit, hm]
  cases k with
  | zero => exact .inl twoPow_zero_shiftRight
  | succ k => exact .inr ((oneBit_iff _).2 ⟨k, by omega, twoPow_succ_shiftRight k (by omega)⟩)

theorem legal_getBit {x : Reader} (h : x.br.legal) : (getBit x).2.br.legal := by
  unfold getBit
  split
  · exact h
  · split
    · split
      · exact h
      · exact legal_takeBit (.inl rfl)
    · exact legal_takeBit (h.resolve_left ‹_›)

theorem legal_syncZeros (k : Nat) {x : Reader} (h : x.br.legal) : (syncZeros k x).2.br.legal := by
  induction k generalizing x with
  | zero => exact h
  | succ k ih =>
    have hget := legal_getBit h
    unfold syncZeros
    split
    · exact h
    · split <;> rename_i e <;> rw [e] at hget
      · exact hget
      · exact ih hget

theorem legal_syncOne (k : Nat) {x : Reader} (h : x.br.legal) : (syncOne k x).2.br.legal := by
  induction k generalizing x with
  | zero => exact h
  | succ k ih =>
    have hget := legal_getBit h
    unfold syncOne
    split <;> rename_i e <;> rw [e] at hget
    · exact hget
    · exact hget
    · exact ih hget

theorem legal_syncReader {x : Reader} (h : x.br.legal) : (syncReader x).2.br.legal := by
  have hzeros := legal_syncZeros (x.bitsLeft + 2) h
  unfold syncReader
  split <;> rename_i e <;> rw [e] at hzeros
  · exact hzeros
  · exact legal_syncOne _ hzeros

theorem resolveCode_rd (c : Nat) (e : FaxRow) (l : LineState) : (resolveCode c e l).rd = l.rd := by
  unfold resolveCode
  split <;> rfl

theorem legal_decodeLoop (c : Nat) (look : Colour → Nat → Nat → Option FaxRow) (k : Nat) {l : LineState}
    (h : l.rd.br.legal) : (decodeLoop c look k l).2.rd.br.legal := by
  induction k generalizing l with
  | zero => exact h
  | succ k ih =>
    have hget := legal_getBit h
    unfold decodeLoop
    split
    · exact legal_syncReader h
    · split <;> rename_i e <;> rw [e] at hget
      · exact hget
      · split
        · exact hget
        · dsimp only
          split
          · exact ih hget
          · split
            · exact legal_syncReader hget
            · split
              · exact ih hget
              · exact ih (by rw [resolveCode_rd]; exact hget)

/-! ### Both units -/

/-- What O57 keeps. -/
def State.bitsLegal (s : State) : Prop := s.bw.legal ∧ s.br.legal

theorem State.bitsLegal.congr {s t : State} (h : s.bitsLegal) (hw : t.bw = s.bw) (hr : t.br = s.br) :
    t.bitsLegal := by
  simpa only [State.bitsLegal, hw, hr] using h

theorem State.bitsLegal.runWriter {s : State} (h : s.bitsLegal) {f : Writer → Writer} (hf : KeepsWriter f) :
    (s.runWriter f).bitsLegal := by
  obtain ⟨hw, hr⟩ := h
  exact ⟨hf (x := ⟨s.bw, []⟩) hw, hr⟩

theorem State.bitsLegal.tookProgress {s : State} (h : s.bitsLegal) (tag : BitVec 8) (current total : Nat) :
    (s.tookProgress tag current total).bitsLegal := h.congr rfl rfl

theorem bitsLegal_buildHash {s : State} (h : s.bitsLegal) : (buildHash s).Ensures State.bitsLegal :=
  iteInduction (fun _ => h.congr rfl rfl) fun _ => h.congr rfl rfl

theorem bitsLegal_faxEncodeRows (c total k y n : Nat) {s : State} (h : s.bitsLegal) :
    (faxEncodeRows c total k y n s).Ensures State.bitsLegal := by
  induction k generalizing y n s with
  | zero =>
    exact State.bitsLegal.congr (h.runWriter fun hx => keepsWriter_flushWriter (keepsWriter_putEols _ hx)) rfl rfl
  | succ k ih =>
    simp only [faxEncodeRows]
    split
    · have hrow : State.bitsLegal ((s.tookRow y).scanRow y c) := h.congr rfl rfl
      have hline := hrow.runWriter (keepsWriter_line ((s.tookRow y).scanRow y c).faxScan)
      split
      · exact ih _ _ (State.bitsLegal.congr hline rfl rfl)
      · exact State.bitsLegal.congr ((hline.tookProgress 0x12 y total).runWriter keepsWriter_flushWriter) rfl rfl
    · exact h.congr rfl rfl

theorem ensures_dropScan {e : CmdEnd} (h : e.Ensures State.bitsLegal) :
    (e.mapState State.dropScan).Ensures State.bitsLegal := by
  rw [CmdEnd.Ensures, CmdEnd.mapState_state]
  exact State.bitsLegal.congr h rfl rfl

theorem bitsLegal_faxEncodeBody (port : Port) {s : State} (h : s.bitsLegal) :
    (faxEncodeBody port s).Ensures State.bitsLegal := by
  have hinit : State.bitsLegal ((s.tookAlloc .faxScan (s.argVal 0).toNat).initWriter port) :=
    ⟨legal_freshWriter port, h.2⟩
  refine iteInduction (fun _ => h) fun _ => iteInduction (fun _ => ensures_dropScan ?_) fun _ => h.congr rfl rfl
  exact bitsLegal_faxEncodeRows _ _ _ _ _ (hinit.runWriter keepsWriter_putEol)

theorem bitsLegal_faxDecodeRows (c total k y null : Nat) {s : State} (h : s.bitsLegal) :
    (faxDecodeRows c total k y null s).Ensures State.bitsLegal := by
  induction k generalizing y null s with
  | zero => exact h.congr rfl rfl
  | succ k ih =>
    have hline : State.bitsLegal (s.afterLine (decodeLine c s.look s.reader).2) := ⟨h.1, legal_decodeLoop c _ _ h.2⟩
    simp only [faxDecodeRows]
    split
    · exact h.congr rfl rfl
    · split
      · exact hline.congr rfl rfl
      · split
        · split
          · exact ih _ _ (hline.congr rfl rfl)
          · exact hline.congr rfl rfl
        · exact hline.congr rfl rfl

theorem bitsLegal_faxDecodePage (c m : Nat) {s : State} (h : s.bitsLegal) :
    (faxDecodePage c m s).Ensures State.bitsLegal := by
  have hsync : State.bitsLegal
      (State.setReader { s.initReader with res := ⟨0, 0, 0, 0⟩ } (syncReader ⟨⟨0, 0, false, 0⟩, s.ports.src⟩).2) :=
    ⟨h.1, legal_syncReader (.inl rfl)⟩
  exact iteInduction (fun _ => bitsLegal_faxDecodeRows _ _ _ _ _ hsync) fun _ => hsync

theorem bitsLegal_faxDecodeBody {s : State} (h : s.bitsLegal) : (faxDecodeBody s).Ensures State.bitsLegal := by
  refine iteInduction (fun _ => h) fun _ => ?_
  have hbuild := bitsLegal_buildHash h
  cases e : buildHash s with
  | normal t =>
    rw [e] at hbuild
    have halloc : (t.tookAlloc .faxScan (s.argVal 0).toNat).bitsLegal := State.bitsLegal.congr hbuild rfl rfl
    exact iteInduction (fun _ => ensures_dropScan (bitsLegal_faxDecodePage _ _ halloc)) fun _ => halloc
  | cancelled t => exact (e ▸ hbuild :)
  | raised k t => exact (e ▸ hbuild :)

theorem bitsLegal_codecOrQuery {i : Instr} (hi : isCodecOrQuery i = true) {s : State} (h : s.bitsLegal) :
    (bodyOf i s).Ensures State.bitsLegal := by
  have hsame : ∀ {t : State}, t.bw = s.bw → t.br = s.br → t.bitsLegal := fun hw hr => h.congr hw hr
  cases i
  case clrStatus | ctrlWrite | qPack | qUnpack => cases hi
  case qAcquire | qDestroy | qSetDepth | qSetFormat | qSetEndian | qSetPad | qSetScale | qSetPolarity | qResetState
    | poolAcquire | poolRelease => cases hi
  case nop | faxLookup => exact hsame rfl rfl
  case bwInit port => exact ⟨legal_freshWriter port, h.2⟩
  case bwPutBit v => exact h.runWriter (keepsWriter_putBit v)
  case bwPutCode => exact iteInduction (fun _ => h) fun _ => h.runWriter (keepsWriter_putCodeBits _ _)
  case bwFlush => exact h.runWriter keepsWriter_flushWriter
  case brInit => exact ⟨h.1, .inl rfl⟩
  case brGetBit => exact ⟨h.1, legal_getBit h.2⟩
  case brSync => exact ⟨h.1, legal_syncReader h.2⟩
  case faxBuildHash => exact bitsLegal_buildHash h
  case faxEncode port => exact bitsLegal_faxEncodeBody port h
  case faxDecode => exact bitsLegal_faxDecodeBody h
  case lzwEncode | packbitsEncode =>
    exact of_bufferChecks (fun _ => h) fun _ _ => iteInduction (fun _ => hsame rfl rfl) fun _ => hsame rfl rfl
  case qGetExtent =>
    exact of_useQType h fun _ => of_needDescriptor h fun _ =>
      iteInduction (fun _ => hsame rfl rfl) fun _ => hsame rfl rfl
  case qSetImageType => exact of_useQType h fun _ => of_needDescriptor h fun _ => hsame rfl rfl
  case qGetType | rsExport | rsImport => exact of_needDescriptor h fun _ => hsame rfl rfl
  case poolGet => exact iteInduction (fun _ => h) fun _ => hsame rfl rfl

theorem bitsLegal_invariant : HeldInvariant State.bitsLegal where
  congr hs h := by
    obtain ⟨-, -, -, -, hw, hr, -⟩ := Held.mk.inj h
    exact hs.congr hw hr
  reset := ⟨legal_freshWriter .raw, .inl rfl⟩
  scrWrite _ hs _ := hs.congr rfl rfl
  body i s hs := by
    obtain hc | hm | ⟨w, ha⟩ | rfl | ⟨v, rfl⟩ := instr_kinds i
    · exact bitsLegal_codecOrQuery hc hs
    · have hsetup := bodyOf_leaves_butSetup hm s
      exact hs.congr (hsetup.field State.bw) (hsetup.field State.br)
    · have hrow := bodyOf_leaves_butRow ha s
      exact hs.congr (hrow.field State.bw) (hrow.field State.br)
    · exact hs.congr rfl rfl
    · exact hs.congr rfl rfl

/-- Settles O57: every writer and reader operation keeps its unit legal, and no other command touches the two. -/
theorem stepKeepsTheBitUnitsLegal : Obligations.StepKeepsTheBitUnitsLegal :=
  fun _ _ hw hr h => bitsLegal_invariant.step ⟨hw, hr⟩ h

end Sys2Proof.Machine
end

section
/-! PROOFS. O59: every step keeps the fields that must be 0 at 0, and O60: the reset state meets every invariant. -/

namespace Sys2Proof.Machine

open Host

/-! ### CTRL and the accumulators (R34, R38, R410) -/

theorem State.quietLegal.congr {s t : State} (h : s.quietLegal) (hc : t.ctrl = s.ctrl)
    (hp : t.waccPixel = s.waccPixel) (hb : t.waccBits = s.waccBits) : t.quietLegal := by
  simpa only [State.quietLegal, hc, hp, hb] using h

theorem set_zero_of_zero {n m : Nat} {v : Vector (BitVec m) n} (h : v = Vector.replicate n 0) {i : Nat} (hi : i < n) :
    v.set i 0 = Vector.replicate n 0 := by
  subst h
  exact Vector.ext fun j hj => by simp

/-- A worker's command leaves its accumulators at 0, where they were (R410). -/
theorem State.quietLegal.clearWacc {s : State} (h : s.quietLegal) (w : BitVec 8) : (s.clearWacc w).quietLegal := by
  obtain ⟨hc, hp, hb⟩ := h
  exact ⟨hc, set_zero_of_zero hp w.isLt, set_zero_of_zero hb w.isLt⟩

theorem quietLegal_poolAcquire (e : Nat) {s : State} (hs : s.quietLegal) :
    (poolAcquire e s).Ensures State.quietLegal := by
  obtain ⟨-, h⟩ | ⟨-, -, h⟩ | ⟨-, -, h⟩ := poolAcquire_cases e s <;> rw [h] <;> exact hs.congr rfl rfl rfl

theorem quietLegal_releaseThen {k : State → CmdEnd} (hk : ∀ {s : State}, s.quietLegal → (k s).Ensures State.quietLegal)
    {s : State} (hs : s.quietLegal) : (releaseThen s k).Ensures State.quietLegal :=
  have hfree : s.freePool.quietLegal := hs.congr rfl rfl rfl
  of_releaseThen (fun _ => hk hs) (fun _ => hk hfree) fun _ => hfree

/-- ResetState clears every accumulator (R361). -/
theorem State.quietLegal.resetState {s : State} (hs : s.quietLegal) (q : Descriptor) :
    (State.resetState { s with q := q }).quietLegal := ⟨hs.1, rfl, rfl⟩

theorem quietLegal_setDepth (d : Nat) {s : State} (hs : s.quietLegal) :
    (setDepth d s).Ensures State.quietLegal := by
  have hput : (s.putDepth d).quietLegal := hs.resetState _
  obtain ⟨-, e⟩ | ⟨-, -, -, -, e⟩ | ⟨-, -, -, e⟩ := setDepth_cases d s <;> rw [e]
  · exact hput
  · exact hput
  · exact quietLegal_releaseThen (quietLegal_poolAcquire _) hput

theorem quietLegal_qAcquireBody {s : State} (hs : s.quietLegal) : (qAcquireBody s).Ensures State.quietLegal := by
  refine of_hazardCheck hs (iteInduction (fun _ => hs) fun _ => iteInduction (fun _ => hs) fun _ =>
    iteInduction (fun _ => hs) fun _ => ?_)
  dsimp only
  split
  · exact quietLegal_setDepth _ (hs.congr rfl rfl rfl)
  · exact hs

theorem quietLegal_mutating {i : Instr} (hi : isMutating i = true) {s : State} (hs : s.quietLegal) :
    (bodyOf i s).Ensures State.quietLegal := by
  have hq : ∀ q, State.quietLegal { s with q := q } := fun _ => hs.congr rfl rfl rfl
  cases i <;> try cases hi
  case qAcquire => exact quietLegal_qAcquireBody hs
  case qDestroy =>
    have hdrop : s.freePool.dropDescriptor.quietLegal := hs.congr rfl rfl rfl
    exact of_hazardCheck hs (iteInduction (fun _ => iteInduction (fun _ => hdrop) fun _ => hdrop) fun _ => hs)
  case qSetDepth => exact of_hazardCheck hs (of_needDescriptor hs fun _ => quietLegal_setDepth _ hs)
  case qSetFormat | qSetEndian =>
    exact iteInduction (fun _ => of_hazardCheck hs (of_needDescriptor hs fun _ => quietLegal_setDepth _ (hq _)))
      fun _ => hs
  case qSetPad =>
    exact of_hazardCheck hs (of_needDescriptor hs fun _ => iteInduction (fun _ => hs) fun _ =>
      quietLegal_setDepth _ (hq _))
  case qSetScale =>
    refine of_hazardCheck hs (of_needDescriptor hs fun _ => ?_)
    split
    · exact hs.resetState _
    · exact hs
  case qSetPolarity => exact of_hazardCheck hs (of_needDescriptor hs fun _ => hq _)
  case qResetState => exact of_hazardCheck hs (of_needDescriptor hs fun _ => hs.resetState s.q)
  case poolAcquire =>
    exact of_hazardCheck hs (of_needDescriptor hs fun _ => quietLegal_releaseThen (quietLegal_poolAcquire _) hs)
  case poolRelease => exact of_hazardCheck hs (quietLegal_releaseThen (k := .normal) (fun hs => hs) hs)

theorem quietLegal_worker {i : Instr} {w : BitVec 8} (ha : agentOf i = .worker w) {s : State} (hs : s.quietLegal) :
    (bodyOf i s).Ensures State.quietLegal := by
  have hrow : ∀ y, (s.tookRow y).quietLegal := fun _ => hs.congr rfl rfl rfl
  have hclear : ∀ {t : State}, t.ctrl = s.ctrl → t.waccPixel = (s.clearWacc w).waccPixel →
      t.waccBits = (s.clearWacc w).waccBits → (t.clearWacc w).quietLegal := fun hc hp hb =>
    State.quietLegal.clearWacc ((hs.clearWacc w).congr hc hp hb) w
  cases i <;> cases ha
  case qPack | qUnpack => exact of_rowChecks (fun _ => hs) hrow fun _ _ _ _ _ _ => hclear rfl rfl rfl

theorem quietLegal_reset : State.reset.quietLegal := ⟨by decide, rfl, rfl⟩

theorem quietLegal_invariant : HeldInvariant State.quietLegal where
  congr hs h := by
    obtain ⟨-, -, -, -, -, -, hc, hp, hb⟩ := Held.mk.inj h
    exact hs.congr hc hp hb
  reset := quietLegal_reset
  scrWrite _ hs _ := hs.congr rfl rfl rfl
  body i s hs := by
    obtain hc | hm | ⟨w, ha⟩ | rfl | ⟨v, rfl⟩ := instr_kinds i
    · have hcodec := bodyOf_leaves_butCodecs hc s
      exact hs.congr (hcodec.field State.ctrl) (hcodec.field State.waccPixel) (hcodec.field State.waccBits)
    · exact quietLegal_mutating hm hs
    · exact quietLegal_worker ha hs
    · exact hs.congr rfl rfl rfl
    · exact ⟨by simpa [CmdEnd.state, bodyOf] using by omega, hs.2⟩

/-! ### The error fields (R32, R33) -/

/-- The error fields that the registers hold now: O59's part that reports do not change. -/
def State.errNow (s : State) : Prop := s.status.errFieldsLegal ∧ ∀ w, (s.wstat w).errFieldsLegal

/-- The error fields of STATUS, and every WSTATUS[w]. -/
def State.errView (s : State) : (Bool × BitVec 4 × BitVec 8) × Vector WStatus 256 :=
  ((s.status.err, s.status.errKind, s.status.errOp), s.wstatus)

theorem State.errNow.congr {s t : State} (h : s.errNow) (hv : t.errView = s.errView) : t.errNow := by
  simp only [State.errView, Prod.mk.injEq] at hv
  obtain ⟨⟨he, hk, ho⟩, hw⟩ := hv
  simpa only [State.errNow, Status.errFieldsLegal, State.wstat, he, hk, ho, hw] using h

theorem State.errNow.setWstat {s : State} (h : s.errNow) (w : BitVec 8) {t : WStatus} (ht : t.errFieldsLegal) :
    (s.setWstat w t).errNow := by
  refine ⟨h.1, fun v => ?_⟩
  by_cases hv : v = w
  · rw [hv, State.wstat_setWstat]
    exact ht
  · rw [State.wstat_setWstat_other _ _ _ _ hv]
    exact h.2 v

/-- No pseudocode writes an error field: only the end of a command does. -/
theorem bodyOf_leaves_errView (i : Instr) (s : State) : (bodyOf i s).Leaves State.errView s := by
  by_cases hclr : i = .clrStatus
  · subst hclr; rfl
  · by_cases hctrl : ∃ v, i = .ctrlWrite v
    · obtain ⟨v, rfl⟩ := hctrl; rfl
    · exact bodyOf_leaves hclr (not_exists.1 hctrl) (fun _ => rfl) (fun _ => rfl) (fun _ _ => rfl) s

theorem errNow_beginCmd {s : State} (h : s.errNow) (a : Agent) : (s.beginCmd a).errNow := by
  cases a with
  | seq => exact ⟨fun _ => ⟨rfl, rfl⟩, h.2⟩
  | worker w => exact h.setWstat w fun _ => ⟨rfl, rfl⟩

theorem errNow_endCmd {s : State} (h : s.errNow) (a : Agent) : (s.endCmd a).errNow := by
  cases a with
  | seq => exact h.congr rfl
  | worker w => exact h.setWstat w (h.2 w)

theorem errNow_cancelCmd {s : State} (h : s.errNow) (a : Agent) : (s.cancelCmd a).errNow := by
  cases a with
  | seq => exact ⟨fun _ => ⟨rfl, rfl⟩, h.2⟩
  | worker w => exact h.setWstat w (h.2 w)

theorem errNow_raiseErr {s : State} (h : s.errNow) (a : Agent) (op : BitVec 8) (k : ErrKind) :
    (s.raiseErr a op k).errNow := by
  cases a with
  | seq => exact ⟨nofun, h.2⟩
  | worker w => exact (h.setWstat w (t := (s.wstat w).fail op k) nofun).congr rfl

theorem errNow_runCmd {a : Agent} {op : BitVec 8} {body : State → CmdEnd} {s t : State}
    (hb : ∀ s, (body s).Leaves State.errView s) (hs : s.errNow) (h : runCmd a op body s = .next t) : t.errNow := by
  have hbody : (body (s.beginCmd a)).state.errNow := (errNow_beginCmd hs a).congr (hb _)
  obtain ⟨u, hu, e⟩ | ⟨u, hu, e⟩ | ⟨k, u, hu, e⟩ := runCmd_cases a op body s
  all_goals
    obtain rfl : _ = t := Outcome.next.inj (e.symm.trans h)
    rw [hu] at hbody
  · exact errNow_endCmd hbody a
  · exact errNow_cancelCmd hbody a
  · exact errNow_raiseErr hbody a op k

theorem errNow_runWord {c : Word} {s t : State} (hs : s.errNow) (h : runWord c s = .next t) : t.errNow := by
  unfold runWord at h
  split at h
  · rename_i i _
    exact errNow_runCmd (bodyOf_leaves_errView i) hs (exec_eq i s ▸ h)
  · exact errNow_runCmd (body := .raised .illegalCommand) (fun _ => rfl) hs h

theorem errFieldsLegal_iff (s : State) :
    s.errFieldsLegal ↔ s.errNow ∧ (∀ f, s.seqFlight = some f → f.status.errFieldsLegal) ∧
      ∀ f ∈ s.wFlights, f.status.errFieldsLegal :=
  ⟨fun ⟨h1, h2, h3, h4⟩ => ⟨⟨h1, h2⟩, h3, h4⟩, fun ⟨⟨h1, h2⟩, h3, h4⟩ => ⟨h1, h2, h3, h4⟩⟩

theorem State.errFieldsLegal.congr {s t : State} (h : s.errFieldsLegal) (hv : t.errView = s.errView)
    (hseq : t.seqFlight = s.seqFlight) (hw : t.wFlights = s.wFlights) : t.errFieldsLegal := by
  obtain ⟨hnow, hf⟩ := (errFieldsLegal_iff s).1 h
  exact (errFieldsLegal_iff t).2 ⟨hnow.congr hv, hseq ▸ hw ▸ hf⟩

/-- A command in flight reports what its whole effect left in its agent's status, and that is legal (R613). -/
theorem errFieldsLegal_openWindow {a : Agent} {n : Nat} {i : Option Instr} {s t : State} (h : s.errFieldsLegal)
    (ht : t.errNow) (hseq : t.seqFlight = s.seqFlight) (hw : t.wFlights = s.wFlights) :
    (openWindow a n i s t).errFieldsLegal := by
  obtain ⟨hnow, hfs, hfw⟩ := (errFieldsLegal_iff s).1 h
  refine (errFieldsLegal_iff _).2 ?_
  unfold openWindow
  split
  · exact ⟨ht, hseq ▸ hfs, hw ▸ hfw⟩
  · cases a with
    | seq =>
      refine ⟨⟨fun _ => ⟨rfl, rfl⟩, ht.2⟩, fun f hf => ?_, hw ▸ hfw⟩
      cases hf
      exact ht.1
    | worker w =>
      have hbegin : (t.setWstat w (s.wstat w).begin).errNow := ht.setWstat w fun _ => ⟨rfl, rfl⟩
      refine ⟨⟨hnow.1, hbegin.2⟩, hseq ▸ hfs, fun f hf => ?_⟩
      obtain hf | rfl := List.mem_append.1 hf |>.imp_right List.mem_singleton.1
      · exact hfw f hf
      · exact ht.2 w

theorem errFieldsLegal_afterRst (s : State) (asserted : Bool) : (s.afterRst asserted).errFieldsLegal := by
  have hseq : (s.afterRst asserted).seqFlight = none := rfl
  have hw : (s.afterRst asserted).wFlights = [] := rfl
  refine ⟨fun _ => ⟨rfl, rfl⟩, fun w => ?_, by simp [hseq], by simp [hw]⟩
  have : (s.afterRst asserted).wstat w = WStatus.reset := by simp [State.afterRst, State.reset, State.wstat]
  rw [this]
  exact fun _ => ⟨rfl, rfl⟩

theorem errFieldsLegal_hostAct {a : HostAct} {s t : State} (hs : s.errFieldsLegal) (h : hostAct a s = .next t) :
    t.errFieldsLegal := by
  obtain ⟨c, hc⟩ | ⟨asserted, rfl⟩ | ⟨arg, ports, host, seen, scratch, rfl, -⟩ := hostAct_writes h
  · obtain ⟨-, e⟩ | ⟨-, u, hu, e⟩ | ⟨-, _, -, e⟩ | ⟨-, _, -, e⟩ := issue_cases c s <;> cases e.symm.trans hc
    · exact hs.congr rfl rfl rfl
    · have hs' : s.tookLatency.errFieldsLegal := hs.congr rfl rfl rfl
      obtain ⟨⟨hseq, hw, -, -⟩, -⟩ := runWord_windows hu
      exact errFieldsLegal_openWindow hs' (errNow_runWord ((errFieldsLegal_iff _).1 hs').1 hu) hseq hw
  · obtain ⟨-, e⟩ | ⟨-, -, e⟩ := driveRst_cases s asserted <;> rw [e]
    · exact errFieldsLegal_afterRst s asserted
    · exact hs
  · exact hs.congr rfl rfl rfl

theorem errFieldsLegal_tickSeq {s : State} (hs : s.errFieldsLegal) : (tickSeq s).errFieldsLegal := by
  obtain ⟨hnow, hfs, hfw⟩ := (errFieldsLegal_iff s).1 hs
  obtain ⟨-, e⟩ | ⟨f, hf, -, e⟩ | ⟨f, hf, -, e⟩ := tickSeq_cases s <;> rw [e]
  · exact hs
  · exact (errFieldsLegal_iff _).2 ⟨⟨fun he => hfs f hf he, hnow.2⟩, by simp [deliverSeq], hfw⟩
  · refine (errFieldsLegal_iff _).2 ⟨hnow, fun g hg => ?_, hfw⟩
    cases hg
    exact hfs f hf

theorem errFieldsLegal_tickWorkers (fs : List WFlight) {s : State} (hs : s.errFieldsLegal)
    (hfs : ∀ f ∈ fs, f.status.errFieldsLegal) : (tickWorkers fs s).errFieldsLegal := by
  induction fs generalizing s with
  | nil => exact hs
  | cons f fs ih =>
    obtain ⟨hf, hfs⟩ := List.forall_mem_cons.1 hfs
    obtain ⟨hnow, hseq, hw⟩ := (errFieldsLegal_iff s).1 hs
    unfold tickWorkers
    split
    · exact ih ((errFieldsLegal_iff _).2 ⟨(hnow.setWstat f.worker hf).congr rfl, hseq, hw⟩) hfs
    · refine ih ((errFieldsLegal_iff _).2 ⟨hnow.congr rfl, hseq, fun g hg => ?_⟩) hfs
      obtain hg | rfl := List.mem_append.1 hg |>.imp_right List.mem_singleton.1
      · exact hw g hg
      · exact hf

/-- A state is legal without the workers' commands in flight too. -/
theorem State.errFieldsLegal.dropFlights {s : State} (hs : s.errFieldsLegal) :
    State.errFieldsLegal { s with wFlights := [] } := by
  obtain ⟨h, hw, hseq, -⟩ := hs
  exact ⟨h, hw, hseq, by simp⟩

theorem errFieldsLegal_tick {s : State} (hs : s.errFieldsLegal) : (tick s).errFieldsLegal := by
  obtain ⟨-, -, -, hw⟩ := id hs
  rw [tick]
  exact errFieldsLegal_tickWorkers s.wFlights (errFieldsLegal_tickSeq hs).dropFlights hw

/-- Settles O59: only the start and the end of a command write error fields, and a report holds what they wrote; only
CTRL_WRITE writes CTRL, and what writes the accumulators clears them. -/
theorem stepKeepsZeroFieldsZero : Obligations.StepKeepsZeroFieldsZero := fun _ _ he hq h =>
  ⟨step_keeps State.errFieldsLegal (fun _ _ hs => hs.congr rfl rfl rfl) (fun _ _ _ => errFieldsLegal_hostAct)
    (fun _ => errFieldsLegal_tick) he h, quietLegal_invariant.step hq h⟩

/-! ### Reset (R600, R601) -/

theorem afterRst_reset : State.reset.afterRst false = State.reset := by
  rw [State.afterRst, portsAfterRst_idle _ rfl rfl]
  rfl

/-- Settles O60: the reset state is the one every RST gives, which the step lemmas' cases of RST already speak of. -/
theorem resetMeetsEveryInvariant : Obligations.ResetMeetsEveryInvariant := by
  obtain ⟨hpool, hscratch⟩ := storageLegal_invariant.reset
  obtain ⟨hw, hr⟩ := bitsLegal_invariant.reset
  have hbusy := busyLegal_afterRst State.reset false
  have herr := errFieldsLegal_afterRst State.reset false
  rw [afterRst_reset] at hbusy herr
  exact ⟨hscratch, hpool, descriptorLegal_invariant.reset, hw, hr, hbusy, herr, quietLegal_reset, nofun, rfl⟩

end Sys2Proof.Machine
end

section
/-! PROOFS. The size of a packed row, and O45: the sequencer and the workers leave each other's registers alone. -/

namespace Sys2Proof.Machine

open Host

/-! ### The size of a packed row (R364, R404) -/

/-- The first byte of a bit stream and the bytes after it. -/
theorem bytesOfBits_cons (msb : Bool) (k : Nat) (b : Bool) (bs : List Bool) :
    bytesOfBits msb (k + 1) (b :: bs) =
      byteOfBits msb ((b :: bs).take 8) :: bytesOfBits msb k ((b :: bs).drop 8) := rfl

theorem bytesOfBits_length (msb : Bool) (k : Nat) (bs : List Bool) (h : bs.length ≤ k) :
    (bytesOfBits msb k bs).length = (bs.length + 7) / 8 := by
  induction k generalizing bs with
  | zero =>
    obtain rfl : bs = [] := List.length_eq_zero_iff.1 (by omega)
    rfl
  | succ k ih =>
    cases bs with
    | nil => rfl
    | cons b bs =>
      have hdrop : ((b :: bs).drop 8).length = bs.length + 1 - 8 := by simp
      rw [List.length_cons] at h ⊢
      rw [bytesOfBits_cons, List.length_cons, ih _ (by omega)]
      omega

theorem bytesLsb_length (n u : Nat) : (bytesLsb n u).length = n := by
  induction n generalizing u with
  | zero => rfl
  | succ n ih => simp [bytesLsb, ih]

theorem bitsLsb_length (n u : Nat) : (bitsLsb n u).length = n := by
  induction n generalizing u with
  | zero => rfl
  | succ n ih => simp [bitsLsb, ih]

@[simp] theorem sampleBytes_length (l : Layout) (u : Nat) : (sampleBytes l u).length = bytesOf l.depth := by
  unfold sampleBytes
  split <;> simp [bytesLsb_length]

@[simp] theorem sampleBits_length (l : Layout) (u : Nat) : (sampleBits l u).length = l.depth := by
  unfold sampleBits
  split <;> simp [bitsLsb_length]

/-- Pieces of one length put end to end. -/
theorem flatMap_length_const {α β : Type} {f : α → List β} {n : Nat} (xs : List α) (h : ∀ x ∈ xs, (f x).length = n) :
    (xs.flatMap f).length = xs.length * n := by
  rw [List.length_flatMap, List.map_congr_left h, List.map_const', List.sum_replicate, smul_eq_mul]

/-- A packed row of pixels of `ch` samples each (R404). -/
theorem packRow_length (l : Layout) {ch : Nat} {pixels : List (List Nat)} (h : ∀ us ∈ pixels, us.length = ch) :
    (packRow l pixels).length =
      if l.bitStream then (pixels.length * (ch * l.depth + 8 * l.pad) + 7) / 8
      else pixels.length * (ch * bytesOf l.depth + l.pad) := by
  unfold packRow
  split
  · rw [bytesOfBits_length _ _ _ le_rfl, flatMap_length_const (n := ch * l.depth + 8 * l.pad)]
    intro us hus
    rw [List.length_append, List.length_replicate, flatMap_length_const us fun u _ => sampleBits_length l u, h us hus]
  · rw [flatMap_length_const (n := ch * bytesOf l.depth + l.pad)]
    intro us hus
    rw [List.length_append, List.length_replicate, flatMap_length_const us fun u _ => sampleBytes_length l u, h us hus]

theorem channelOrder_length {img : ImageAttrs} {t : QType} {chs : List Channel} (h : channelOrder img t = some chs) :
    chs.length = channelCount img t := by
  cases t <;> cases h <;> simp [channelCount]

/-- A row in the descriptor's layout has the extent of R364. -/
theorem packRow_layoutOf_length (p : Params) (q : Descriptor) {img : ImageAttrs} {t : QType} {chs : List Channel}
    (hchs : channelOrder img t = some chs) {pixels : List (List Nat)} (hn : pixels.length = img.columns.toNat)
    (h : ∀ us ∈ pixels, us.length = chs.length) :
    (packRow (layoutOf p q img) pixels).length = extentOf q img t := by
  rw [packRow_length _ h, hn, channelOrder_length hchs]
  simp only [layoutOf, extentOf, Bool.and_eq_true, bne_iff_ne, ne_eq]
  generalize channelCount img t = ch, img.columns.toNat = c, q.depth.toNat = d, q.pad.toNat = pad
  cases q.pack with
  | false => simp only [Bool.false_eq_true, false_and, if_false]; ring
  | true =>
    simp only [true_and, if_true]
    split
    · rw [bytesOf, show c * (ch * d + 8 * pad) + 7 = ch * c * d + 7 + 8 * (pad * c) by ring,
        Nat.add_mul_div_left _ _ (by decide)]
    · obtain ⟨m, rfl⟩ : 8 ∣ d := Nat.dvd_of_mod_eq_zero (by omega)
      have h1 : bytesOf (8 * m) = m := by unfold bytesOf; omega
      have h2 : bytesOf (ch * c * (8 * m)) = ch * c * m := by
        rw [show ch * c * (8 * m) = 8 * (ch * c * m) by ring]
        unfold bytesOf
        omega
      rw [h1, h2]
      ring

theorem askPixel_length (p : Params) (y x : Nat) (chs : List Channel) (ports : Ports) :
    (askPixel p y x chs ports).1.length = chs.length := by
  induction chs generalizing ports with
  | nil => rfl
  | cons c cs ih => simp [askPixel, ih]

/-- A row asked for has its columns, and each pixel its samples (R420). -/
theorem askRow_lengths (p : Params) (y : Nat) (chs : List Channel) (n x : Nat) (ports : Ports) :
    (askRow p y chs n x ports).1.length = n ∧ ∀ vs ∈ (askRow p y chs n x ports).1, vs.length = chs.length := by
  induction n generalizing x ports with
  | zero => simp [askRow]
  | succ n ih =>
    obtain ⟨hn, hvs⟩ := ih (x + 1) (askPixel p y x chs ports).2
    simpa [askRow, hn, askPixel_length] using hvs

/-! ### Other agents' registers (R81, R96) -/

/-- What neither a worker's command nor the start or end of a command writes. -/
structure Units where
  res : Results
  ctrl : Word
  q : Descriptor
  img : ImageAttrs
  pool : Pool
  bw : BitWriter
  br : BitReader
  lzw : Lzw
  faxWhash : List (Nat × FaxRow)
  faxBhash : List (Nat × FaxRow)
  faxScan : List Bool
  pbBuf : List Byte

def State.units (s : State) : Units :=
  ⟨s.res, s.ctrl, s.q, s.img, s.pool, s.bw, s.br, s.lzw, s.faxWhash, s.faxBhash, s.faxScan, s.pbBuf⟩

theorem endsLeave_units (a : Agent) : EndsLeave a State.units := by
  cases a <;> exact ⟨fun _ => rfl, fun _ => rfl, fun _ => rfl, fun _ _ _ => rfl⟩

theorem endsLeave_scratchByte (a : Agent) (b o : Nat) : EndsLeave a (·.scratchByte b o) := by
  cases a <;> exact ⟨fun _ => rfl, fun _ => rfl, fun _ => rfl, fun _ _ _ => rfl⟩

/-- The report of worker `v`. -/
def State.workerRegs (v : BitVec 8) (s : State) : WStatus × DWord := (s.wstat v, s.wresOf v)

theorem endsLeave_workerRegs {w v : BitVec 8} (h : v ≠ w) : EndsLeave (.worker w) (State.workerRegs v) := by
  have hset : ∀ (s : State) t, State.workerRegs v (s.setWstat w t) = s.workerRegs v := fun s t =>
    Prod.ext (s.wstat_setWstat_other w v t h) rfl
  exact ⟨fun s => hset s _, fun s => hset s _, fun s => hset s _, fun s op k => hset s ((s.wstat w).fail op k)⟩

theorem workerRegs_butRow {w v : BitVec 8} (h : v ≠ w) (s : State) :
    State.workerRegs v (State.butRow w s) = s.workerRegs v :=
  Prod.ext rfl (s.wresOf_setWres_other w v 0 h)

theorem exec_worker_workerRegs {i : Instr} {w v : BitVec 8} {s t : State} (ha : agentOf i = .worker w) (hv : v ≠ w)
    (h : exec i s = .next t) : t.workerRegs v = s.workerRegs v := by
  refine runCmd_leaves (a := .worker w) (endsLeave_workerRegs hv) ?_ (ha ▸ exec_eq i s ▸ h)
  exact (workerRegs_butRow hv _).symm.trans
    (((bodyOf_leaves_butRow ha _).field (State.workerRegs v)).trans (workerRegs_butRow hv _))

/-- Q_PACK writes the extent of its row at the start of its worker's buffer, and no other byte (R420). -/
theorem packBody_scratchByte {w : BitVec 8} {s : State} {t : QType} {chs : List Channel}
    (hchs : channelOrder s.img t = some chs) (he : extentOf s.q s.img t ≤ s.pool.extent.toNat) (y : Nat) {b o : Nat}
    (ho : o < 2 ^ 64) (hb : ¬(b = w.toNat ∧ o < s.pool.extent.toNat)) :
    (packBody w y chs (extentOf s.q s.img t) s).Leaves (·.scratchByte b o) s := by
  obtain ⟨hn, hvs⟩ := askRow_lengths s.params y chs s.img.columns.toNat 0 s.ports
  refine memRead_scratchWrite_other _ _ _ _ _ ?_
  rw [packRow_layoutOf_length s.params s.q hchs (by simpa using hn)]
  · have := s.pool.extent.isLt
    simp only [scratchKey]
    omega
  · intro us hus
    obtain ⟨vs, hmem, rfl⟩ := List.mem_map.1 hus
    simp [pixelCodes, hvs vs hmem]

theorem bodyOf_worker_scratchByte {i : Instr} {w : BitVec 8} (ha : agentOf i = .worker w) (s : State) {b o : Nat}
    (ho : o < 2 ^ 64) (hb : ¬(b = w.toNat ∧ o < s.pool.extent.toNat)) :
    (bodyOf i s).Leaves (·.scratchByte b o) s := by
  cases i <;> cases ha
  case qPack qt =>
    exact of_rowChecks (fun _ => rfl) (fun _ => rfl) fun _ _ hchs _ he y =>
      packBody_scratchByte (s := s.tookRow _) hchs he y ho hb
  case qUnpack qt => exact of_rowChecks (fun _ => rfl) (fun _ => rfl) fun _ _ _ _ _ _ => rfl

theorem exec_worker_scratchByte {i : Instr} {w : BitVec 8} {s t : State} (ha : agentOf i = .worker w) {b o : Nat}
    (ho : o < 2 ^ 64) (hb : ¬(b = w.toNat ∧ o < s.pool.extent.toNat)) (h : exec i s = .next t) :
    t.scratchByte b o = s.scratchByte b o :=
  runCmd_leaves (endsLeave_scratchByte (.worker w) b o) (bodyOf_worker_scratchByte ha _ ho hb) (ha ▸ exec_eq i s ▸ h)

theorem exec_worker_units {i : Instr} {w : BitVec 8} {s t : State} (ha : agentOf i = .worker w)
    (h : exec i s = .next t) : t.units = s.units := by
  refine runCmd_leaves (endsLeave_units _) ?_ (exec_eq i s ▸ h)
  rw [CmdEnd.Leaves]
  exact (bodyOf_leaves_butRow ha _).field State.units

/-- A worker's command writes no more of STATUS than the sticky bits (R505 step 3). -/
theorem exec_worker_status {i : Instr} {w : BitVec 8} {s t : State} (ha : agentOf i = .worker w)
    (h : exec i s = .next t) : { t.status with stickyErr := s.status.stickyErr, haz := s.status.haz } = s.status := by
  obtain ⟨k, -, hk⟩ | ⟨-, hn⟩ := exec_worker_reported ha h
  · rw [(Prod.mk.inj hk).1]
    rfl
  · rw [(Prod.mk.inj hn).1]

/-- The workers' registers that a report fills. -/
def State.workersRegs (s : State) : Vector WStatus 256 × Vector DWord 256 := (s.wstatus, s.wres)

theorem bodyOf_seq_workersRegs {i : Instr} (ha : agentOf i = .seq) (s : State) :
    (bodyOf i s).Leaves State.workersRegs s := by
  by_cases hclr : i = .clrStatus
  · subst hclr; rfl
  · by_cases hctrl : ∃ v, i = .ctrlWrite v
    · obtain ⟨v, rfl⟩ := hctrl; rfl
    · exact bodyOf_leaves_seq ha hclr (not_exists.1 hctrl) (fun _ => rfl) (fun _ => rfl) s

theorem endsLeave_seq_workersRegs : EndsLeave .seq State.workersRegs :=
  ⟨fun _ => rfl, fun _ => rfl, fun _ => rfl, fun _ _ _ => rfl⟩

theorem exec_seq_workersRegs {i : Instr} {s t : State} (ha : agentOf i = .seq) (h : exec i s = .next t) :
    t.workersRegs = s.workersRegs :=
  runCmd_leaves endsLeave_seq_workersRegs (bodyOf_seq_workersRegs ha _) (ha ▸ exec_eq i s ▸ h)

theorem endsLeave_setup (a : Agent) : EndsLeave a State.setup := by
  cases a <;> exact ⟨fun _ => rfl, fun _ => rfl, fun _ => rfl, fun _ _ _ => rfl⟩

theorem exec_seq_setup {i : Instr} {s t : State} (ha : agentOf i = .seq) (hi : isMutating i = false)
    (h : exec i s = .next t) : t.setup = s.setup :=
  runCmd_leaves (endsLeave_setup _) (bodyOf_leaves_setup ha hi _) (exec_eq i s ▸ h)

/-- The descriptor-mutating commands by their opcodes (R611 case 1). -/
theorem opcode_of_isMutating {i : Instr} (h : isMutating i = true) :
    i.opcode.toNat ∈ [0x30, 0x31, 0x32, 0x33, 0x34, 0x35, 0x36, 0x37, 0x38, 0x40, 0x42] := by
  cases i <;> cases h <;> simp [Instr.opcode, encode]

/-- Settles O45: a worker's command writes its own registers and the bytes of its own row; a sequencer command writes no
worker's report, and only a mutating one the descriptor, the pool or the accumulators. -/
theorem agentsLeaveEachOtherAlone : Obligations.AgentsLeaveEachOtherAlone := by
  refine ⟨fun s t i w ha h => ?_, fun s t i ha h => ?_⟩
  · obtain ⟨hres, hctrl, hq, himg, hpool, hbw, hbr, hlzw, hwh, hbh, hscan, hbuf⟩ :=
      Units.mk.inj (exec_worker_units ha h)
    exact ⟨fun v hv => Prod.mk.inj (exec_worker_workerRegs ha hv h),
      fun b o ho hb => exec_worker_scratchByte ha ho hb h,
      hres, hctrl, hq, himg, hpool, hbw, hbr, hlzw, hwh, hbh, hscan, hbuf, exec_worker_status ha h⟩
  · obtain ⟨hws, hwr⟩ := Prod.mk.inj (exec_seq_workersRegs ha h)
    refine ⟨hws, hwr, fun hop => ?_⟩
    have hi : isMutating i = false := Bool.eq_false_iff.2 fun hm => hop (opcode_of_isMutating hm)
    exact Setup.mk.inj (exec_seq_setup ha hi h)

end Sys2Proof.Machine
end

section
/-! PROOFS. O50: an ARG register that a command's rule does not list has no part in the command. -/

namespace Sys2Proof.Machine

open Host

/-! ### The shared parts do not read ARG -/

/-- The pseudocode run with `v` in ARG[k] leaves what it leaves otherwise, but for that register. -/
def CmdEnd.withArg (k : Fin 8) (v : DWord) (e : CmdEnd) : CmdEnd := e.mapState fun t => t.setArg k v

section SetArg

variable {k : Fin 8} {v : DWord} {s : State}

theorem ite_withArg {p : Prop} [Decidable p] {e₁ e₂ e₁' e₂' : CmdEnd} (h₁ : e₁' = e₁.withArg k v)
    (h₂ : e₂' = e₂.withArg k v) : (if p then e₁' else e₂') = (if p then e₁ else e₂).withArg k v := by
  subst h₁ h₂
  split <;> rfl

theorem hazardCheck_setArg {e e' : CmdEnd} (h : e' = e.withArg k v) :
    hazardCheck (s.setArg k v) e' = (hazardCheck s e).withArg k v :=
  ite_withArg (p := s.anyWorkerBusy = true) rfl h

theorem needDescriptor_setArg {e e' : CmdEnd} (h : e' = e.withArg k v) :
    needDescriptor (s.setArg k v) e' = (needDescriptor s e).withArg k v :=
  ite_withArg (p := s.q.valid = true) h rfl

theorem useQType_setArg {qt : BitVec 4} {f f' : QType → CmdEnd} (h : ∀ t, f' t = (f t).withArg k v) :
    useQType qt (s.setArg k v) f' = (useQType qt s f).withArg k v := by
  unfold useQType
  split
  · exact h _
  · rfl

theorem releaseThen_setArg {f f' : State → CmdEnd} (h : ∀ u, f' (u.setArg k v) = (f u).withArg k v) :
    releaseThen (s.setArg k v) f' = (releaseThen s f).withArg k v :=
  ite_withArg (p := s.pool.valid = true) (ite_withArg (p := s.guardBad = true) rfl (h s.freePool)) (h s)

theorem poolAcquire_setArg (e : Nat) (s : State) :
    poolAcquire e (s.setArg k v) = (poolAcquire e s).withArg k v :=
  ite_withArg (p := Config.sizeMax < s.freshN * (e + 1)) rfl
    (ite_withArg (p := s.ports.tookThreads.nextAlloc = true) rfl rfl)

theorem setDepth_setArg (d : Nat) (s : State) : setDepth d (s.setArg k v) = (setDepth d s).withArg k v := by
  refine ite_withArg (p := Config.sizeMax < (s.putDepth d).poolRow) rfl
    (ite_withArg (p := Config.sizeMax < (s.putDepth d).poolExtent) rfl
      (ite_withArg (p := s.pool.valid = true ∧ (s.putDepth d).poolExtent ≤ s.pool.extent.toNat) rfl ?_))
  exact releaseThen_setArg (s := s.putDepth d) (poolAcquire_setArg _)

/-- The operands of the buffer encoders are ARG0 and ARG1 (R300, R330). -/
theorem bufferChecks_setArg {w : BitVec 8} {f f' : Nat → Nat → CmdEnd} (h0 : k ≠ 0) (h1 : k ≠ 1)
    (h : ∀ o n, f' o n = (f o n).withArg k v) :
    bufferChecks w (s.setArg k v) f' = (bufferChecks w s f).withArg k v := by
  unfold bufferChecks
  rw [State.argVal_setArg_other _ _ _ _ h0.symm, State.argVal_setArg_other _ _ _ _ h1.symm]
  exact ite_withArg (p := (s.wstat w).busy = true) rfl (ite_withArg (p := _ ∨ _) rfl (ite_withArg rfl (h _ _)))

/-- The operand of Q_PACK and Q_UNPACK is ARG0 (R420). -/
theorem rowChecks_setArg {w : BitVec 8} {qt : BitVec 4} {f : Nat → List Channel → Nat → State → CmdEnd} (h0 : k ≠ 0)
    (h : ∀ y chs e u, f y chs e (u.setArg k v) = (f y chs e u).withArg k v) :
    rowChecks w qt (s.setArg k v) f = (rowChecks w qt s f).withArg k v := by
  refine useQType_setArg fun t => ?_
  rw [State.argVal_setArg_other _ _ _ _ h0.symm]
  refine ite_withArg (p := _ ∨ _) rfl (ite_withArg (p := _ ∨ _) rfl ?_)
  dsimp only [State.setArg_img]
  split
  · rfl
  · exact ite_withArg (p := _ ∧ _) rfl (ite_withArg (p := s.img.rows.toNat ≤ _) rfl
      (ite_withArg (p := s.pool.extent.toNat < _) rfl
        (ite_withArg (p := s.ports.nextRow = true) (h _ _ _ (s.tookRow _)) rfl)))

/-! ### The long pseudocodes -/

theorem buildHash_setArg (s : State) : buildHash (s.setArg k v) = (buildHash s).withArg k v :=
  ite_withArg (p := s.ports.nextAlloc = true) rfl rfl

theorem mapState_dropScan_withArg (e : CmdEnd) :
    (e.withArg k v).mapState State.dropScan = (e.mapState State.dropScan).withArg k v := by
  cases e <;> rfl

theorem faxEncodeRows_setArg (c total j y n : Nat) (s : State) :
    faxEncodeRows c total j y n (s.setArg k v) = (faxEncodeRows c total j y n s).withArg k v := by
  induction j generalizing y n s with
  | zero => rfl
  | succ j ih =>
    refine ite_withArg (p := s.ports.nextRow = true) (ite_withArg ?_ rfl) rfl
    refine Eq.trans ?_ (ih _ _ _)
    rfl

theorem faxEncodeBody_setArg (port : Port) (h0 : k ≠ 0) (h1 : k ≠ 1) (s : State) :
    faxEncodeBody port (s.setArg k v) = (faxEncodeBody port s).withArg k v := by
  simp only [faxEncodeBody, State.argVal_setArg_other _ _ _ _ h0.symm, State.argVal_setArg_other _ _ _ _ h1.symm]
  refine ite_withArg (p := _ ∨ _) rfl ?_
  rw [State.setArg_ports]
  refine ite_withArg ?_ rfl
  refine Eq.trans ?_ (mapState_dropScan_withArg _)
  rw [← faxEncodeRows_setArg]
  rfl

theorem faxDecodeRows_setArg (c total j y null : Nat) (s : State) :
    faxDecodeRows c total j y null (s.setArg k v) = (faxDecodeRows c total j y null s).withArg k v := by
  induction j generalizing y null s with
  | zero => rfl
  | succ j ih =>
    refine ite_withArg (p := Config.faxNullLines ≤ null) rfl (ite_withArg rfl (ite_withArg (ite_withArg ?_ rfl) rfl))
    refine Eq.trans ?_ (ih _ _ _)
    rfl

theorem faxDecodePage_setArg (c m : Nat) (s : State) :
    faxDecodePage c m (s.setArg k v) = (faxDecodePage c m s).withArg k v := by
  refine ite_withArg ?_ rfl
  refine Eq.trans ?_ (faxDecodeRows_setArg _ _ _ _ _ _)
  rfl

theorem faxDecodeBody_setArg (h0 : k ≠ 0) (h1 : k ≠ 1) (s : State) :
    faxDecodeBody (s.setArg k v) = (faxDecodeBody s).withArg k v := by
  unfold faxDecodeBody
  rw [State.argVal_setArg_other _ _ _ _ h0.symm, State.argVal_setArg_other _ _ _ _ h1.symm, buildHash_setArg]
  refine ite_withArg (p := _ ∨ _) rfl ?_
  cases buildHash s with
  | normal t =>
    refine ite_withArg (p := t.ports.nextAlloc = true) ?_ rfl
    refine Eq.trans ?_ (mapState_dropScan_withArg _)
    rw [← faxDecodePage_setArg]
    rfl
  | cancelled t => rfl
  | raised e t => rfl

theorem lzwEncodeBody_setArg (w : BitVec 8) (port : Port) (h0 : k ≠ 0) (h1 : k ≠ 1) (s : State) :
    lzwEncodeBody w port (s.setArg k v) = (lzwEncodeBody w port s).withArg k v :=
  bufferChecks_setArg h0 h1 fun _ _ => ite_withArg (p := s.ports.nextAlloc = true) rfl rfl

theorem packbitsEncodeBody_setArg (w : BitVec 8) (port : Port) (h0 : k ≠ 0) (h1 : k ≠ 1) (s : State) :
    packbitsEncodeBody w port (s.setArg k v) = (packbitsEncodeBody w port s).withArg k v :=
  bufferChecks_setArg h0 h1 fun _ _ => ite_withArg (p := s.ports.nextAlloc = true) rfl rfl

theorem acquireWith_setArg (columns rows channels depth attr mn mx : DWord) (mnReal mxReal : Rat) (s : State) :
    acquireWith columns rows channels depth attr mn mx mnReal mxReal (s.setArg k v) =
      (acquireWith columns rows channels depth attr mn mx mnReal mxReal s).withArg k v := by
  rw [acquireWith, acquireWith, ← setDepth_setArg]
  rfl

/-- The operands of Q_ACQUIRE are ARG0 to ARG6 (R350). -/
theorem qAcquireBody_setArg (hk : ∀ j : Fin 8, j ≠ 7 → k ≠ j) (s : State) :
    qAcquireBody (s.setArg k v) = (qAcquireBody s).withArg k v := by
  have harg : ∀ j : Fin 8, j ≠ 7 → (s.setArg k v).argVal j = s.argVal j := fun j hj =>
    State.argVal_setArg_other _ _ _ _ (hk j hj).symm
  have hbound : ∀ (j : Fin 8) given dflt, j ≠ 7 →
      boundArg j given dflt (s.setArg k v) = boundArg j given dflt s := fun j given dflt hj => by
    unfold boundArg
    rw [harg j hj]
  simp only [qAcquireBody, harg 0 (by decide), harg 1 (by decide), harg 2 (by decide), harg 3 (by decide),
    harg 4 (by decide), hbound 5 _ _ (by decide), hbound 6 _ _ (by decide)]
  refine hazardCheck_setArg (ite_withArg rfl (ite_withArg (p := s.q.valid = true) rfl (ite_withArg rfl ?_)))
  generalize boundArg 5 _ _ s = mn, boundArg 6 _ _ s = mx
  cases f64 mn with
  | real mnReal =>
    cases f64 mx with
    | real mxReal => exact acquireWith_setArg _ _ _ _ _ _ _ _ _ s
    | inf _ | nan => rfl
  | inf _ | nan => rfl

theorem bodyOf_setArg {i : Instr} (hk : k ∉ operandsOf i) (s : State) :
    bodyOf i (s.setArg k v) = (bodyOf i s).withArg k v := by
  have harg : ∀ j ∈ operandsOf i, (s.setArg k v).argVal j = s.argVal j := fun j hj =>
    State.argVal_setArg_other _ _ _ _ fun e => hk (e ▸ hj)
  have hne : ∀ j ∈ operandsOf i, k ≠ j := fun j hj e => hk (e ▸ hj)
  cases i
  case nop | clrStatus | ctrlWrite | bwInit | bwPutBit | bwFlush | brInit | brGetBit | brSync => rfl
  case bwPutCode =>
    simp only [bodyOf, harg 0 (by simp [operandsOf])]
    exact ite_withArg rfl rfl
  case faxBuildHash => exact buildHash_setArg s
  case faxLookup =>
    simp only [bodyOf, harg 0 (by simp [operandsOf]), harg 1 (by simp [operandsOf])]
    rfl
  case faxEncode port =>
    exact faxEncodeBody_setArg port (hne 0 (by simp [operandsOf])) (hne 1 (by simp [operandsOf])) s
  case faxDecode => exact faxDecodeBody_setArg (hne 0 (by simp [operandsOf])) (hne 1 (by simp [operandsOf])) s
  case lzwEncode w port =>
    exact lzwEncodeBody_setArg w port (hne 0 (by simp [operandsOf])) (hne 1 (by simp [operandsOf])) s
  case packbitsEncode w port =>
    exact packbitsEncodeBody_setArg w port (hne 0 (by simp [operandsOf])) (hne 1 (by simp [operandsOf])) s
  case qAcquire => 
    refine qAcquireBody_setArg (fun j hj => hne j ?_) s
    revert j
    decide
  case qDestroy =>
    exact hazardCheck_setArg (ite_withArg (p := s.q.valid = true) (ite_withArg (p := s.guardBad = true) rfl rfl) rfl)
  case qSetDepth => exact hazardCheck_setArg (needDescriptor_setArg (setDepth_setArg _ s))
  case qSetFormat f =>
    exact ite_withArg (hazardCheck_setArg (needDescriptor_setArg
      (setDepth_setArg _ { s with q := { s.q with format := f } }))) rfl
  case qSetEndian e =>
    exact ite_withArg (hazardCheck_setArg (needDescriptor_setArg
      (setDepth_setArg _ { s with q := { s.q with endian := e } }))) rfl
  case qSetPad =>
    simp only [bodyOf, harg 0 (by simp [operandsOf])]
    exact hazardCheck_setArg (needDescriptor_setArg (ite_withArg (p := Config.sizeMax < _ * s.img.channels.toNat) rfl
      (setDepth_setArg _ { s with q := { s.q with pad := s.argVal 0 } })))
  case qSetScale =>
    simp only [bodyOf, harg 0 (by simp [operandsOf])]
    refine hazardCheck_setArg (needDescriptor_setArg ?_)
    cases f64 (s.argVal 0) <;> rfl
  case qSetPolarity | qResetState => exact hazardCheck_setArg (needDescriptor_setArg rfl)
  case qGetExtent =>
    exact useQType_setArg fun t => needDescriptor_setArg (ite_withArg (p := Config.sizeMax < extentOf s.q s.img t) rfl rfl)
  case qPack | qUnpack => exact rowChecks_setArg (hne 0 (by simp [operandsOf])) fun _ _ _ _ => rfl
  case qGetType => exact needDescriptor_setArg rfl
  case qSetImageType => exact useQType_setArg fun t => needDescriptor_setArg rfl
  case poolAcquire =>
    simp only [bodyOf, poolAcquireBody, harg 0 (by simp [operandsOf])]
    exact hazardCheck_setArg (needDescriptor_setArg (releaseThen_setArg (poolAcquire_setArg _)))
  case poolGet w => exact ite_withArg (p := s.pool.valid = false ∨ s.pool.n ≤ w.toNat) rfl rfl
  case poolRelease => exact hazardCheck_setArg (releaseThen_setArg fun _ => rfl)
  case rsExport | rsImport =>
    simp only [bodyOf, harg 0 (by simp [operandsOf])]
    exact needDescriptor_setArg rfl

/-! ### The start and the end of a command -/

theorem runCmd_setArg {a : Agent} {op : BitVec 8} {body : State → CmdEnd} {t : State}
    (hb : ∀ u : State, body (u.setArg k v) = (body u).withArg k v) (h : runCmd a op body s = .next t) :
    runCmd a op body (s.setArg k v) = .next (t.setArg k v) := by
  have hbegin : (s.setArg k v).beginCmd a = (s.beginCmd a).setArg k v := by cases a <;> rfl
  have hbody := hb (s.beginCmd a)
  obtain rfl := Outcome.next.inj h
  rw [runCmd, hbegin, hbody]
  cases body (s.beginCmd a) <;> cases a <;> rfl

end SetArg

/-- Settles O50: a command always has one of its ends, and no part of a pseudocode reads another ARG register than its
rule's operands. -/
theorem everyCommandCompletesAndReadsOnlyItsOperands : Obligations.EveryCommandCompletesAndReadsOnlyItsOperands := by
  refine ⟨fun s i => ⟨_, exec_eq i s⟩, fun s t i k v hk h => ?_⟩
  rw [exec_eq] at h ⊢
  exact runCmd_setArg (bodyOf_setArg hk) h

end Sys2Proof.Machine
end

section
/-! PROOFS. The register map and the host's accesses: O7, O9, O11. -/

namespace Sys2Proof.Machine

open Host

/-! ### One step, by the host's next action -/

/-- A step takes the host's next action, then ticks the windows (R133, R620). -/
theorem step_of_next {s t : State} {a : HostAct} {rest : List HostAct} (h : s.host = a :: rest)
    (ha : hostAct a { s with host := rest } = .next t) : step s = .next (tick t) := by
  rw [step, hostStep, h]
  simp only [ha]

theorem step_of_fault {s : State} {a : HostAct} {rest : List HostAct} {f : Fault} (h : s.host = a :: rest)
    (ha : hostAct a { s with host := rest } = .fault f) : step s = .fault f := by
  rw [step, hostStep, h]
  simp only [ha]

theorem step_of_refused {s : State} {a : HostAct} {rest : List HostAct} {r : Refusal} (h : s.host = a :: rest)
    (ha : hostAct a { s with host := rest } = .refused r) : step s = .refused r := by
  rw [step, hostStep, h]
  simp only [ha]

theorem step_of_idle {s : State} (h : s.host = []) : step s = .next (tick s) := by
  rw [step, hostStep, h]

/-! ### The register map (R86) -/

theorem regAt_arg (i : Fin 8) : regAt (0x40 + 8 * i.val) 64 = some (.arg i) := by
  revert i
  decide

theorem regAt_res (i : Fin 4) : regAt (0x80 + 8 * i.val) 64 = some (.res i) := by
  revert i
  decide

theorem regAt_wstatus (w : BitVec 8) : regAt (0x400 + 4 * w.toNat) 32 = some (.wstatus w) := by
  have hw : w.toNat < 256 := w.isLt
  have hidx : (0x400 + 4 * w.toNat - 0x400) / 4 = w.toNat := by omega
  unfold regAt
  rw [if_pos rfl, if_neg (by omega), if_neg (by omega), if_neg (by omega), if_pos (by omega), hidx, BitVec.ofNat_toNat,
    BitVec.setWidth_eq]

theorem regAt_wres (w : BitVec 8) : regAt (0x800 + 8 * w.toNat) 64 = some (.wres w) := by
  have hw : w.toNat < 256 := w.isLt
  have hidx : (0x800 + 8 * w.toNat - 0x800) / 8 = w.toNat := by omega
  unfold regAt
  rw [if_neg (by decide), if_pos rfl, if_neg (by omega), if_neg (by omega), if_pos (by omega), hidx,
    BitVec.ofNat_toNat, BitVec.setWidth_eq]

/-- A register is reached at its own offset and width only (R86). -/
theorem regAt_cases {offset width : Nat} {r : Reg} (h : regAt offset width = some r) :
    (r = .cmd ∧ width = 32 ∧ offset = 0) ∨
    (width = 32 ∧ (offset = 4 ∨ offset = 8 ∨ ∃ w < 256, offset = 0x400 + 4 * w) ∧ r ≠ .cmd ∧ ∀ i, r ≠ .arg i) ∨
    (width = 64 ∧ (∃ i < 8, offset = 0x40 + 8 * i) ∧ ∃ i, r = .arg i) ∨
    (width = 64 ∧ ((∃ i < 4, offset = 0x80 + 8 * i) ∨ ∃ w < 256, offset = 0x800 + 8 * w) ∧ r ≠ .cmd ∧
      ∀ i, r ≠ .arg i) := by
  unfold regAt at h
  split at h
  · rename_i hwidth
    refine if hcmd : offset = 0 then ?_ else ?_
    · rw [if_pos hcmd] at h
      exact .inl ⟨(Option.some.inj h).symm, hwidth, hcmd⟩
    · rw [if_neg hcmd] at h
      refine .inr (.inl ⟨hwidth, ?_⟩)
      split at h
      · cases h; exact ⟨.inl ‹_›, nofun, nofun⟩
      · split at h
        · cases h; exact ⟨.inr (.inl ‹_›), nofun, nofun⟩
        · split at h
          · cases h; exact ⟨.inr (.inr ⟨(offset - 0x400) / 4, by omega, by omega⟩), nofun, nofun⟩
          · cases h
  · split at h
    · rename_i hwidth
      split at h
      · cases h; exact .inr (.inr (.inl ⟨hwidth, ⟨(offset - 0x40) / 8, by omega, by omega⟩, _, rfl⟩))
      · refine .inr (.inr (.inr ⟨hwidth, ?_⟩))
        split at h
        · cases h; exact ⟨.inl ⟨(offset - 0x80) / 8, by omega, by omega⟩, nofun, nofun⟩
        · split at h
          · cases h; exact ⟨.inr ⟨(offset - 0x800) / 8, by omega, by omega⟩, nofun, nofun⟩
          · cases h
    · cases h

/-- A host read of a register gives its value (R86). -/
theorem hostRead_of_regAt {offset width : Nat} {s : State} {r : Reg} {v : DWord} (hr : regAt offset width = some r)
    (hv : s.readReg r = some v) (hrst : s.inReset = false) :
    hostRead offset width s = .next { s with seen := s.seen ++ [v] } := by
  simp [hostRead, hr, hv, hrst]

/-- A host read of a register is the host step of the windows but for the value the host has seen. -/
theorem step_read {s : State} {offset width : Nat} {rest : List HostAct} {r : Reg} {v : DWord}
    (h : s.host = .read offset width :: rest) (hrst : s.inReset = false) (hr : regAt offset width = some r)
    (hv : s.readReg r = some v) :
    step s = .next (tick { s with host := rest, seen := s.seen ++ [v] }) :=
  step_of_next h (hostRead_of_regAt (s := { s with host := rest }) hr hv hrst)

theorem step_writeArg {s : State} {i : Fin 8} {v : DWord} {rest : List HostAct}
    (h : s.host = .write (0x40 + 8 * i.val) 64 v :: rest) (hrst : s.inReset = false) :
    step s = .next (tick (State.setArg { s with host := rest } i v)) :=
  step_of_next h (by simp [hostAct, hostWrite, regAt_arg, hrst])

/-! ### The status words (R32, R33) -/

theorem Results.get_eq (r : Results) (i : Fin 4) : r.get i = [r.r0, r.r1, r.r2, r.r3].getD i.val 0 := by
  match i with
  | 0 | 1 | 2 | 3 => rfl

/-- The bits of STATUS' word, from its lowest field up. -/
theorem Status.word_getLsbD (t : Status) (i : Nat) :
    t.word.getLsbD i =
      if i < 1 then decide (i = 0) && t.busy else if i - 1 < 1 then decide (i - 1 = 0) && t.done
      else if i - 2 < 1 then decide (i - 2 = 0) && t.err else if i - 3 < 1 then decide (i - 3 = 0) && t.cancelled
      else if i - 4 < 4 then t.errKind.getLsbD (i - 4) else if i - 8 < 8 then t.errOp.getLsbD (i - 8)
      else if i - 16 < 1 then decide (i - 16 = 0) && t.stickyErr
      else if i - 17 < 1 then decide (i - 17 = 0) && t.haz else false := by
  have h : t.word.getLsbD i = BitVec.getLsbD (w := 14 + 1 + 1 + 8 + 4 + 1 + 1 + 1 + 1)
      ((0 : BitVec 14) ++ BitVec.ofBool t.haz ++ BitVec.ofBool t.stickyErr ++ t.errOp ++ t.errKind ++
        BitVec.ofBool t.cancelled ++ BitVec.ofBool t.err ++ BitVec.ofBool t.done ++ BitVec.ofBool t.busy) i := rfl
  rw [h]
  simp only [BitVec.getLsbD_append, Nat.sub_sub, BitVec.getLsbD_ofBool, BitVec.ofNat_eq_ofNat, BitVec.getLsbD_zero]

/-- The bits of WSTATUS' word, from its lowest field up. -/
theorem WStatus.word_getLsbD (t : WStatus) (i : Nat) :
    t.word.getLsbD i =
      if i < 1 then decide (i = 0) && t.busy else if i - 1 < 1 then decide (i - 1 = 0) && t.done
      else if i - 2 < 1 then decide (i - 2 = 0) && t.err else if i - 3 < 1 then false
      else if i - 4 < 4 then t.errKind.getLsbD (i - 4) else if i - 8 < 8 then t.errOp.getLsbD (i - 8) else false := by
  have h : t.word.getLsbD i = BitVec.getLsbD (w := 16 + 8 + 4 + 1 + 1 + 1 + 1)
      ((0 : BitVec 16) ++ t.errOp ++ t.errKind ++ (0 : BitVec 1) ++ BitVec.ofBool t.err ++ BitVec.ofBool t.done ++
        BitVec.ofBool t.busy) i := rfl
  rw [h]
  simp only [BitVec.getLsbD_append, Nat.sub_sub, BitVec.getLsbD_ofBool, BitVec.ofNat_eq_ofNat, BitVec.getLsbD_zero]

/-- A word whose bits from `n` up are 0. -/
theorem toNat_lt_of_getLsbD {m : Nat} {x : BitVec m} (n : Nat) (h : ∀ i ≥ n, x.getLsbD i = false) : x.toNat < 2 ^ n :=
  Nat.lt_pow_two_of_testBit _ h

theorem Status.word_errKind (t : Status) : t.word.extractLsb' 4 4 = t.errKind := by
  refine BitVec.eq_of_getLsbD_eq fun i hi => ?_
  rw [BitVec.getLsbD_extractLsb', decide_eq_true hi, Bool.true_and, Status.word_getLsbD, if_neg (by omega),
    if_neg (by omega), if_neg (by omega), if_neg (by omega), if_pos (by omega), Nat.add_sub_cancel_left]

theorem Status.word_errOp (t : Status) : t.word.extractLsb' 8 8 = t.errOp := by
  refine BitVec.eq_of_getLsbD_eq fun i hi => ?_
  rw [BitVec.getLsbD_extractLsb', decide_eq_true hi, Bool.true_and, Status.word_getLsbD, if_neg (by omega),
    if_neg (by omega), if_neg (by omega), if_neg (by omega), if_neg (by omega), if_pos (by omega),
    Nat.add_sub_cancel_left]

theorem WStatus.word_errKind (t : WStatus) : t.word.extractLsb' 4 4 = t.errKind := by
  refine BitVec.eq_of_getLsbD_eq fun i hi => ?_
  rw [BitVec.getLsbD_extractLsb', decide_eq_true hi, Bool.true_and, WStatus.word_getLsbD, if_neg (by omega),
    if_neg (by omega), if_neg (by omega), if_neg (by omega), if_pos (by omega), Nat.add_sub_cancel_left]

theorem WStatus.word_errOp (t : WStatus) : t.word.extractLsb' 8 8 = t.errOp := by
  refine BitVec.eq_of_getLsbD_eq fun i hi => ?_
  rw [BitVec.getLsbD_extractLsb', decide_eq_true hi, Bool.true_and, WStatus.word_getLsbD, if_neg (by omega),
    if_neg (by omega), if_neg (by omega), if_neg (by omega), if_neg (by omega), if_pos (by omega),
    Nat.add_sub_cancel_left]

theorem Status.word_fields (t : Status) :
    t.word.getLsbD 0 = t.busy ∧ t.word.getLsbD 1 = t.done ∧ t.word.getLsbD 2 = t.err ∧
    t.word.getLsbD 3 = t.cancelled ∧ t.word.extractLsb' 4 4 = t.errKind ∧ t.word.extractLsb' 8 8 = t.errOp ∧
    t.word.getLsbD 16 = t.stickyErr ∧ t.word.getLsbD 17 = t.haz ∧ t.word.toNat < 2 ^ 18 := by
  refine ⟨by rw [word_getLsbD]; rfl, by rw [word_getLsbD]; rfl, by rw [word_getLsbD]; rfl, by rw [word_getLsbD]; rfl,
    t.word_errKind, t.word_errOp, by rw [word_getLsbD]; rfl, by rw [word_getLsbD]; rfl,
    toNat_lt_of_getLsbD 18 fun i hi => ?_⟩
  rw [word_getLsbD, if_neg (by omega), if_neg (by omega), if_neg (by omega), if_neg (by omega), if_neg (by omega),
    if_neg (by omega), if_neg (by omega), if_neg (by omega)]

theorem WStatus.word_fields (t : WStatus) :
    t.word.getLsbD 0 = t.busy ∧ t.word.getLsbD 1 = t.done ∧ t.word.getLsbD 2 = t.err ∧ t.word.getLsbD 3 = false ∧
    t.word.extractLsb' 4 4 = t.errKind ∧ t.word.extractLsb' 8 8 = t.errOp ∧ t.word.toNat < 2 ^ 16 := by
  refine ⟨by rw [word_getLsbD]; rfl, by rw [word_getLsbD]; rfl, by rw [word_getLsbD]; rfl, by rw [word_getLsbD]; rfl,
    t.word_errKind, t.word_errOp, toNat_lt_of_getLsbD 16 fun i hi => ?_⟩
  rw [word_getLsbD, if_neg (by omega), if_neg (by omega), if_neg (by omega), if_neg (by omega), if_neg (by omega),
    if_neg (by omega)]

/-- Settles O9: every register is found at its offset, and a read gives its value. -/
theorem hostReadsRegistersByOffsetAndField : Obligations.HostReadsRegistersByOffsetAndField :=
  ⟨fun s _ hrst =>
    ⟨fun _ _ h => step_writeArg h hrst,
      fun h => step_read h hrst (r := .status) rfl rfl,
      fun h => step_read h hrst (r := .ctrl) rfl rfl,
      fun i h => step_read h hrst (regAt_arg i) rfl,
      fun i h => step_read h hrst (regAt_res i) (congrArg some (s.res.get_eq i)),
      fun w h => step_read h hrst (regAt_wstatus w) rfl,
      fun w h => step_read h hrst (regAt_wres w) rfl⟩,
    Status.word_fields, WStatus.word_fields⟩

/-! ### A CMD write (R121, R610, R620) -/

/-- A CMD write while RST is not asserted issues its word. -/
theorem hostAct_cmd {s : State} (c : Word) (hrst : s.inReset = false) :
    hostAct (.write 0 32 (c.setWidth 64)) s = issue c s := by
  have hreg : regAt 0 32 = some .cmd := rfl
  have hword : (c.setWidth 64).setWidth 32 = c := by
    rw [BitVec.setWidth_setWidth_of_le c (by decide), BitVec.setWidth_eq]
  simp only [hostAct, hostWrite, hreg, hrst, hword, Bool.false_eq_true, if_false]

/-- A word that decodes to a command of an idle agent runs the command and opens its window. -/
theorem issue_of_decode {s : State} {c : Word} {i : Instr} (hc : decode c = .ok i)
    (hidle : s.busy (agentOf i) = false) :
    issue c s =
      match exec i s.tookLatency with
      | .next t => .next (openWindow (agentOf i) s.nextLatency (some i) s.tookLatency t)
      | .fault f => .fault f
      | .refused r => .refused r := by
  have hrun : runWord c s.tookLatency = exec i s.tookLatency := by simp only [runWord, hc]
  have hdec : decoded c = some i := by simp only [decoded, hc]
  unfold issue
  rw [targetOf_of_decode hc, hidle, hrun, hdec]
  rfl

/-- Settles O7: an idle agent's command runs whole, and then every window moves one host step. -/
theorem stepRunsTheDecodedCommand : Obligations.StepRunsTheDecodedCommand := by
  refine ⟨fun s c i rest h hc hrst hidle => ?_, fun s t a rest => step_of_next, fun s => step_of_idle⟩
  have hact := (hostAct_cmd (s := { s with host := rest }) c hrst).trans (issue_of_decode hc hidle)
  cases he : exec i (State.tookLatency { s with host := rest }) with
  | next t => exact step_of_next h (by rw [hact, he]; rfl)
  | fault f => exact step_of_fault h (by rw [hact, he])
  | refused r => exact step_of_refused h (by rw [hact, he])

/-! ### Accesses without meaning, and races (R84, R86, R97) -/

theorem hostWrite_refused {offset width : Nat} (v : DWord) (s : State) (hcmd : ¬(width = 32 ∧ offset = 0))
    (harg : ¬(width = 64 ∧ ∃ i < 8, offset = 0x40 + 8 * i)) :
    hostWrite offset width v s = .refused (.hostRegister offset width) := by
  unfold hostWrite
  split
  · rename_i h
    obtain ⟨-, h⟩ | ⟨-, -, h, -⟩ | ⟨-, -, _, h⟩ | ⟨-, -, h, -⟩ := regAt_cases h
    · exact absurd h hcmd
    · exact absurd rfl h
    · cases h
    · exact absurd rfl h
  · rename_i i h
    obtain ⟨h, -⟩ | ⟨-, -, -, h⟩ | ⟨hw, ho, -⟩ | ⟨-, -, -, h⟩ := regAt_cases h
    · cases h
    · exact absurd rfl (h i)
    · exact absurd ⟨hw, ho⟩ harg
    · exact absurd rfl (h i)
  · rfl

theorem hostRead_refused {offset width : Nat} (s : State)
    (h32 : ¬(width = 32 ∧ (offset = 4 ∨ offset = 8 ∨ ∃ w < 256, offset = 0x400 + 4 * w)))
    (h64 : ¬(width = 64 ∧ ((∃ i < 8, offset = 0x40 + 8 * i) ∨ (∃ i < 4, offset = 0x80 + 8 * i) ∨
      ∃ w < 256, offset = 0x800 + 8 * w))) : hostRead offset width s = .refused (.hostRegister offset width) := by
  have hnone : (regAt offset width).bind s.readReg = none := by
    cases hr : regAt offset width with
    | none => rfl
    | some r =>
      obtain ⟨rfl, -⟩ | ⟨hw, ho, -⟩ | ⟨hw, ho, -⟩ | ⟨hw, ho, -⟩ := regAt_cases hr
      · rfl
      · exact absurd ⟨hw, ho⟩ h32
      · exact absurd ⟨hw, .inl ho⟩ h64
      · exact absurd ⟨hw, .inr ho⟩ h64
  simp only [hostRead, hnone]

theorem inScratch_eq_false {s : State} {b o : Nat}
    (h : s.pool.valid = false ∨ s.pool.n ≤ b ∨ s.pool.extent.toNat < o) : s.inScratch b o = false := by
  obtain h | h | h := h
  · simp [State.inScratch, h]
  · simp [State.inScratch, Nat.not_lt.2 h]
  · simp [State.inScratch, Nat.not_le.2 h]

theorem inScratch_eq_true {s : State} {b o : Nat} (hv : s.pool.valid = true) (hb : b < s.pool.n)
    (ho : o ≤ s.pool.extent.toNat) : s.inScratch b o = true := by
  simp [State.inScratch, hv, hb, ho]

theorem scratchAccess_refused {s k : State} {b o : Nat} (h : s.inScratch b o = false) :
    scratchAccess b o s k = .refused (.hostScratch b o) := by
  simp [scratchAccess, h]

theorem scratchAccess_race {s k : State} {b o : Nat} (h : s.inScratch b o = true) (hrst : s.inReset = false)
    (hrace : s.raced b = true) : scratchAccess b o s k = .fault (.scratchRace b) := by
  simp [scratchAccess, h, hrst, hrace]

/-- Settles O11: the register map and the scratch space's bounds decide which accesses have a step. -/
theorem hostAccessesWithoutMeaningDoNotStep : Obligations.HostAccessesWithoutMeaningDoNotStep := by
  refine fun s rest => ⟨fun b o v h hout => ?_, fun b o v h hrst hv hb ho hrace => ?_, fun offset width v h hc ha => ?_,
    fun offset width h h32 h64 => ?_⟩
  · have hin : State.inScratch { s with host := rest } b o = false := inScratch_eq_false hout
    obtain h | h := h
    · exact step_of_refused h (scratchAccess_refused hin)
    · exact step_of_refused h (scratchAccess_refused hin)
  · have hin : State.inScratch { s with host := rest } b o = true := inScratch_eq_true hv hb ho
    obtain h | h := h
    · exact step_of_fault h (scratchAccess_race hin hrst hrace)
    · exact step_of_fault h (scratchAccess_race hin hrst hrace)
  · exact step_of_refused h (hostWrite_refused v _ hc ha)
  · exact step_of_refused h (hostRead_refused _ h32 h64)

end Sys2Proof.Machine
end

section
/-! PROOFS. The control commands and the single-sample commands (O12, O49), and reset (O13). -/

namespace Sys2Proof.Machine

open Host

/-! ### NOP, CLR_STATUS and CTRL_WRITE (R520 to R522) -/

theorem exec_nop (s : State) : exec .nop s = .next s.seqEnded := by
  rw [exec]; rfl

theorem exec_ctrlWrite (v : BitVec 2) (s : State) :
    exec (.ctrlWrite v) s = .next { s.seqEnded with ctrl := v.setWidth 32 } := by
  rw [exec]; rfl

/-- Settles O12: the three control commands write what their pseudocode says, and IRQ reads CTRL and the sticky bits. -/
theorem controlCommandsCompleteAndDriveIrq : Obligations.ControlCommandsCompleteAndDriveIrq := by
  refine ⟨fun s => ⟨exec_nop s, exec_clrStatus s, fun v => exec_ctrlWrite v s⟩, fun _ => rfl, fun s t h => ?_,
    fun s t v hv h => ?_, fun s op k => ?_⟩
  · obtain rfl := Outcome.next.inj ((exec_clrStatus s).symm.trans h)
    simp [State.irq]
  · obtain rfl := Outcome.next.inj ((exec_ctrlWrite v s).symm.trans h)
    simp only [State.irq, State.ie, BitVec.getLsbD_setWidth, hv, Bool.and_false, Bool.false_and]
  · simp [State.irq, State.ie, Status.raisedEnd]

/-! ### RS_EXPORT and RS_IMPORT (R430, R431) -/

/-- A sequencer command whose pseudocode ends normally. -/
theorem exec_seq_normal {i : Instr} {s t : State} (ha : agentOf i = .seq)
    (h : bodyOf i { s with status := s.status.begin } = .normal t) :
    exec i s = .next { t with status := t.status.finish } := by
  rw [exec_eq, ha, runCmd_seq, h]

/-- A query of the descriptor with its sample in RES0. -/
theorem exec_needDescriptor {i : Instr} {s : State} {r : DWord} (ha : agentOf i = .seq) (hq : s.q.valid = true)
    (hbody : ∀ u : State, u.q = s.q → u.params = s.params → u.arg = s.arg →
      bodyOf i u = needDescriptor u (.normal (u.setRes0 r))) :
    exec i s = .next { s.seqEnded with res := { s.res with r0 := r } } := by
  have h := hbody { s with status := s.status.begin } rfl rfl rfl
  rw [needDescriptor, if_pos hq] at h
  exact exec_seq_normal ha h

theorem exportSample_unsigned {p : Params} {q : Descriptor} {v : Rat} (hf : q.format = 0) (hr : p.range ≠ 0) :
    exportSample p q v =
      (min (max (v * ((2 ^ q.depth.toNat - 1 : Nat) : Rat) / p.range + 1 / 2).floor 0)
        ((2 ^ q.depth.toNat - 1 : Nat) : Int)).toNat := by
  simp [exportSample, exportUnsigned, hf, hr]

/-- Settles O49: both commands only look at the descriptor, the parameters and ARG0. -/
theorem singleSampleCommandsComplete : Obligations.SingleSampleCommandsComplete := by
  intro s invert hq
  refine ⟨exec_needDescriptor rfl hq fun u hu hp ha => ?_, exec_needDescriptor rfl hq fun u hu hp ha => ?_,
    fun hf hr => exportSample_unsigned hf hr⟩
  · simp [bodyOf, State.argVal, hu, hp, ha, invertSample]
  · simp [bodyOf, State.argVal, hu, hp, ha, invertSample]

/-! ### Reset (R600, R601) -/

@[simp] theorem reset_wstat (w : BitVec 8) : State.reset.wstat w = WStatus.reset := by
  simp [State.wstat, State.reset]

@[simp] theorem reset_wresOf (w : BitVec 8) : State.reset.wresOf w = 0 := by
  simp [State.wresOf, State.reset]

@[simp] theorem reset_argVal (i : Fin 8) : State.reset.argVal i = Config.argReset i := by
  simp [State.argVal, State.reset]

theorem qMask_toNat {n : Nat} (hn : n < 32) : (qMask n).toNat = 2 ^ n - 1 := by
  have h : 2 ^ n < 2 ^ 32 := Nat.pow_lt_pow_right (by decide) hn
  rw [qMask, BitVec.toNat_ofNat, Nat.mod_eq_of_lt (by omega)]

/-- What a reset makes of the ports: the answers to come and the Raise exchanges stay, what was sent may lose some of
the things sent, and the source still holds what it held (R600). -/
structure PortsAfterRst (p p' : Ports) : Prop where
  raised : p'.raised = p.raised
  rawOut : p'.rawOut.Sublist p.rawOut
  textOut : p'.textOut.Sublist p.textOut
  pixOut : p'.pixOut.Sublist p.pixOut
  requests : p'.requests.Sublist p.requests
  src : p.src <:+ p'.src
  allocs : p'.allocs = p.allocs
  rows : p'.rows = p.rows
  progress : p'.progress = p.progress
  threads : p'.threads = p.threads
  samples : p'.samples = p.samples
  latency : p'.latency = p.latency

theorem portsAfterRst_spec (s : State) : PortsAfterRst s.ports s.portsAfterRst := by
  unfold State.portsAfterRst
  split
  · exact ⟨rfl, .refl _, .refl _, .refl _, .refl _, List.suffix_refl _, rfl, rfl, rfl, rfl, rfl, rfl⟩
  · exact ⟨rfl, abandon_sublist _ _ _ _, abandon_sublist _ _ _ _, abandon_sublist _ _ _ _, abandon_sublist _ _ _ _,
      List.suffix_append _ _, rfl, rfl, rfl, rfl, rfl, rfl⟩

/-- A host step that asserts RST, or releases an asserted one, is the reset: no window is left to tick (R600). -/
theorem step_rst {s : State} {rest : List HostAct} {asserted : Bool} (h : s.host = .rst asserted :: rest)
    (hr : asserted = true ∨ s.inReset = true) :
    step s = .next (State.afterRst { s with host := rest } asserted) := by
  have hact : hostAct (.rst asserted) { s with host := rest } =
      .next (State.afterRst { s with host := rest } asserted) := by
    rw [hostAct, State.driveRst, if_pos hr]
  rw [step_of_next h hact, tick_idle _ rfl rfl]

theorem hostAct_write_inReset {s : State} (hr : s.inReset = true) {offset width : Nat} (v : DWord)
    (h : regAt offset width = some .cmd ∨ ∃ i, regAt offset width = some (.arg i)) :
    hostAct (.write offset width v) s = .next s := by
  obtain h | ⟨i, h⟩ := h <;> simp [hostAct, hostWrite, h, hr]

/-- Every register but CMD can be read (R30). -/
theorem readReg_isSome (s : State) {r : Reg} (h : r ≠ .cmd) : ∃ v, s.readReg r = some v := by
  cases r with
  | cmd => exact absurd rfl h
  | status | ctrl | arg | res | wstatus | wres => exact ⟨_, rfl⟩

theorem hostAct_read_inReset {s : State} (hr : s.inReset = true) {offset width : Nat} (h0 : offset ≠ 0)
    (h : (regAt offset width).isSome = true) : hostAct (.read offset width) s = .next s := by
  obtain ⟨r, hreg⟩ := Option.isSome_iff_exists.1 h
  have hcmd : r ≠ .cmd := by
    rintro rfl
    obtain ⟨-, -, h⟩ | ⟨-, -, h, -⟩ | ⟨-, -, _, h⟩ | ⟨-, -, h, -⟩ := regAt_cases hreg
    · exact h0 h
    · exact h rfl
    · cases h
    · exact h rfl
  obtain ⟨v, hv⟩ := readReg_isSome s hcmd
  simp [hostAct, hostRead, hreg, hv, hr]

/-- Settles O13: the reset state is written out, RST brings every state there, and it stops every exchange. -/
theorem resetLeavesTheStatedValuesAndRstRestoresThem : Obligations.ResetLeavesTheStatedValuesAndRstRestoresThem := by
  refine ⟨⟨by decide, fun w => by rw [reset_wstat]; decide, rfl, reset_wresOf, reset_argVal, rfl, rfl, rfl, rfl,
    by decide +kernel, by decide +kernel, fun n hn => qMask_toNat hn, rfl, rfl, rfl, rfl, rfl, rfl, rfl,
    fun _ => rfl, fun _ => rfl, rfl⟩, fun s rest asserted h hr => ⟨fun hseq hw => ?_, ?_⟩, fun s hr => ?_⟩
  · have hports : State.portsAfterRst { s with host := rest } = s.ports := portsAfterRst_idle _ hseq hw
    rw [step_rst h hr, State.afterRst, hports]
  · obtain ⟨h1, h2, h3, h4, h5, h6, h7, h8, h9, h10, h11, h12⟩ := portsAfterRst_spec { s with host := rest }
    exact ⟨_, step_rst h hr, h1, h2, h3, h4, h5, h6, h7, h8, h9, h10, h11, h12⟩
  · exact ⟨fun v => hostAct_write_inReset hr v (.inl rfl),
      fun i v => hostAct_write_inReset hr v (.inr ⟨i, regAt_arg i⟩),
      fun offset width h0 h => hostAct_read_inReset hr h0 h,
      fun b o v => ⟨by simp [hostAct, scratchAccess, hr], by simp [hostAct, scratchAccess, hr]⟩⟩

end Sys2Proof.Machine
end

section
/-! PROOFS. O16: GetBit takes the next bit of its input, or finds the end. -/

namespace Sys2Proof.Machine

open Host

/-- BR_ZRUN after one more bit, saturating (R207). -/
def zrunAfter (zrun : Word) (b : Bool) : Nat := if b then 0 else min (zrun.toNat + 1) (2 ^ 32 - 1)

theorem zrunAfter_eq (z : Word) (b : Bool) :
    (if b then 0 else if z = BitVec.allOnes 32 then z else z + 1 : Word).toNat = zrunAfter z b := by
  cases b with
  | true => rfl
  | false =>
    simp only [zrunAfter, Bool.false_eq_true, if_false]
    split
    · rename_i h
      rw [h]
      rfl
    · rename_i h
      have hne : z.toNat ≠ 2 ^ 32 - 1 := fun e => h (BitVec.eq_of_toNat_eq e)
      have hlt := z.isLt
      rw [BitVec.toNat_add, show (1 : Word).toNat = 1 from rfl, Nat.mod_eq_of_lt (by omega)]
      omega

theorem and_twoPow_ne_zero (b : Byte) {k : Nat} (hk : k < 8) : (b &&& BitVec.twoPow 8 k != 0) = b.getLsbD k := by
  rw [BitVec.and_twoPow]
  cases b.getLsbD k with
  | false => rfl
  | true => simpa using twoPow_ne_zero k hk

/-- A reader in the middle of a byte, its mask at bit `k`, still returns that bit and the ones below it. -/
theorem Reader.bits_of_mask {x : Reader} {k : Nat} (hk : k < 8) (hm : x.br.mask = BitVec.twoPow 8 k)
    (heof : x.br.eof = false) :
    x.bits = (byteBits x.br.byte).drop (7 - k) ++ x.src.flatMap byteBits := by
  have hne : x.br.mask ≠ 0 := hm ▸ twoPow_ne_zero k hk
  rw [Reader.bits, if_neg (by simp [heof]), if_neg hne, hm, log2_twoPow k hk]

theorem Reader.bits_of_mask_zero {x : Reader} (hm : x.br.mask = 0) (heof : x.br.eof = false) :
    x.bits = x.src.flatMap byteBits := by
  rw [Reader.bits, if_neg (by simp [heof]), if_pos hm, List.nil_append]

theorem drop_byteBits (b : Byte) {k : Nat} (hk : k < 8) :
    (byteBits b).drop (7 - k) = b.getLsbD k :: (byteBits b).drop (8 - k) := by
  have hi : 7 - k < (byteBits b).length := by rw [byteBits_length]; omega
  rw [List.drop_eq_getElem_cons hi, byteBits_getElem, show 7 - (7 - k) = k by omega, show 7 - k + 1 = 8 - k by omega]

/-- Taking a bit of the current byte takes the next bit of the input (R207). -/
theorem takeBit_spec {x : Reader} (hm : oneBit x.br.mask) (heof : x.br.eof = false) :
    x.bits = (takeBit x).1 :: (takeBit x).2.bits ∧ (takeBit x).2.br.eof = false ∧
    (takeBit x).2.br.zrun.toNat = zrunAfter x.br.zrun (takeBit x).1 := by
  obtain ⟨k, hk, hm⟩ := (oneBit_iff _).1 hm
  have hbit : (takeBit x).1 = x.br.byte.getLsbD k := by
    rw [takeBit, hm]
    exact and_twoPow_ne_zero _ hk
  have hrest : (takeBit x).2.bits = (byteBits x.br.byte).drop (8 - k) ++ x.src.flatMap byteBits := by
    cases k with
    | zero =>
      have hmask : (takeBit x).2.br.mask = 0 := by
        change x.br.mask >>> 1 = 0
        rw [hm, twoPow_zero_shiftRight]
      rw [Reader.bits_of_mask_zero hmask heof, List.drop_of_length_le (byteBits_length _).le, List.nil_append]
      rfl
    | succ k =>
      have hmask : (takeBit x).2.br.mask = BitVec.twoPow 8 k := by
        change x.br.mask >>> 1 = _
        rw [hm, twoPow_succ_shiftRight k (by omega)]
      rw [Reader.bits_of_mask (by omega) hmask heof, show 7 - k = 8 - (k + 1) by omega]
      rfl
  refine ⟨?_, heof, ?_⟩
  · rw [Reader.bits_of_mask hk hm heof, drop_byteBits _ hk, hrest, hbit, List.cons_append]
  · exact zrunAfter_eq _ _

/-- GetBit is at the end of its input, or takes the next bit (R207, R208). -/
theorem getBit_spec {x : Reader} (h : x.br.legal) :
    (x.bits = [] ∧ getBit x = (none, ⟨{ x.br with eof := true }, x.src⟩)) ∨
    ∃ b y, getBit x = (some b, y) ∧ x.bits = b :: y.bits ∧ y.br.eof = false ∧
      y.br.zrun.toNat = zrunAfter x.br.zrun b := by
  obtain ⟨⟨byte, mask, eof, zrun⟩, src⟩ := x
  cases eof with
  | true => exact .inl ⟨rfl, rfl⟩
  | false =>
    by_cases hm : mask = 0
    · subst hm
      cases src with
      | nil => exact .inl ⟨rfl, rfl⟩
      | cons r rest =>
        obtain ⟨hbits, heof, hz⟩ := takeBit_spec (x := ⟨⟨r, 0x80, false, zrun⟩, rest⟩) (.inl rfl) rfl
        refine .inr ⟨_, _, rfl, ?_, heof, hz⟩
        rw [← hbits, Reader.bits_of_mask_zero rfl rfl, Reader.bits_of_mask (k := 7) (by decide) rfl rfl]
        rfl
    · obtain ⟨hbits, heof, hz⟩ := takeBit_spec (x := ⟨⟨byte, mask, false, zrun⟩, src⟩) (h.resolve_left hm) rfl
      exact .inr ⟨_, _, by rw [getBit, if_neg (by simp), if_neg hm], hbits, heof, hz⟩

theorem exec_brGetBit (s : State) :
    exec .brGetBit s = .next { s.seqEnded with
      br := (getBit s.reader).2.br, ports := { s.ports with src := (getBit s.reader).2.src }
      res := { s.res with r0 := bitResult (getBit s.reader).1 } } := by
  rw [exec]; rfl

/-- Settles O16: BR_GET_BIT is GetBit of the block's reader, and its code of what came back. -/
theorem brGetBitReturnsTheNextBit : Obligations.BrGetBitReturnsTheNextBit := by
  intro s h
  have hlegal : (getBit s.reader).2.br.legal := legal_getBit (x := s.reader) h
  refine ⟨_, _, _, exec_brGetBit s, hlegal, ?_⟩
  obtain ⟨hbits, hget⟩ | ⟨b, y, hget, hbits, heof, hz⟩ := getBit_spec (x := s.reader) h
  · rw [hbits, hget]
    exact ⟨rfl, rfl, rfl⟩
  · rw [hbits, hget]
    refine ⟨?_, rfl, heof, hz⟩
    cases b <;> rfl

end Sys2Proof.Machine
end

section
/-! PROOFS. Bits as numbers and as bytes, and the LZW accumulator: OutCode and FlushAcc append a code's bits (R305). -/

namespace Sys2Proof.Machine

open Host

/-! ### Bits as a number -/

/-- The number whose binary digits are these bits, the first one highest. -/
def msbVal (bits : List Bool) : Nat := ofBitsLsb bits.reverse

theorem ofBitsLsb_append (as bs : List Bool) :
    ofBitsLsb (as ++ bs) = ofBitsLsb as + 2 ^ as.length * ofBitsLsb bs := by
  induction as with
  | nil => simp [ofBitsLsb]
  | cons a as ih =>
    rw [List.cons_append, ofBitsLsb, ofBitsLsb, ih, List.length_cons]
    ring

theorem ofBitsLsb_lt (bs : List Bool) : ofBitsLsb bs < 2 ^ bs.length := by
  induction bs with
  | nil => simp [ofBitsLsb]
  | cons b bs ih =>
    have hb : b.toNat ≤ 1 := Bool.toNat_le b
    rw [ofBitsLsb, List.length_cons, pow_succ]
    omega

theorem ofBitsLsb_inj {as bs : List Bool} (hlen : as.length = bs.length) (h : ofBitsLsb as = ofBitsLsb bs) :
    as = bs := by
  induction as generalizing bs with
  | nil => exact (List.length_eq_zero_iff.1 hlen.symm).symm
  | cons a as ih =>
    cases bs with
    | nil => cases hlen
    | cons b bs =>
      simp only [ofBitsLsb] at h
      have hhead : a = b := by cases a <;> cases b <;> simp at h ⊢ <;> omega
      subst hhead
      rw [ih (by simpa using hlen) (by omega)]

theorem msbVal_append (as bs : List Bool) : msbVal (as ++ bs) = msbVal as * 2 ^ bs.length + msbVal bs := by
  rw [msbVal, List.reverse_append, ofBitsLsb_append, List.length_reverse, ← msbVal, ← msbVal]
  ring

theorem msbVal_lt (bs : List Bool) : msbVal bs < 2 ^ bs.length := by
  simpa [msbVal] using ofBitsLsb_lt bs.reverse

theorem msbVal_inj {as bs : List Bool} (hlen : as.length = bs.length) (h : msbVal as = msbVal bs) : as = bs :=
  List.reverse_injective (ofBitsLsb_inj (by simpa using hlen) h)

theorem msbVal_codeBitsMsb (code n : Nat) : msbVal (codeBitsMsb code n) = code % 2 ^ n := by
  induction n with
  | zero => simp [codeBitsMsb, msbVal, ofBitsLsb, Nat.mod_one]
  | succ n ih =>
    have hone (b : Bool) : msbVal [b] = b.toNat := by simp [msbVal, ofBitsLsb]
    rw [codeBitsMsb, ← List.singleton_append, msbVal_append, ih, codeBitsMsb_length, hone, Nat.toNat_testBit,
      Nat.mod_pow_succ]
    ring

theorem msbVal_byteBits (b : Byte) : msbVal (byteBits b) = b.toNat := by
  rw [byteBits, msbVal_codeBitsMsb, Nat.mod_eq_of_lt b.isLt]

theorem msbVal_replicate_false (n : Nat) : msbVal (List.replicate n false) = 0 := by
  induction n with
  | zero => rfl
  | succ n ih => rw [List.replicate_succ, ← List.singleton_append, msbVal_append, ih]; simp [msbVal, ofBitsLsb]

/-- A byte by its bits. -/
theorem byteBits_eq {b : Byte} {bits : List Bool} (hlen : bits.length = 8) (h : b.toNat = msbVal bits) :
    byteBits b = bits :=
  msbVal_inj (by rw [byteBits_length, hlen]) (by rw [msbVal_byteBits, h])

/-! ### Bits as bytes (R206) -/

theorem byteOfBits_of_fill {b : Byte} {bits : List Bool}
    (h : byteBits b = bits ++ List.replicate (8 - bits.length) false) :
    byteOfBits true bits = b := by
  unfold byteOfBits
  rw [← h]
  change BitVec.ofNat 8 (msbVal (byteBits b)) = b
  rw [msbVal_byteBits, BitVec.ofNat_toNat, BitVec.setWidth_eq]

theorem bytesOfBits_nil (msb : Bool) (k : Nat) : bytesOfBits msb k [] = [] := by cases k <;> rfl

/-- Bytes whose bits are the given ones, filled up with fewer than eight 0 bits, are those bits as bytes. -/
theorem bytesOfBits_of_fill {out : List Byte} {bits : List Bool} {pad k : Nat} (hpad : pad < 8) (hk : bits.length ≤ k)
    (h : out.flatMap byteBits = bits ++ List.replicate pad false) : bytesOfBits true k bits = out := by
  induction out generalizing bits k with
  | nil =>
    obtain ⟨rfl, -⟩ := List.append_eq_nil_iff.1 h.symm
    exact bytesOfBits_nil true k
  | cons b out ih =>
    have hlen := congrArg List.length h
    rw [flatMap_byteBits_length, List.length_append, List.length_replicate, List.length_cons] at hlen
    rw [List.flatMap_cons] at h
    obtain ⟨x, xs, rfl⟩ := List.exists_cons_of_length_pos (l := bits) (by omega)
    obtain ⟨k, rfl⟩ : ∃ j, k = j + 1 := ⟨k - 1, by rw [List.length_cons] at hk; omega⟩
    rw [bytesOfBits_cons]
    generalize x :: xs = bits at *
    by_cases h8 : 8 ≤ bits.length
    · have hsplit : byteBits b ++ out.flatMap byteBits = bits.take 8 ++ (bits.drop 8 ++ List.replicate pad false) := by
        rw [← List.append_assoc, List.take_append_drop, h]
      obtain ⟨hhead, htail⟩ := List.append_inj hsplit (by simp [h8])
      rw [byteOfBits_of_fill (b := b) (by simp [h8, hhead]), ih (by simp; omega) htail]
    · obtain rfl : out = [] := List.length_eq_zero_iff.1 (by omega)
      have hb : byteBits b = bits ++ List.replicate (8 - bits.length) false := by
        rw [show 8 - bits.length = pad by simp at hlen; omega]
        simpa using h
      rw [List.take_of_length_le (by omega), List.drop_of_length_le (by omega), byteOfBits_of_fill hb, bytesOfBits_nil]

theorem bitsToBytes_of_fill {out : List Byte} {bits : List Bool} {pad : Nat} (hpad : pad < 8)
    (h : out.flatMap byteBits = bits ++ List.replicate pad false) : bitsToBytes bits = out :=
  bytesOfBits_of_fill hpad le_rfl h

/-! ### The accumulator (R305) -/

/-- The run has sent and holds exactly these bits: whole bytes sent, the others at the top of LZW_ACC. -/
def LzwRun.Packs (x : LzwRun) (bits : List Bool) : Prop :=
  ∃ held : List Bool, bits = x.out.flatMap byteBits ++ held ∧ held.length = x.z.nbits ∧ x.z.nbits ≤ 32 ∧
    x.z.acc.toNat = msbVal held * 2 ^ (32 - x.z.nbits)

theorem extractLsb'_top (acc : Word) : (acc.extractLsb' 24 8).toNat = acc.toNat / 2 ^ 24 := by
  have h := acc.isLt
  rw [BitVec.extractLsb'_toNat, Nat.shiftRight_eq_div_pow, Nat.mod_eq_of_lt (by omega)]

/-- Sending the top byte of LZW_ACC. -/
theorem packs_sendByte {x : LzwRun} {bits : List Bool} (h : x.Packs bits) (h8 : 8 ≤ x.z.nbits) :
    LzwRun.Packs ⟨{ x.z with acc := x.z.acc <<< 8, nbits := x.z.nbits - 8 }, x.out ++ [x.z.acc.extractLsb' 24 8]⟩
      bits := by
  obtain ⟨held, rfl, hlen, h32, hacc⟩ := h
  have hsplit := msbVal_append (held.take 8) (held.drop 8)
  have hlt := msbVal_lt (held.drop 8)
  rw [List.take_append_drop, List.length_drop, hlen] at hsplit
  rw [List.length_drop, hlen] at hlt
  obtain ⟨m, hm⟩ : ∃ m, x.z.nbits = m + 8 := ⟨x.z.nbits - 8, by omega⟩
  rw [hm] at hacc hsplit hlt
  simp only [Nat.add_sub_cancel] at hsplit hlt
  have hpow : 2 ^ m * 2 ^ (32 - (m + 8)) = 2 ^ 24 := by rw [← pow_add]; congr 1; omega
  have hlow : msbVal (held.drop 8) * 2 ^ (32 - (m + 8)) < 2 ^ 24 :=
    hpow ▸ Nat.mul_lt_mul_of_pos_right hlt (Nat.two_pow_pos _)
  have hval : x.z.acc.toNat = msbVal (held.take 8) * 2 ^ 24 + msbVal (held.drop 8) * 2 ^ (32 - (m + 8)) := by
    rw [hacc, hsplit, ← hpow]
    ring
  refine ⟨held.drop 8, ?_, by rw [List.length_drop, hlen], by simp only; omega, ?_⟩
  · have hbyte : byteBits (x.z.acc.extractLsb' 24 8) = held.take 8 := by
      refine byteBits_eq (by simp [hlen]; omega) ?_
      rw [extractLsb'_top, hval]
      omega
    rw [List.flatMap_append, List.flatMap_singleton, hbyte, List.append_assoc, List.take_append_drop]
  · have hexp : 2 ^ (32 - (x.z.nbits - 8)) = 2 ^ (32 - (m + 8)) * 2 ^ 8 := by
      rw [← pow_add]; congr 1; omega
    simp only [BitVec.toNat_shiftLeft, Nat.shiftLeft_eq, hval, hexp]
    rw [Nat.add_mul, ← Nat.mul_assoc (msbVal (held.drop 8))]
    omega

/-- The `while` loop of OutCode sends whole bytes until fewer than eight bits are held, and touches only the
accumulator. -/
theorem lzwDrain_packs {k : Nat} {x : LzwRun} {bits : List Bool} (h : x.Packs bits) (hk : x.z.nbits ≤ k) :
    (lzwDrain k x).Packs bits ∧ (lzwDrain k x).z.nbits ≤ 7 := by
  induction k generalizing x with
  | zero => exact ⟨h, by rw [lzwDrain]; omega⟩
  | succ k ih =>
    rw [lzwDrain]
    split
    · exact ih (packs_sendByte h ‹_›) (by simp only; omega)
    · exact ⟨h, by omega⟩

/-- The run with another accumulator and other bytes sent. -/
def LzwRun.withAcc (x : LzwRun) (acc : Word) (nbits : Nat) (out : List Byte) : LzwRun :=
  ⟨{ x.z with acc := acc, nbits := nbits }, out⟩

theorem lzwDrain_withAcc (k : Nat) (x : LzwRun) : ∃ acc nbits out, lzwDrain k x = x.withAcc acc nbits out := by
  induction k generalizing x with
  | zero => exact ⟨_, _, _, rfl⟩
  | succ k ih =>
    rw [lzwDrain]
    split
    · obtain ⟨acc, nbits, out, e⟩ := ih ⟨{ x.z with acc := x.z.acc <<< 8, nbits := x.z.nbits - 8 }, _⟩
      exact ⟨acc, nbits, out, e⟩
    · exact ⟨_, _, _, rfl⟩

/-- OutCode touches only the accumulator. -/
theorem lzwOutCode_withAcc (code : Nat) (x : LzwRun) :
    ∃ acc nbits out, lzwOutCode code x = x.withAcc acc nbits out :=
  lzwDrain_withAcc _ _

/-- OutCode appends the code at the current width (R305). -/
theorem lzwOutCode_packs {code : Nat} {x : LzwRun} {bits : List Bool} (h : x.Packs bits) (h7 : x.z.nbits ≤ 7)
    (hw : x.z.width ≤ 12) (hcode : code < 2 ^ x.z.width) :
    (lzwOutCode code x).Packs (bits ++ codeBitsMsb code x.z.width) ∧ (lzwOutCode code x).z.nbits ≤ 7 := by
  obtain ⟨held, rfl, hlen, -, hacc⟩ := h
  refine lzwDrain_packs ⟨held ++ codeBitsMsb code x.z.width, by rw [List.append_assoc], ?_, ?_, ?_⟩ le_rfl
  · simp [hlen]
  · simp only; omega
  · have hval : msbVal (held ++ codeBitsMsb code x.z.width) = msbVal held * 2 ^ x.z.width + code := by
      rw [msbVal_append, codeBitsMsb_length, msbVal_codeBitsMsb, Nat.mod_eq_of_lt hcode]
    have hlt := msbVal_lt (held ++ codeBitsMsb code x.z.width)
    rw [List.length_append, codeBitsMsb_length, hlen] at hlt
    have hpow : 2 ^ (32 - x.z.nbits) = 2 ^ x.z.width * 2 ^ (32 - x.z.width - x.z.nbits) := by
      rw [← pow_add]; congr 1; omega
    have hfull : 2 ^ (x.z.nbits + x.z.width) * 2 ^ (32 - x.z.width - x.z.nbits) = 2 ^ 32 := by
      rw [← pow_add]; congr 1; omega
    have hsum : msbVal held * 2 ^ (32 - x.z.nbits) + code * 2 ^ (32 - x.z.width - x.z.nbits) =
        msbVal (held ++ codeBitsMsb code x.z.width) * 2 ^ (32 - x.z.width - x.z.nbits) := by
      rw [hval, hpow]
      ring
    have hbound : msbVal (held ++ codeBitsMsb code x.z.width) * 2 ^ (32 - x.z.width - x.z.nbits) < 2 ^ 32 :=
      hfull ▸ Nat.mul_lt_mul_of_pos_right hlt (Nat.two_pow_pos _)
    rw [show 32 - (x.z.nbits + x.z.width) = 32 - x.z.width - x.z.nbits by omega, ← hsum] at *
    rw [BitVec.toNat_add, BitVec.toNat_ofNat, Nat.shiftLeft_eq, hacc]
    omega

/-- FlushAcc fills the last byte with 0 bits: the run's bits as bytes (R305). -/
theorem lzwFlush_out {x : LzwRun} {bits : List Bool} (h : x.Packs bits) (h7 : x.z.nbits ≤ 7) :
    (lzwFlush x).out = bitsToBytes bits := by
  obtain ⟨held, rfl, hlen, -, hacc⟩ := h
  unfold lzwFlush
  split
  · refine (bitsToBytes_of_fill (pad := 8 - x.z.nbits) (by omega) ?_).symm
    have hpow : 2 ^ (32 - x.z.nbits) = 2 ^ (8 - x.z.nbits) * 2 ^ 24 := by rw [← pow_add]; congr 1; omega
    have hbyte : byteBits (x.z.acc.extractLsb' 24 8) = held ++ List.replicate (8 - x.z.nbits) false := by
      refine byteBits_eq (by simp [hlen]; omega) ?_
      rw [extractLsb'_top, hacc, msbVal_append, msbVal_replicate_false, List.length_replicate, hpow, ← Nat.mul_assoc,
        Nat.mul_div_cancel _ (Nat.two_pow_pos 24), Nat.add_zero]
    rw [List.flatMap_append, List.flatMap_singleton, hbyte, List.append_assoc]
  · obtain rfl : held = [] := List.length_eq_zero_iff.1 (by omega)
    exact (bitsToBytes_of_fill (pad := 0) (by decide) (by simp)).symm

end Sys2Proof.Machine
end

section
/-! PROOFS. The LZW dictionary: which entries InitTable and AddEntry write (R301, R303), which string each code in use
stands for, and that FindChild finds only extensions (R302). -/

namespace Sys2Proof.Machine

open Host

/-! ### The entries -/

theorem tabGet_map_range (f : Nat → LzwEntry) (n j : Nat) (h : j < n) (t : List (Nat × LzwEntry)) :
    tabGet ((List.range n).map (fun i => (i, f i)) ++ t) j = some (f j) := by
  induction n generalizing t with
  | zero => omega
  | succ n ih =>
    rw [List.range_succ, List.map_append, List.append_assoc]
    by_cases hj : j < n
    · exact ih hj _
    · obtain rfl : j = n := by omega
      have hnone (m : Nat) (hm : m ≤ j) (t : List (Nat × LzwEntry)) :
          tabGet ((List.range m).map (fun i => (i, f i)) ++ t) j = tabGet t j := by
        induction m generalizing t with
        | zero => rfl
        | succ m ihm =>
          rw [List.range_succ, List.map_append, List.append_assoc, ihm (by omega)]
          simp [tabGet, show m ≠ j by omega]
      rw [hnone j le_rfl]
      simp [tabGet]

/-- InitTable's roots (R301). -/
theorem get_lzwInitTable (z : Lzw) {j : Nat} (h : j < 256) :
    (lzwInitTable z).get j = ⟨none, BitVec.ofNat 8 j, none⟩ := by
  simp only [Lzw.get, lzwInitTable, lzwSeeds, tabGet_map_range _ _ _ h, Option.getD_some]

/-- AddEntry's new entry (R303). -/
theorem get_lzwAddEntry_new {z : Lzw} {q : Nat} (c : Byte) (h : q ≠ z.nextCode) :
    (lzwAddEntry z q c).get z.nextCode = ⟨some q, c, (z.get q).next⟩ := by
  simp [Lzw.get, lzwAddEntry, tabGet_tabSet_other _ _ _ _ h.symm]

/-- AddEntry links the new entry behind its parent (R303). -/
theorem get_lzwAddEntry_parent {z : Lzw} {q : Nat} (c : Byte) (h : q ≠ z.nextCode) :
    (lzwAddEntry z q c).get q = { z.get q with next := some z.nextCode } := by
  simp [Lzw.get, lzwAddEntry, tabGet_tabSet_other _ _ _ _ h]

theorem get_lzwAddEntry_other {z : Lzw} {q j : Nat} (c : Byte) (hq : j ≠ q) (hn : j ≠ z.nextCode) :
    (lzwAddEntry z q c).get j = z.get j := by
  simp [Lzw.get, lzwAddEntry, tabGet_tabSet_other _ _ _ _ hq, tabGet_tabSet_other _ _ _ _ hn]

/-! ### The codes in use and their strings -/

/-- A code that stands for a string: a byte, or an entry AddEntry has written since InitTable (R301). -/
def Lzw.InUse (z : Lzw) (j : Nat) : Prop := j < z.nextCode ∧ j ≠ lzwClear ∧ j ≠ lzwEnd

theorem inUse_iff {z : Lzw} {E : List (List Byte)} (h : z.nextCode = 258 + E.length) (j : Nat) :
    z.InUse j ↔ ∃ s, lzwString E j = some s := by
  unfold Lzw.InUse lzwString lzwClear lzwEnd lzwFirst
  split
  · simp; omega
  · split
    · simp; omega
    · rw [← Option.isSome_iff_exists]
      simp; omega

theorem lzwString_byte (E : List (List Byte)) (c : Byte) : lzwString E c.toNat = some [c] := by
  have h := c.isLt
  simp [lzwString, lzwClear, h]

theorem lzwString_entry (E : List (List Byte)) (i : Nat) : lzwString E (258 + i) = E[i]? := by
  simp [lzwString, lzwClear, lzwFirst, show ¬ 258 + i < 256 by omega]

theorem lzwString_append {E : List (List Byte)} {j : Nat} {s : List Byte} (t : List Byte) (h : lzwString E j = some s) :
    lzwString (E ++ [t]) j = some s := by
  unfold lzwString at h ⊢
  split
  · rwa [if_pos ‹_›] at h
  · rw [if_neg ‹_›] at h
    split
    · rwa [if_pos ‹_›] at h
    · rw [if_neg ‹_›] at h
      rw [List.getElem?_append_left (List.getElem?_eq_some_iff.1 h).1, h]

/-- The chained dictionary holds the strings `E` from code 258 on: each entry extends another code in use by its suffix,
and chains stay among the codes in use (R301, R303). -/
structure Lzw.Holds (z : Lzw) (E : List (List Byte)) : Prop where
  nextCode_eq : z.nextCode = 258 + E.length
  root : ∀ j < 256, (z.get j).pre = none
  node : ∀ i t, E[i]? = some t → ∃ q s, (z.get (258 + i)).pre = some q ∧ lzwString E q = some s ∧
    t = s ++ [(z.get (258 + i)).suffix]
  chain : ∀ j m, z.InUse j → (z.get j).next = some m → z.InUse m

theorem Lzw.Holds.inUse_iff {z : Lzw} {E : List (List Byte)} (h : z.Holds E) (j : Nat) :
    z.InUse j ↔ ∃ s, lzwString E j = some s :=
  Sys2Proof.Machine.inUse_iff h.nextCode_eq j

/-- After InitTable only the bytes are in use. -/
theorem holds_lzwInitTable (z : Lzw) : (lzwInitTable z).Holds [] where
  nextCode_eq := rfl
  root j h := by rw [get_lzwInitTable z h]
  node i t h := by simp at h
  chain j m hj h := by
    obtain ⟨hlt, hclear, hend⟩ := hj
    change j < 258 at hlt
    have hbyte : j < 256 := by simp only [lzwClear, lzwEnd] at hclear hend; omega
    rw [get_lzwInitTable z hbyte] at h
    cases h

/-- AddEntry(q, c) adds the string of `q` extended by `c`. -/
theorem Lzw.Holds.addEntry {z : Lzw} {E : List (List Byte)} {q : Nat} {s : List Byte} (h : z.Holds E)
    (hq : lzwString E q = some s) (c : Byte) : (lzwAddEntry z q c).Holds (E ++ [s ++ [c]]) := by
  have hnext : (lzwAddEntry z q c).nextCode = z.nextCode + 1 := rfl
  have hqUse : z.InUse q := (h.inUse_iff q).2 ⟨s, hq⟩
  have hqn : q ≠ z.nextCode := by have := hqUse.1; omega
  have hlink (j : Nat) (hj : j ≠ z.nextCode) :
      ((lzwAddEntry z q c).get j).pre = (z.get j).pre ∧ ((lzwAddEntry z q c).get j).suffix = (z.get j).suffix := by
    by_cases hjq : j = q
    · subst hjq; rw [get_lzwAddEntry_parent c hqn]; exact ⟨rfl, rfl⟩
    · rw [get_lzwAddEntry_other c hjq hj]; exact ⟨rfl, rfl⟩
  have hold {j : Nat} (hj : z.InUse j) : (lzwAddEntry z q c).InUse j := ⟨by have := hj.1; omega, hj.2⟩
  have hcode := h.nextCode_eq
  refine ⟨by simp [hnext, hcode, Nat.add_assoc], fun j hj => ?_, fun i t hi => ?_, fun j m hj hm => ?_⟩
  · rw [(hlink j (by omega)).1, h.root j hj]
  · by_cases hlt : i < E.length
    · rw [List.getElem?_append_left hlt] at hi
      obtain ⟨p, r, hpre, hr, ht⟩ := h.node i t hi
      obtain ⟨hpre', hsuffix⟩ := hlink (258 + i) (by omega)
      exact ⟨p, r, by rw [hpre', hpre], lzwString_append _ hr, by rw [hsuffix, ht]⟩
    · obtain rfl : i = E.length := by
        have := (List.getElem?_eq_some_iff.1 hi).1
        simp at this; omega
      obtain rfl : s ++ [c] = t := by simpa using hi
      rw [← hcode, get_lzwAddEntry_new c hqn]
      exact ⟨q, s, rfl, lzwString_append _ hq, rfl⟩
  · by_cases hjn : j = z.nextCode
    · rw [hjn, get_lzwAddEntry_new c hqn] at hm
      exact hold (h.chain q m hqUse hm)
    · have hjUse : z.InUse j := ⟨by have := hj.1; omega, hj.2⟩
      by_cases hjq : j = q
      · rw [hjq, get_lzwAddEntry_parent c hqn] at hm
        cases hm
        refine ⟨by omega, ?_, ?_⟩ <;> simp only [lzwClear, lzwEnd] <;> omega
      · rw [get_lzwAddEntry_other c hjq hjn] at hm
        exact hold (h.chain j m hjUse hm)

/-! ### FindChild (R302) -/

/-- What the walk finds is in use and extends the code asked for by the byte asked for. -/
theorem lzwWalk_sound {z : Lzw} {E : List (List Byte)} (h : z.Holds E) {q f : Nat} {c : Byte} {k : Nat}
    {start : Option Nat} (hstart : ∀ j, start = some j → z.InUse j) (hf : lzwWalk z q c k start = some f) :
    z.InUse f ∧ (z.get f).pre = some q ∧ (z.get f).suffix = c := by
  induction k generalizing start with
  | zero => cases hf
  | succ k ih =>
    cases start with
    | none => cases hf
    | some j =>
      have hj := hstart j rfl
      rw [lzwWalk] at hf
      split at hf
      · next hhit => cases hf; exact ⟨hj, hhit⟩
      · exact ih (fun m hm => h.chain j m hj hm) hf

/-- The code FindChild answers stands for the string extended by the byte. -/
theorem lzwString_of_lzwFindChild {z : Lzw} {E : List (List Byte)} (h : z.Holds E) {q f : Nat} {c : Byte}
    {s : List Byte} (hq : lzwString E q = some s) (hf : lzwFindChild z q c = some f) :
    lzwString E f = some (s ++ [c]) := by
  have hstart (j : Nat) (hj : some q = some j) : z.InUse j := by cases hj; exact (h.inUse_iff q).2 ⟨s, hq⟩
  obtain ⟨⟨hlt, hclear, hend⟩, hpre, hsuffix⟩ := lzwWalk_sound h hstart hf
  have hroot : ¬ f < 256 := fun hbyte => by simp [h.root f hbyte] at hpre
  obtain ⟨i, rfl⟩ : ∃ i, f = 258 + i :=
    ⟨f - 258, by simp only [lzwClear, lzwEnd] at hclear hend; omega⟩
  have hi : i < E.length := by have := h.nextCode_eq; omega
  obtain ⟨p, r, hp, hr, ht⟩ := h.node i E[i] (List.getElem?_eq_getElem hi)
  obtain rfl : p = q := Option.some_injective _ (hp.symm.trans hpre)
  obtain rfl : r = s := Option.some_injective _ (hr.symm.trans hq)
  rw [lzwString_entry, List.getElem?_eq_getElem hi, ht, hsuffix]

end Sys2Proof.Machine
end

section
/-! PROOFS. The LZW encoder's loop (R300, R303, R304, R305): O29, and the decoder that follows the stream (R308). -/

namespace Sys2Proof.Machine

open Host

/-! ### What OutCode and the width check leave alone -/

@[simp] theorem lzwOutCode_entry (code : Nat) (x : LzwRun) : (lzwOutCode code x).z.entry = x.z.entry := by
  obtain ⟨acc, nbits, out, e⟩ := lzwOutCode_withAcc code x
  rw [e]; rfl

@[simp] theorem lzwOutCode_nextCode (code : Nat) (x : LzwRun) : (lzwOutCode code x).z.nextCode = x.z.nextCode := by
  obtain ⟨acc, nbits, out, e⟩ := lzwOutCode_withAcc code x
  rw [e]; rfl

@[simp] theorem lzwOutCode_width (code : Nat) (x : LzwRun) : (lzwOutCode code x).z.width = x.z.width := by
  obtain ⟨acc, nbits, out, e⟩ := lzwOutCode_withAcc code x
  rw [e]; rfl

@[simp] theorem lzwOutCode_last (code : Nat) (x : LzwRun) : (lzwOutCode code x).z.last = x.z.last := by
  obtain ⟨acc, nbits, out, e⟩ := lzwOutCode_withAcc code x
  rw [e]; rfl

/-- The dictionary's contents depend on LZW_ENTRY and LZW_NEXT alone. -/
theorem Lzw.Holds.congr {z z' : Lzw} {E : List (List Byte)} (h : z.Holds E) (hentry : z'.entry = z.entry)
    (hnext : z'.nextCode = z.nextCode) : z'.Holds E := by
  have hget (j : Nat) : z'.get j = z.get j := by rw [Lzw.get, Lzw.get, hentry]
  have huse (j : Nat) : z'.InUse j ↔ z.InUse j := by rw [Lzw.InUse, Lzw.InUse, hnext]
  refine ⟨hnext.trans h.nextCode_eq, fun j hj => ?_, fun i t hi => ?_, fun j m hj hm => ?_⟩
  · rw [hget, h.root j hj]
  · rw [hget]
    exact h.node i t hi
  · rw [huse] at hj ⊢
    rw [hget] at hm
    exact h.chain j m hj hm

/-- The bits a run holds depend on LZW_ACC, LZW_NBITS and the bytes sent alone. -/
theorem LzwRun.Packs.congr {x y : LzwRun} {bits : List Bool} (h : x.Packs bits) (hacc : y.z.acc = x.z.acc)
    (hnbits : y.z.nbits = x.z.nbits) (hout : y.out = x.out) : y.Packs bits := by
  obtain ⟨held, hbits, hlen, h32, hval⟩ := h
  exact ⟨held, by rw [hout, hbits], by rw [hnbits, hlen], by rwa [hnbits], by rw [hacc, hnbits, hval]⟩

theorem lzwCodeWidth_range (k : Nat) : 9 ≤ lzwCodeWidth k ∧ lzwCodeWidth k ≤ 12 := by
  unfold lzwCodeWidth
  split_ifs <;> omega

/-- Every code in use fits the width of the next data code (R304). -/
theorem nextCode_lt_two_pow {k : Nat} (h : k ≤ 3837) : 258 + k < 2 ^ lzwCodeWidth (k + 1) := by
  unfold lzwCodeWidth
  split_ifs <;> omega

/-- The width check with room left: the width of the next data code (R304). -/
theorem lzwGrow_of_room {x : LzwRun} {k : Nat} (hnext : x.z.nextCode = 258 + k) (hwidth : x.z.width = lzwCodeWidth k)
    (h : k ≤ 3837) : lzwGrow x = ⟨{ x.z with width := lzwCodeWidth (k + 1) }, x.out⟩ := by
  have hcases : 258 + k < 2 ^ lzwCodeWidth k ∧ lzwCodeWidth (k + 1) = lzwCodeWidth k ∨
      2 ^ lzwCodeWidth k ≤ 258 + k ∧ lzwCodeWidth (k + 1) = lzwCodeWidth k + 1 ∧ lzwCodeWidth k + 1 ≤ 12 := by
    unfold lzwCodeWidth
    split_ifs <;> omega
  have hzero : x.z.nextCode >>> x.z.width = 0 ↔ 258 + k < 2 ^ lzwCodeWidth k := by
    rw [hnext, hwidth, Nat.shiftRight_eq_div_pow, Nat.div_eq_zero_iff_lt (Nat.two_pow_pos _)]
  unfold lzwGrow
  obtain ⟨hlt, he⟩ | ⟨hle, he, h12⟩ := hcases
  · rw [if_pos (hzero.2 hlt), he, ← hwidth]
  · rw [if_neg (by rw [hzero]; omega), if_neg (by simp only [Config.lzwMaxWidth]; omega), he, ← hwidth]

/-- The width check when the table is full: a Clear at 12 bits, and the initial table (R304). -/
theorem lzwGrow_of_full {x : LzwRun} (hnext : x.z.nextCode = 4096) (hwidth : x.z.width = 12) :
    lzwGrow x = ⟨{ lzwInitTable (lzwOutCode lzwClear x).z with width := 9 }, (lzwOutCode lzwClear x).out⟩ := by
  have hsame : (⟨{ x.z with width := Config.lzwMaxWidth }, x.out⟩ : LzwRun) = x := by
    simp only [Config.lzwMaxWidth, ← hwidth]
  unfold lzwGrow
  rw [if_neg (by rw [hnext, hwidth]; decide), if_pos (by rw [hwidth]; decide)]
  simp only [hsame]

/-! ### The loop -/

/-- The loop's invariant: the dictionary holds `E`, the match LZW_LAST is `str`, and `bits` have been put out since the
stream began. -/
structure LzwRun.AtLoop (x : LzwRun) (E : List (List Byte)) (str : List Byte) (bits : List Bool) : Prop where
  holds : x.z.Holds E
  room : E.length ≤ 3837
  width_eq : x.z.width = lzwCodeWidth (E.length + 1)
  nbits_le : x.z.nbits ≤ 7
  last_eq : lzwString E x.z.last = some str
  str_ne : str ≠ []
  packs : x.Packs bits

theorem LzwRun.AtLoop.last_inUse {x : LzwRun} {E : List (List Byte)} {str : List Byte} {bits : List Bool}
    (h : x.AtLoop E str bits) : x.z.InUse x.z.last :=
  (h.holds.inUse_iff _).2 ⟨str, h.last_eq⟩

/-- Putting out a code in use, or End, at the current width. -/
theorem LzwRun.AtLoop.outCode {x : LzwRun} {E : List (List Byte)} {str : List Byte} {bits : List Bool}
    (h : x.AtLoop E str bits) {code : Nat} (hcode : code < x.z.nextCode) :
    (lzwOutCode code x).Packs (bits ++ codeBitsMsb code (lzwCodeWidth (E.length + 1))) ∧
      (lzwOutCode code x).z.nbits ≤ 7 := by
  have hfit := nextCode_lt_two_pow h.room
  have hnext := h.holds.nextCode_eq
  have hrange := lzwCodeWidth_range (E.length + 1)
  have hwidth := h.width_eq
  rw [← hwidth] at hfit ⊢
  exact lzwOutCode_packs h.packs h.nbits_le (by omega) (by omega)

/-- A stream starts with Clear at 9 bits: one byte sent and one bit held. -/
theorem lzwStart_eq (z : Lzw) :
    lzwStart z = ⟨{ lzwInitTable z with width := 9, acc := 0, nbits := 1 }, [0x80]⟩ := by
  simp [lzwStart, lzwOutCode, lzwDrain, lzwClear]

/-- The loop's invariant holds after the first byte. -/
theorem atLoop_lzwStart (z : Lzw) (b : Byte) :
    LzwRun.AtLoop ⟨{ (lzwStart z).z with last := b.toNat }, (lzwStart z).out⟩ [] [b] (codeBitsMsb lzwClear 9) := by
  have hholds := holds_lzwInitTable z
  rw [lzwStart_eq]
  generalize lzwInitTable z = t at hholds ⊢
  have hbits : codeBitsMsb lzwClear 9 = [0x80].flatMap byteBits ++ [false] := by decide
  have hpacks : LzwRun.Packs ⟨{ t with width := 9, acc := 0, nbits := 1, last := b.toNat }, [0x80]⟩
      (codeBitsMsb lzwClear 9) := ⟨[false], hbits, rfl, Nat.le_add_left 1 31, by simp [msbVal, ofBitsLsb]⟩
  exact ⟨hholds.congr rfl rfl, by decide, rfl, by simp, lzwString_byte [] b, by simp, hpacks⟩

/-- After an AddEntry the width check keeps the dictionary, or with the 3838th entry clears it (R304). -/
theorem atLoop_lzwGrow {v : LzwRun} {E : List (List Byte)} {bits : List Bool} (hholds : v.z.Holds E)
    (hroom : E.length ≤ 3838) (hwidth : v.z.width = lzwCodeWidth E.length) (hnbits : v.z.nbits ≤ 7)
    (hpacks : v.Packs bits) (c : Byte) :
    LzwRun.AtLoop ⟨{ (lzwGrow v).z with last := c.toNat }, (lzwGrow v).out⟩ E [c] bits ∨
    E.length = 3838 ∧ LzwRun.AtLoop ⟨{ (lzwGrow v).z with last := c.toNat }, (lzwGrow v).out⟩ [] [c]
      (bits ++ codeBitsMsb lzwClear (lzwCodeWidth (E.length + 1))) := by
  have hnext := hholds.nextCode_eq
  by_cases hfull : E.length = 3838
  · rw [hfull] at hwidth hnext ⊢
    have h12 : v.z.width = 12 := hwidth
    have hfits : lzwClear < 2 ^ v.z.width := by rw [h12]; decide
    obtain ⟨hclear, hheld⟩ := lzwOutCode_packs hpacks hnbits h12.le hfits
    rw [h12] at hclear
    rw [lzwGrow_of_full hnext h12]
    exact .inr ⟨rfl, (holds_lzwInitTable _).congr rfl rfl, by decide, rfl, hheld, lzwString_byte [] c, by simp,
      hclear.congr rfl rfl rfl⟩
  · rw [lzwGrow_of_room hnext hwidth (by omega)]
    exact .inl ⟨hholds.congr rfl rfl, by omega, rfl, hnbits, lzwString_byte E c, by simp, hpacks.congr rfl rfl rfl⟩

/-- What one turn of the loop does: it lengthens the match; or it puts the match out and adds an entry; or it puts the
match out with the 3838th data code, and a Clear (R300, R304). -/
theorem LzwRun.AtLoop.lzwByte {x : LzwRun} {E : List (List Byte)} {str : List Byte} {bits : List Bool}
    (h : x.AtLoop E str bits) (c : Byte) :
    (lzwByte c x).AtLoop E (str ++ [c]) bits ∨
    (lzwByte c x).AtLoop (E ++ [str ++ [c]]) [c]
      (bits ++ codeBitsMsb x.z.last (lzwCodeWidth (E.length + 1))) ∨
    E.length = 3837 ∧ (lzwByte c x).AtLoop [] [c]
      (bits ++ codeBitsMsb x.z.last (lzwCodeWidth (E.length + 1)) ++
        codeBitsMsb lzwClear (lzwCodeWidth (E.length + 1 + 1))) := by
  unfold Machine.lzwByte
  split
  · next f hf =>
    exact .inl ⟨h.holds.congr rfl rfl, h.room, h.width_eq, h.nbits_le, lzwString_of_lzwFindChild h.holds h.last_eq hf,
      by simp, h.packs.congr rfl rfl rfl⟩
  · right
    obtain ⟨hpacks, hnbits⟩ := h.outCode h.last_inUse.1
    have hkept := h.holds.congr (lzwOutCode_entry x.z.last x) (lzwOutCode_nextCode x.z.last x)
    have hlast : lzwString E (lzwOutCode x.z.last x).z.last = some str := by rw [lzwOutCode_last, h.last_eq]
    have hwidth := (lzwOutCode_width x.z.last x).trans h.width_eq
    have hlen : (E ++ [str ++ [c]]).length = E.length + 1 := by simp
    have hroom := h.room
    have hgrow := atLoop_lzwGrow (v := ⟨_, (lzwOutCode x.z.last x).out⟩) (hkept.addEntry hlast c)
      (by rw [hlen]; omega) (hwidth.trans (by rw [hlen])) hnbits (hpacks.congr rfl rfl rfl) c
    rw [hlen] at hgrow
    exact hgrow.imp_right fun ⟨hfull, hnew⟩ => ⟨by omega, hnew⟩

/-- The loop's invariant holds after any bytes. -/
theorem LzwRun.AtLoop.lzwBytes {x : LzwRun} {E : List (List Byte)} {str : List Byte} {bits : List Bool}
    (h : x.AtLoop E str bits) (cs : List Byte) : ∃ E str bits, (lzwBytes cs x).AtLoop E str bits := by
  induction cs generalizing x E str bits with
  | nil => exact ⟨E, str, bits, h⟩
  | cons c cs ih =>
    rw [Machine.lzwBytes]
    obtain h' | h' | ⟨-, h'⟩ := h.lzwByte c
    · exact ih h'
    · exact ih h'
    · exact ih h'

/-- Settles O29: the loop's invariant bounds every register. -/
theorem lzwRegistersStayInRange : Obligations.LzwRegistersStayInRange := by
  unfold Obligations.LzwRegistersStayInRange
  intro b bs z
  obtain ⟨E, str, bits, h⟩ := (atLoop_lzwStart z b).lzwBytes bs
  obtain ⟨hlt, hclear, hend⟩ := h.last_inUse
  have hnext := h.holds.nextCode_eq
  have hlow := Nat.le_add_right 258 E.length
  have hhigh := Nat.add_le_add_left h.room 258
  obtain ⟨h9, h12⟩ := lzwCodeWidth_range (E.length + 1)
  have hfit := nextCode_lt_two_pow h.room
  rw [← h.width_eq] at h9 h12 hfit
  rw [← hnext] at hfit hlow hhigh
  exact ⟨h9, h12, h.nbits_le, hlow, hhigh, hfit, hlt, hclear, hend⟩

end Sys2Proof.Machine
end

section
/-! PROOFS. O27: an LZW decoder turns the stream's codes back into the input (R308), and the stream does not depend on
what the dictionary held before (R43, R601, R615). -/

namespace Sys2Proof.Machine

open Host

/-! ### The decoder follows the encoder -/

/-- The decoder, having read the codes put out, against the encoder at its loop: it lacks the encoder's newest entry,
which it knows up to the last byte, the first one of the match still to be put out. -/
def LzwSynced (E D : List (List Byte)) (prev : Option (List Byte)) (str : List Byte) : Prop :=
  E = [] ∧ D = [] ∧ prev = none ∨ ∃ old, prev = some old ∧ old ≠ [] ∧ E = D ++ [old ++ str.take 1]

theorem lzwString_lt {E : List (List Byte)} {code : Nat} {str : List Byte} (h : lzwString E code = some str) :
    code < 258 + E.length ∧ code ≠ lzwClear ∧ code ≠ lzwEnd :=
  (inUse_iff (z := ⟨[], 258 + E.length, 9, 0, 0, 0⟩) rfl code).2 ⟨str, h⟩

theorem lzwString_of_append {D : List (List Byte)} {t str : List Byte} {code : Nat}
    (h : lzwString (D ++ [t]) code = some str) :
    code = lzwFirst + D.length ∧ str = t ∨ code ≠ lzwFirst + D.length ∧ lzwString D code = some str := by
  by_cases hnew : code = 258 + D.length
  · rw [hnew, lzwString_entry] at h
    exact .inl ⟨hnew, by simpa using h.symm⟩
  · refine .inr ⟨hnew, ?_⟩
    have hlt := (lzwString_lt h).1
    rw [List.length_append, List.length_singleton] at hlt
    obtain ⟨s, hs⟩ := (inUse_iff (z := ⟨[], 258 + D.length, 9, 0, 0, 0⟩) (E := D) rfl code).1
      ⟨by simp only; omega, (lzwString_lt h).2⟩
    rw [hs, ← h, lzwString_append t hs]

/-- The decoder reads the match the encoder puts out, and adds the entry it lacked; the code may be that entry's own. -/
theorem LzwSynced.decode {E D : List (List Byte)} {prev : Option (List Byte)} {str : List Byte} {code : Nat}
    (h : LzwSynced E D prev str) (hcode : lzwString E code = some str) (hroom : E.length ≤ 3837) (codes : List Nat) :
    lzwDecodeFrom D prev (code :: codes) = (lzwDecodeFrom E (some str) codes).map fun rest => str ++ rest := by
  obtain ⟨-, hclear, hend⟩ := lzwString_lt hcode
  obtain ⟨rfl, rfl, rfl⟩ | ⟨old, rfl, hold, rfl⟩ := h
  · rw [lzwDecodeFrom, if_neg hend, if_neg hclear]
    simp only [hcode]
  · have hdict : D.length < 3837 := by simp at hroom; omega
    have hread : (if code = lzwFirst + D.length then some (old ++ old.take 1) else lzwString D code) = some str := by
      obtain ⟨hnew, hstr⟩ | ⟨hnew, hstr⟩ := lzwString_of_append hcode
      · have hhead : str.take 1 = old.take 1 := by
          obtain ⟨b, bs, rfl⟩ := List.exists_cons_of_ne_nil hold
          rw [hstr]; rfl
        rw [if_pos hnew, ← hhead, ← hstr]
      · rw [if_neg hnew, hstr]
    rw [lzwDecodeFrom, if_neg hend, if_neg hclear]
    simp only [hread, if_pos hdict]

theorem LzwSynced.lengthen {E D : List (List Byte)} {prev : Option (List Byte)} {str : List Byte}
    (h : LzwSynced E D prev str) (hne : str ≠ []) (c : Byte) : LzwSynced E D prev (str ++ [c]) := by
  obtain ⟨b, bs, rfl⟩ := List.exists_cons_of_ne_nil hne
  exact h

theorem lzwCodeBits_data {code : Nat} (h : code ≠ lzwClear ∧ code ≠ lzwEnd) (k : Nat) (codes : List Nat) :
    lzwCodeBits k (code :: codes) = codeBitsMsb code (lzwCodeWidth (k + 1)) ++ lzwCodeBits (k + 1) codes := by
  rw [lzwCodeBits, if_neg h.2, if_neg h.1]

/-- From the loop on: the bytes sent are the packing of codes that the decoder turns back into the rest. -/
theorem LzwRun.AtLoop.stream {x : LzwRun} {E D : List (List Byte)} {prev : Option (List Byte)} {str : List Byte}
    {bits : List Bool} (h : x.AtLoop E str bits) (hsync : LzwSynced E D prev str) (cs : List Byte) :
    ∃ codes, (lzwFlush (lzwOutCode lzwEnd (lzwOutCode (Machine.lzwBytes cs x).z.last (Machine.lzwBytes cs x)))).out =
      bitsToBytes (bits ++ lzwCodeBits E.length codes) ∧ lzwDecodeFrom D prev codes = some (str ++ cs) := by
  induction cs generalizing x E D prev str bits with
  | nil =>
    refine ⟨[x.z.last, lzwEnd], ?_, ?_⟩
    · obtain ⟨hpacks, hnbits⟩ := h.outCode h.last_inUse.1
      have hfit : lzwEnd < 2 ^ lzwCodeWidth (E.length + 1) :=
        lt_of_lt_of_le (by simp only [lzwEnd]; omega) (nextCode_lt_two_pow h.room).le
      have hwidth := (lzwOutCode_width x.z.last x).trans h.width_eq
      obtain ⟨hpacks', hnbits'⟩ := lzwOutCode_packs (code := lzwEnd) hpacks hnbits
        (by rw [hwidth]; exact (lzwCodeWidth_range _).2) (by rwa [hwidth])
      rw [Machine.lzwBytes, lzwFlush_out hpacks' hnbits', hwidth, lzwCodeBits_data h.last_inUse.2, lzwCodeBits,
        if_pos rfl, lzwCodeBits, List.append_nil, List.append_assoc]
    · rw [hsync.decode h.last_eq h.room]
      simp [lzwDecodeFrom]
  | cons c cs ih =>
    rw [Machine.lzwBytes]
    have hbits := lzwCodeBits_data h.last_inUse.2 E.length
    have hread := hsync.decode h.last_eq h.room
    obtain h' | h' | ⟨hfull, h'⟩ := h.lzwByte c
    · obtain ⟨codes, hout, hdec⟩ := ih h' (hsync.lengthen h.str_ne c)
      exact ⟨codes, hout, by rw [hdec, List.append_assoc]; rfl⟩
    · have hnew : LzwSynced (E ++ [str ++ [c]]) E (some str) [c] := .inr ⟨str, rfl, h.str_ne, rfl⟩
      obtain ⟨codes, hout, hdec⟩ := ih h' hnew
      refine ⟨x.z.last :: codes, ?_, by rw [hread, hdec]; rfl⟩
      rw [hout, hbits, List.length_append, List.length_singleton, List.append_assoc]
    · obtain ⟨codes, hout, hdec⟩ := ih h' (.inl ⟨rfl, rfl, rfl⟩)
      refine ⟨x.z.last :: lzwClear :: codes, ?_, ?_⟩
      · rw [hout, hbits, lzwCodeBits, if_neg (by decide), if_pos rfl, List.append_assoc, List.append_assoc]
        rfl
      · rw [hread, lzwDecodeFrom, if_neg (by decide), if_pos rfl, if_pos hfull, hdec]
        rfl

/-- The stream of no byte: Clear and End. -/
theorem lzwEncode_nil_out (z : Lzw) : (lzwEncode [] z).out = [0x80, 0x40, 0x40] := by
  rw [lzwEncode, lzwStart_eq]
  generalize lzwInitTable z = t
  simp [lzwOutCode, lzwDrain, lzwEnd, lzwFlush]

/-- The stream is the packing of codes that an LZW decoder turns back into the input. -/
theorem lzwEncode_decodes (bytes : List Byte) (z : Lzw) : ∃ codes : List Nat,
    (lzwEncode bytes z).out = bitsToBytes (lzwCodeBits 0 codes) ∧ lzwDecode codes = some bytes := by
  cases bytes with
  | nil => exact ⟨[lzwClear, lzwEnd], by rw [lzwEncode_nil_out]; decide, by decide⟩
  | cons b bs =>
    obtain ⟨codes, hout, hdec⟩ := (atLoop_lzwStart z b).stream (.inl ⟨rfl, rfl, rfl⟩) bs
    refine ⟨lzwClear :: codes, ?_, ?_⟩
    · rw [lzwCodeBits, if_neg (by decide), if_pos rfl]
      exact hout
    · rw [lzwDecode, if_pos rfl, hdec]
      rfl

end Sys2Proof.Machine
end

section
/-! PROOFS. The LZW stream does not depend on what LZW_ENTRY held before: two runs whose dictionaries agree on the codes
in use send the same bytes (R43, R601, R615). -/

namespace Sys2Proof.Machine

open Host

/-- The run with other contents of LZW_ENTRY. -/
def LzwRun.withEntry (x : LzwRun) (entry : List (Nat × LzwEntry)) : LzwRun := ⟨{ x.z with entry := entry }, x.out⟩

theorem lzwDrain_withEntry (k : Nat) (x : LzwRun) (entry : List (Nat × LzwEntry)) :
    lzwDrain k (x.withEntry entry) = (lzwDrain k x).withEntry entry := by
  induction k generalizing x with
  | zero => rfl
  | succ k ih =>
    rw [lzwDrain, lzwDrain]
    by_cases h : 8 ≤ x.z.nbits
    · have h' : 8 ≤ (x.withEntry entry).z.nbits := h
      rw [if_pos h, if_pos h', ← ih]; rfl
    · have h' : ¬ 8 ≤ (x.withEntry entry).z.nbits := h
      rw [if_neg h, if_neg h']

theorem lzwOutCode_withEntry (code : Nat) (x : LzwRun) (entry : List (Nat × LzwEntry)) :
    lzwOutCode code (x.withEntry entry) = (lzwOutCode code x).withEntry entry := by
  unfold lzwOutCode
  rw [← lzwDrain_withEntry]
  rfl

theorem lzwFlush_withEntry (x : LzwRun) (entry : List (Nat × LzwEntry)) :
    lzwFlush (x.withEntry entry) = (lzwFlush x).withEntry entry := by
  unfold lzwFlush
  by_cases h : 0 < x.z.nbits
  · have h' : 0 < (x.withEntry entry).z.nbits := h
    rw [if_pos h, if_pos h']; rfl
  · have h' : ¬ 0 < (x.withEntry entry).z.nbits := h
    rw [if_neg h, if_neg h']

/-- Two runs that differ in LZW_ENTRY alone, and there on codes not in use alone. -/
def LzwRun.Agrees (x y : LzwRun) : Prop :=
  ∃ entry, y = x.withEntry entry ∧ ∀ j, x.z.InUse j → y.z.get j = x.z.get j

theorem agrees_lzwOutCode {x y : LzwRun} (h : x.Agrees y) (code : Nat) :
    (lzwOutCode code x).Agrees (lzwOutCode code y) := by
  obtain ⟨entry, rfl, hget⟩ := h
  refine ⟨entry, lzwOutCode_withEntry code x entry, fun j hj => ?_⟩
  have hj' : x.z.InUse j := by rwa [Lzw.InUse, lzwOutCode_nextCode] at hj
  have hsame := hget j hj'
  rw [Lzw.get, Lzw.get] at hsame ⊢
  rwa [lzwOutCode_entry, lzwOutCode_entry]

/-- InitTable leaves nothing in use that it has not written (R301). -/
theorem agrees_lzwInitTable (x y : LzwRun) (hwidth : y.z.width = x.z.width) (hacc : y.z.acc = x.z.acc)
    (hnbits : y.z.nbits = x.z.nbits) (hlast : y.z.last = x.z.last) (hout : y.out = x.out) :
    LzwRun.Agrees ⟨lzwInitTable x.z, x.out⟩ ⟨lzwInitTable y.z, y.out⟩ := by
  refine ⟨(lzwInitTable y.z).entry, ?_, fun j hj => ?_⟩
  · simp only [LzwRun.withEntry, lzwInitTable, hwidth, hacc, hnbits, hlast, hout]
  · obtain ⟨hlt, hclear, hend⟩ := hj
    change j < 258 at hlt
    have hbyte : j < 256 := by simp only [lzwClear, lzwEnd] at hclear hend; omega
    exact (get_lzwInitTable y.z hbyte).trans (get_lzwInitTable x.z hbyte).symm

/-- AddEntry reads and writes codes in use alone (R303). -/
theorem agrees_lzwAddEntry {x y : LzwRun} (h : x.Agrees y) {q : Nat} (hq : x.z.InUse q) (c : Byte) :
    LzwRun.Agrees ⟨lzwAddEntry x.z q c, x.out⟩ ⟨lzwAddEntry y.z q c, y.out⟩ := by
  obtain ⟨entry, rfl, hget⟩ := h
  refine ⟨(lzwAddEntry (x.withEntry entry).z q c).entry, rfl, fun j hj => ?_⟩
  have hqn : q ≠ x.z.nextCode := hq.1.ne
  have hqn' : q ≠ (x.withEntry entry).z.nextCode := hqn
  simp only
  by_cases hjn : j = x.z.nextCode
  · rw [hjn, get_lzwAddEntry_new c hqn, ← hget q hq]
    exact get_lzwAddEntry_new c hqn'
  · by_cases hjq : j = q
    · rw [hjq, get_lzwAddEntry_parent c hqn, ← hget q hq]
      exact get_lzwAddEntry_parent c hqn'
    · have hlt : j < x.z.nextCode + 1 := hj.1
      rw [get_lzwAddEntry_other c hjq hjn, ← hget j ⟨by omega, hj.2⟩]
      exact get_lzwAddEntry_other c hjq hjn

theorem agrees_lzwGrow {x y : LzwRun} (h : x.Agrees y) : (lzwGrow x).Agrees (lzwGrow y) := by
  obtain ⟨entry, rfl, hget⟩ := h
  unfold lzwGrow
  by_cases hroom : x.z.nextCode >>> x.z.width = 0
  · have hroom' : (x.withEntry entry).z.nextCode >>> (x.withEntry entry).z.width = 0 := hroom
    rw [if_pos hroom, if_pos hroom']
    exact ⟨entry, rfl, hget⟩
  · have hroom' : ¬ (x.withEntry entry).z.nextCode >>> (x.withEntry entry).z.width = 0 := hroom
    rw [if_neg hroom, if_neg hroom']
    by_cases hfull : Config.lzwMaxWidth < x.z.width + 1
    · have hfull' : Config.lzwMaxWidth < (x.withEntry entry).z.width + 1 := hfull
      rw [if_pos hfull, if_pos hfull']
      have hclear := lzwOutCode_withEntry lzwClear ⟨{ x.z with width := Config.lzwMaxWidth }, x.out⟩ entry
      generalize lzwOutCode lzwClear ⟨{ x.z with width := Config.lzwMaxWidth }, x.out⟩ = u at hclear ⊢
      have hinit := agrees_lzwInitTable u (u.withEntry entry) rfl rfl rfl rfl rfl
      rw [← hclear] at hinit
      obtain ⟨entry', he, hget'⟩ := hinit
      exact ⟨entry', congrArg (fun v : LzwRun => (⟨{ v.z with width := 9 }, v.out⟩ : LzwRun)) he, hget'⟩
    · have hfull' : ¬ Config.lzwMaxWidth < (x.withEntry entry).z.width + 1 := hfull
      rw [if_neg hfull, if_neg hfull']
      exact ⟨entry, rfl, hget⟩

theorem agrees_setLast {x y : LzwRun} (h : x.Agrees y) (code : Nat) :
    LzwRun.Agrees ⟨{ x.z with last := code }, x.out⟩ ⟨{ y.z with last := code }, y.out⟩ := by
  obtain ⟨entry, rfl, hget⟩ := h
  exact ⟨entry, rfl, hget⟩

/-- FindChild reads codes in use alone (R302). -/
theorem lzwWalk_agrees {x y : LzwRun} {E : List (List Byte)} (h : x.Agrees y) (hholds : x.z.Holds E) (q : Nat)
    (c : Byte) (k : Nat) {start : Option Nat} (hstart : ∀ j, start = some j → x.z.InUse j) :
    lzwWalk y.z q c k start = lzwWalk x.z q c k start := by
  obtain ⟨entry, -, hget⟩ := h
  induction k generalizing start with
  | zero => rfl
  | succ k ih =>
    cases start with
    | none => rfl
    | some j =>
      have hj := hstart j rfl
      rw [lzwWalk, lzwWalk, hget j hj, ih fun m hm => hholds.chain j m hj hm]

theorem agrees_lzwByte {x y : LzwRun} {E : List (List Byte)} {str : List Byte} {bits : List Bool}
    (hloop : x.AtLoop E str bits) (h : x.Agrees y) (c : Byte) : (lzwByte c x).Agrees (lzwByte c y) := by
  have hlast : y.z.last = x.z.last := by obtain ⟨entry, rfl, -⟩ := h; rfl
  have hstart (j : Nat) (hj : some x.z.last = some j) : x.z.InUse j := by cases hj; exact hloop.last_inUse
  have hfind : lzwFindChild y.z y.z.last c = lzwFindChild x.z x.z.last c := by
    rw [hlast]
    exact lzwWalk_agrees h hloop.holds _ c _ hstart
  have hsent := agrees_lzwOutCode h x.z.last
  have huse : (lzwOutCode x.z.last x).z.InUse x.z.last := by
    rw [Lzw.InUse, lzwOutCode_nextCode]
    exact hloop.last_inUse
  unfold lzwByte
  rw [hfind, hlast]
  cases lzwFindChild x.z x.z.last c with
  | some f => exact agrees_setLast h f
  | none =>
    simp only [lzwOutCode_last, hlast]
    exact agrees_setLast (agrees_lzwGrow (agrees_lzwAddEntry hsent huse c)) c.toNat

theorem agrees_lzwBytes {x y : LzwRun} {E : List (List Byte)} {str : List Byte} {bits : List Bool}
    (hloop : x.AtLoop E str bits) (h : x.Agrees y) (cs : List Byte) : (lzwBytes cs x).Agrees (lzwBytes cs y) := by
  induction cs generalizing x y E str bits with
  | nil => exact h
  | cons c cs ih =>
    have hnext := agrees_lzwByte hloop h c
    rw [lzwBytes, lzwBytes]
    obtain h' | h' | ⟨-, h'⟩ := hloop.lzwByte c
    · exact ih h' hnext
    · exact ih h' hnext
    · exact ih h' hnext

/-- The loop starts alike from any two register contents. -/
theorem agrees_lzwStart (z z' : Lzw) (b : Byte) :
    LzwRun.Agrees ⟨{ (lzwStart z).z with last := b.toNat }, (lzwStart z).out⟩
      ⟨{ (lzwStart z').z with last := b.toNat }, (lzwStart z').out⟩ := by
  rw [lzwStart_eq, lzwStart_eq]
  exact agrees_lzwInitTable ⟨{ z with width := 9, acc := 0, nbits := 1, last := b.toNat }, [0x80]⟩
    ⟨{ z' with width := 9, acc := 0, nbits := 1, last := b.toNat }, [0x80]⟩ rfl rfl rfl rfl rfl

/-- The bytes sent do not depend on what the dictionary and the registers held before. -/
theorem lzwEncode_out_congr (bytes : List Byte) (z z' : Lzw) : (lzwEncode bytes z).out = (lzwEncode bytes z').out := by
  cases bytes with
  | nil => rw [lzwEncode_nil_out, lzwEncode_nil_out]
  | cons b bs =>
    obtain ⟨entry, he, -⟩ := agrees_lzwBytes (atLoop_lzwStart z b) (agrees_lzwStart z z' b) bs
    simp only [lzwEncode, he]
    generalize lzwBytes bs ⟨{ (lzwStart z).z with last := b.toNat }, (lzwStart z).out⟩ = x
    rw [lzwOutCode_withEntry, lzwOutCode_withEntry, lzwFlush_withEntry]
    rfl

theorem lzwEncode_vectors_reset :
    (lzwEncode [0x41] Lzw.reset).out = [0x80, 0x10, 0x60, 0x20] ∧
    (lzwEncode [0x41, 0x42, 0x41, 0x42, 0x41, 0x42, 0x41] Lzw.reset).out =
      [0x80, 0x10, 0x48, 0x50, 0x28, 0x24, 0x04] := by decide +kernel

/-- Settles O27: the decoder follows the loop's invariant, and runs that agree on the codes in use send the same. -/
theorem lzwStreamDecodesToItsInput : Obligations.LzwStreamDecodesToItsInput := by
  unfold Obligations.LzwStreamDecodesToItsInput
  obtain ⟨hone, hseven⟩ := lzwEncode_vectors_reset
  exact ⟨lzwEncode_decodes, lzwEncode_out_congr, fun z =>
    ⟨lzwEncode_nil_out z, (lzwEncode_out_congr _ z Lzw.reset).trans hone,
      (lzwEncode_out_congr _ z Lzw.reset).trans hseven⟩⟩

end Sys2Proof.Machine
end

section
/-! PROOFS. The checks that come before any effect: a busy worker blocks the descriptor-mutating commands (O41), the
buffer checks of the two encoders (O25); and one byte of the scratch space read or written by the host (O10). -/

namespace Sys2Proof.Machine

open Host

/-! ### A command by how its pseudocode ends (R32, R33, R505) -/

section Ends

variable {i : Instr} {s t : State}

/-- A sequencer command whose pseudocode raises, having made `t` of the state. -/
theorem exec_seq_raised {k : ErrKind} (ha : agentOf i = .seq)
    (h : bodyOf i (s.beginCmd .seq) = .raised k (t.beginCmd .seq)) : exec i s = .next (t.seqRaised i.opcode k) := by
  rw [exec_eq, ha, runCmd, h]
  rfl

/-- A sequencer command whose pseudocode ends normally, having made `t` of the state. -/
theorem exec_seq_ended (ha : agentOf i = .seq) (h : bodyOf i (s.beginCmd .seq) = .normal (t.beginCmd .seq)) :
    exec i s = .next t.seqEnded := by
  rw [exec_eq, ha, runCmd, h]
  rfl

/-- A worker's command whose pseudocode raises, having made `t` of the state. -/
theorem exec_worker_raised {w : BitVec 8} {k : ErrKind} (ha : agentOf i = .worker w)
    (h : bodyOf i (s.beginCmd (.worker w)) = .raised k (t.beginCmd (.worker w))) :
    exec i s = .next (t.workerRaised w i.opcode k) := by
  rw [exec_eq, ha, runCmd, h]
  simp [State.raiseErr, State.beginCmd, State.workerRaised, State.setWstat_setWstat, Ports.raise]

end Ends

/-! ### The hazard of a busy worker (R611 case 1) -/

theorem anyWorkerBusy_of_busy {s : State} {w : BitVec 8} (h : (s.wstat w).busy = true) : s.anyWorkerBusy = true :=
  List.any_eq_true.2 ⟨s.wstat w, by simp [State.wstat], h⟩

theorem hazardCheck_of_busy {s : State} (h : s.anyWorkerBusy = true) (k : CmdEnd) :
    hazardCheck s k = .raised .hazard s := by
  rw [hazardCheck, if_pos h]

theorem hazardCheck_of_idle {s : State} (h : s.anyWorkerBusy = false) (k : CmdEnd) : hazardCheck s k = k := by
  rw [hazardCheck, h, if_neg Bool.false_ne_true]

/-- The eleven opcodes are those of the descriptor-mutating commands (R125, R611). -/
theorem isMutating_of_opcode {i : Instr}
    (h : i.opcode.toNat ∈ [0x30, 0x31, 0x32, 0x33, 0x34, 0x35, 0x36, 0x37, 0x38, 0x40, 0x42]) :
    isMutating i = true := by
  cases i <;> simp [Instr.opcode, encode, isMutating] at h ⊢

theorem agentOf_of_isMutating {i : Instr} (h : isMutating i = true) : agentOf i = .seq := by
  cases i <;> cases h <;> rfl

/-- The hazard check is the first thing a descriptor-mutating command does. -/
theorem bodyOf_mutating_of_busy {i : Instr} (hi : isMutating i = true) (hwf : i.wf = true) {s : State}
    (h : s.anyWorkerBusy = true) : bodyOf i s = .raised .hazard s := by
  have hchecked := hazardCheck_of_busy h
  cases i <;> try cases hi
  case qSetFormat f => exact (if_pos hwf).trans (hchecked _)
  case qSetEndian e => exact (if_pos hwf).trans (hchecked _)
  case qAcquire | qDestroy | qSetDepth | qSetPad | qSetScale | qSetPolarity | qResetState | poolAcquire | poolRelease =>
    exact hchecked _

/-- Settles O41: the start of the command leaves WSTATUS, so the hazard check sees the busy worker. -/
theorem busyWorkersBlockMutation : Obligations.BusyWorkersBlockMutation := by
  intro s i hwf ⟨w, hw⟩ hop
  have hi := isMutating_of_opcode hop
  have hbusy : (s.beginCmd .seq).anyWorkerBusy = true := anyWorkerBusy_of_busy hw
  exact exec_seq_raised (agentOf_of_isMutating hi) (bodyOf_mutating_of_busy hi hwf hbusy)

/-! ### The encoders' checks (R300, R330) -/

section BufferChecks

variable {w : BitVec 8} {s : State} (k : Nat → Nat → CmdEnd)

theorem bufferChecks_hazard (h : (s.wstat w).busy = true) : bufferChecks w s k = .raised .hazard s := if_pos h

theorem bufferChecks_noBuffer (hw : (s.wstat w).busy = false) (h : s.pool.valid = false ∨ s.pool.n ≤ w.toNat) :
    bufferChecks w s k = .raised .option s := by
  rw [bufferChecks, hw, if_neg Bool.false_ne_true, if_pos h]

theorem bufferChecks_outside (hw : (s.wstat w).busy = false) (hv : s.pool.valid = true) (hn : w.toNat < s.pool.n)
    (h : s.pool.extent.toNat < (s.argVal 0).toNat + (s.argVal 1).toNat) :
    bufferChecks w s k = .raised .option s := by
  have hbuf : ¬(s.pool.valid = false ∨ s.pool.n ≤ w.toNat) := by simp [hv, hn]
  rw [bufferChecks, hw, if_neg Bool.false_ne_true, if_neg hbuf, if_pos h]

end BufferChecks

/-- Both encoders make the buffer checks first. -/
theorem bodyOf_encoder {i : Instr} {w : BitVec 8} {port : Port}
    (hi : i = .lzwEncode w port ∨ i = .packbitsEncode w port) (s : State) : ∃ k, bodyOf i s = bufferChecks w s k := by
  obtain rfl | rfl := hi
  · exact ⟨_, by rw [bodyOf, lzwEncodeBody]⟩
  · exact ⟨_, by rw [bodyOf, packbitsEncodeBody]⟩

/-- Settles O25: each failing check raises in the state the command started in. -/
theorem encodersCheckHazardPoolAndRange : Obligations.EncodersCheckHazardPoolAndRange := by
  intro s w port i hi
  have ha : agentOf i = .seq := by obtain rfl | rfl := hi <;> rfl
  obtain ⟨k, hbody⟩ := bodyOf_encoder hi (s.beginCmd .seq)
  exact ⟨fun hw => exec_seq_raised ha (hbody.trans (bufferChecks_hazard k hw)),
    fun hw h => exec_seq_raised ha (hbody.trans (bufferChecks_noBuffer k hw h)),
    fun hw hv hn h => exec_seq_raised ha (hbody.trans (bufferChecks_outside k hw hv hn h))⟩

/-! ### The host's scratch accesses (R84, R97) -/

theorem scratchAccess_next {s k : State} {b o : Nat} (h : s.inScratch b o = true) (hrst : s.inReset = false)
    (hrace : s.raced b = false) : scratchAccess b o s k = .next k := by
  simp [scratchAccess, h, hrst, hrace]

/-- A write at one place of the scratch space leaves every other place alone. -/
theorem memRead_memWrite_otherPlace (m : List Cell) (v : Byte) {b o b' o' : Nat} (ho : o < 2 ^ 64) (ho' : o' < 2 ^ 64)
    (h : ¬(b' = b ∧ o' = o)) :
    memRead (memWrite m (scratchKey b o) v) (scratchKey b' o') = memRead m (scratchKey b' o') :=
  memRead_memWrite_other m _ _ v fun e => h (scratchKey_inj ho' ho e)

/-- Settles O10: inside the scratch space and without a race both accesses step, and a write is one `memWrite`. -/
theorem hostScratchAccessesReadAndWriteOneByte : Obligations.HostScratchAccessesReadAndWriteOneByte := by
  intro s b o v rest hm hrst hv hb ho hrace
  have hin : State.inScratch { s with host := rest } b o = true := inScratch_eq_true hv hb ho
  refine ⟨fun h => step_of_next h (scratchAccess_next hin hrst hrace), fun h =>
    ⟨memWrite s.scratch (scratchKey b o) v, step_of_next h (scratchAccess_next hin hrst hrace),
      memRead_memWrite_same _ _ _ hm, fun b' o' ho' hne => ?_⟩⟩
  exact memRead_memWrite_otherPlace s.scratch v (ho.trans_lt s.pool.extent.isLt) ho' hne

end Sys2Proof.Machine
end

section
/-! PROOFS. Q_PACK and Q_UNPACK: their checks (O42), the row Q_PACK writes (O43), the samples Q_UNPACK stores (O44). -/

namespace Sys2Proof.Machine

open Host

/-! ### Quantum types by their codes (R124, R362, R364, R400, R403) -/

section Codes

variable {qt : BitVec 4} {t : QType}

theorem exists_qtypeOf (h : qt.toNat < 14) : ∃ t, qtypeOf qt = some t :=
  Option.isSome_iff_exists.1 ((qtypeOf_isSome qt).trans (decide_eq_true h))

/-- The code of a quantum type (R124). -/
def QType.code : QType → Nat
  | .gray => 0
  | .grayAlpha => 1
  | .rgb => 2
  | .rgba => 3
  | .rgbo => 4
  | .bgra => 5
  | .cmyk => 6
  | .cmyka => 7
  | .cbYCr => 8
  | .cbYCrA => 9
  | .cbYCrY => 10
  | .index => 11
  | .indexAlpha => 12
  | .multispectral => 13

theorem toNat_of_qtypeOf (h : qtypeOf qt = some t) : qt.toNat = t.code := by
  revert qt t
  decide

theorem hasAlpha_iff_code (h : qtypeOf qt = some t) : hasAlpha t = true ↔ qt.toNat ∈ [1, 3, 4, 5, 7, 9] := by
  rw [toNat_of_qtypeOf h]
  cases t <;> decide

theorem channelOrder_eq_none_iff (img : ImageAttrs) (h : qtypeOf qt = some t) :
    channelOrder img t = none ↔ qt.toNat ∈ [10, 11, 12] := by
  rw [toNat_of_qtypeOf h]
  cases t <;> simp [channelOrder, QType.code]

theorem channelCount_eq (img : ImageAttrs) (h : qtypeOf qt = some t) :
    channelCount img t = channelsOfCode img qt.toNat := by
  rw [toNat_of_qtypeOf h]
  cases t <;> rfl

theorem extentOf_eq (q : Descriptor) (img : ImageAttrs) (h : qtypeOf qt = some t) :
    extentOf q img t = rowExtent q img (channelsOfCode img qt.toNat) := by
  rw [extentOf, channelCount_eq img h]
  rfl

end Codes

/-! ### The checks, one by one (R420) -/

section RowChecks

variable {w : BitVec 8} {qt : BitVec 4} {s : State} {t : QType} {chs : List Channel}

/-- No hazard (R611), and there are a descriptor and a buffer for the worker (R83, R420). -/
structure RowBuffer (w : BitVec 8) (s : State) : Prop where
  notMutating : s.seqMutating = false
  notRead : s.seqReads w = false
  descriptor : s.q.valid = true
  pool : s.pool.valid = true
  buffer : w.toNat < s.pool.n

/-- The checks of R420 up to the type: what the row is made of is known. -/
structure RowTyped (w : BitVec 8) (qt : BitVec 4) (s : State) (t : QType) (chs : List Channel) : Prop
    extends RowBuffer w s where
  qtype : qtypeOf qt = some t
  order : channelOrder s.img t = some chs
  alpha : ¬(s.q.alphaType = true ∧ hasAlpha t = true)

variable (k : Nat → List Channel → Nat → State → CmdEnd)

theorem rowChecks_hazard (ht : qtypeOf qt = some t) (h : s.seqMutating = true ∨ s.seqReads w = true) :
    rowChecks w qt s k = .raised .hazard s := by
  simp only [rowChecks, useQType, ht, if_pos h]

theorem rowChecks_noBuffer (ht : qtypeOf qt = some t) (hm : s.seqMutating = false) (hr : s.seqReads w = false)
    (h : s.q.valid = false ∨ s.pool.valid = false ∨ s.pool.n ≤ w.toNat) : rowChecks w qt s k = .raised .option s := by
  simp [rowChecks, useQType, ht, hm, hr, h]

theorem RowBuffer.rowChecks_type (hb : RowBuffer w s) (ht : qtypeOf qt = some t)
    (h : channelOrder s.img t = none ∨ s.q.alphaType = true ∧ hasAlpha t = true) :
    rowChecks w qt s k = .raised .option s := by
  cases hc : channelOrder s.img t with
  | none => simp [rowChecks, useQType, ht, hb.notMutating, hb.notRead, hb.descriptor, hb.pool, hc]
  | some chs =>
    have ha := h.resolve_left (by simp [hc])
    simp [rowChecks, useQType, ht, hb.notMutating, hb.notRead, hb.descriptor, hb.pool, hc, ha]

/-- The rest of the checks, once the type is known. -/
theorem RowTyped.rowChecks_eq (h : RowTyped w qt s t chs) :
    rowChecks w qt s k =
      if s.img.rows.toNat ≤ (s.argVal 0).toNat then .raised .option s
      else if s.pool.extent.toNat < extentOf s.q s.img t then .raised .resourceLimit s
      else if s.ports.nextRow then k (s.argVal 0).toNat chs (extentOf s.q s.img t) (s.tookRow (s.argVal 0).toNat)
      else .raised .resourceLimit (s.tookRow (s.argVal 0).toNat) := by
  have hb := h.toRowBuffer
  have hbuf : ¬s.pool.n ≤ w.toNat := Nat.not_le.2 hb.buffer
  simp only [rowChecks, useQType, h.qtype, hb.notMutating, hb.notRead, hb.descriptor, hb.pool, hbuf, h.order,
    if_neg h.alpha, Bool.false_eq_true, Bool.true_eq_false, or_self, if_false]

theorem RowTyped.congr {s' : State} (h : RowTyped w qt s t chs) (hf : s'.seqFlight = s.seqFlight) (hq : s'.q = s.q)
    (hi : s'.img = s.img) (hp : s'.pool = s.pool) : RowTyped w qt s' t chs := by
  obtain ⟨⟨hm, hr, hqv, hpv, hn⟩, ht, ho, ha⟩ := h
  refine ⟨⟨?_, ?_, hq ▸ hqv, hp ▸ hpv, hp ▸ hn⟩, ht, hi ▸ ho, hq ▸ ha⟩
  · rwa [State.seqMutating, State.seqInstr, hf]
  · rwa [State.seqReads, State.seqInstr, hf]

end RowChecks

/-- Both worker commands make the row checks first. -/
theorem bodyOf_rowCommand {i : Instr} {w : BitVec 8} {qt : BitVec 4} (hi : i = .qPack w qt ∨ i = .qUnpack w qt) :
    agentOf i = .worker w ∧ ∃ k, ∀ s, bodyOf i s = rowChecks w qt s k := by
  obtain rfl | rfl := hi
  · exact ⟨rfl, packBody w, fun _ => rfl⟩
  · exact ⟨rfl, unpackBody w, fun _ => rfl⟩

/-- Settles O42: each failing check raises in the state the command started in, the last one after AcquireRow. -/
theorem workerCommandsCheckInOrder : Obligations.WorkerCommandsCheckInOrder := by
  intro s w qt i hi hqt
  obtain ⟨t, ht⟩ := exists_qtypeOf hqt
  obtain ⟨ha, k, hbody⟩ := bodyOf_rowCommand hi
  have hraise : ∀ {e} {u : State}, rowChecks w qt (s.beginCmd (.worker w)) k = .raised e (u.beginCmd (.worker w)) →
      exec i s = .next (u.workerRaised w i.opcode e) := fun h => exec_worker_raised ha ((hbody _).trans h)
  refine ⟨fun h => hraise (rowChecks_hazard k ht h), fun hm hr => ⟨fun h => ?_, fun hq hp hn hno hal => ?_⟩⟩
  · by_cases hb : s.q.valid = true ∧ s.pool.valid = true ∧ w.toNat < s.pool.n
    · obtain ⟨hq, hp, hn⟩ := hb
      have htype : channelOrder s.img t = none ∨ s.q.alphaType = true ∧ hasAlpha t = true := by
        rw [channelOrder_eq_none_iff s.img ht, hasAlpha_iff_code ht]
        simp only [hq, hp, Nat.not_le.2 hn, Bool.true_eq_false, false_or] at h
        simpa [or_assoc] using h
      exact hraise (RowBuffer.rowChecks_type (s := s.beginCmd (.worker w)) k ⟨hm, hr, hq, hp, hn⟩ ht htype)
    · simp only [not_and_or, Bool.not_eq_true, not_lt] at hb
      exact hraise (rowChecks_noBuffer (s := s.beginCmd (.worker w)) k ht hm hr hb)
  · obtain ⟨chs, hchs⟩ : ∃ chs, channelOrder s.img t = some chs :=
      Option.ne_none_iff_exists'.1 fun e => hno ((channelOrder_eq_none_iff s.img ht).1 e)
    have htyped : RowTyped w qt (s.beginCmd (.worker w)) t chs :=
      ⟨⟨hm, hr, hq, hp, hn⟩, ht, hchs, fun h => hal h.1 ((hasAlpha_iff_code ht).1 h.2)⟩
    have hrest := htyped.rowChecks_eq k
    rw [← extentOf_eq s.q s.img ht]
    refine ⟨fun hy => hraise (hrest.trans (if_pos hy)), fun hy => ⟨fun he => ?_, fun he hrow => ?_⟩⟩
    · exact hraise (hrest.trans ((if_neg (Nat.not_le.2 hy)).trans (if_pos he)))
    · refine hraise (u := s.tookRow (s.argVal 0).toNat) (hrest.trans ((if_neg (Nat.not_le.2 hy)).trans
        ((if_neg (Nat.not_lt.2 he)).trans (if_neg ?_))))
      exact Bool.eq_false_iff.1 hrow

/-! ### The normal end of a worker's command (R33, R410, R420, R425) -/

/-- The state after a command of worker `w` that used `e` bytes of its buffer, and left these ports and this scratch
space. -/
def State.rowEnded (s : State) (w : BitVec 8) (e : Nat) (ports : Ports) (scratch : List Cell) : State :=
  { ((s.workerEnded w).setWres w (BitVec.ofNat 64 e)).clearWacc w with ports := ports, scratch := scratch }

/-- What a completed worker's command leaves, whatever it did to the ports and the scratch space. -/
theorem rowEnded_frame (s : State) (w : BitVec 8) (e : Nat) (ports : Ports) (scratch : List Cell) :
    (∀ v, v ≠ w → (s.rowEnded w e ports scratch).wstat v = s.wstat v ∧
      (s.rowEnded w e ports scratch).wresOf v = s.wresOf v) ∧
    { s.rowEnded w e ports scratch with
      wstatus := s.wstatus, wres := s.wres, scratch := s.scratch, waccPixel := s.waccPixel
      waccBits := s.waccBits, ports := s.ports } = s :=
  ⟨fun v hv => ⟨s.wstat_setWstat_other w v _ hv, s.wresOf_setWres_other w v _ hv⟩, rfl⟩

@[simp] theorem rowEnded_wstat (s : State) (w : BitVec 8) (e : Nat) (ports : Ports) (scratch : List Cell) :
    (s.rowEnded w e ports scratch).wstat w = WStatus.ended := s.wstat_setWstat w _

@[simp] theorem rowEnded_wresOf (s : State) (w : BitVec 8) (e : Nat) (ports : Ports) (scratch : List Cell) :
    (s.rowEnded w e ports scratch).wresOf w = BitVec.ofNat 64 e := s.wresOf_setWres w _

/-- A worker's command that passes its checks and then ends normally, as Q_PACK and Q_UNPACK do. -/
theorem exec_rowCommand {i : Instr} {w : BitVec 8} {qt : BitVec 4} {s : State} {t : QType} {chs : List Channel}
    {k : Nat → List Channel → Nat → State → CmdEnd} {ports : Ports} {scratch : List Cell} (ha : agentOf i = .worker w)
    (hbody : ∀ u, bodyOf i u = rowChecks w qt u k) (h : RowTyped w qt s t chs)
    (hy : (s.argVal 0).toNat < s.img.rows.toNat) (he : extentOf s.q s.img t ≤ s.pool.extent.toNat)
    (hrow : s.ports.nextRow = true)
    (hk : k (s.argVal 0).toNat chs (extentOf s.q s.img t) ((s.beginCmd (.worker w)).tookRow (s.argVal 0).toNat) =
      .normal ((State.setWres { (s.beginCmd (.worker w)).clearWacc w with ports := ports, scratch := scratch } w
        (BitVec.ofNat 64 (extentOf s.q s.img t))).clearWacc w)) :
    exec i s = .next (s.rowEnded w (extentOf s.q s.img t) ports scratch) := by
  have htyped : RowTyped w qt (s.beginCmd (.worker w)) t chs := h.congr rfl rfl rfl rfl
  have hend := (hbody _).trans ((htyped.rowChecks_eq k).trans ((if_neg (Nat.not_le.2 hy)).trans
    ((if_neg (Nat.not_lt.2 he)).trans ((if_pos hrow).trans hk))))
  rw [exec_eq, ha, runCmd, hend]
  simp [State.rowEnded, State.endCmd, State.beginCmd, State.workerEnded, State.setWstat, State.setWres,
    State.clearWacc, State.wstat, Vector.set_set]

/-! ### Asking for a row (R420) -/

/-- What GetSample does not touch of the ports: the source, what was sent and the Raise exchanges. -/
def Ports.sentSide (p : Ports) : List Byte × List Byte × List Byte × List PixWrite × List (ErrKind × BitVec 8) :=
  (p.src, p.rawOut, p.textOut, p.pixOut, p.raised)

theorem askPixel_sentSide (p : Params) (y x : Nat) (chs : List Channel) (ports : Ports) :
    (askPixel p y x chs ports).2.sentSide = ports.sentSide := by
  induction chs generalizing ports with
  | nil => rfl
  | cons c cs ih => exact ih (ports.tookSample (.getSample y x c.sel))

theorem askRow_sentSide (p : Params) (y : Nat) (chs : List Channel) (n x : Nat) (ports : Ports) :
    (askRow p y chs n x ports).2.sentSide = ports.sentSide := by
  induction n generalizing x ports with
  | zero => rfl
  | succ n ih => exact (ih (x + 1) _).trans (askPixel_sentSide p y x chs ports)

/-- A pixel takes one listed answer for each channel, in order. -/
theorem askPixel_answers (p : Params) (y x : Nat) (chs : List Channel) {ports : Ports} {vs more : List Rat}
    (hs : ports.samples = vs ++ more) (hlen : vs.length = chs.length) :
    (askPixel p y x chs ports).1 = vs.map (sampleLaw p) ∧ (askPixel p y x chs ports).2.samples = more := by
  induction chs generalizing ports vs with
  | nil =>
    obtain rfl := List.length_eq_zero_iff.1 hlen
    exact ⟨rfl, hs⟩
  | cons c cs ih =>
    obtain ⟨v, vs, rfl⟩ := List.exists_cons_of_length_eq_add_one hlen
    have hnext : ports.nextSample = v := by simp [Ports.nextSample, hs]
    obtain ⟨hvs, hmore⟩ := ih (ports := ports.tookSample (.getSample y x c.sel)) (vs := vs) (by simp [hs])
      (by simpa using hlen)
    exact ⟨by rw [askPixel, hnext, hvs, List.map_cons], hmore⟩

/-- A row takes the listed answers pixel by pixel. -/
theorem askRow_answers (p : Params) (y : Nat) (chs : List Channel) (x : Nat) {ports : Ports} {vss : List (List Rat)}
    {more : List Rat} (hs : ports.samples = vss.flatten ++ more) (hlen : ∀ vs ∈ vss, vs.length = chs.length) :
    (askRow p y chs vss.length x ports).1 = vss.map (List.map (sampleLaw p)) ∧
    (askRow p y chs vss.length x ports).2.samples = more := by
  induction vss generalizing x ports with
  | nil => exact ⟨rfl, hs⟩
  | cons vs vss ih =>
    obtain ⟨hvs, hrest⟩ := askPixel_answers p y x chs (hs.trans (List.append_assoc ..)) (hlen vs List.mem_cons_self)
    obtain ⟨hvss, hmore⟩ := ih (x + 1) hrest fun us hus => hlen us (List.mem_cons_of_mem _ hus)
    exact ⟨by rw [List.length_cons, askRow, hvs, hvss, List.map_cons], hmore⟩

/-- The samples Q_PACK asks for, and the ports after it has asked (R420). -/
def State.rowAsked (s : State) (chs : List Channel) : List (List Rat) × Ports :=
  askRow s.params (s.argVal 0).toNat chs s.img.columns.toNat 0 (s.ports.tookRow (s.argVal 0).toNat)

theorem rowAsked_sentSide (s : State) (chs : List Channel) : (s.rowAsked chs).2.sentSide = s.ports.sentSide :=
  askRow_sentSide _ _ _ _ _ _

theorem rowAsked_answers {s : State} {chs : List Channel} {vss : List (List Rat)} {more : List Rat}
    (hs : s.ports.samples = vss.flatten ++ more) (hcols : vss.length = s.img.columns.toNat)
    (hlen : ∀ vs ∈ vss, vs.length = chs.length) :
    (s.rowAsked chs).1 = vss.map (List.map (sampleLaw s.params)) ∧ (s.rowAsked chs).2.samples = more := by
  rw [State.rowAsked, ← hcols]
  exact askRow_answers s.params (s.argVal 0).toNat chs 0 (ports := s.ports.tookRow (s.argVal 0).toNat) hs hlen

/-! ### Q_PACK (R420) -/

/-- The codes of a row of answers: each one brought into its law, inverted where its channel asks, and exported. -/
def answerCodes (p : Params) (q : Descriptor) (chs : List Channel) (vss : List (List Rat)) : List (List Nat) :=
  vss.map fun vs => List.zipWith (fun c v => exportSample p q (channelFlip p q c (sampleLaw p v))) chs vs

theorem map_pixelCodes (p : Params) (q : Descriptor) (chs : List Channel) (vss : List (List Rat)) :
    (vss.map (List.map (sampleLaw p))).map (pixelCodes p q chs) = answerCodes p q chs vss := by
  simp [answerCodes, pixelCodes, List.zipWith_map_right, Function.comp_def]

/-- The packed row of a row of answers has the extent of its type. -/
theorem packRow_answerCodes_length (p : Params) (q : Descriptor) {img : ImageAttrs} {t : QType} {chs : List Channel}
    (hchs : channelOrder img t = some chs) {vss : List (List Rat)} (hn : vss.length = img.columns.toNat)
    (hlen : ∀ vs ∈ vss, vs.length = chs.length) :
    (packRow (layoutOf p q img) (answerCodes p q chs vss)).length = extentOf q img t := by
  refine packRow_layoutOf_length p q hchs (by simpa [answerCodes] using hn) fun us hus => ?_
  obtain ⟨vs, hvs, rfl⟩ := List.mem_map.1 hus
  simp [hlen vs hvs]

/-- Q_PACK whose checks pass ends normally, with the packed row at the start of its buffer. -/
theorem exec_qPack {w : BitVec 8} {qt : BitVec 4} {s : State} {t : QType} {chs : List Channel}
    (h : RowTyped w qt s t chs) (hy : (s.argVal 0).toNat < s.img.rows.toNat)
    (he : extentOf s.q s.img t ≤ s.pool.extent.toNat) (hrow : s.ports.nextRow = true) :
    exec (.qPack w qt) s = .next (s.rowEnded w (extentOf s.q s.img t) (s.rowAsked chs).2
      (scratchWrite s.scratch w.toNat 0
        (packRow (layoutOf s.params s.q s.img) ((s.rowAsked chs).1.map (pixelCodes s.params s.q chs))))) :=
  exec_rowCommand rfl (fun _ => rfl) h hy he hrow rfl

/-- Settles O43: the samples asked for are the listed answers, and their packed row is written at the buffer's start. -/
theorem qPackWritesTheRow : Obligations.QPackWritesTheRow := by
  intro s w qt t chs vss more ht hchs hm hr hq hp hn hal hy
  rw [← extentOf_eq s.q s.img ht]
  intro e he hrow hwf hsamples hcols hlen bytes
  have hbytes : bytes.length = e := packRow_answerCodes_length s.params s.q hchs hcols hlen
  obtain ⟨hvals, hmore⟩ := rowAsked_answers hsamples hcols hlen
  obtain ⟨hsrc, hraw, htext, hpix, hraised⟩ : _ ∧ _ ∧ _ ∧ _ ∧ _ := by
    simpa [Ports.sentSide] using rowAsked_sentSide s chs
  have hexec := exec_qPack ⟨⟨hm, hr, hq, hp, hn⟩, ht, hchs, hal⟩ hy he hrow
  rw [hvals, map_pixelCodes] at hexec
  obtain ⟨hothers, hframe⟩ := rowEnded_frame s w e (s.rowAsked chs).2 (scratchWrite s.scratch w.toNat 0 bytes)
  refine ⟨hbytes, _, hexec, rowEnded_wstat .., rowEnded_wresOf .., fun k hk => ?_, fun b o ho hne => ?_, hothers, rfl,
    rfl, hmore, hraw, htext, hpix, hraised, hsrc, hframe⟩
  · have hbyte := memRead_scratchWrite_at s.scratch w.toNat 0 bytes hwf k hk
    rwa [Nat.zero_add] at hbyte
  · refine memRead_scratchWrite_other s.scratch w.toNat 0 _ bytes ?_
    have hext := s.pool.extent.isLt
    rw [hbytes]
    simp only [scratchKey]
    omega

/-! ### Q_UNPACK (R425) -/

/-- The PutSample writes of a row by the columns of its pixels. -/
theorem rowWrites_eq (p : Params) (q : Descriptor) (y : Nat) (chs : List Channel) (x : Nat) (codes : List (List Nat)) :
    rowWrites p q y chs x codes = (codes.zipIdx x).flatMap fun (us, x) => pixelWrites p q y x chs us := by
  induction codes generalizing x with
  | nil => rfl
  | cons us rest ih => rw [rowWrites, ih, List.zipIdx_cons, List.flatMap_cons]

/-- The codes Q_UNPACK reads from the buffer of worker `w` (R425). -/
def State.rowCodes (s : State) (w : BitVec 8) (chs : List Channel) (e : Nat) : List (List Nat) :=
  unpackRow (layoutOf s.params s.q s.img) s.img.columns.toNat chs.length (scratchRead s.scratch w.toNat 0 e)

/-- Q_UNPACK whose checks pass ends normally, with its samples written and the scratch space as it was. -/
theorem exec_qUnpack {w : BitVec 8} {qt : BitVec 4} {s : State} {t : QType} {chs : List Channel}
    (h : RowTyped w qt s t chs) (hy : (s.argVal 0).toNat < s.img.rows.toNat)
    (he : extentOf s.q s.img t ≤ s.pool.extent.toNat) (hrow : s.ports.nextRow = true) :
    exec (.qUnpack w qt) s = .next (s.rowEnded w (extentOf s.q s.img t)
      { s.ports.tookRow (s.argVal 0).toNat with
        pixOut := s.ports.pixOut ++ rowWrites s.params s.q (s.argVal 0).toNat chs 0
          (s.rowCodes w chs (extentOf s.q s.img t)) } s.scratch) :=
  exec_rowCommand rfl (fun _ => rfl) h hy he hrow rfl

/-- Settles O44: the writes are those of the codes read back, and nothing but the worker's own registers is written. -/
theorem qUnpackStoresTheRow : Obligations.QUnpackStoresTheRow := by
  intro s w qt t chs ht hchs hm hr hq hp hn hal hy
  rw [← extentOf_eq s.q s.img ht]
  intro e he hrow codes
  have hexec := exec_qUnpack ⟨⟨hm, hr, hq, hp, hn⟩, ht, hchs, hal⟩ hy he hrow
  rw [rowWrites_eq] at hexec
  obtain ⟨hothers, hframe⟩ := rowEnded_frame s w e s.ports s.scratch
  exact ⟨_, hexec, rowEnded_wstat .., rowEnded_wresOf .., rfl, hothers, rfl, rfl, rfl, rfl, rfl, rfl, rfl, hframe⟩

end Sys2Proof.Machine
end

section
/-! PROOFS. POOL_ACQUIRE (O51): the old pool goes, then a fresh one is there or none. -/

namespace Sys2Proof.Machine

open Host

/-! ### The guards and the release of a pool (R441, R445) -/

theorem guardsIntact_iff (s : State) :
    s.guardsIntact = true ↔ ∀ b < s.pool.n, s.scratchByte b s.pool.extent.toNat = 0xAB := by
  simp [State.guardsIntact, Config.guardSignature]

/-- PoolRelease finds every guard byte it looks at intact. -/
theorem guardBad_eq_false {s : State}
    (h : s.ctrl.getLsbD 1 = true → ∀ b < s.pool.n, s.scratchByte b s.pool.extent.toNat = 0xAB) :
    s.guardBad = false := by
  cases hd : s.ctrl.getLsbD 1 with
  | false => exact Bool.and_eq_false_iff.2 (.inl hd)
  | true => simp [State.guardBad, (guardsIntact_iff s).2 (h hd)]

theorem guardBad_eq_true {s : State} (hd : s.ctrl.getLsbD 1 = true)
    (h : ∃ b < s.pool.n, s.scratchByte b s.pool.extent.toNat ≠ 0xAB) : s.guardBad = true := by
  obtain ⟨b, hb, hne⟩ := h
  have hbad : s.guardsIntact = false := Bool.eq_false_iff.2 fun e => hne ((guardsIntact_iff s).1 e b hb)
  simp [State.guardBad, State.debug, hd, hbad]

section Release

variable {s : State} (k : State → CmdEnd)

theorem releaseThen_noPool (hv : s.pool.valid = false) : releaseThen s k = k s := by
  rw [releaseThen, hv, if_neg Bool.false_ne_true]

theorem releaseThen_intact (hv : s.pool.valid = true) (h : s.guardBad = false) : releaseThen s k = k s.freePool := by
  rw [releaseThen, if_pos hv, h, if_neg Bool.false_ne_true]

theorem releaseThen_bad (hv : s.pool.valid = true) (h : s.guardBad = true) :
    releaseThen s k = .raised .guardViolation s.freePool := by
  rw [releaseThen, if_pos hv, if_pos h]

/-- With no pool, legal storage is as PoolRelease leaves it. -/
theorem freePool_of_noPool (hv : s.pool.valid = false) (hp : s.poolLegal) (hm : s.scratchLegal) : s.freePool = s := by
  obtain ⟨-, hempty⟩ := hm
  have hpool : s.pool = Pool.reset := by simpa [State.poolLegal, hv] using hp
  rw [State.freePool, ← hpool, ← hempty hv]

/-- From legal storage the command goes on with no pool, if there is no bad guard. -/
theorem releaseThen_of_legal (hp : s.poolLegal) (hm : s.scratchLegal)
    (h : s.pool.valid = true → s.guardBad = false) : releaseThen s k = k s.freePool := by
  cases hv : s.pool.valid with
  | false => rw [releaseThen_noPool k hv, freePool_of_noPool hv hp hm]
  | true => exact releaseThen_intact k hv (h hv)

end Release

/-! ### PoolAcquire (R442) -/

section PoolAcquire

variable {e : Nat} {s : State}

theorem poolAcquire_tooLarge (h : 2 ^ 64 ≤ s.freshN * (e + 1)) :
    poolAcquire e s = .raised .resourceLimit { s with ports := s.ports.tookThreads } :=
  if_pos (show 2 ^ 64 - 1 < s.freshN * (e + 1) by omega)

theorem poolAcquire_refused (h : s.freshN * (e + 1) < 2 ^ 64) (ha : s.ports.tookThreads.nextAlloc = false) :
    poolAcquire e s =
      .raised .resourceLimit { s with ports := s.ports.tookThreads.tookAlloc .pool (s.freshN * (e + 1)) } := by
  have hsize : ¬Config.sizeMax < s.freshN * (e + 1) := by unfold Config.sizeMax; omega
  exact (if_neg hsize).trans (if_neg (ha ▸ Bool.false_ne_true))

theorem poolAcquire_fresh (h : s.freshN * (e + 1) < 2 ^ 64) (ha : s.ports.tookThreads.nextAlloc = true) :
    poolAcquire e s = .normal
      { s with
        ports := s.ports.tookThreads.tookAlloc .pool (s.freshN * (e + 1))
        pool := ⟨true, s.freshN, BitVec.ofNat 64 e⟩
        scratch := freshScratch s.freshN e } := by
  have hsize : ¬Config.sizeMax < s.freshN * (e + 1) := by unfold Config.sizeMax; omega
  exact (if_neg hsize).trans (if_pos ha)

end PoolAcquire

/-! ### POOL_ACQUIRE (R441) -/

/-- With a descriptor and no busy worker POOL_ACQUIRE releases the pool and acquires one of ARG0's extent. -/
theorem bodyOf_poolAcquire {s : State} (hw : s.anyWorkerBusy = false) (hq : s.q.valid = true) :
    bodyOf .poolAcquire (s.beginCmd .seq) = releaseThen (s.beginCmd .seq) (poolAcquire (s.argVal 0).toNat) :=
  (hazardCheck_of_idle (s := s.beginCmd .seq) hw _).trans (if_pos hq)

/-- POOL_ACQUIRE completes with a fresh pool, whatever the old one was. -/
theorem exec_poolAcquire_fresh {s : State} (hw : s.anyWorkerBusy = false) (hq : s.q.valid = true)
    (hguard : s.pool.valid = true → s.guardBad = false) (hsize : s.freshN * ((s.argVal 0).toNat + 1) < 2 ^ 64)
    (ha : s.ports.tookThreads.nextAlloc = true) :
    exec .poolAcquire s = .next { s.seqEnded with
      pool := ⟨true, s.freshN, s.argVal 0⟩, scratch := freshScratch s.freshN (s.argVal 0).toNat
      ports := s.ports.tookThreads.tookAlloc .pool (s.freshN * ((s.argVal 0).toNat + 1)) } := by
  refine exec_seq_ended (i := .poolAcquire) (t := { s with
    pool := ⟨true, s.freshN, s.argVal 0⟩, scratch := freshScratch s.freshN (s.argVal 0).toNat
    ports := s.ports.tookThreads.tookAlloc .pool (s.freshN * ((s.argVal 0).toNat + 1)) }) rfl ?_
  have harg : BitVec.ofNat 64 (s.argVal 0).toNat = s.argVal 0 := by simp
  rw [bodyOf_poolAcquire hw hq]
  cases hv : s.pool.valid with
  | false =>
    rw [releaseThen_noPool (s := s.beginCmd .seq) _ hv, poolAcquire_fresh (s := s.beginCmd .seq) hsize ha, harg]
    rfl
  | true =>
    rw [releaseThen_intact (s := s.beginCmd .seq) _ hv (hguard hv),
      poolAcquire_fresh (s := State.freePool (s.beginCmd .seq)) hsize ha, harg]
    rfl

/-- A POOL_ACQUIRE from legal storage that gets past the guards raises what PoolAcquire raises from no pool. -/
theorem exec_poolAcquire_raised {s t : State} (hw : s.anyWorkerBusy = false) (hq : s.q.valid = true) (hp : s.poolLegal)
    (hm : s.scratchLegal) (hguard : s.pool.valid = true → s.guardBad = false)
    (h : poolAcquire (s.argVal 0).toNat (s.freePool.beginCmd .seq) = .raised .resourceLimit (t.beginCmd .seq)) :
    exec .poolAcquire s = .next (t.seqRaised 0x40 .resourceLimit) :=
  exec_seq_raised (i := .poolAcquire) rfl
    ((bodyOf_poolAcquire hw hq).trans ((releaseThen_of_legal (s := s.beginCmd .seq) _ hp hm hguard).trans h))

/-- Settles O51: the guards decide whether PoolAcquire runs, and the size and Alloc's answer how it ends. -/
theorem poolAcquireGivesFreshBuffersOrNone : Obligations.PoolAcquireGivesFreshBuffersOrNone := by
  refine ⟨fun s hw hq hguard hsize ha => ⟨freshScratch s.freshN (s.argVal 0).toNat, ?_, memWf_freshScratch _ _,
    fun b o ho => ?_, fun b hb => ?_⟩, fun s hw hq hp hm => ⟨fun hv hd hbad => ?_, fun hguard =>
      ⟨fun hsize => ?_, fun hsize ha => ?_⟩⟩⟩
  · exact exec_poolAcquire_fresh hw hq (fun hv => guardBad_eq_false (hguard hv)) hsize ha
  · have he := (s.argVal 0).isLt
    rw [memRead_freshScratch _ _ b o he (ho.trans he), if_neg fun h => ho.ne h.2]
  · have he := (s.argVal 0).isLt
    rw [memRead_freshScratch _ _ b _ he he, if_pos ⟨hb, rfl⟩]
    rfl
  · exact exec_seq_raised (i := .poolAcquire) (t := s.freePool) rfl ((bodyOf_poolAcquire hw hq).trans
      (releaseThen_bad (s := s.beginCmd .seq) _ hv (guardBad_eq_true (s := s.beginCmd .seq) hd hbad)))
  · exact exec_poolAcquire_raised hw hq hp hm (fun _ => guardBad_eq_false hguard)
      (t := { s.freePool with ports := s.ports.tookThreads })
      (poolAcquire_tooLarge (s := s.freePool.beginCmd .seq) hsize)
  · exact exec_poolAcquire_raised hw hq hp hm (fun _ => guardBad_eq_false hguard)
      (t := { s.freePool with
        ports := s.ports.tookThreads.tookAlloc .pool (s.freshN * ((s.argVal 0).toNat + 1)) })
      (poolAcquire_refused (s := s.freePool.beginCmd .seq) hsize ha)

end Sys2Proof.Machine
end

section
/-! PROOFS. The decoder and the encoder: each command has one word (O1, O2), the words that decode are those of the
opcode table (O3, O4), and any other word only raises IllegalCommand (O5, O6). -/

namespace Sys2Proof.Machine

open Laws

/-! ### A word and its fields (R120, R133) -/

@[simp] theorem qtOf_packWord (opc w : BitVec 8) (qt : BitVec 4) (imm : BitVec 12) :
    qtOf (packWord opc w qt imm) = qt := by
  refine BitVec.eq_of_getLsbD_eq fun j hj => ?_
  simp [qtOf, packWord_getLsbD, show ¬16 + j < 8 by omega, show 16 + j < 20 by omega, hj]

@[simp] theorem immOf_packWord (opc w : BitVec 8) (qt : BitVec 4) (imm : BitVec 12) :
    immOf (packWord opc w qt imm) = imm := by
  refine BitVec.eq_of_getLsbD_eq fun j hj => ?_
  simp [immOf, packWord_getLsbD, show ¬20 + j < 8 by omega, show ¬20 + j < 16 by omega, hj]

/-- A word is its four fields. -/
theorem packWord_fields (c : Word) : packWord (opcOf c) (wOf c) (qtOf c) (immOf c) = c := by
  refine BitVec.eq_of_getLsbD_eq fun j hj => ?_
  rw [packWord_getLsbD]
  split_ifs with h8 h16 h20
  · simp [opcOf, h8]
  · simp [wOf, show j - 8 < 8 by omega, show 8 + (j - 8) = j by omega]
  · simp [qtOf, show j - 16 < 4 by omega, show 16 + (j - 16) = j by omega]
  · simp [immOf, show j - 20 < 12 by omega, show 20 + (j - 20) = j by omega]

theorem packWord_inj {opc opc' w w' : BitVec 8} {qt qt' : BitVec 4} {imm imm' : BitVec 12} :
    packWord opc w qt imm = packWord opc' w' qt' imm' ↔ opc = opc' ∧ w = w' ∧ qt = qt' ∧ imm = imm' := by
  refine ⟨fun h => ⟨?_, ?_, ?_, ?_⟩, by rintro ⟨rfl, rfl, rfl, rfl⟩; rfl⟩
  · simpa using congrArg opcOf h
  · simpa using congrArg wOf h
  · simpa using congrArg qtOf h
  · simpa using congrArg immOf h

/-- A mask of a word masks each field. -/
theorem packWord_and (opc opc' w w' : BitVec 8) (qt qt' : BitVec 4) (imm imm' : BitVec 12) :
    packWord opc w qt imm &&& packWord opc' w' qt' imm' =
      packWord (opc &&& opc') (w &&& w') (qt &&& qt') (imm &&& imm') := by
  refine BitVec.eq_of_getLsbD_eq fun j hj => ?_
  simp only [BitVec.getLsbD_and, packWord_getLsbD]
  split_ifs <;> rfl

/-! ### The codes an immediate holds (R123, R126, R127) -/

/-- IMM with its low `k` bits kept and the others 0. -/
def lowBits (k : Nat) (imm : BitVec 12) : BitVec 12 := (imm.extractLsb' 0 k).setWidth 12

theorem setWidth_extractLsb' (k : Nat) (imm : BitVec 12) : (imm.extractLsb' 0 k).setWidth 12 = lowBits k imm := rfl

theorem lowBits_zero (imm : BitVec 12) : lowBits 0 imm = 0 := by
  rw [lowBits, BitVec.eq_nil (imm.extractLsb' 0 0)]
  rfl

theorem lowBits_eq_self {imm : BitVec 12} {k : Nat} (h : imm.toNat < 2 ^ k) : lowBits k imm = imm := by
  refine BitVec.eq_of_toNat_eq ?_
  rw [lowBits, BitVec.toNat_setWidth, BitVec.extractLsb'_toNat, Nat.shiftRight_zero, Nat.mod_eq_of_lt h,
    Nat.mod_eq_of_lt imm.isLt]

theorem immFlag_getLsbD (imm : BitVec 12) : immFlag (imm.getLsbD 0) = lowBits 1 imm := by
  have hbit : BitVec.ofBool (imm.getLsbD 0) = imm.extractLsb' 0 1 := by
    refine BitVec.eq_of_getLsbD_eq fun j hj => ?_
    simp [show j = 0 by omega]
  rw [immFlag, hbit, lowBits]

theorem immPort_portOf (imm : BitVec 12) : immPort (portOf imm) = lowBits 1 imm := by
  rw [← immFlag_getLsbD, portOf]
  cases imm.getLsbD 0 <;> rfl

theorem immColour_colourOf (imm : BitVec 12) : immColour (colourOf imm) = lowBits 1 imm := by
  rw [← immFlag_getLsbD, colourOf]
  cases imm.getLsbD 0 <;> rfl

theorem extractLsb'_setWidth {k : Nat} (hk : k ≤ 12) (v : BitVec k) : (v.setWidth 12).extractLsb' 0 k = v := by
  refine BitVec.eq_of_getLsbD_eq fun j hj => ?_
  simp [hj, show j < 12 by omega]

/-- A code of `k` bits sets no bit of IMM above them. -/
theorem toNat_setWidth_lt {k : Nat} (v : BitVec k) : (v.setWidth 12).toNat < 2 ^ k := by
  rw [BitVec.toNat_setWidth]
  exact (Nat.mod_le _ _).trans_lt v.isLt

@[simp] theorem getLsbD_immFlag (b : Bool) : (immFlag b).getLsbD 0 = b := by cases b <;> rfl

theorem immFlag_lt (b : Bool) : (immFlag b).toNat < 2 ^ 1 := toNat_setWidth_lt _

@[simp] theorem portOf_immPort (p : Port) : portOf (immPort p) = p := by cases p <;> rfl

@[simp] theorem colourOf_immColour (c : Colour) : colourOf (immColour c) = c := by cases c <;> rfl

/-! ### The row of a word (R125, R129) -/

theorem unusedClear_iff {r : OpRow} {w : BitVec 8} {qt : BitVec 4} {imm : BitVec 12} :
    r.unusedClear w qt imm = true ↔
      (r.usesW = true ∨ w = 0) ∧ (r.usesQt = true ∨ qt = 0) ∧ imm.toNat < 2 ^ r.immBits := by
  simp [OpRow.unusedClear, and_assoc]

/-- The word has the row's opcode, and the fields the row does not use are 0. -/
def FitsRow (c : Word) (r : OpRow) : Prop :=
  opRow (opcOf c) = some r ∧ r.unusedClear (wOf c) (qtOf c) (immOf c) = true

/-- The command the row reads from the word. -/
def readRow (r : OpRow) (c : Word) : Instr := r.make (wOf c) (qtOf c) (immOf c)

/-- The decoder accepts the words that fit a row and hold no reserved value (R132). -/
theorem decode_eq_ok_iff {c : Word} {i : Instr} :
    decode c = .ok i ↔ ∃ r, FitsRow c r ∧ readRow r c = i ∧ i.wf = true := by
  unfold decode FitsRow readRow
  cases hr : opRow (opcOf c) with
  | none => simp
  | some r =>
    simp only [Option.some.injEq]
    constructor
    · intro h
      split_ifs at h with hc hwf
      injection h with h
      exact ⟨r, ⟨rfl, hc⟩, h, h ▸ hwf⟩
    · rintro ⟨r, ⟨rfl, hc⟩, rfl, hwf⟩
      rw [if_pos hc, if_pos hwf]

/-- The command a row reads is written as the fields the row uses, the others 0. -/
theorem encode_make {opc : BitVec 8} {r : OpRow} (h : opRow opc = some r) (w : BitVec 8) (qt : BitVec 4)
    (imm : BitVec 12) : encode (r.make w qt imm) =
      packWord opc (if r.usesW then w else 0) (if r.usesQt then qt else 0) (lowBits r.immBits imm) := by
  unfold opRow at h
  split at h
  case h_36 => cases h
  all_goals
    rename_i ho
    cases h
    refine packWord_inj.2 ⟨BitVec.eq_of_toNat_eq ho.symm, rfl, rfl, ?_⟩
    simp only [setWidth_extractLsb', immFlag_getLsbD, immPort_portOf, immColour_colourOf, lowBits_zero]

/-- A word that fits a row is the word of the command the row reads from it: no two words stand for one command. -/
theorem encode_readRow {c : Word} {r : OpRow} (h : FitsRow c r) : encode (readRow r c) = c := by
  obtain ⟨hrow, hclear⟩ := h
  obtain ⟨hw, hqt, himm⟩ := unusedClear_iff.1 hclear
  have hw' : (if r.usesW then wOf c else 0) = wOf c := ite_eq_left_iff.2 fun hu => (hw.resolve_left hu).symm
  have hqt' : (if r.usesQt then qtOf c else 0) = qtOf c := ite_eq_left_iff.2 fun hu => (hqt.resolve_left hu).symm
  rw [readRow, encode_make hrow, hw', hqt', lowBits_eq_self himm, packWord_fields]

/-- A row that fits a packed word, and the command it reads. -/
theorem fitsRow_packWord {opc w : BitVec 8} {qt : BitVec 4} {imm : BitVec 12} {r : OpRow} {i : Instr}
    (hrow : opRow opc = some r) (hw : r.usesW = true ∨ w = 0) (hqt : r.usesQt = true ∨ qt = 0)
    (himm : imm.toNat < 2 ^ r.immBits) (hmake : r.make w qt imm = i) :
    ∃ r, FitsRow (packWord opc w qt imm) r ∧ readRow r (packWord opc w qt imm) = i := by
  refine ⟨r, ⟨by rwa [opcOf_packWord], unusedClear_iff.2 ?_⟩, ?_⟩
  · simpa only [wOf_packWord, qtOf_packWord, immOf_packWord] using ⟨hw, hqt, himm⟩
  · simpa only [readRow, wOf_packWord, qtOf_packWord, immOf_packWord] using hmake

/-- The word of a command fits the row of its opcode, which reads the command back from it. -/
theorem exists_fitsRow_encode (i : Instr) : ∃ r, FitsRow (encode i) r ∧ readRow r (encode i) = i := by
  cases i with
  | ctrlWrite v | qSetFormat v | qSetEndian v | bwPutCode v | qSetDepth v =>
    exact fitsRow_packWord rfl (.inr rfl) (.inr rfl) (toNat_setWidth_lt v)
      (by simp (disch := decide) only [extractLsb'_setWidth])
  | bwPutBit b | qSetPolarity b | rsExport b | rsImport b =>
    exact fitsRow_packWord rfl (.inr rfl) (.inr rfl) (immFlag_lt b) (by simp only [getLsbD_immFlag])
  | bwInit p | faxEncode p =>
    exact fitsRow_packWord rfl (.inr rfl) (.inr rfl) (immFlag_lt _) (by simp only [portOf_immPort])
  | faxLookup col =>
    exact fitsRow_packWord rfl (.inr rfl) (.inr rfl) (immFlag_lt _) (by simp only [colourOf_immColour])
  | lzwEncode w p | packbitsEncode w p =>
    exact fitsRow_packWord rfl (.inl rfl) (.inr rfl) (immFlag_lt _) (by simp only [portOf_immPort])
  | qGetExtent qt | qSetImageType qt =>
    exact fitsRow_packWord rfl (.inr rfl) (.inl rfl) Nat.one_pos rfl
  | qPack w qt | qUnpack w qt => exact fitsRow_packWord rfl (.inl rfl) (.inl rfl) Nat.one_pos rfl
  | poolGet w => exact fitsRow_packWord rfl (.inl rfl) (.inr rfl) Nat.one_pos rfl
  | _ => exact fitsRow_packWord rfl (.inr rfl) (.inr rfl) Nat.one_pos rfl

/-- Settles O1: the row of the command's opcode reads the command back from its word. -/
theorem decodeOfEncodeIsTheCommand : Obligations.DecodeOfEncodeIsTheCommand := by
  intro i hwf
  obtain ⟨r, hfits, hread⟩ := exists_fitsRow_encode i
  exact decode_eq_ok_iff.2 ⟨r, hfits, hread, hwf⟩

/-- Settles O2: a word that decodes fits a row, so its unused fields are the 0s that the encoder writes. -/
theorem encodeOfDecodeIsTheWord : Obligations.EncodeOfDecodeIsTheWord := by
  intro c i h
  obtain ⟨r, hfits, rfl, hwf⟩ := decode_eq_ok_iff.1 h
  exact ⟨hwf, encode_readRow hfits⟩

/-! ### The rows as masks of a word, and the reserved values (R125, R130) -/

/-- The bits of a word that the row needs to be its opcode and 0. -/
def rowMask (r : OpRow) : Word :=
  packWord 0xFF (if r.usesW then 0 else 0xFF) (if r.usesQt then 0 else 0xF) (BitVec.allOnes 12 <<< r.immBits)

/-- Masking a used field with 0 always gives 0, and an unused one with all ones gives the field. -/
theorem and_unusedMask_eq_zero {n : Nat} (x : BitVec n) (used : Bool) :
    x &&& (if used then 0 else BitVec.allOnes n) = 0 ↔ used = true ∨ x = 0 := by
  cases used <;> simp

/-- IMM has no bit above its low `k` when its value needs `k` bits. -/
theorem and_highMask_eq_zero (imm : BitVec 12) (k : Nat) :
    imm &&& BitVec.allOnes 12 <<< k = 0 ↔ imm.toNat < 2 ^ k := by
  constructor
  · intro h
    refine Nat.lt_pow_two_of_testBit _ fun j hj => ?_
    rw [BitVec.testBit_toNat]
    by_cases h12 : j < 12
    · have hbit := congrArg (BitVec.getLsbD · j) h
      simpa only [BitVec.getLsbD_and, BitVec.getLsbD_shiftLeft, BitVec.getLsbD_allOnes, h12, Nat.not_lt.2 hj,
        show j - k < 12 by omega, decide_true, decide_false, Bool.not_false, Bool.and_true,
        BitVec.ofNat_eq_ofNat, BitVec.getLsbD_zero] using hbit
    · exact BitVec.getLsbD_of_ge imm j (Nat.not_lt.1 h12)
  · intro h
    refine BitVec.eq_of_getLsbD_eq fun j hj => ?_
    by_cases hk : j < k
    · simp [hk]
    · have hbit : imm.getLsbD j = false :=
        Nat.testBit_lt_two_pow (h.trans_le (Nat.pow_le_pow_right Nat.two_pos (Nat.not_lt.1 hk)))
      simp [hbit]

theorem and_rowMask_eq_iff (c : Word) (opc : BitVec 8) (r : OpRow) :
    c &&& rowMask r = packWord opc 0 0 0 ↔ opcOf c = opc ∧ r.unusedClear (wOf c) (qtOf c) (immOf c) = true := by
  have hopc : opcOf c &&& 0xFF = opcOf c := BitVec.and_allOnes
  rw [unusedClear_iff, ← and_unusedMask_eq_zero, ← and_unusedMask_eq_zero, ← and_highMask_eq_zero]
  conv_lhs => rw [← packWord_fields c, rowMask, packWord_and, packWord_inj, hopc]
  rfl

/-- The table of the spec lists the decoder's rows in the order of their opcodes. -/
theorem cmdTable_eq : cmdTable = (List.range 256).filterMap fun n =>
    (opRow (BitVec.ofNat 8 n)).map fun r => (packWord (BitVec.ofNat 8 n) 0 0 0, rowMask r) := by
  decide +kernel

theorem mem_cmdTable_iff {p : Word × Word} :
    p ∈ cmdTable ↔ ∃ opc r, opRow opc = some r ∧ p = (packWord opc 0 0 0, rowMask r) := by
  rw [cmdTable_eq, List.mem_filterMap]
  simp only [List.mem_range, Option.map_eq_some_iff]
  constructor
  · rintro ⟨n, -, r, hr, rfl⟩
    exact ⟨_, r, hr, rfl⟩
  · rintro ⟨opc, r, hr, rfl⟩
    refine ⟨opc.toNat, opc.isLt, r, ?_⟩
    rw [BitVec.ofNat_toNat, BitVec.setWidth_eq]
    exact ⟨hr, rfl⟩

theorem exists_fitsRow_iff (c : Word) : (∃ r, FitsRow c r) ↔ ∃ p ∈ cmdTable, c &&& p.2 = p.1 := by
  simp only [mem_cmdTable_iff]
  constructor
  · rintro ⟨r, hrow, hclear⟩
    exact ⟨_, ⟨_, r, hrow, rfl⟩, (and_rowMask_eq_iff c _ r).2 ⟨rfl, hclear⟩⟩
  · rintro ⟨_, ⟨opc, r, hrow, rfl⟩, hmask⟩
    obtain ⟨rfl, hclear⟩ := (and_rowMask_eq_iff c opc r).1 hmask
    exact ⟨r, hrow, hclear⟩

/-- The word of a command holds a reserved value exactly when the command does. -/
theorem holdsReserved_encode (i : Instr) : holdsReserved (encode i) ↔ i.wf = false := by
  cases i with
  | qSetFormat v | qSetEndian v =>
    revert v
    unfold holdsReserved
    decide
  | qGetExtent qt | qSetImageType qt | qPack w qt | qUnpack w qt => simp [holdsReserved, encode, Instr.wf, qtOk]
  | _ => simp [holdsReserved, encode, Instr.wf]

/-- Settles O3: the table's masks say that a word fits a row, and the word holds the values of the command read. -/
theorem acceptedWordsFollowTheOpcodeTable : Obligations.AcceptedWordsFollowTheOpcodeTable := by
  intro c
  have hwf : ∀ r, FitsRow c r → ((readRow r c).wf = true ↔ ¬holdsReserved c) := fun r hfits => by
    conv_rhs => rw [← encode_readRow hfits, holdsReserved_encode, Bool.not_eq_false]
  simp only [decode_eq_ok_iff, ← exists_fitsRow_iff]
  constructor
  · rintro ⟨i, r, hfits, rfl, hi⟩
    exact ⟨⟨r, hfits⟩, (hwf r hfits).1 hi⟩
  · rintro ⟨⟨r, hfits⟩, hres⟩
    exact ⟨_, r, hfits, rfl, (hwf r hfits).2 hres⟩

/-- Settles O4, by running the decoder on the nine words. -/
theorem specWordsDecodeToTheirCommands : Obligations.SpecWordsDecodeToTheirCommands := by
  unfold Obligations.SpecWordsDecodeToTheirCommands
  decide

/-! ### A word that does not decode (R121, R128, R505) -/

/-- A command whose pseudocode raises at once has no other effect. -/
theorem runCmd_raised (a : Agent) (opc : BitVec 8) (k : ErrKind) (s : State) :
    runCmd a opc (.raised k) s = .next (s.onlyRaised a opc k) := by
  cases a with
  | seq => rfl
  | worker w =>
    simp [runCmd, State.raiseErr, State.beginCmd, State.onlyRaised, State.workerRaised, State.setWstat_setWstat,
      Ports.raise]

/-- Settles O6: whichever check refuses the word, its target agent runs a command that raises at once. -/
theorem undecodableWordOnlyRaises : Obligations.UndecodableWordOnlyRaises := by
  intro c e s h
  rw [runWord, h]
  exact runCmd_raised _ _ _ s

/-- Settles O5: the opcodes listed are those that have a row, and the two that target a worker are among them. -/
theorem reservedOpcodeRaisesIllegalCommand : Obligations.ReservedOpcodeRaisesIllegalCommand := by
  intro c s hopc
  have hrow : opRow (opcOf c) = none := by
    unfold opRow
    split
    case h_36 => rfl
    all_goals
      rename_i ho
      simp [ho] at hopc
  have hdecode : decode c = .error .reservedOpcode := by rw [decode, hrow]
  have htarget : targetOf c = .seq := by
    refine if_neg fun h => hopc ?_
    obtain h | h := h <;> rw [h] <;> decide
  rw [undecodableWordOnlyRaises c _ s hdecode, htarget, State.onlyRaised]

end Sys2Proof.Machine
end

section
/-! PROOFS. O14: the short bit unit commands. O17: Sync stops just past the next EOL, or at the end of the input. -/

namespace Sys2Proof.Machine

open Host

/-! ### BW_INIT, BR_INIT, BW_PUT_BIT, BW_FLUSH and the lengths of BW_PUT_CODE (R203 to R206, R210) -/

theorem exec_bwInit (port : Port) (s : State) :
    exec (.bwInit port) s = .next { s.seqEnded with bw := ⟨0, 0x80, port⟩ } := by
  rw [exec]; rfl

theorem exec_brInit (s : State) : exec .brInit s = .next { s.seqEnded with br := ⟨0, 0, false, 0⟩ } := by
  rw [exec]; rfl

theorem exec_bwPutBit (v : Bool) (s : State) :
    exec (.bwPutBit v) s = .next { s.seqEnded with
      bw := (putBit v ⟨s.bw, []⟩).bw, ports := s.ports.sink s.bw.port (putBit v ⟨s.bw, []⟩).out } := by
  rw [exec]; rfl

theorem exec_bwFlush (s : State) :
    exec .bwFlush s = .next { s.seqEnded with
      bw := (flushWriter ⟨s.bw, []⟩).bw, ports := s.ports.sink s.bw.port (flushWriter ⟨s.bw, []⟩).out } := by
  rw [exec]; rfl

/-- PutBit that leaves BW_MASK a bit sends nothing (R200); the writer need not be legal. -/
theorem putBit_of_ne_zero {x : Writer} (h : x.bw.mask >>> 1 ≠ 0) (v : Bool) :
    putBit v x = ⟨⟨x.bw.placed v, x.bw.mask >>> 1, x.bw.port⟩, x.out⟩ := if_neg h

/-- PutBit that runs BW_MASK out sends the byte (R200); the writer need not be legal. -/
theorem putBit_of_eq_zero {x : Writer} (h : x.bw.mask >>> 1 = 0) (v : Bool) :
    putBit v x = ⟨⟨0, 0x80, x.bw.port⟩, x.out ++ [x.bw.placed v]⟩ := if_pos h

theorem flushWriter_of_fresh {x : Writer} (h : x.bw.mask = 0x80) : flushWriter x = x := if_pos h

theorem flushWriter_of_pending {x : Writer} (h : x.bw.mask ≠ 0x80) :
    flushWriter x = ⟨⟨0, 0x80, x.bw.port⟩, x.out ++ [x.bw.byte]⟩ := if_neg h

theorem exec_bwPutCode_refused {len : BitVec 6} (h : len.toNat = 0 ∨ 32 < len.toNat) (s : State) :
    exec (.bwPutCode len) s = .next (s.seqRaised 0x0A .option) := by
  rw [exec, execBwPutCode, runCmd_seq, if_pos h]
  rfl

/-- Settles O14: PutBit and Flush by their two branches, the other commands by their pseudocode. -/
theorem bitUnitCommandsComplete : Obligations.BitUnitCommandsComplete := by
  refine ⟨fun s => ⟨fun port => exec_bwInit port s, exec_brInit s⟩, fun s v => ⟨fun h => ?_, fun h => ?_⟩,
    fun s => ⟨fun h => ?_, fun h => ?_⟩, fun s _ h => exec_bwPutCode_refused h s⟩
  · rw [exec_bwPutBit, putBit_of_ne_zero h, Ports.sink_nil]
    rfl
  · rw [exec_bwPutBit, putBit_of_eq_zero h]
    rfl
  · rw [exec_bwFlush, flushWriter_of_fresh h, Ports.sink_nil]
    rfl
  · rw [exec_bwFlush, flushWriter_of_pending h]
    rfl

/-! ### Sync (R209) -/

/-- Where Sync ends: just past the 1 bit of an EOL, this many bits still to come; or at the end of the input. -/
def SyncEnds : Option (List Bool) → Bool × Reader → Prop
  | some bits, r => r.1 = true ∧ r.2.bits = bits ∧ r.2.br.eof = false ∧ r.2.br.zrun = 0
  | none, r => r.1 = false ∧ r.2.bits = [] ∧ r.2.br.eof = true

theorem bits_length_le_bitsLeft (x : Reader) : x.bits.length ≤ x.bitsLeft := by
  unfold Reader.bits Reader.bitsLeft
  split
  · simp
  · rw [List.length_append, flatMap_byteBits_length]
    split <;> simp

/-- The second loop, at least 11 zeros having come: it stops past the next 1 bit. -/
theorem syncOne_ends {z k : Nat} {x : Reader} (hz : 11 ≤ z) (h : x.br.legal) (hk : x.bits.length < k) :
    SyncEnds (afterEol z x.bits) (syncOne k x) := by
  induction k generalizing z x with
  | zero => cases hk
  | succ k ih =>
    have hlegal := legal_getBit h
    obtain ⟨hbits, hget⟩ | ⟨b, y, hget, hbits, heof, hzrun⟩ := getBit_spec h <;> rw [hget] at hlegal
    · simp only [syncOne, hget, hbits, afterEol]
      exact ⟨rfl, rfl, rfl⟩
    · rw [hbits, List.length_cons] at hk
      cases b with
      | true =>
        simp only [syncOne, hget, hbits, afterEol, if_pos hz]
        exact ⟨rfl, rfl, heof, BitVec.eq_of_toNat_eq hzrun⟩
      | false =>
        simp only [syncOne, hget, hbits, afterEol]
        exact ih (by omega) hlegal (by omega)

/-- The first loop: it stops at a place that 11 zeros precede, no EOL having ended before it, or at the end of the
input. -/
theorem syncZeros_spec {k : Nat} {x : Reader} (h : x.br.legal) (hk : x.bits.length < k) :
    (∃ y, syncZeros k x = (true, y) ∧ 11 ≤ y.br.zrun.toNat ∧
      afterEol x.br.zrun.toNat x.bits = afterEol y.br.zrun.toNat y.bits) ∨
    ∃ y, syncZeros k x = (false, y) ∧ afterEol x.br.zrun.toNat x.bits = none ∧ y.bits = [] ∧ y.br.eof = true := by
  induction k generalizing x with
  | zero => cases hk
  | succ k ih =>
    by_cases hz : 11 ≤ x.br.zrun.toNat
    · exact .inl ⟨x, if_pos hz, hz, rfl⟩
    · have hlegal := legal_getBit h
      obtain ⟨hbits, hget⟩ | ⟨b, y, hget, hbits, -, hzrun⟩ := getBit_spec h <;> rw [hget] at hlegal
      · refine .inr ⟨_, by rw [syncZeros, if_neg (show ¬Config.faxEolZeros ≤ _ from hz), hget], ?_, rfl, rfl⟩
        rw [hbits, afterEol]
      · have hstep : syncZeros (k + 1) x = syncZeros k y := by
          rw [syncZeros, if_neg (show ¬Config.faxEolZeros ≤ _ from hz), hget]
        have hafter : afterEol x.br.zrun.toNat x.bits = afterEol y.br.zrun.toNat y.bits := by
          rw [hbits, hzrun]
          cases b with
          | true => exact if_neg hz
          | false => rw [afterEol, zrunAfter, if_neg Bool.false_ne_true, min_eq_left (by omega)]
        rw [hbits, List.length_cons] at hk
        rw [hstep, hafter]
        exact ih hlegal (by omega)

/-- Sync from a legal reader, the zeros BR_ZRUN counts included. -/
theorem syncReader_ends {x : Reader} (h : x.br.legal) :
    SyncEnds (afterEol x.br.zrun.toNat x.bits) (syncReader x) := by
  have hlegal := legal_syncZeros (x.bitsLeft + 2) h
  have hfuel (y : Reader) : y.bits.length < y.bitsLeft + 2 := by have := bits_length_le_bitsLeft y; omega
  obtain ⟨y, hloop, hz, hafter⟩ | ⟨y, hloop, hafter, hend⟩ := syncZeros_spec h (hfuel x) <;>
    rw [hloop] at hlegal <;> simp only [syncReader, hloop, hafter]
  · exact syncOne_ends hz hlegal (hfuel y)
  · exact ⟨rfl, hend⟩

theorem exec_brSync (s : State) :
    exec .brSync s = .next { s.seqEnded with
      br := (syncReader s.reader).2.br, ports := { s.ports with src := (syncReader s.reader).2.src }
      res := { s.res with r0 := if (syncReader s.reader).1 then 1 else 0 } } := by
  rw [exec]; rfl

/-- Settles O17: BR_SYNC is Sync of the block's reader, whose end the bits to come decide. -/
theorem brSyncStopsPastTheNextEol : Obligations.BrSyncStopsPastTheNextEol := by
  intro s h
  refine ⟨_, _, _, exec_brSync s, legal_syncReader (x := s.reader) h, ?_⟩
  have hends : SyncEnds (afterEol s.br.zrun.toNat s.reader.bits) (syncReader s.reader) :=
    syncReader_ends (x := s.reader) h
  cases hafter : afterEol s.br.zrun.toNat s.reader.bits with
  | some bits =>
    rw [hafter] at hends
    obtain ⟨hsynced, hbits, heof, hzrun⟩ := hends
    exact ⟨if_pos hsynced, hbits, heof, hzrun⟩
  | none =>
    rw [hafter] at hends
    obtain ⟨hsynced, hbits, heof⟩ := hends
    exact ⟨if_neg (by simp [hsynced]), hbits, heof⟩

end Sys2Proof.Machine
end

section
/-! PROOFS. O21: what FAX_ENCODE has sent and asked for after each of its parts, up to the whole page. -/

namespace Sys2Proof.Machine

open Host

/-! ### Writer operations that append bits (R200, R206, R261 to R264) -/

/-- The writer `y` has put these bits after those of `x`, for the same port. -/
structure Writer.Appended (x y : Writer) (bits : List Bool) : Prop where
  legal : y.bw.legal
  port : y.bw.port = x.bw.port
  bits : y.bits = x.bits ++ bits

theorem Writer.Appended.trans {x y z : Writer} {as bs : List Bool} (h : x.Appended y as) (h' : y.Appended z bs) :
    x.Appended z (as ++ bs) :=
  ⟨h'.legal, h'.port.trans h.port, by rw [h'.bits, h.bits, List.append_assoc]⟩

/-- A writer operation that appends these bits to every legal writer. -/
def Appends (f : Writer → Writer) (bits : List Bool) : Prop := ∀ x : Writer, x.bw.legal → x.Appended (f x) bits

theorem Appends.comp {f g : Writer → Writer} {as bs : List Bool} (hf : Appends f as) (hg : Appends g bs) :
    Appends (fun x => g (f x)) (as ++ bs) := fun x h => (hf x h).trans (hg (f x) (hf x h).legal)

theorem appends_id : Appends (fun x => x) [] := fun _ h => ⟨h, rfl, (List.append_nil _).symm⟩

theorem appends_putCodeBits (code n : Nat) : Appends (putCodeBits code n) (codeBitsMsb code n) := fun _ h =>
  let ⟨hlegal, hport, hbits⟩ := putBits_appends (codeBitsMsb code n) h
  ⟨hlegal, hport, hbits⟩

theorem appends_putRows (rows : List FaxRow) : Appends (putRows rows) (rows.flatMap FaxRow.bits) := by
  induction rows with
  | nil => exact appends_id
  | cons e es ih => exact (appends_putCodeBits e.value e.length).comp ih

theorem appends_emitRuns (runs : List (Colour × Nat)) :
    Appends (emitRuns runs) (runs.flatMap fun r => (runRows r.1 r.2 r.2).flatMap FaxRow.bits) := by
  induction runs with
  | nil => exact appends_id
  | cons r rs ih => exact (appends_putRows (runRows r.1 r.2 r.2)).comp ih

theorem appends_encodeRow (scan : List Bool) : Appends (encodeRow scan) (faxRowBits scan) := appends_emitRuns _

theorem appends_putEol : Appends putEol eolBits := appends_putCodeBits 1 12

theorem appends_putEols (n : Nat) : Appends (putEols n) (List.replicate n eolBits).flatten := by
  induction n with
  | zero => exact appends_id
  | succ n ih => exact appends_putEol.comp ih

/-- A legal writer whose mask is at bit 7 holds no bit (R41). -/
theorem BitWriter.AtBit.eq_fresh {b : BitWriter} (h : b.AtBit 7) : b = ⟨0, 0x80, b.port⟩ := by
  obtain ⟨-, hm, hlow⟩ := h
  have hbyte : b.byte = 0 := BitVec.eq_of_getLsbD_eq fun i hi => by simp [hlow i (by omega)]
  rw [show (0x80 : Byte) = b.mask from hm.symm, ← hbyte]

/-- The byte a flush sends is the pending bits, filled up with 0 bits (R206). -/
theorem BitWriter.AtBit.byteBits_byte {b : BitWriter} {k : Nat} (h : b.AtBit k) :
    byteBits b.byte = b.pending ++ List.replicate (k + 1) false := by
  have hk : k < 8 := h.lt
  rw [h.pending]
  conv_lhs => rw [← List.take_append_drop (7 - k) (byteBits b.byte)]
  refine congrArg _ (List.ext_getElem (by simp; omega) fun i hi _ => ?_)
  rw [List.getElem_drop, byteBits_getElem, List.getElem_replicate]
  exact h.low _ (by omega)

/-- Flush leaves the writer empty (R206). -/
theorem flushWriter_bw {x : Writer} (h : x.bw.legal) : (flushWriter x).bw = ⟨0, 0x80, x.bw.port⟩ := by
  by_cases hm : x.bw.mask = 0x80
  · obtain ⟨k, hk⟩ := x.bw.legal_iff.1 h
    obtain rfl : k = 7 := by rw [← log2_twoPow k hk.lt, ← hk.mask, hm]; decide
    rw [flushWriter_of_fresh hm]
    exact hk.eq_fresh
  · rw [flushWriter_of_pending hm]

/-- Flush appends the 0 bits that fill the byte up (R206). -/
theorem flushWriter_appended {x : Writer} (h : x.bw.legal) :
    ∃ pad < 8, x.Appended (flushWriter x) (List.replicate pad false) := by
  by_cases hm : x.bw.mask = 0x80
  · rw [flushWriter_of_fresh hm]
    exact ⟨0, by omega, appends_id x h⟩
  · obtain ⟨k, hk⟩ := x.bw.legal_iff.1 h
    have hk7 : k ≠ 7 := by rintro rfl; exact hm hk.mask
    have hlt : k < 8 := hk.lt
    have hfresh : BitWriter.pending ⟨0, 0x80, x.bw.port⟩ = [] := (BitWriter.atBit_fresh x.bw.port).pending
    rw [flushWriter_of_pending hm]
    refine ⟨k + 1, by omega, legal_freshWriter _, rfl, ?_⟩
    rw [Writer.bits, hfresh]
    simp [Writer.bits, hk.byteBits_byte]

/-! ### The ports after a row of intensities (R262) -/

/-- The answers still to come that FAX_ENCODE takes. -/
structure Ports.Answers (p : Ports) (rows progress : List Bool) (samples : List Rat) : Prop where
  rows : p.rows = rows
  progress : p.progress = progress
  samples : p.samples = samples

/-- A row of intensities takes the listed answers, one for each request. -/
theorem askIntensities_answers (p : Params) (y x : Nat) {ports : Ports} {row more : List Rat}
    (hs : ports.samples = row ++ more) :
    askIntensities p y row.length x ports = (row.map (intensityLaw p),
      { ports with
        samples := more, requests := ports.requests ++ (List.range' x row.length).map (Request.getIntensity y) }) := by
  induction row generalizing x ports with
  | nil =>
    obtain rfl : ports.samples = more := hs
    simp [askIntensities]
  | cons v row ih =>
    have hnext : ports.nextSample = v := by simp [Ports.nextSample, hs]
    have hdrawn : ports.drawnAfter ports.samples = ports.drawn := by simp [Ports.drawnAfter, hs]
    rw [List.length_cons, askIntensities, hnext, ih (x + 1) (by simp [hs])]
    simp [Ports.tookSample, hdrawn, List.range'_succ]

/-- FAX_SCAN of a row of intensities (R260). -/
def binarizedRow (p : Params) (row : List Rat) : List Bool := row.map fun v => binarize p (intensityLaw p v)

theorem scanRow_answers (y : Nat) {s : State} {row more : List Rat} (hs : s.ports.samples = row ++ more) :
    s.scanRow y row.length = { s with
      faxScan := binarizedRow s.params row
      ports := { s.ports with
        samples := more
        requests := s.ports.requests ++ (List.range row.length).map (Request.getIntensity y) } } := by
  rw [State.scanRow, askIntensities_answers s.params y 0 hs, List.range_eq_range', List.map_map]
  rfl

/-! ### What FAX_ENCODE has done so far -/

/-- From `s` to `t` FAX_ENCODE has put these bits to `port`, sent these bytes of them, made these requests, and changed
nothing else but FAX_SCAN and the answers still to come. -/
structure State.FaxEncoding (s : State) (port : Port) (bits : List Bool) (out : List Byte) (asked : List Request)
    (t : State) : Prop where
  legal : t.bw.legal
  selects : t.bw.port = port
  bits : out.flatMap byteBits ++ t.bw.pending = bits
  sent : t.ports.sent port = s.ports.sent port ++ out
  others : ∀ port', port' ≠ port → t.ports.sent port' = s.ports.sent port'
  asked : t.ports.requests = s.ports.requests ++ asked
  kept : t.ports.src = s.ports.src ∧ t.ports.pixOut = s.ports.pixOut ∧ t.ports.raised = s.ports.raised
  frame : { t with bw := s.bw, faxScan := s.faxScan, ports := s.ports } = s

section FaxEncoding

variable {s t u : State} {port : Port} {bits bits' : List Bool} {out : List Byte} {asked asked' : List Request}

theorem State.FaxEncoding.params (h : s.FaxEncoding port bits out asked t) : t.params = s.params :=
  (congrArg State.params h.frame :)

/-- FAX_ENCODE after its allocation, with an empty writer (R262). -/
theorem faxEncoding_start (s : State) (port : Port) (c : Nat) :
    s.FaxEncoding port [] [] [.alloc .faxScan c] ((s.tookAlloc .faxScan c).initWriter port) where
  legal := legal_freshWriter port
  selects := rfl
  bits := (BitWriter.atBit_fresh port).pending
  sent := (List.append_nil _).symm
  others _ _ := rfl
  asked := rfl
  kept := ⟨rfl, rfl, rfl⟩
  frame := rfl

/-- A writer operation adds its bits, and the bytes it emits to what was sent. -/
theorem State.FaxEncoding.runWriter (h : s.FaxEncoding port bits out asked t) {f : Writer → Writer}
    (hf : Writer.Appended ⟨t.bw, []⟩ (f ⟨t.bw, []⟩) bits') :
    s.FaxEncoding port (bits ++ bits') (out ++ (f ⟨t.bw, []⟩).out) asked (t.runWriter f) where
  legal := hf.legal
  selects := hf.port.trans h.selects
  bits := by
    have hbits : (f ⟨t.bw, []⟩).out.flatMap byteBits ++ (f ⟨t.bw, []⟩).bw.pending = t.bw.pending ++ bits' := hf.bits
    rw [State.runWriter_bw, List.flatMap_append, List.append_assoc, hbits, ← List.append_assoc, h.bits]
  sent := by rw [State.runWriter_ports, h.selects, Ports.sink_sent, h.sent, List.append_assoc]
  others port' hne := by rw [State.runWriter_ports, h.selects, Ports.sink_sent_other _ _ _ _ hne, h.others port' hne]
  asked := by rw [State.runWriter_ports, Ports.sink_requests, h.asked]
  kept := by simpa using h.kept
  frame := h.frame

/-- Requests alone send nothing; they may fill FAX_SCAN. -/
theorem State.FaxEncoding.ask (h : s.FaxEncoding port bits out asked t)
    (hframe : { u with faxScan := t.faxScan, ports := t.ports } = t) (hsent : u.ports.sentSide = t.ports.sentSide)
    (hasked : u.ports.requests = t.ports.requests ++ asked') :
    s.FaxEncoding port bits out (asked ++ asked') u := by
  have hbw : u.bw = t.bw := (congrArg State.bw hframe :)
  obtain ⟨hsrc, hraw, htext, hpix, hraised⟩ :
      u.ports.src = t.ports.src ∧ u.ports.rawOut = t.ports.rawOut ∧ u.ports.textOut = t.ports.textOut ∧
      u.ports.pixOut = t.ports.pixOut ∧ u.ports.raised = t.ports.raised := by
    simpa [Ports.sentSide] using hsent
  have hport (p : Port) : u.ports.sent p = t.ports.sent p := by cases p <;> assumption
  refine ⟨hbw ▸ h.legal, hbw ▸ h.selects, hbw ▸ h.bits, (hport port).trans h.sent,
    fun p hp => (hport p).trans (h.others p hp), by rw [hasked, h.asked, List.append_assoc],
    by rw [hsrc, hpix, hraised]; exact h.kept, ?_⟩
  exact (congrArg (fun v : State => { v with bw := s.bw, faxScan := s.faxScan, ports := s.ports }) hframe).trans h.frame

end FaxEncoding

/-! ### The rows (R262, R263) -/

/-- The requests of one row of `c` pixels: the row, its intensities, whether to go on. -/
def lineRequests (c total y : Nat) : List Request :=
  .acquireRow y :: (List.range c).map (Request.getIntensity y) ++ [.progress 0x12 y total]

/-- The bits of one row of intensities, with its EOL. -/
def lineBits (p : Params) (row : List Rat) : List Bool := faxRowBits (binarizedRow p row) ++ eolBits

/-- The writer's operation on a scanned row: its runs, then an EOL. -/
def putLine (scan : List Bool) (x : Writer) : Writer := putEol (encodeRow scan x)

theorem appends_putLine (scan : List Bool) : Appends (putLine scan) (faxRowBits scan ++ eolBits) :=
  (appends_encodeRow scan).comp appends_putEol

/-- The state after row `y` of `c` pixels is scanned and put, and before the Progress request. -/
def State.linePut (s : State) (y c : Nat) : State :=
  ((s.tookRow y).scanRow y c).runWriter (putLine ((s.tookRow y).scanRow y c).faxScan)

/-- The bytes row `y` of `c` pixels emits. -/
def State.lineOut (s : State) (y c : Nat) : List Byte := (putLine ((s.tookRow y).scanRow y c).faxScan ⟨s.bw, []⟩).out

/-- A row that is supplied and not stopped. -/
theorem faxEncodeRows_next (c total k y n : Nat) {s : State} (hrow : s.ports.nextRow = true)
    (hprogress : (s.linePut y c).ports.nextProgress = true) :
    faxEncodeRows c total (k + 1) y n s =
      faxEncodeRows c total k (y + 1) (n + (s.lineOut y c).length) ((s.linePut y c).tookProgress 0x12 y total) := by
  rw [faxEncodeRows, if_pos hrow]
  exact if_pos hprogress

section Line

variable {s t : State} {port : Port} {bits : List Bool} {out : List Byte} {asked : List Request}
  {row moreSamples : List Rat} {moreRows progress : List Bool}

/-- What a row puts, sends and asks for, up to its Progress request. -/
theorem State.FaxEncoding.linePut (h : s.FaxEncoding port bits out asked t) (y : Nat)
    (hs : t.ports.samples = row ++ moreSamples) :
    s.FaxEncoding port (bits ++ lineBits s.params row) (out ++ t.lineOut y row.length)
      (asked ++ .acquireRow y :: (List.range row.length).map (Request.getIntensity y)) (t.linePut y row.length) := by
  have hscan := scanRow_answers y (s := t.tookRow y) hs
  have hscanned : s.FaxEncoding port bits out
      (asked ++ .acquireRow y :: (List.range row.length).map (Request.getIntensity y))
      ((t.tookRow y).scanRow y row.length) := by
    rw [hscan]
    exact h.ask rfl rfl (by simp)
  have hbits : lineBits s.params row = faxRowBits ((t.tookRow y).scanRow y row.length).faxScan ++ eolBits := by
    rw [hscan, ← h.params]
    rfl
  rw [hbits]
  exact hscanned.runWriter (appends_putLine _ _ hscanned.legal)

/-- Which answers a row leaves. -/
theorem linePut_answers (y : Nat) {b : Bool} (h : t.ports.Answers (b :: moreRows) progress (row ++ moreSamples)) :
    (t.linePut y row.length).ports.Answers moreRows progress moreSamples := by
  rw [State.linePut, scanRow_answers y (s := t.tookRow y) h.samples]
  exact ⟨by simp [h.rows], by simp [h.progress], by simp⟩

/-- All the rows of a page that is supplied and not stopped. -/
theorem faxEncodeRows_page {c : Nat} (total k y : Nat) (h : s.FaxEncoding port bits out asked t)
    {page : List (List Rat)} {moreProgress : List Bool} (hlen : ∀ row ∈ page, row.length = c)
    (ha : t.ports.Answers (List.replicate page.length true ++ moreRows)
      (List.replicate page.length true ++ moreProgress) (page.flatten ++ moreSamples)) :
    ∃ out' u, faxEncodeRows c total (k + page.length) y out.length t =
        faxEncodeRows c total k (y + page.length) out'.length u ∧
      s.FaxEncoding port (bits ++ page.flatMap (lineBits s.params)) out'
        (asked ++ (List.range' y page.length).flatMap (lineRequests c total)) u ∧
      u.ports.Answers moreRows moreProgress moreSamples := by
  induction page generalizing y bits out asked t with
  | nil => exact ⟨out, t, rfl, by simpa using h, ha⟩
  | cons row page ih =>
    obtain rfl := hlen row List.mem_cons_self
    have hrest : (t.linePut y row.length).ports.Answers (List.replicate page.length true ++ moreRows)
        (true :: (List.replicate page.length true ++ moreProgress)) (page.flatten ++ moreSamples) :=
      linePut_answers y (b := true) ⟨ha.rows, ha.progress, ha.samples.trans (List.append_assoc ..)⟩
    have hnext := faxEncodeRows_next row.length total (k + page.length) y out.length (s := t)
      (by simp [Ports.nextRow, ha.rows, List.replicate_succ]) (by simp [Ports.nextProgress, hrest.progress])
    have hline := (h.linePut y (ha.samples.trans (List.append_assoc ..))).ask
      (u := State.tookProgress (t.linePut y row.length) 0x12 y total) rfl rfl rfl
    obtain ⟨out', u, hrun, henc, hmore⟩ := ih (y + 1) hline (fun r hr => hlen r (List.mem_cons_of_mem _ hr))
      ⟨hrest.rows, congrArg List.tail hrest.progress, hrest.samples⟩
    refine ⟨out', u, ?_, ?_, hmore⟩
    · rw [List.length_cons, ← Nat.add_assoc, hnext, ← List.length_append, hrun]
      congr 1
      omega
    · simpa [List.range'_succ, lineRequests] using henc

end Line

/-! ### The whole page (R262, R265, R266) -/

/-- The six EOLs and the flush that end a page. -/
def putPageEnd (x : Writer) : Writer := flushWriter (putEols 6 x)

theorem faxEncodeRows_zero (c total y n : Nat) (s : State) :
    faxEncodeRows c total 0 y n s = .normal ((s.runWriter putPageEnd).setRes0 (countRes (n + s.emitted putPageEnd))) :=
  rfl

/-- After the end of a page all its bits have gone out as bytes, and the writer is empty. -/
theorem State.FaxEncoding.pageEnd {s t : State} {port : Port} {bits : List Bool} {out : List Byte}
    {asked : List Request} (h : s.FaxEncoding port bits out asked t) :
    let sent := bitsToBytes (bits ++ (List.replicate 6 eolBits).flatten)
    (t.runWriter putPageEnd).bw = ⟨0, 0x80, port⟩ ∧ out.length + t.emitted putPageEnd = sent.length ∧
    ∃ bits', s.FaxEncoding port bits' sent asked (t.runWriter putPageEnd) := by
  have heols := appends_putEols 6 ⟨t.bw, []⟩ h.legal
  have hbw : (t.runWriter putPageEnd).bw = ⟨0, 0x80, port⟩ := by
    rw [← h.selects, ← heols.port]
    exact flushWriter_bw heols.legal
  obtain ⟨pad, hpad, hflush⟩ := flushWriter_appended heols.legal
  have hend := h.runWriter (f := putPageEnd) (heols.trans hflush)
  have hbits := hend.bits
  rw [hbw, (BitWriter.atBit_fresh port).pending, List.take_zero, List.append_nil, ← List.append_assoc] at hbits
  have hsent := bitsToBytes_of_fill hpad hbits
  exact ⟨hbw, by rw [hsent, List.length_append, State.emitted], _, hsent ▸ hend⟩

theorem faxPageBits_binarizedRows (p : Params) (page : List (List Rat)) :
    faxPageBits (binarizedRows p page) =
      eolBits ++ page.flatMap (lineBits p) ++ (List.replicate 6 eolBits).flatten := by
  rw [faxPageBits, binarizedRows, List.flatMap_map]
  rfl

/-- FAX_ENCODE's pseudocode on a whole page. -/
theorem faxEncodeBody_page (port : Port) {s : State} {page : List (List Rat)} {moreRows moreProgress : List Bool}
    {moreSamples : List Rat} (hc : (s.argVal 0).toNat ≠ 0) (hr : (s.argVal 1).toNat ≠ 0)
    (hpage : page.length = (s.argVal 1).toNat) (hlen : ∀ row ∈ page, row.length = (s.argVal 0).toNat)
    (halloc : s.ports.nextAlloc = true)
    (ha : s.ports.Answers (List.replicate page.length true ++ moreRows)
      (List.replicate page.length true ++ moreProgress) (page.flatten ++ moreSamples)) :
    let out := bitsToBytes (faxPageBits (binarizedRows s.params page))
    ∃ bits u, faxEncodeBody port s = .normal ((u.setRes0 (countRes out.length)).dropScan) ∧
      u.bw = ⟨0, 0x80, port⟩ ∧
      s.FaxEncoding port bits out (.alloc .faxScan (s.argVal 0).toNat ::
        (List.range page.length).flatMap (lineRequests (s.argVal 0).toNat page.length)) u := by
  have hstart := faxEncoding_start s port (s.argVal 0).toNat
  have hfirst := hstart.runWriter (appends_putEol _ hstart.legal)
  obtain ⟨out, t, hrun, henc, -⟩ := faxEncodeRows_page page.length 0 0 hfirst hlen
    ⟨(Ports.sink_rows ..).trans ha.rows, (Ports.sink_progress ..).trans ha.progress,
      (Ports.sink_samples ..).trans ha.samples⟩
  obtain ⟨hbw, hcount, bits, hend⟩ := henc.pageEnd
  rw [List.nil_append, ← faxPageBits_binarizedRows] at hcount hend
  rw [← List.range_eq_range'] at hend
  refine ⟨bits, _, ?_, hbw, hend⟩
  rw [faxEncodeRows_zero, hcount, Nat.zero_add] at hrun
  have hargs : ¬((s.argVal 0).toNat = 0 ∨ (s.argVal 1).toNat = 0) := not_or.2 ⟨hc, hr⟩
  rw [faxEncodeBody, if_neg hargs, if_pos halloc, ← hpage]
  exact congrArg (CmdEnd.mapState · State.dropScan) hrun

/-- Settles O21: the pseudocode on a page with its answers listed, between the start and the normal end of a command. -/
theorem faxEncodeSendsThePage : Obligations.FaxEncodeSendsThePage := by
  intro s port page moreRows moreProgress moreSamples hc hr hpage hlen halloc hrows hprogress hsamples
  obtain ⟨bits, u, hbody, hbw, henc⟩ := faxEncodeBody_page (s := s.beginCmd .seq) port hc hr hpage hlen halloc
    ⟨hrows, hprogress, hsamples⟩
  have hstatus : u.status = s.status.begin := (congrArg State.status henc.frame :)
  have hres : u.res = s.res := (congrArg State.res henc.frame :)
  obtain ⟨hsrc, hpix, hraised⟩ := henc.kept
  refine ⟨_, exec_seq_normal (i := .faxEncode port) rfl hbody, ?_, henc.sent, henc.others, ?_, hbw, rfl, henc.asked,
    hsrc, hpix, hraised, ?_⟩
  · exact congrArg Status.finish hstatus
  · rw [← hres]
    rfl
  · exact (congrArg (fun v : State => { v with
      status := s.status, res := s.res, bw := s.bw, faxScan := s.faxScan, ports := s.ports }) henc.frame :)

end Sys2Proof.Machine
end

section
/-! PROOFS. The fax code tables: the built hash tables as an exact search (O19), R239's bounds on each code set (O18),
and the two commands of the tables (O20). -/

namespace Sys2Proof.Machine

open Host

/-! ### Tables built by storing values at the keys `key` gives them -/

section StoreAll

variable {α : Type} (key : α → Nat)

/-- The table `t` with each of the values stored at its own key. -/
def storeAll (t : List (Nat × α)) (vs : List α) : List (Nat × α) := vs.foldl (fun t v => tabSet t (key v) v) t

theorem buildTable_eq_storeAll (c : Colour) (rows : List FaxRow) :
    buildTable c rows = storeAll (fun e => colourSlot c e.length e.value) [] rows := rfl

theorem storeAll_cons (t : List (Nat × α)) (v : α) (vs : List α) :
    storeAll key t (v :: vs) = storeAll key (tabSet t (key v) v) vs := rfl

/-- Storing at a key the table does not hold makes it one entry longer. -/
theorem length_tabSet_of_tabGet_eq_none {t : List (Nat × α)} {i : Nat} (v : α) (h : tabGet t i = none) :
    (tabSet t i v).length = t.length + 1 := by
  induction t with
  | nil => rfl
  | cons entry t ih =>
    obtain ⟨k, u⟩ := entry
    rw [tabGet] at h
    split at h
    case isTrue => cases h
    case isFalse hk =>
      rw [tabSet, if_neg (Ne.symm hk)]
      split
      · rfl
      · rw [List.length_cons, ih h, List.length_cons]

variable {key} {vs : List α}

/-- Values with distinct keys, none of them held before, each take an entry of their own. -/
theorem length_storeAll (hvs : (vs.map key).Nodup) {t : List (Nat × α)} (ht : ∀ v ∈ vs, tabGet t (key v) = none) :
    (storeAll key t vs).length = t.length + vs.length := by
  induction vs generalizing t with
  | nil => rfl
  | cons v vs ih =>
    obtain ⟨hv, hvs⟩ := List.nodup_cons.1 hvs
    obtain ⟨hkey, ht⟩ := List.forall_mem_cons.1 ht
    have hother : ∀ u ∈ vs, tabGet (tabSet t (key v) v) (key u) = none := fun u hu => by
      have hne : key u ≠ key v := fun e => hv (e ▸ List.mem_map_of_mem hu)
      rw [tabGet_tabSet_other _ _ _ _ hne, ht u hu]
    rw [storeAll_cons, ih hvs hother, length_tabSet_of_tabGet_eq_none v hkey, List.length_cons]
    omega

/-- Values with distinct keys are found at their keys. -/
theorem tabGet_storeAll (hvs : (vs.map key).Nodup) (t : List (Nat × α)) (k : Nat) :
    tabGet (storeAll key t vs) k = (vs.find? fun v => decide (key v = k)).or (tabGet t k) := by
  induction vs generalizing t with
  | nil => rfl
  | cons v vs ih =>
    obtain ⟨hv, hvs⟩ := List.nodup_cons.1 hvs
    rw [storeAll_cons, ih hvs]
    by_cases hk : key v = k
    · have hnone : (vs.find? fun u => decide (key u = k)) = none := by
        simp only [List.find?_eq_none, decide_eq_true_eq]
        exact fun u hu e => hv (hk ▸ e ▸ List.mem_map_of_mem hu)
      subst hk
      simp [hnone]
    · simp [hk, tabGet_tabSet_other _ _ _ _ (Ne.symm hk)]

/-- A search for a property that fixes the key may look at the one value with that key only. -/
theorem find?_key_filter (hvs : (vs.map key).Nodup) {p : α → Bool} {k : Nat} (hp : ∀ v, p v = true → key v = k) :
    (vs.find? fun v => decide (key v = k)).filter p = vs.find? p := by
  induction vs with
  | nil => rfl
  | cons v vs ih =>
    obtain ⟨hv, hvs⟩ := List.nodup_cons.1 hvs
    by_cases hk : key v = k
    · have hnone : vs.find? p = none :=
        List.find?_eq_none.2 fun u hu hpu => hv ((hp u hpu).trans hk.symm ▸ List.mem_map_of_mem hu)
      cases hpv : p v <;> simp [hk, hpv, hnone]
    · have hpv : p v = false := Bool.eq_false_iff.2 fun h => hk (hp v h)
      simp [hk, hpv, ih hvs]

end StoreAll

/-! ### The two code sets (R230, R239) -/

/-- The code set of a colour. -/
def codeRows : Colour → List FaxRow
  | .white => whiteRows
  | .black => blackRows

theorem codeRows_length (c : Colour) : (codeRows c).length = 104 := by cases c <;> rfl

/-- No two rows of a colour share a slot. -/
theorem codeRows_slots_nodup (c : Colour) : ((codeRows c).map fun e => colourSlot c e.length e.value).Nodup := by
  cases c <;> decide +kernel

/-- The row is looked up by this length and code. -/
def FaxRow.codes (e : FaxRow) (len code : Nat) : Bool := decide (e.length = len) && decide (e.value = code)

theorem lookupRow_eq_filter (c : Colour) (t : List (Nat × FaxRow)) (len code : Nat) :
    lookupRow c t len code = (tabGet t (colourSlot c len code)).filter (FaxRow.codes · len code) := by
  rw [lookupRow]
  split
  next e h => simp [h, FaxRow.codes, Option.filter]
  next h => simp [h]

/-- The hash table of a code set with distinct slots is searched exactly (R240). -/
theorem lookupRow_buildTable {c : Colour} {rows : List FaxRow}
    (hrows : (rows.map fun e => colourSlot c e.length e.value).Nodup) (len code : Nat) :
    lookupRow c (buildTable c rows) len code = rows.find? (FaxRow.codes · len code) := by
  have hslot (e : FaxRow) (he : e.codes len code = true) : colourSlot c e.length e.value = colourSlot c len code := by
    obtain ⟨rfl, rfl⟩ : e.length = len ∧ e.value = code := by simpa [FaxRow.codes] using he
    rfl
  rw [lookupRow_eq_filter, buildTable_eq_storeAll, tabGet_storeAll hrows, tabGet, Option.or_none,
    find?_key_filter hrows hslot]

theorem lookupRow_nil (c : Colour) (len code : Nat) : lookupRow c [] len code = none := rfl

/-- Settles O19: no two rows of a colour share a slot, so the row in the operands' slot is the only one to compare. -/
theorem faxHashLookupIsExactSearch : Obligations.FaxHashLookupIsExactSearch :=
  ⟨lookupRow_buildTable (codeRows_slots_nodup .white), lookupRow_buildTable (codeRows_slots_nodup .black), lookupRow_nil⟩

/-! ### Runs of 0 bits, seen in the number the bits stand for -/

section Zeros

variable {w : List Bool} {n : Nat}

theorem msbVal_lt_of_zeros_first (h : List.replicate n false <+: w) : msbVal w < 2 ^ (w.length - n) := by
  obtain ⟨rest, rfl⟩ := h
  simpa [msbVal_append, msbVal_replicate_false] using msbVal_lt rest

theorem dvd_msbVal_of_zeros_last (h : List.replicate n false <:+ w) : 2 ^ n ∣ msbVal w := by
  obtain ⟨before, rfl⟩ := h
  simp [msbVal_append, msbVal_replicate_false]

/-- Zeros inside: a 1 bit before them makes the number large; without one they lead it. -/
theorem msbVal_of_zeros_inside (h : List.replicate n false <:+: w) :
    2 ^ n ≤ msbVal w ∨ msbVal w < 2 ^ (w.length - n) := by
  obtain ⟨before, after, rfl⟩ := h
  have hval : msbVal (before ++ List.replicate n false ++ after) =
      msbVal before * 2 ^ n * 2 ^ after.length + msbVal after := by
    rw [msbVal_append, msbVal_append, msbVal_replicate_false, List.length_replicate, Nat.add_zero]
  rw [hval]
  obtain hzero | hpos := Nat.eq_zero_or_pos (msbVal before)
  · right
    have hlt := msbVal_lt after
    have hle : after.length ≤ (before ++ List.replicate n false ++ after).length - n := by simp; omega
    simpa [hzero] using hlt.trans_le (Nat.pow_le_pow_right two_pos hle)
  · left
    calc 2 ^ n ≤ msbVal before * 2 ^ n * 2 ^ after.length :=
          (Nat.le_mul_of_pos_left _ hpos).trans (Nat.le_mul_of_pos_right _ (Nat.two_pow_pos _))
      _ ≤ _ := Nat.le_add_right ..

end Zeros

/-! ### The numbers of the codes (R231 to R235, R239) -/

/-- The bounds that keep a code's zeros few: its highest 1 bit is among its first eight bits and among its last eight,
its lowest among its last four. -/
theorem codeRows_value_bounds (c : Colour) : ∀ e ∈ codeRows c,
    2 ^ (e.length - 8) ≤ e.value ∧ e.value < 2 ^ e.length ∧ e.value < 2 ^ 8 ∧ ¬(2 ^ 4 ∣ e.value) := by
  cases c <;> decide +kernel

theorem codeRows_length_le (c : Colour) : ∀ e ∈ codeRows c, e.length ≤ if c = .white then 12 else 13 := by
  cases c <;> decide

theorem codeRows_length_eq (c : Colour) : ∃ e ∈ codeRows c, e.length = if c = .white then 12 else 13 := by
  cases c <;> decide

theorem FaxRow.msbVal_bits {e : FaxRow} (he : e.value < 2 ^ e.length) : msbVal e.bits = e.value := by
  rw [FaxRow.bits, msbVal_codeBitsMsb, Nat.mod_eq_of_lt he]

@[simp] theorem FaxRow.bits_length (e : FaxRow) : e.bits.length = e.length := codeBitsMsb_length ..

/-- The number of `e`'s code gives that of `d`'s when its last bits are cut off. -/
def FaxRow.opensWith (e d : FaxRow) : Bool :=
  decide (d.length ≤ e.length) && decide (e.value / 2 ^ (e.length - d.length) = d.value)

theorem FaxRow.opensWith_of_bits {d e : FaxRow} (hd : d.value < 2 ^ d.length) (he : e.value < 2 ^ e.length)
    (h : d.bits <+: e.bits) : e.opensWith d = true := by
  obtain ⟨rest, hrest⟩ := h
  have hlen : d.length + rest.length = e.length := by simpa using congrArg List.length hrest
  have hval : d.value * 2 ^ rest.length + msbVal rest = e.value := by
    rw [← FaxRow.msbVal_bits hd, ← FaxRow.msbVal_bits he, ← hrest, msbVal_append]
  have hcut : e.length - d.length = rest.length := by omega
  have hdiv : e.value / 2 ^ rest.length = d.value := by
    rw [← hval, mul_comm, Nat.mul_add_div (Nat.two_pow_pos _), Nat.div_eq_of_lt (msbVal_lt rest), Nat.add_zero]
  simpa [FaxRow.opensWith, hcut, hdiv] using Nat.le.intro hlen

theorem codeRows_not_opensWith (c : Colour) :
    (codeRows c).Pairwise fun d e => d.opensWith e = false ∧ e.opensWith d = false := by
  cases c <;> decide +kernel

/-- No code of a colour begins another one. -/
theorem codeRows_bits_pairwise (c : Colour) :
    (codeRows c).Pairwise fun d e => ¬(d.bits <+: e.bits) ∧ ¬(e.bits <+: d.bits) := by
  refine (codeRows_not_opensWith c).imp_of_mem fun {d e} hd he ⟨hde, hed⟩ => ?_
  obtain ⟨-, hdlt, -⟩ := codeRows_value_bounds c d hd
  obtain ⟨-, helt, -⟩ := codeRows_value_bounds c e he
  exact ⟨fun h => Bool.eq_false_iff.1 hed (FaxRow.opensWith_of_bits hdlt helt h),
    fun h => Bool.eq_false_iff.1 hde (FaxRow.opensWith_of_bits helt hdlt h)⟩

/-! ### Eleven 0 bits in a row (R239) -/

/-- Bits with a 1 among them, and so few zeros before, after and between the 1 bits that such strings in a row hold no
eleven zeros. -/
structure FewZeros (w : List Bool) : Prop where
  one : true ∈ w
  first : ¬(List.replicate 8 false <+: w)
  last : ¬(List.replicate 4 false <:+ w)
  inside : ¬(List.replicate 11 false <:+: w)

theorem fewZeros_of_mem_codeRows {c : Colour} {e : FaxRow} (he : e ∈ codeRows c) : FewZeros e.bits := by
  obtain ⟨hlow, hlt, hsmall, hlast⟩ := codeRows_value_bounds c e he
  have hval := FaxRow.msbVal_bits hlt
  have hpos : 0 < e.value := (Nat.two_pow_pos _).trans_le hlow
  refine ⟨?_, fun h => ?_, fun h => hlast (hval ▸ dvd_msbVal_of_zeros_last h), fun h => ?_⟩
  · by_contra hone
    have hzeros : e.bits = List.replicate e.bits.length false :=
      List.eq_replicate_of_mem fun b hb => Bool.eq_false_iff.2 fun hb1 => hone (hb1 ▸ hb)
    rw [hzeros, msbVal_replicate_false] at hval
    omega
  · have hfirst := msbVal_lt_of_zeros_first h
    rw [hval, FaxRow.bits_length] at hfirst
    omega
  · obtain hbig | hfew := msbVal_of_zeros_inside h
    · rw [hval] at hbig
      omega
    · have hmono : 2 ^ (e.length - 11) ≤ 2 ^ (e.length - 8) := Nat.pow_le_pow_right two_pos (by omega)
      rw [hval, FaxRow.bits_length] at hfew
      omega

section FewZeros

variable {w : List Bool}

/-- What such bits open does not begin with eight zeros either: the 1 bit stops them. -/
theorem FewZeros.not_zeros_first (hw : FewZeros w) {bits : List Bool} (h : w <+: bits) :
    ¬(List.replicate 8 false <+: bits) := by
  intro hzeros
  obtain hle | hle := List.prefix_or_prefix_of_prefix h hzeros
  · exact Bool.noConfusion (List.eq_of_mem_replicate (hle.subset hw.one))
  · exact hw.first hle

theorem FewZeros.not_opens_eol (hw : FewZeros w) : ¬(w <+: eolBits) := fun h =>
  hw.not_zeros_first h (by decide)

theorem not_zeros_first_flatten {ws : List (List Bool)} (hws : ∀ w ∈ ws, FewZeros w) :
    ¬(List.replicate 8 false <+: ws.flatten) := by
  cases ws with
  | nil => simp
  | cons w ws => exact (hws w List.mem_cons_self).not_zeros_first (List.prefix_append w ws.flatten)

/-- Eleven zeros across a boundary would be at least four at the end of one string or eight at the start of the rest. -/
theorem not_elevenZeros_flatten {ws : List (List Bool)} (hws : ∀ w ∈ ws, FewZeros w) :
    ¬(List.replicate 11 false <:+: ws.flatten) := by
  induction ws with
  | nil => simp
  | cons w ws ih =>
    obtain ⟨hw, hws⟩ := List.forall_mem_cons.1 hws
    rw [List.flatten_cons, List.infix_append_iff]
    rintro (h | h | ⟨ls, rs, hsplit, hl, hr⟩)
    · exact hw.inside h
    · exact ih hws h
    · obtain ⟨hlen, hls, hrs⟩ := List.replicate_eq_append_iff.1 hsplit
      obtain hend | hstart : 4 ≤ ls.length ∨ 8 ≤ rs.length := by omega
      · rw [hls] at hl
        exact hw.last ((List.suffix_replicate_iff.2 (by simpa using hend)).trans hl)
      · rw [hrs] at hr
        exact not_zeros_first_flatten hws ((List.prefix_replicate_iff.2 (by simpa using hstart)).trans hr)

end FewZeros

/-- Settles O18: the numbers of the codes bound their zeros and keep one code from beginning another, and distinct slots
take an entry of the table each. -/
theorem faxCodeTablesAreFreeOfClashes : Obligations.FaxCodeTablesAreFreeOfClashes := by
  refine ⟨fun rows c h => ?_, fun es hes => ?_⟩
  · obtain rfl : rows = codeRows c := by obtain ⟨rfl, rfl⟩ | ⟨rfl, rfl⟩ := h.imp Prod.mk.inj Prod.mk.inj <;> rfl
    have hslots := codeRows_slots_nodup c
    have hbuilt := length_storeAll hslots (t := []) fun _ _ => rfl
    rw [codeRows_length] at hbuilt
    exact ⟨codeRows_length c, hbuilt, codeRows_bits_pairwise c, fun e he => (fewZeros_of_mem_codeRows he).not_opens_eol,
      hslots, codeRows_length_le c, codeRows_length_eq c,
      fun e he => ⟨(fewZeros_of_mem_codeRows he).first, (fewZeros_of_mem_codeRows he).last⟩⟩
  · rw [List.flatMap_def]
    refine not_elevenZeros_flatten (List.forall_mem_map.2 fun e he => ?_)
    obtain hwhite | hblack := List.mem_append.1 (hes e he)
    · exact fewZeros_of_mem_codeRows (c := .white) hwhite
    · exact fewZeros_of_mem_codeRows (c := .black) hblack

/-! ### FAX_BUILD_HASH and FAX_LOOKUP (R236, R238, R508) -/

theorem exec_faxBuildHash_of_ok {s : State} (h : s.ports.nextAlloc = true) :
    exec .faxBuildHash s = .next { s.seqEnded with
      faxWhash := buildTable .white whiteRows, faxBhash := buildTable .black blackRows
      ports := s.ports.tookAlloc .faxHash 2042 } :=
  exec_seq_ended (i := .faxBuildHash) rfl (t := { s with
    faxWhash := buildTable .white whiteRows, faxBhash := buildTable .black blackRows
    ports := s.ports.tookAlloc .faxHash 2042 }) (if_pos h)

theorem exec_faxBuildHash_of_fail {s : State} (h : s.ports.nextAlloc = false) :
    exec .faxBuildHash s =
      .next (State.seqRaised { s with ports := s.ports.tookAlloc .faxHash 2042 } 0x10 .resourceLimit) :=
  exec_seq_raised (i := .faxBuildHash) rfl (t := s.tookAlloc .faxHash 2042) (if_neg (Bool.eq_false_iff.1 h))

/-- The table the statement of O20 names is the colour's. -/
theorem hashOf_eq_ite (s : State) (c : Colour) : s.hashOf c = if c = .white then s.faxWhash else s.faxBhash := by
  cases c <;> rfl

theorem FaxRow.terminating_iff (e : FaxRow) : e.terminating = true ↔ e.table = .tw ∨ e.table = .tb := by
  rw [FaxRow.terminating]
  cases e.table <;> simp

theorem exec_faxLookup (c : Colour) (s : State) :
    exec (.faxLookup c) s = .next { s.seqEnded with
      res := lookupResults s.res (lookupRow c (s.hashOf c) (s.argVal 1).toNat (s.argVal 0).toNat) } := by
  refine exec_seq_ended (i := .faxLookup c) rfl (t := { s with
    res := lookupResults s.res (lookupRow c (s.hashOf c) (s.argVal 1).toNat (s.argVal 0).toNat) }) ?_
  cases c <;> rfl

/-- Settles O20: both ends of FAX_BUILD_HASH by Alloc's answer, and FAX_LOOKUP by what the colour's table answers. -/
theorem faxTableCommandsComplete : Obligations.FaxTableCommandsComplete := by
  refine fun s => ⟨exec_faxBuildHash_of_ok, exec_faxBuildHash_of_fail, fun c => ?_, fun c hempty => ?_⟩
  · rw [exec_faxLookup, hashOf_eq_ite]
    cases lookupRow c (if c = .white then s.faxWhash else s.faxBhash) (s.argVal 1).toNat (s.argVal 0).toNat with
    | none => rfl
    | some e => simp only [lookupResults, FaxRow.terminating_iff]
  · rw [exec_faxLookup, hashOf_eq_ite, hempty, lookupRow_nil]
    rfl

end Sys2Proof.Machine
end

section
/-! PROOFS. O22: FAX_ENCODE ended by a progress answer, after the flush that follows the row (R262, R267, R512). -/

namespace Sys2Proof.Machine

open Host

/-! ### The flush that follows a row (R206, R267) -/

section Flush

variable {s t : State} {port : Port} {bits : List Bool} {out : List Byte} {asked : List Request}

/-- A Progress request sends nothing. -/
theorem State.FaxEncoding.progress (h : s.FaxEncoding port bits out asked t) (tag : BitVec 8) (current total : Nat) :
    s.FaxEncoding port bits out (asked ++ [.progress tag current total]) (t.tookProgress tag current total) :=
  h.ask rfl rfl rfl

/-- After a flush all the bits so far have gone out as bytes, and the writer is empty. -/
theorem State.FaxEncoding.flushed (h : s.FaxEncoding port bits out asked t) :
    (t.runWriter flushWriter).bw = ⟨0, 0x80, port⟩ ∧ out.length + t.emitted flushWriter = (bitsToBytes bits).length ∧
    ∃ bits', s.FaxEncoding port bits' (bitsToBytes bits) asked (t.runWriter flushWriter) := by
  have hbw : (t.runWriter flushWriter).bw = ⟨0, 0x80, port⟩ := by
    rw [← h.selects]
    exact flushWriter_bw (x := ⟨t.bw, []⟩) h.legal
  obtain ⟨pad, hpad, hflush⟩ := flushWriter_appended (x := ⟨t.bw, []⟩) h.legal
  have hend := h.runWriter hflush
  have hbits := hend.bits
  rw [hbw, (BitWriter.atBit_fresh port).pending, List.take_zero, List.append_nil] at hbits
  have hsent := bitsToBytes_of_fill hpad hbits
  exact ⟨hbw, by rw [hsent, List.length_append, State.emitted], _, hsent ▸ hend⟩

end Flush

/-! ### The page up to the row that is stopped -/

theorem Ports.nextRow_of_cons {p : Ports} {b : Bool} {more : List Bool} (h : p.rows = b :: more) : p.nextRow = b := by
  rw [Ports.nextRow, h, List.headD_cons]

theorem Ports.nextProgress_of_cons {p : Ports} {b : Bool} {more : List Bool} (h : p.progress = b :: more) :
    p.nextProgress = b := by
  rw [Ports.nextProgress, h, List.headD_cons]

/-- A row that is supplied and stopped. -/
theorem faxEncodeRows_stop (c total k y n : Nat) {s : State} (hrow : s.ports.nextRow = true)
    (hprogress : (s.linePut y c).ports.nextProgress = false) :
    faxEncodeRows c total (k + 1) y n s =
      .cancelled ((((s.linePut y c).tookProgress 0x12 y total).runWriter flushWriter).setRes0
        (countRes (n + (s.lineOut y c).length + ((s.linePut y c).tookProgress 0x12 y total).emitted flushWriter))) := by
  rw [faxEncodeRows, if_pos hrow]
  exact if_neg (Bool.eq_false_iff.1 hprogress)

/-- FAX_ENCODE's pseudocode once it has its operands and its allocation: the leading EOL, then the rows (R262). -/
theorem faxEncodeBody_of_ok (port : Port) {s : State} (hc : (s.argVal 0).toNat ≠ 0) (hr : (s.argVal 1).toNat ≠ 0)
    (halloc : s.ports.nextAlloc = true) :
    faxEncodeBody port s =
      let t := (s.tookAlloc .faxScan (s.argVal 0).toNat).initWriter port
      (faxEncodeRows (s.argVal 0).toNat (s.argVal 1).toNat (s.argVal 1).toNat 0 (t.emitted putEol)
        (t.runWriter putEol)).mapState State.dropScan := by
  have hargs : ¬((s.argVal 0).toNat = 0 ∨ (s.argVal 1).toNat = 0) := not_or.2 ⟨hc, hr⟩
  rw [faxEncodeBody, if_neg hargs, if_pos halloc]

/-- FAX_ENCODE's pseudocode on rows of which the last one is stopped. -/
theorem faxEncodeBody_stopped (port : Port) {s : State} {page : List (List Rat)} {row : List Rat}
    {moreRows moreProgress : List Bool} {moreSamples : List Rat} (hc : (s.argVal 0).toNat ≠ 0)
    (hr : page.length < (s.argVal 1).toNat) (hlen : ∀ r ∈ page ++ [row], r.length = (s.argVal 0).toNat)
    (halloc : s.ports.nextAlloc = true)
    (ha : s.ports.Answers (List.replicate page.length true ++ true :: moreRows)
      (List.replicate page.length true ++ false :: moreProgress) (page.flatten ++ (row ++ moreSamples))) :
    let out := bitsToBytes (eolBits ++ (page ++ [row]).flatMap (lineBits s.params))
    ∃ bits asked u, faxEncodeBody port s = .cancelled ((u.setRes0 (countRes out.length)).dropScan) ∧
      u.bw = ⟨0, 0x80, port⟩ ∧ s.FaxEncoding port bits out asked u := by
  obtain ⟨k, hk⟩ : ∃ k, (s.argVal 1).toNat = k + 1 + page.length := ⟨(s.argVal 1).toNat - page.length - 1, by omega⟩
  obtain ⟨hpage, hrow⟩ := List.forall_mem_append.1 hlen
  have hrow : row.length = (s.argVal 0).toNat := hrow row (List.mem_singleton_self row)
  have hstart := faxEncoding_start s port (s.argVal 0).toNat
  have hfirst := hstart.runWriter (appends_putEol _ hstart.legal)
  obtain ⟨out, t, hrun, henc, hmore⟩ := faxEncodeRows_page (s.argVal 1).toNat (k + 1) 0 hfirst hpage
    ⟨(Ports.sink_rows ..).trans ha.rows, (Ports.sink_progress ..).trans ha.progress,
      (Ports.sink_samples ..).trans ha.samples⟩
  have hlast := linePut_answers (0 + page.length) hmore
  have hstop := faxEncodeRows_stop row.length (s.argVal 1).toNat k (0 + page.length) out.length (s := t)
    (Ports.nextRow_of_cons hmore.rows) (Ports.nextProgress_of_cons hlast.progress)
  have hput := (henc.linePut (0 + page.length) hmore.samples).progress 0x12 (0 + page.length) (s.argVal 1).toNat
  obtain ⟨hbw, hcount, bits, hend⟩ := hput.flushed
  have hbits : [] ++ eolBits ++ page.flatMap (lineBits s.params) ++ lineBits s.params row =
      eolBits ++ (page ++ [row]).flatMap (lineBits s.params) := by
    rw [List.nil_append, List.flatMap_append, List.flatMap_singleton, List.append_assoc]
  rw [hbits, List.length_append] at hcount
  rw [hbits] at hend
  refine ⟨bits, _, _, ?_, hbw, hend⟩
  rw [← hrow, ← hk, hstop, hcount] at hrun
  rw [faxEncodeBody_of_ok port hc (by omega) halloc, ← hrow]
  exact congrArg (CmdEnd.mapState · State.dropScan) hrun

theorem flatMap_binarizedRows (p : Params) (page : List (List Rat)) :
    ((binarizedRows p page).flatMap fun row => faxRowBits row ++ eolBits) = page.flatMap (lineBits p) := by
  rw [binarizedRows, List.flatMap_map]
  rfl

/-- A sequencer command whose pseudocode ends cancelled. -/
theorem exec_seq_cancelled {i : Instr} {s t : State} (ha : agentOf i = .seq)
    (h : bodyOf i (s.beginCmd .seq) = .cancelled t) : exec i s = .next { t with status := t.status.cancel } := by
  rw [exec_eq, ha, runCmd, h]
  rfl

/-- Settles O22: the page's rows but the last go on, the last one is stopped and flushed, and the command ends
cancelled. -/
theorem faxEncodeStopsAfterTheRow : Obligations.FaxEncodeStopsAfterTheRow := by
  intro s port page moreRows moreProgress moreSamples hc hpage hr hlen halloc hrows hprogress hsamples
  obtain rfl | ⟨page, row, rfl⟩ := List.eq_nil_or_concat' page
  · exact absurd rfl hpage
  rw [List.length_append, List.length_singleton] at hr hrows hprogress
  obtain ⟨bits, asked, u, hbody, hbw, henc⟩ := faxEncodeBody_stopped (s := s.beginCmd .seq) port hc hr hlen halloc
    (moreRows := moreRows) (moreProgress := moreProgress) (moreSamples := moreSamples)
    ⟨hrows.trans (by simp [List.replicate_succ']), hprogress, hsamples.trans (by simp)⟩
  have hstatus : u.status = s.status.begin := (congrArg State.status henc.frame :)
  have hres : u.res = s.res := (congrArg State.res henc.frame :)
  obtain ⟨-, -, hraised⟩ := henc.kept
  rw [flatMap_binarizedRows]
  refine ⟨_, exec_seq_cancelled (i := .faxEncode port) rfl hbody, ?_, henc.sent, ?_, hbw, hraised⟩
  · exact (congrArg Status.cancel hstatus :)
  · rw [← hres]
    rfl

end Sys2Proof.Machine
end

section
/-! PROOFS. How FAX_DECODE starts, and O24: an input in which Sync finds no EOL (R270, R275). -/

namespace Sys2Proof.Machine

open Host

/-! ### What GetBit keeps, Sync keeps (R209) -/

section Keeps

variable {P : Reader → Prop} {x : Reader}

theorem syncZeros_keeps (hget : ∀ y, P y → P (getBit y).2) (k : Nat) (h : P x) : P (syncZeros k x).2 := by
  induction k generalizing x with
  | zero => exact h
  | succ k ih =>
    have hnext := hget x h
    unfold syncZeros
    split
    · exact h
    · split <;> rename_i e <;> rw [e] at hnext
      · exact hnext
      · exact ih hnext

theorem syncOne_keeps (hget : ∀ y, P y → P (getBit y).2) (k : Nat) (h : P x) : P (syncOne k x).2 := by
  induction k generalizing x with
  | zero => exact h
  | succ k ih =>
    have hnext := hget x h
    unfold syncOne
    split <;> rename_i e <;> rw [e] at hnext
    · exact hnext
    · exact hnext
    · exact ih hnext

theorem syncReader_keeps (hget : ∀ y, P y → P (getBit y).2) (h : P x) : P (syncReader x).2 := by
  have hzeros := syncZeros_keeps hget (x.bitsLeft + 2) h
  unfold syncReader
  split <;> rename_i e <;> rw [e] at hzeros
  · exact hzeros
  · exact syncOne_keeps hget _ hzeros

end Keeps

/-- A reader that has met EOF has no source bytes left (R208, R621). -/
def Reader.EofAtEnd (x : Reader) : Prop := x.br.eof = true → x.src = []

theorem eofAtEnd_getBit (x : Reader) (h : x.EofAtEnd) : (getBit x).2.EofAtEnd := by
  unfold getBit
  split
  · exact h
  · next heof =>
    split
    · split
      · exact fun _ => rfl
      · exact fun e => absurd e heof
    · exact h

/-! ### FAX_DECODE up to its first Sync (R270) -/

/-- The reader as FAX_DECODE starts it on a source. -/
def Reader.start (src : List Byte) : Reader := ⟨BitReader.reset, src⟩

theorem Reader.start_legal (src : List Byte) : (Reader.start src).br.legal := .inl rfl

theorem Reader.start_bits (src : List Byte) : (Reader.start src).bits = src.flatMap byteBits :=
  Reader.bits_of_mask_zero rfl rfl

/-- The first Sync of FAX_DECODE ends where the source's bits say. -/
theorem syncReader_start_ends (src : List Byte) :
    SyncEnds (afterEol 0 (src.flatMap byteBits)) (syncReader (.start src)) := by
  have h := syncReader_ends (Reader.start_legal src)
  rwa [Reader.start_bits] at h

/-- FAX_DECODE's state before its first Sync: both allocations made, the tables built, the reader started, RES 0. -/
def State.decodeReady (s : State) : State :=
  { s with
    faxWhash := buildTable .white whiteRows, faxBhash := buildTable .black blackRows
    ports := (s.ports.tookAlloc .faxHash 2042).tookAlloc .faxScan (s.argVal 0).toNat
    br := BitReader.reset, res := ⟨0, 0, 0, 0⟩ }

/-- FAX_DECODE's pseudocode once it has its operands and its allocations. -/
theorem faxDecodeBody_of_ok {s : State} {moreAllocs : List Bool} (hc : (s.argVal 0).toNat ≠ 0)
    (hm : (s.argVal 1).toNat ≠ 0) (halloc : s.ports.allocs = true :: true :: moreAllocs) :
    faxDecodeBody s = CmdEnd.mapState
      (if (syncReader (.start s.ports.src)).1 then
        faxDecodeRows (s.argVal 0).toNat (s.argVal 1).toNat (s.argVal 1).toNat 0 0
          (s.decodeReady.setReader (syncReader (.start s.ports.src)).2)
      else .raised .corruptImage (s.decodeReady.setReader (syncReader (.start s.ports.src)).2)) State.dropScan := by
  have hargs : ¬((s.argVal 0).toNat = 0 ∨ (s.argVal 1).toNat = 0) := not_or.2 ⟨hc, hm⟩
  have hhash : s.ports.nextAlloc = true := by rw [Ports.nextAlloc, halloc, List.headD_cons]
  have hscan : (s.ports.tookAlloc .faxHash (2 * Config.faxHashSize)).nextAlloc = true := by
    rw [Ports.nextAlloc, Ports.tookAlloc, halloc, List.tail_cons, List.headD_cons]
  rw [faxDecodeBody, if_neg hargs, buildHash, if_pos hhash]
  exact if_pos hscan

section Start

variable {s : State} {moreAllocs : List Bool}

theorem faxDecodeBody_of_eol (hc : (s.argVal 0).toNat ≠ 0) (hm : (s.argVal 1).toNat ≠ 0)
    (halloc : s.ports.allocs = true :: true :: moreAllocs) (hsync : (syncReader (.start s.ports.src)).1 = true) :
    faxDecodeBody s = (faxDecodeRows (s.argVal 0).toNat (s.argVal 1).toNat (s.argVal 1).toNat 0 0
      (s.decodeReady.setReader (syncReader (.start s.ports.src)).2)).mapState State.dropScan := by
  rw [faxDecodeBody_of_ok hc hm halloc, if_pos hsync]

theorem faxDecodeBody_of_no_eol (hc : (s.argVal 0).toNat ≠ 0) (hm : (s.argVal 1).toNat ≠ 0)
    (halloc : s.ports.allocs = true :: true :: moreAllocs) (hsync : (syncReader (.start s.ports.src)).1 = false) :
    faxDecodeBody s =
      .raised .corruptImage (s.decodeReady.setReader (syncReader (.start s.ports.src)).2).dropScan := by
  rw [faxDecodeBody_of_ok hc hm halloc, if_neg (Bool.eq_false_iff.1 hsync)]
  rfl

end Start

/-- Settles O24: the first Sync runs to the end of the source, where the reader meets EOF. -/
theorem faxDecodeWithoutAnEolIsCorrupt : Obligations.FaxDecodeWithoutAnEolIsCorrupt := by
  intro s hc hm ⟨moreAllocs, halloc⟩ hnone
  have hends := syncReader_start_ends s.ports.src
  rw [hnone] at hends
  obtain ⟨hsync, -, heof⟩ := hends
  have hsrc : (syncReader (.start s.ports.src)).2.src = [] := syncReader_keeps eofAtEnd_getBit (fun h => nomatch h) heof
  have hbody := faxDecodeBody_of_no_eol (s := s.beginCmd .seq) hc hm halloc hsync
  exact ⟨_, exec_seq_raised (i := .faxDecode) (t := (s.decodeReady.setReader _).dropScan) rfl hbody, rfl, rfl, rfl, rfl,
    hsrc, heof⟩

end Sys2Proof.Machine
end

section
/-! PROOFS. The reader inside a line, one turn of DecodeLine, and the turns that read one code (R271, R273, R239). -/

namespace Sys2Proof.Machine

open Host

/-! ### A reader in the middle of a line (R207, R212) -/

/-- BR_ZRUN after these bits, the last EOL just before them (R207). -/
def zeroRun (read : List Bool) : Nat := read.foldl (fun z b => if b then 0 else min (z + 1) (2 ^ 32 - 1)) 0

theorem zeroRun_snoc (read : List Bool) (b : Bool) :
    zeroRun (read ++ [b]) = if b then 0 else min (zeroRun read + 1) (2 ^ 32 - 1) := by
  rw [zeroRun, List.foldl_append]
  rfl

theorem zeroRun_suffix (read : List Bool) : List.replicate (zeroRun read) false <:+ read := by
  induction read using List.reverseRecOn with
  | nil => exact List.nil_suffix
  | append_singleton read b ih =>
    rw [zeroRun_snoc]
    cases b with
    | true => exact List.nil_suffix
    | false =>
      obtain ⟨before, hbefore⟩ := ih
      have hmore : List.replicate (zeroRun read + 1) false <:+ read ++ [false] :=
        ⟨before, by rw [List.replicate_succ', ← List.append_assoc, hbefore]⟩
      exact (List.suffix_replicate_iff.2 (by simp)).trans hmore

theorem zeroRun_lt_of_not_infix {read bits : List Bool} (h : ¬(List.replicate 11 false <:+: read ++ bits)) :
    zeroRun read < 11 := by
  by_contra hle
  have hzeros : List.replicate 11 false <:+ read :=
    (List.suffix_replicate_iff.2 (by simpa using hle)).trans (zeroRun_suffix read)
  exact h (hzeros.isInfix.trans (List.prefix_append read bits).isInfix)

/-- The reader has read `read` since the last EOL and will return `bits` next. -/
structure Reader.Reads (x : Reader) (read bits : List Bool) : Prop where
  legal : x.br.legal
  zeros : x.br.zrun.toNat = zeroRun read
  bits : x.bits = bits

theorem Reader.Reads.getBit {x : Reader} {read bits : List Bool} {b : Bool} (h : x.Reads read (b :: bits)) :
    ∃ y, Machine.getBit x = (some b, y) ∧ y.Reads (read ++ [b]) bits := by
  have hlegal := legal_getBit h.legal
  obtain ⟨hnil, -⟩ | ⟨b', y, hget, hbits, -, hzeros⟩ := getBit_spec h.legal
  · rw [h.bits] at hnil
    cases hnil
  · obtain ⟨rfl, rfl⟩ := List.cons_eq_cons.1 (h.bits.symm.trans hbits)
    rw [hget] at hlegal
    exact ⟨y, hget, hlegal, by rw [hzeros, zeroRun_snoc, zrunAfter, h.zeros], rfl⟩

/-- After a 1 bit the count of zeros starts again, as after an EOL. -/
theorem Reader.Reads.after_one {x : Reader} {read bits : List Bool} (h : x.Reads (read ++ [true]) bits) :
    x.Reads [] bits :=
  ⟨h.legal, h.zeros.trans (zeroRun_snoc read true), h.bits⟩

theorem afterEol_eolBits (z : Nat) (bits : List Bool) : afterEol z (eolBits ++ bits) = some bits :=
  show (if 11 ≤ z + 11 then some bits else afterEol 0 bits) = _ from if_pos (Nat.le_add_left 11 z)

/-- Sync on an EOL ends just past it (R209). -/
theorem Reader.Reads.sync {x : Reader} {read bits : List Bool} (h : x.Reads read (eolBits ++ bits)) :
    (syncReader x).1 = true ∧ (syncReader x).2.Reads [] bits := by
  have hends := syncReader_ends h.legal
  rw [h.bits, afterEol_eolBits] at hends
  obtain ⟨hsync, hbits, -, hzrun⟩ := hends
  exact ⟨hsync, legal_syncReader h.legal, by rw [hzrun]; rfl, hbits⟩

/-! ### One turn of DecodeLine (R271) -/

theorem decodeLoop_full {c k : Nat} {look : Colour → Nat → Nat → Option FaxRow} {l : LineState} (hx : c ≤ l.x)
    (hsync : (syncReader l.rd).1 = true) :
    decodeLoop c look (k + 1) l = (.line, { l with rd := (syncReader l.rd).2 }) := by
  rw [decodeLoop, if_pos hx, if_pos hsync]

theorem decodeLoop_eol {c k : Nat} {look : Colour → Nat → Nat → Option FaxRow} {l : LineState} {y : Reader}
    (hx : l.x < c) (hget : getBit l.rd = (some true, y)) (hz : 11 ≤ l.rd.br.zrun.toNat) :
    decodeLoop c look (k + 1) l = (lineEndAt l.x, { l with rd := y }) := by
  rw [decodeLoop, if_neg (Nat.not_le.2 hx), hget]
  exact if_pos ⟨hz, rfl⟩

/-- Lookup in the code set of a colour (R240). -/
def exactLook (col : Colour) (len code : Nat) : Option FaxRow := (codeRows col).find? (FaxRow.codes · len code)

/-- From `l` the loop of DecodeLine comes to `l'` in `n` turns, one for each bit it reads. -/
def LineState.Passes (c n : Nat) (l l' : LineState) : Prop :=
  ∀ k, decodeLoop c exactLook (n + k) l = decodeLoop c exactLook k l'

theorem LineState.Passes.trans {c m n : Nat} {l l' l'' : LineState} (h : l.Passes c m l') (h' : l'.Passes c n l'') :
    l.Passes c (m + n) l'' := fun k => by rw [Nat.add_assoc, h, h']

theorem LineState.passes_refl (c : Nat) (l : LineState) : l.Passes c 0 l := fun k => by rw [Nat.zero_add]

/-- `l` with a bit added to its code. -/
def LineState.take (l : LineState) (b : Bool) (y : Reader) : LineState :=
  { l with code := 2 * l.code + b.toNat, len := l.len + 1, rd := y }

/-- The loop in `l` adds the bit `b` to its code: the row is not full, the bit ends no EOL, the code does not get too
long. -/
structure LineState.Takes (c : Nat) (l : LineState) (b : Bool) (y : Reader) : Prop where
  free : l.x < c
  get : getBit l.rd = (some b, y)
  noEol : ¬(11 ≤ l.rd.br.zrun.toNat ∧ b = true)
  short : l.len < 13

section Takes

variable {c : Nat} {l : LineState} {b : Bool} {y : Reader}

/-- The turn goes on with one bit more when the code is 0 or no row's code. -/
theorem LineState.Takes.goesOn (h : l.Takes c b y)
    (hlook : (l.take b y).code = 0 ∨ exactLook l.colour (l.take b y).len (l.take b y).code = none) :
    l.Passes c 1 (l.take b y) := fun k => by
  have hshort : ¬Config.faxMaxCodeLen < (l.take b y).len := Nat.not_lt.2 h.short
  rw [Nat.add_comm, decodeLoop, if_neg (Nat.not_le.2 h.free), h.get]
  refine (if_neg h.noEol).trans ?_
  by_cases hzero : (l.take b y).code = 0
  · exact if_pos hzero
  · refine (if_neg hzero).trans ((if_neg hshort).trans ?_)
    change (match exactLook l.colour (l.take b y).len (l.take b y).code with | none => _ | some e => _) = _
    rw [hlook.resolve_left hzero]
    rfl

/-- The turn resolves the row whose code is complete. -/
theorem LineState.Takes.resolves (h : l.Takes c b y) {e : FaxRow} (hpos : (l.take b y).code ≠ 0)
    (hlook : exactLook l.colour (l.take b y).len (l.take b y).code = some e) :
    l.Passes c 1 (resolveCode c e { l with rd := y }) := fun k => by
  have hshort : ¬Config.faxMaxCodeLen < (l.take b y).len := Nat.not_lt.2 h.short
  rw [Nat.add_comm, decodeLoop, if_neg (Nat.not_le.2 h.free), h.get]
  refine (if_neg h.noEol).trans ((if_neg hpos).trans ((if_neg hshort).trans ?_))
  change (match exactLook l.colour (l.take b y).len (l.take b y).code with | none => _ | some e => _) = _
  rw [hlook]
  rfl

end Takes

/-! ### The bits of one code (R271, R239) -/

theorem msbVal_snoc (w : List Bool) (b : Bool) : msbVal (w ++ [b]) = 2 * msbVal w + b.toNat := by
  rw [msbVal_append, List.length_singleton, pow_one, mul_comm]
  simp [msbVal, ofBitsLsb]

/-- A code of the colour that begins another one is that one (R239). -/
theorem codeRows_eq_of_prefix {col : Colour} {d e : FaxRow} (hd : d ∈ codeRows col) (he : e ∈ codeRows col)
    (h : d.bits <+: e.bits) : d = e := by
  have : Std.Symm fun d e : FaxRow => ¬(d.bits <+: e.bits) ∧ ¬(e.bits <+: d.bits) := ⟨fun _ _ hne => hne.symm⟩
  by_contra hne
  obtain ⟨hnot, -⟩ := (codeRows_bits_pairwise col).forall hd he hne
  exact hnot h

theorem codeRows_length_le_maxCodeLen {col : Colour} {e : FaxRow} (he : e ∈ codeRows col) : e.length ≤ 13 := by
  have h := codeRows_length_le col e he
  split at h <;> omega

theorem msbVal_bits_ne_zero {col : Colour} {e : FaxRow} (he : e ∈ codeRows col) : msbVal e.bits ≠ 0 := by
  obtain ⟨hlow, hlt, -⟩ := codeRows_value_bounds col e he
  rw [FaxRow.msbVal_bits hlt]
  exact ((Nat.two_pow_pos _).trans_le hlow).ne'

theorem exactLook_eq_some {col : Colour} {w : List Bool} {d : FaxRow} (h : exactLook col w.length (msbVal w) = some d) :
    d ∈ codeRows col ∧ d.bits = w := by
  have hd := List.mem_of_find?_eq_some h
  obtain ⟨hlen, hval⟩ : d.length = w.length ∧ d.value = msbVal w := by
    simpa [FaxRow.codes] using List.find?_some h
  obtain ⟨-, hlt, -⟩ := codeRows_value_bounds col d hd
  exact ⟨hd, msbVal_inj (by rw [FaxRow.bits_length, hlen]) (by rw [FaxRow.msbVal_bits hlt, hval])⟩

/-- All the bits of a code find its row. -/
theorem exactLook_bits {col : Colour} {e : FaxRow} (he : e ∈ codeRows col) :
    exactLook col e.bits.length (msbVal e.bits) = some e := by
  obtain ⟨-, hlt, -⟩ := codeRows_value_bounds col e he
  have hfound : (exactLook col e.bits.length (msbVal e.bits)).isSome :=
    List.find?_isSome.2 ⟨e, he, by simp [FaxRow.codes, FaxRow.msbVal_bits hlt]⟩
  obtain ⟨d, hd⟩ := Option.isSome_iff_exists.1 hfound
  obtain ⟨hmem, hbits⟩ := exactLook_eq_some hd
  rw [hd, codeRows_eq_of_prefix hmem he (hbits ▸ List.prefix_refl _)]

/-- Fewer bits of a code find no row. -/
theorem exactLook_of_proper_prefix {col : Colour} {e : FaxRow} (he : e ∈ codeRows col) {w v : List Bool} (hv : v ≠ [])
    (hbits : e.bits = w ++ v) : exactLook col w.length (msbVal w) = none := by
  by_contra hsome
  obtain ⟨d, hd⟩ := Option.ne_none_iff_exists'.1 hsome
  obtain ⟨hmem, hdw⟩ := exactLook_eq_some hd
  obtain rfl := codeRows_eq_of_prefix hmem he ⟨v, by rw [hdw, hbits]⟩
  exact hv (List.append_right_eq_self.1 (hbits.symm.trans hdw))

/-- The loop reads the bits of a code that are still to come, then resolves its row. -/
theorem passes_code {c : Nat} {l : LineState} {e : FaxRow} {w v read rest : List Bool} (he : e ∈ codeRows l.colour)
    (hx : l.x < c) (hv : v ≠ []) (hbits : e.bits = w ++ v) (hcode : l.code = msbVal w) (hlen : l.len = w.length)
    (hrd : l.rd.Reads read (v ++ rest)) (hfew : ¬(List.replicate 11 false <:+: read ++ v)) :
    ∃ y, l.Passes c v.length (resolveCode c e { l with rd := y }) ∧ y.Reads (read ++ v) rest := by
  induction v generalizing l w read with
  | nil => exact absurd rfl hv
  | cons b v ih =>
    obtain ⟨y, hget, hy⟩ := hrd.getBit
    have hzrun : l.rd.br.zrun.toNat < 11 := hrd.zeros ▸ zeroRun_lt_of_not_infix hfew
    have htakes : l.Takes c b y := by
      have hle := codeRows_length_le_maxCodeLen he
      rw [← FaxRow.bits_length, hbits, List.length_append, List.length_cons] at hle
      exact ⟨hx, hget, fun h => absurd h.1 (Nat.not_le.2 hzrun), by omega⟩
    have hcode' : (l.take b y).code = msbVal (w ++ [b]) := by
      rw [msbVal_snoc, ← hcode]
      rfl
    have hlen' : (l.take b y).len = (w ++ [b]).length := by
      rw [List.length_append, ← hlen]
      rfl
    have hbits' : e.bits = (w ++ [b]) ++ v := by rw [hbits, List.append_assoc, List.singleton_append]
    by_cases hlast : v = []
    · subst hlast
      rw [List.append_nil] at hbits'
      refine ⟨y, htakes.resolves ?_ ?_, hy⟩
      · rw [hcode', ← hbits']
        exact msbVal_bits_ne_zero he
      · rw [hcode', hlen', ← hbits', exactLook_bits he]
    · have hgoes := htakes.goesOn (.inr (by rw [hcode', hlen', exactLook_of_proper_prefix he hlast hbits']))
      obtain ⟨u, hrest, hu⟩ := ih (l := l.take b y) he hx hlast hbits' hcode' hlen' hy (by simpa using hfew)
      rw [List.append_assoc, List.singleton_append] at hu
      refine ⟨u, ?_, hu⟩
      rw [List.length_cons, Nat.add_comm]
      exact hgoes.trans hrest

end Sys2Proof.Machine
end

section
/-! PROOFS. DecodeLine on what FAX_ENCODE sends: the codes of one run, the runs of one row with its EOL, and an EOL alone
(R271 to R273, R278). -/

namespace Sys2Proof.Machine

open Host

/-! ### The codes of one run (R261, R272) -/

theorem termRow_spec {r : Nat} (h : r < 64) (c : Colour) :
    termRow c r ∈ codeRows c ∧ (termRow c r).terminating = true ∧ (termRow c r).run = r := by
  revert r
  cases c <;> decide +kernel

/-- A make-up row below 1792, and an extension row. -/
theorem makeupRow_entries (c : Colour) :
    (∀ i < 27, makeupRow c (64 * (i + 1)) ∈ codeRows c ∧ (makeupRow c (64 * (i + 1))).terminating = false ∧
      (makeupRow c (64 * (i + 1))).run = 64 * (i + 1)) ∧
    ∀ i < 13, makeupRow c (1792 + 64 * i) ∈ codeRows c ∧ (makeupRow c (1792 + 64 * i)).terminating = false ∧
      (makeupRow c (1792 + 64 * i)).run = 1792 + 64 * i := by
  cases c <;> decide +kernel

/-- The make-up row of a run is that of the largest run with a code that is not longer. -/
theorem makeupRow_spec {r : Nat} (h : 64 ≤ r) (c : Colour) :
    makeupRow c r ∈ codeRows c ∧ (makeupRow c r).terminating = false ∧ 0 < (makeupRow c r).run ∧
      (makeupRow c r).run ≤ r := by
  obtain ⟨hmakeup, hext⟩ := makeupRow_entries c
  by_cases hr : r < 1792
  · have hsame : makeupRow c r = makeupRow c (64 * (r / 64 - 1 + 1)) := by
      have hlt : 64 * (r / 64 - 1 + 1) < 1792 := by omega
      unfold makeupRow
      rw [if_pos hr, if_pos hlt, Nat.mul_div_cancel_left _ (by decide), Nat.add_sub_cancel]
    obtain ⟨hmem, hterm, hrun⟩ := hmakeup (r / 64 - 1) (by omega)
    rw [hsame]
    exact ⟨hmem, hterm, by omega, by omega⟩
  · have hsame : makeupRow c r = makeupRow c (1792 + 64 * ((min r 2560 - 1792) / 64)) := by
      have hge : ¬1792 + 64 * ((min r 2560 - 1792) / 64) < 1792 := by omega
      have hindex : (min (1792 + 64 * ((min r 2560 - 1792) / 64)) 2560 - 1792) / 64 = (min r 2560 - 1792) / 64 := by
        omega
      unfold makeupRow
      rw [if_neg hr, if_neg hge, hindex]
    obtain ⟨hmem, hterm, hrun⟩ := hext ((min r 2560 - 1792) / 64) (by omega)
    rw [hsame]
    exact ⟨hmem, hterm, by omega, by omega⟩

/-- A run sends its terminating code, or one make-up code first. -/
theorem runRows_cases (c : Colour) {f r : Nat} (h : r ≤ f) :
    (r < 64 ∧ runRows c f r = [termRow c r]) ∨
    ∃ f', f = f' + 1 ∧ 64 ≤ r ∧ runRows c f r = makeupRow c r :: runRows c f' (r - (makeupRow c r).run) := by
  cases f with
  | zero => exact .inl ⟨by omega, rfl⟩
  | succ f' =>
    by_cases hr : r < 64
    · exact .inl ⟨hr, if_pos hr⟩
    · exact .inr ⟨f', rfl, Nat.not_lt.1 hr, if_neg hr⟩

theorem mem_codeRows_of_mem_runRows {c : Colour} {f r : Nat} (h : r ≤ f) : ∀ e ∈ runRows c f r, e ∈ codeRows c := by
  induction f generalizing r with
  | zero =>
    obtain rfl := Nat.le_zero.1 h
    exact List.forall_mem_singleton.2 (termRow_spec (by decide) c).1
  | succ f ih =>
    obtain ⟨hr, hrows⟩ | ⟨f', hf, hr, hrows⟩ := runRows_cases c h <;> rw [hrows]
    · exact List.forall_mem_singleton.2 (termRow_spec hr c).1
    · obtain rfl := Nat.succ.inj hf
      obtain ⟨hmem, -, hpos, -⟩ := makeupRow_spec hr c
      exact List.forall_mem_cons.2 ⟨hmem, ih (by omega)⟩

/-- DecodeLine's state when a run of its colour ends with `n` more pixels than COUNT holds (R272). -/
def LineState.closeRun (c n : Nat) (l : LineState) (y : Reader) : LineState where
  scan := if l.colour = .black then blacken l.scan l.x (min (l.count + n) (c - l.x)) else l.scan
  colour := Colour.other l.colour
  code := 0
  len := 0
  count := 0
  x := l.x + min (l.count + n) (c - l.x)
  rd := y

/-- DecodeLine's state when COUNT gets `n` pixels of a run that goes on (R272). -/
def LineState.addRun (n : Nat) (l : LineState) (y : Reader) : LineState :=
  { l with count := l.count + n, code := 0, len := 0, rd := y }

theorem resolveCode_terminating {e : FaxRow} (h : e.terminating = true) (c : Nat) (l : LineState) (y : Reader) :
    resolveCode c e { l with rd := y } = l.closeRun c e.run y := if_pos h

theorem resolveCode_makeup {e : FaxRow} (h : e.terminating = false) (c : Nat) (l : LineState) (y : Reader) :
    resolveCode c e { l with rd := y } = l.addRun e.run y :=
  if_neg (Bool.eq_false_iff.1 h)

/-- A make-up code's pixels count towards the run it belongs to. -/
theorem LineState.closeRun_makeup {c m n : Nat} (h : m ≤ n) (l : LineState) (x y : Reader) :
    (l.addRun m x).closeRun c (n - m) y = l.closeRun c n y := by
  simp only [LineState.closeRun, LineState.addRun, Nat.add_assoc, Nat.add_sub_cancel' h]

/-- The loop is before the first bit of a code, in a row that is not full; `bits` of the row come next, and no eleven
zeros are in what it has read since the last EOL and in them. -/
structure LineState.Ready (c : Nat) (l : LineState) (read bits rest : List Bool) : Prop where
  free : l.x < c
  code : l.code = 0
  len : l.len = 0
  reads : l.rd.Reads read (bits ++ rest)
  few : ¬(List.replicate 11 false <:+: read ++ bits)

section Ready

variable {c : Nat} {l : LineState} {read as bs rest : List Bool}

theorem not_infix_of_append {ws : List Bool} (h : ¬(ws <:+: read ++ (as ++ bs))) : ¬(ws <:+: read ++ as) :=
  fun hws => h (hws.trans (List.append_assoc read as bs ▸ (List.prefix_append _ bs).isInfix))

theorem LineState.Ready.first (h : l.Ready c read (as ++ bs) rest) : l.Ready c read as (bs ++ rest) :=
  ⟨h.free, h.code, h.len, List.append_assoc as bs rest ▸ h.reads, not_infix_of_append h.few⟩

/-- The loop reads a code and resolves its row. -/
theorem LineState.Ready.passes_code {e : FaxRow} (h : l.Ready c read e.bits rest) (he : e ∈ codeRows l.colour) :
    ∃ y, l.Passes c e.bits.length (resolveCode c e { l with rd := y }) ∧ y.Reads (read ++ e.bits) rest :=
  Machine.passes_code (w := []) he h.free (List.ne_nil_of_mem (fewZeros_of_mem_codeRows he).one) rfl h.code h.len
    h.reads h.few

/-- The loop reads a terminating code and closes the run. -/
theorem LineState.Ready.passes_termRow {n : Nat} (h : l.Ready c read (termRow l.colour n).bits rest) (hn : n < 64) :
    ∃ y, l.Passes c (termRow l.colour n).bits.length (l.closeRun c n y) ∧
      y.Reads (read ++ (termRow l.colour n).bits) rest := by
  obtain ⟨hmem, hterm, hrun⟩ := termRow_spec hn l.colour
  obtain ⟨y, hpass, hy⟩ := h.passes_code hmem
  rw [resolveCode_terminating hterm, hrun] at hpass
  exact ⟨y, hpass, hy⟩

/-- The loop reads the codes of a run, its make-up codes first, and closes the run. -/
theorem LineState.Ready.passes_run {f n : Nat}
    (h : l.Ready c read ((runRows l.colour f n).flatMap FaxRow.bits) rest) (hf : n ≤ f) :
    ∃ y, l.Passes c ((runRows l.colour f n).flatMap FaxRow.bits).length (l.closeRun c n y) ∧
      y.Reads (read ++ (runRows l.colour f n).flatMap FaxRow.bits) rest := by
  induction f generalizing l n read with
  | zero =>
    obtain rfl := Nat.le_zero.1 hf
    rw [runRows, List.flatMap_singleton] at h ⊢
    exact h.passes_termRow (by decide)
  | succ f ih =>
    obtain ⟨hn, hrows⟩ | ⟨f', hf', hn, hrows⟩ := runRows_cases l.colour hf <;> rw [hrows] at h ⊢
    · rw [List.flatMap_singleton] at h ⊢
      exact h.passes_termRow hn
    · obtain rfl := Nat.succ.inj hf'
      obtain ⟨hmem, hterm, hpos, hle⟩ := makeupRow_spec hn l.colour
      rw [List.flatMap_cons] at h ⊢
      obtain ⟨y, hfirst, hy⟩ := h.first.passes_code hmem
      rw [resolveCode_makeup hterm] at hfirst
      obtain ⟨u, hrest, hu⟩ := ih (l := l.addRun (makeupRow l.colour n).run y)
        ⟨h.free, rfl, rfl, hy, (List.append_assoc read _ _).symm ▸ h.few⟩ (by omega)
      rw [LineState.closeRun_makeup hle] at hrest
      rw [List.append_assoc] at hu
      rw [List.length_append]
      exact ⟨u, hfirst.trans hrest, hu⟩

end Ready

/-! ### The runs of one row (R263) -/

/-- The bits of one run. -/
def runBits (r : Colour × Nat) : List Bool := (runRows r.1 r.2 r.2).flatMap FaxRow.bits

theorem faxRowBits_eq (row : List Bool) : faxRowBits row = (rowRuns row.length row).flatMap runBits := rfl

theorem spanRun_append (v : Bool) (bits : List Bool) :
    bits = List.replicate (spanRun v bits).1 v ++ (spanRun v bits).2 := by
  induction bits with
  | nil => rfl
  | cons b bits ih =>
    rw [spanRun]
    split
    next h => rw [List.replicate_succ, List.cons_append, ← ih, h]
    next => rfl

theorem spanRun_rest_head {v b : Bool} {bits rest : List Bool} (h : (spanRun v bits).2 = b :: rest) : b ≠ v := by
  induction bits with
  | nil => cases h
  | cons a bits ih =>
    rw [spanRun] at h
    split at h
    next => exact ih h
    next hne =>
      obtain ⟨rfl, -⟩ := List.cons_eq_cons.1 h
      exact hne

theorem rowRuns_of_white (k : Nat) {row : List Bool} (hrow : row ≠ []) (h : (spanRun false row).2 = []) :
    rowRuns (k + 1) row = [(.white, (spanRun false row).1)] := by
  obtain ⟨a, row, rfl⟩ := List.exists_cons_of_ne_nil hrow
  simp only [rowRuns, h]

theorem rowRuns_of_black (k : Nat) {row rest : List Bool} {b : Bool} (h : (spanRun false row).2 = b :: rest) :
    rowRuns (k + 1) row =
      (.white, (spanRun false row).1) :: (.black, (spanRun true (b :: rest)).1) ::
        rowRuns k (spanRun true (b :: rest)).2 := by
  cases row with
  | nil => cases h
  | cons a row => simp only [rowRuns, h]

/-- What is left of a row is one white run, or a white run, a black run of at least a pixel, and what is left then. -/
theorem rowRuns_cases (k : Nat) {row : List Bool} (hrow : row ≠ []) :
    (∃ w, row = List.replicate w false ∧ rowRuns (k + 1) row = [(.white, w)]) ∨
    ∃ w n rest, row = List.replicate w false ++ (List.replicate (n + 1) true ++ rest) ∧
      rowRuns (k + 1) row = (.white, w) :: (.black, n + 1) :: rowRuns k rest := by
  have hwhite := spanRun_append false row
  cases hrest : (spanRun false row).2 with
  | nil =>
    rw [hrest, List.append_nil] at hwhite
    exact .inl ⟨_, hwhite, rowRuns_of_white k hrow hrest⟩
  | cons b rest =>
    obtain rfl : b = true := Bool.eq_true_of_not_eq_false (spanRun_rest_head hrest)
    have hblack := spanRun_append true (true :: rest)
    have hpos : (spanRun true (true :: rest)).1 = (spanRun true rest).1 + 1 := by rw [spanRun, if_pos rfl]
    have hruns := rowRuns_of_black k hrest
    rw [hrest, hblack] at hwhite
    rw [hpos] at hwhite hruns
    exact .inr ⟨_, _, _, hwhite, hruns⟩

/-- A row's bits are the codes of white and black rows. -/
theorem not_elevenZeros_faxRowBits (row : List Bool) : ¬(List.replicate 11 false <:+: faxRowBits row) := by
  rw [faxRowBits, ← List.flatMap_assoc, List.flatMap_def]
  refine not_elevenZeros_flatten (List.forall_mem_map.2 fun e he => ?_)
  obtain ⟨r, -, he⟩ := List.mem_flatMap.1 he
  exact fewZeros_of_mem_codeRows (mem_codeRows_of_mem_runRows le_rfl e he)

/-! ### A row as the loop fills it (R271, R272) -/

/-- The colour of a pixel (R260). -/
def Colour.pixel : Colour → Bool
  | .white => false
  | .black => true

@[simp] theorem Colour.pixel_white : Colour.pixel .white = false := rfl
@[simp] theorem Colour.pixel_black : Colour.pixel .black = true := rfl

/-- DecodeLine's state between two runs: the pixels so far, then as many white ones as are left. -/
def LineState.between (col : Colour) (done left : List Bool) (y : Reader) : LineState :=
  ⟨done ++ List.replicate left.length false, col, 0, 0, 0, done.length, y⟩

theorem blacken_append (done : List Bool) (n m : Nat) :
    blacken (done ++ List.replicate (n + m) false) done.length n =
      done ++ List.replicate n true ++ List.replicate m false := by
  simp [blacken, List.drop_append]

/-- A closed run is pixels of its colour. -/
theorem LineState.closeRun_between {c n : Nat} (col : Colour) {done left : List Bool}
    (hc : c = done.length + (n + left.length)) (x y : Reader) :
    (LineState.between col done (List.replicate n (Colour.pixel col) ++ left) x).closeRun c n y =
      LineState.between (Colour.other col) (done ++ List.replicate n (Colour.pixel col)) left y := by
  have hn : min (0 + n) (c - done.length) = n := by omega
  simp only [LineState.between, LineState.closeRun, hn, List.length_append, List.length_replicate]
  cases col with
  | white =>
    rw [if_neg (by decide), List.append_assoc, Colour.pixel, List.replicate_append_replicate]
  | black =>
    rw [if_pos rfl, blacken_append]
    rfl

/-- The loop reads a run and fills its pixels in. -/
theorem passes_between {c n : Nat} {col : Colour} {done left read rest : List Bool} {x : Reader}
    (h : (LineState.between col done (List.replicate n (Colour.pixel col) ++ left) x).Ready c read (runBits (col, n))
      rest)
    (hc : c = done.length + (n + left.length)) :
    ∃ y, (LineState.between col done (List.replicate n (Colour.pixel col) ++ left) x).Passes c
        (runBits (col, n)).length
        (LineState.between (Colour.other col) (done ++ List.replicate n (Colour.pixel col)) left y) ∧
      y.Reads (read ++ runBits (col, n)) rest := by
  obtain ⟨y, hpass, hy⟩ := h.passes_run le_rfl
  rw [LineState.closeRun_between col hc] at hpass
  exact ⟨y, hpass, hy⟩

theorem rowRuns_nil (k : Nat) : rowRuns k [] = [] := by cases k <;> rfl

/-- With no pixel left the loop reads no run. -/
theorem passes_runs_nil {c k : Nat} {done read rest : List Bool} {x : Reader}
    (hrd : x.Reads read ((rowRuns k []).flatMap runBits ++ rest)) :
    ∃ col y, (LineState.between .white done [] x).Passes c ((rowRuns k []).flatMap runBits).length
        (LineState.between col (done ++ []) [] y) ∧
      y.Reads (read ++ (rowRuns k []).flatMap runBits) rest := by
  rw [rowRuns_nil] at hrd ⊢
  exact ⟨.white, x, by simpa using LineState.passes_refl c _, by simpa using hrd⟩

/-- The loop reads the runs that are left of a row, white first, and fills the row up. -/
theorem passes_runs {c k : Nat} {done left read rest : List Bool} {x : Reader} (hk : left.length ≤ k)
    (hc : c = done.length + left.length) (hrd : x.Reads read ((rowRuns k left).flatMap runBits ++ rest))
    (hfew : ¬(List.replicate 11 false <:+: read ++ (rowRuns k left).flatMap runBits)) :
    ∃ col y, (LineState.between .white done left x).Passes c ((rowRuns k left).flatMap runBits).length
        (LineState.between col (done ++ left) [] y) ∧
      y.Reads (read ++ (rowRuns k left).flatMap runBits) rest := by
  induction k generalizing done left read x with
  | zero =>
    obtain rfl := List.length_eq_zero_iff.1 (Nat.le_zero.1 hk)
    exact passes_runs_nil hrd
  | succ k ih =>
    by_cases hleft : left = []
    · subst hleft
      exact passes_runs_nil hrd
    have hx : done.length < c := by
      have := List.length_pos_of_ne_nil hleft
      omega
    obtain ⟨w, rfl, hruns⟩ | ⟨w, n, left, rfl, hruns⟩ := rowRuns_cases k hleft <;> rw [hruns] at hrd hfew ⊢
    · rw [List.flatMap_singleton] at hrd hfew ⊢
      obtain ⟨y, hpass, hy⟩ := passes_between (left := []) ⟨hx, rfl, rfl, hrd, hfew⟩ (by simpa using hc)
      rw [List.append_nil] at hpass
      exact ⟨_, y, hpass, hy⟩
    · simp only [List.length_append, List.length_replicate] at hc hk
      rw [List.flatMap_cons, List.flatMap_cons] at hrd hfew ⊢
      obtain ⟨y, hwhite, hy⟩ := passes_between (left := List.replicate (n + 1) true ++ left)
        (LineState.Ready.first ⟨hx, rfl, rfl, hrd, hfew⟩) (by simpa using hc)
      rw [← List.append_assoc] at hfew
      obtain ⟨u, hblack, hu⟩ := passes_between (col := .black) (done := done ++ List.replicate w false) (left := left)
        (LineState.Ready.first ⟨(by simp; omega : (done ++ _).length < c), rfl, rfl, hy, hfew⟩) (by simp; omega)
      rw [← List.append_assoc] at hfew
      obtain ⟨col, v, hrest, hv⟩ := ih (done := done ++ List.replicate w false ++ List.replicate (n + 1) true)
        (by omega) (by simp; omega) hu hfew
      have hpass := (hwhite.trans hblack).trans hrest
      exact ⟨col, v, by simpa [Nat.add_assoc] using hpass, by simpa using hv⟩

/-! ### A whole line (R271, R273) -/

/-- DecodeLine's fuel is enough for the bits the reader holds, and two turns more. -/
theorem decodeLine_of_passes {c n : Nat} {left : List Bool} {x : Reader} {l : LineState} (hc : c = left.length)
    (h : (LineState.between .white [] left x).Passes c n l) (hn : n ≤ x.bits.length) :
    ∃ k, decodeLine c exactLook x = decodeLoop c exactLook (k + 1) l := by
  subst hc
  have hle := bits_length_le_bitsLeft x
  have hfuel : x.bitsLeft + 2 = n + (x.bitsLeft + 1 - n + 1) := by omega
  exact ⟨x.bitsLeft + 1 - n, by rw [← h, ← hfuel]; rfl⟩

/-- From a reader just past an EOL, DecodeLine(c) reads these bits, returns `e` and leaves `scan` in FAX_SCAN. -/
def LineOf (c : Nat) (bits : List Bool) (e : LineEnd) (scan : List Bool) : Prop :=
  ∀ (x : Reader) (rest : List Bool), x.Reads [] (bits ++ rest) →
    ∃ l, decodeLine c exactLook x = (e, l) ∧ l.scan = scan ∧ l.rd.Reads [] rest

/-- A coded row with its EOL is a line with the row's pixels: the runs fill the row, and Sync reads the EOL. -/
theorem lineOf_row (row : List Bool) : LineOf row.length (faxRowBits row ++ eolBits) .line row := by
  intro x rest hx
  have hfew := not_elevenZeros_faxRowBits row
  rw [faxRowBits_eq] at hx hfew
  rw [List.append_assoc] at hx
  obtain ⟨col, y, hpass, hy⟩ := passes_runs (c := row.length) (done := []) (left := row) le_rfl (Nat.zero_add _).symm hx
    hfew
  obtain ⟨k, hk⟩ := decodeLine_of_passes rfl hpass (by rw [hx.bits, List.length_append]; exact Nat.le_add_right ..)
  obtain ⟨hsync, hread⟩ := hy.sync
  rw [decodeLoop_full (c := row.length) (l := LineState.between col ([] ++ row) [] y) le_rfl hsync] at hk
  exact ⟨_, hk, List.append_nil row, hread⟩

/-- The loop reads zeros that begin a code. -/
theorem passes_zeros {c n : Nat} {l : LineState} {read rest : List Bool} (hx : l.x < c) (hcode : l.code = 0)
    (hlen : l.len + n ≤ 13) (hrd : l.rd.Reads read (List.replicate n false ++ rest)) :
    ∃ y, l.Passes c n { l with len := l.len + n, rd := y } ∧ y.Reads (read ++ List.replicate n false) rest := by
  induction n generalizing l read with
  | zero => exact ⟨l.rd, l.passes_refl c, by simpa using hrd⟩
  | succ n ih =>
    obtain ⟨y, hget, hy⟩ := hrd.getBit
    have hzero : (l.take false y).code = 0 := by rw [LineState.take, hcode]; rfl
    have htakes : l.Takes c false y := ⟨hx, hget, fun h => Bool.noConfusion h.2, by omega⟩
    obtain ⟨u, hrest, hu⟩ := ih (l := l.take false y) hx hzero (by simp only [LineState.take]; omega) hy
    refine ⟨u, ?_, by simpa [List.replicate_succ] using hu⟩
    have hall := (htakes.goesOn (.inl hzero)).trans hrest
    simpa [LineState.take, hcode, Nat.add_assoc, Nat.add_comm 1 n] using hall

/-- An EOL alone is a null line, all white. -/
theorem lineOf_eol {c : Nat} (hc : c ≠ 0) : LineOf c eolBits .nullLine (List.replicate c false) := by
  intro x rest hx
  have hpos : 0 < c := Nat.pos_of_ne_zero hc
  have hlen : c = (List.replicate c false).length := List.length_replicate.symm
  rw [eolBits, List.append_assoc] at hx
  obtain ⟨y, hpass, hy⟩ := passes_zeros (l := LineState.between .white [] (List.replicate c false) x) hpos rfl
    (Nat.le_add_right 11 2) hx
  obtain ⟨k, hk⟩ := decodeLine_of_passes hlen hpass (by rw [hx.bits, List.length_append]; simp)
  obtain ⟨u, hget, hu⟩ := hy.getBit
  have hz : 11 ≤ y.br.zrun.toNat := by rw [hy.zeros]; decide
  rw [decodeLoop_eol hpos hget hz] at hk
  exact ⟨_, hk, congrArg (List.replicate · false) hlen.symm, hu.after_one⟩

end Sys2Proof.Machine
end

section
/-! PROOFS. O23: FAX_DECODE on the bytes of an encoded page, line by line (R270, R276, R278). -/

namespace Sys2Proof.Machine

open Host

/-! ### The bits of bytes made of bits (R206) -/

/-- Bits as bytes are those bits again, and fewer than eight 0 bits. -/
theorem flatMap_byteBits_bitsToBytes (bits : List Bool) :
    ∃ pad, (bitsToBytes bits).flatMap byteBits = bits ++ List.replicate pad false := by
  let x : Writer := ⟨⟨0, 0x80, .raw⟩, []⟩
  have hfresh : BitWriter.pending ⟨0, 0x80, x.bw.port⟩ = [] := (BitWriter.atBit_fresh x.bw.port).pending
  have hx : x.bits = [] := hfresh
  obtain ⟨hlegal, hport, hbits⟩ := putBits_appends bits (x := x) (legal_freshWriter x.bw.port)
  obtain ⟨pad, hpad, hflush⟩ := flushWriter_appended hlegal
  have hout := hflush.bits
  rw [hbits, hx, List.nil_append, Writer.bits, flushWriter_bw hlegal, hport, hfresh, List.append_nil] at hout
  exact ⟨pad, by rw [bitsToBytes_of_fill hpad hout, hout]⟩

/-! ### What FAX_DECODE has done so far -/

/-- The built tables are searched exactly (R240). -/
theorem look_of_built {s : State} (hw : s.faxWhash = buildTable .white whiteRows)
    (hb : s.faxBhash = buildTable .black blackRows) : s.look = exactLook := by
  funext col len code
  cases col with
  | white =>
    rw [State.look, State.hashOf, hw]
    exact lookupRow_buildTable (codeRows_slots_nodup .white) len code
  | black =>
    rw [State.look, State.hashOf, hb]
    exact lookupRow_buildTable (codeRows_slots_nodup .black) len code

/-- From `s` to `t` FAX_DECODE has built its tables, written these pixels and made these requests; it is just past an
EOL with these bits to come, and has changed nothing else but RES, FAX_SCAN and the answers still to come. -/
structure State.FaxDecoding (s : State) (written : List PixWrite) (asked : List Request) (bits : List Bool)
    (t : State) : Prop where
  reads : t.reader.Reads [] bits
  whash : t.faxWhash = buildTable .white whiteRows
  bhash : t.faxBhash = buildTable .black blackRows
  written : t.ports.pixOut = s.ports.pixOut ++ written
  asked : t.ports.requests = s.ports.requests ++ asked
  kept : t.ports.rawOut = s.ports.rawOut ∧ t.ports.textOut = s.ports.textOut ∧ t.ports.raised = s.ports.raised
  frame : { t with
    res := s.res, br := s.br, faxWhash := s.faxWhash, faxBhash := s.faxBhash, faxScan := s.faxScan
    ports := s.ports } = s

theorem syncReader_start_reads {bits : List Bool} {src : List Byte} (h : src.flatMap byteBits = eolBits ++ bits) :
    (syncReader (.start src)).1 = true ∧ (syncReader (.start src)).2.Reads [] bits :=
  Reader.Reads.sync (read := []) ⟨Reader.start_legal src, rfl, (Reader.start_bits src).trans h⟩

theorem faxDecoding_start (s : State) {x : Reader} {bits : List Bool} (h : x.Reads [] bits) :
    s.FaxDecoding [] [.alloc .faxHash 2042, .alloc .faxScan (s.argVal 0).toNat] bits (s.decodeReady.setReader x) where
  reads := h
  whash := rfl
  bhash := rfl
  written := (List.append_nil _).symm
  asked := List.append_assoc ..
  kept := ⟨rfl, rfl, rfl⟩
  frame := rfl

/-- The requests of line `y`: the row, and whether to go on. -/
def decodeRequests (total y : Nat) : List Request := [.acquireRow y, .progress 0x13 (y + 1) total]

/-- The state after line `y` is decoded as `l` and committed, and the Progress request made. -/
def State.lineCommitted (s : State) (l : LineState) (y total : Nat) : State :=
  { s with
    br := l.rd.br, faxScan := l.scan
    ports := (((s.afterLine l).tookRow y).commitRow y).ports.tookProgress 0x13 (y + 1) total }

section Line

variable {s t : State} {written : List PixWrite} {asked : List Request} {bits rest : List Bool} {l : LineState}
  {moreRows moreProgress : List Bool}

theorem State.FaxDecoding.line (h : s.FaxDecoding written asked bits t) (hl : l.rd.Reads [] rest) (y total : Nat) :
    s.FaxDecoding (written ++ bilevelWrites y 0 l.scan) (asked ++ decodeRequests total y) rest
      (t.lineCommitted l y total) where
  reads := hl
  whash := h.whash
  bhash := h.bhash
  written := by
    rw [← List.append_assoc, ← h.written]
    rfl
  asked := by
    rw [← List.append_assoc, ← h.asked]
    exact List.append_assoc ..
  kept := h.kept
  frame := h.frame

/-- The trailing null lines after one more line. -/
def nextNull : LineEnd → Nat → Nat
  | .nullLine, null => null + 1
  | _, _ => 0

/-- A line that is supplied and not stopped. -/
theorem faxDecodeRows_next {c total k y null : Nat} {e : LineEnd} (hnull : null < 3)
    (hline : decodeLine c t.look t.reader = (e, l)) (he : e ≠ .eof) (hrows : t.ports.rows = true :: moreRows)
    (hprogress : t.ports.progress = true :: moreProgress) :
    faxDecodeRows c total (k + 1) y null t =
      faxDecodeRows c total k (y + 1) (nextNull e null) (t.lineCommitted l y total) := by
  have hrow : (t.afterLine l).ports.nextRow = true := Ports.nextRow_of_cons hrows
  have hgo : (((t.afterLine l).tookRow y).commitRow y).ports.nextProgress = true := Ports.nextProgress_of_cons hprogress
  have hcount : (if e = .nullLine then null + 1 else 0) = nextNull e null := by cases e <;> rfl
  have hgoes : ¬Config.faxNullLines ≤ null := Nat.not_le.2 hnull
  rw [faxDecodeRows, if_neg hgoes, hline]
  refine (if_neg he).trans ((if_pos hrow).trans ((if_pos hgo).trans ?_))
  rw [hcount]
  rfl

/-- Lines of one kind, supplied and not stopped, that do not bring the trailing null lines to three before the last. -/
theorem faxDecodeRows_lines {c : Nat} (total k y null : Nat) {e : LineEnd} (he : e ≠ .eof) {lines : List (List Bool)}
    {enc : List Bool → List Bool} (hlines : ∀ row ∈ lines, LineOf c (enc row) e row)
    (hnull : ∀ i < lines.length, (nextNull e)^[i] null < 3)
    (h : s.FaxDecoding written asked (lines.flatMap enc ++ rest) t)
    (hrows : t.ports.rows = List.replicate lines.length true ++ moreRows)
    (hprogress : t.ports.progress = List.replicate lines.length true ++ moreProgress) :
    ∃ u, faxDecodeRows c total (lines.length + k) y null t =
        faxDecodeRows c total k (y + lines.length) ((nextNull e)^[lines.length] null) u ∧
      s.FaxDecoding (written ++ pageWrites y lines)
        (asked ++ (List.range' y lines.length).flatMap (decodeRequests total)) rest u ∧
      u.ports.rows = moreRows ∧ u.ports.progress = moreProgress := by
  induction lines generalizing y null written asked t with
  | nil => exact ⟨t, by simp, by simpa [pageWrites] using h, hrows, hprogress⟩
  | cons row lines ih =>
    obtain ⟨hrow, hmore⟩ := List.forall_mem_cons.1 hlines
    have hgoes : null < 3 := hnull 0 (Nat.succ_pos _)
    have hbits : t.reader.Reads [] (enc row ++ (lines.flatMap enc ++ rest)) := by
      rw [← List.append_assoc, ← List.flatMap_cons]
      exact h.reads
    obtain ⟨l, hdecode, rfl, hread⟩ := hrow t.reader _ hbits
    rw [← look_of_built h.whash h.bhash] at hdecode
    have hnext := faxDecodeRows_next (total := total) (k := lines.length + k) (y := y) hgoes hdecode he hrows
      hprogress
    obtain ⟨u, hrun, hu, hanswers⟩ := ih (y + 1) (nextNull e null) hmore
      (fun i hi => hnull (i + 1) (Nat.succ_lt_succ hi)) (h.line hread y total)
      (congrArg List.tail hrows) (congrArg List.tail hprogress)
    refine ⟨u, ?_, ?_, hanswers⟩
    · rw [List.length_cons, Nat.add_right_comm, hnext, hrun, Function.iterate_succ_apply]
      congr 1
      omega
    · simpa [List.range'_succ, pageWrites] using hu

end Line

/-! ### A whole page (R276, R278) -/

/-- The row loop ends when all the rows asked for are decoded, or after three null lines. -/
theorem faxDecodeRows_done {c total k y null : Nat} {s : State} (h : k = 0 ∨ 3 ≤ null) :
    faxDecodeRows c total k y null s = .normal { s with res := faxDone y null } := by
  cases k with
  | zero => rfl
  | succ k => exact if_pos (h.resolve_left (Nat.succ_ne_zero k))

theorem pageWrites_append (y : Nat) (rows rows' : List (List Bool)) :
    pageWrites y (rows ++ rows') = pageWrites y rows ++ pageWrites (y + rows.length) rows' := by
  induction rows generalizing y with
  | nil => rfl
  | cons row rows ih =>
    rw [List.cons_append, pageWrites, pageWrites, ih, List.append_assoc, List.length_cons, Nat.add_right_comm,
      Nat.add_assoc]

theorem iterate_nextNull_line (n : Nat) : (nextNull .line)^[n] 0 = 0 := Function.iterate_fixed rfl n

theorem iterate_nextNull_nullLine (n null : Nat) : (nextNull .nullLine)^[n] null = null + n :=
  Nat.succ_iterate null n

/-- The bits of a page as the decoder reads them: the leading EOL, `m` rows at most, then an EOL for each null line. -/
theorem pageBits_after_eol (rows : List (List Bool)) (white : List Bool) (m : Nat) (more : List Bool) :
    ∃ rest, faxPageBits rows ++ more = eolBits ++ ((rows.take m).flatMap (fun row => faxRowBits row ++ eolBits) ++
      ((List.replicate (min (m - rows.length) 3) white).flatMap (fun _ => eolBits) ++ rest)) := by
  have hpage : faxPageBits rows = eolBits ++ ((rows.take m).flatMap (fun row => faxRowBits row ++ eolBits) ++
      ((rows.drop m).flatMap (fun row => faxRowBits row ++ eolBits) ++ (List.replicate 6 eolBits).flatten)) := by
    rw [faxPageBits, ← List.append_assoc (List.flatMap _ _), ← List.flatMap_append, List.take_append_drop,
      List.append_assoc]
  by_cases hm : m ≤ rows.length
  · have hnone : min (m - rows.length) 3 = 0 := by omega
    rw [hpage, hnone]
    exact ⟨_, by simp only [List.append_assoc]; rfl⟩
  · have hall : rows.drop m = [] := List.drop_eq_nil_of_le (by omega)
    obtain ⟨n, hn⟩ : ∃ n, 6 = min (m - rows.length) 3 + n := ⟨6 - min (m - rows.length) 3, by omega⟩
    have heols : (List.replicate 6 eolBits).flatten =
        (List.replicate (min (m - rows.length) 3) white).flatMap (fun _ => eolBits) ++
          (List.replicate n eolBits).flatten := by
      conv_lhs => rw [hn]
      rw [← List.replicate_append_replicate, List.flatten_append, List.flatMap_def, List.map_replicate]
    rw [hpage, hall, heols]
    exact ⟨(List.replicate n eolBits).flatten ++ more, by simp⟩

/-- The rows the decoder commits: `m` at most, the null lines as white rows. -/
theorem take_rows_null (rows : List (List Bool)) (white : List Bool) (m : Nat) :
    (rows ++ List.replicate 3 white).take (min m (rows.length + 3)) =
      rows.take m ++ List.replicate (min (m - rows.length) 3) white := by
  have hcoded : rows.take (min m (rows.length + 3)) = rows.take m := by
    rw [List.take_eq_take_iff]
    omega
  have hnull : min (min m (rows.length + 3) - rows.length) 3 = min (m - rows.length) 3 := by omega
  rw [List.take_append, hcoded, List.take_replicate, hnull]

/-- The bits of a source that begins with an encoded page. -/
theorem pageSource_bits (rows : List (List Bool)) (white : List Bool) (m : Nat) (more : List Byte) :
    ∃ rest, (bitsToBytes (faxPageBits rows) ++ more).flatMap byteBits =
      eolBits ++ ((rows.take m).flatMap (fun row => faxRowBits row ++ eolBits) ++
        ((List.replicate (min (m - rows.length) 3) white).flatMap (fun _ => eolBits) ++ rest)) := by
  obtain ⟨pad, hpad⟩ := flatMap_byteBits_bitsToBytes (faxPageBits rows)
  rw [List.flatMap_append, hpad, List.append_assoc]
  exact pageBits_after_eol rows white m _

/-- The row loop on coded rows and `n` null lines after them, which end it. -/
theorem faxDecodeRows_page {c n : Nat} (hc : c ≠ 0) (total k : Nat) {s t : State} {asked : List Request}
    {rest : List Bool} {rows : List (List Bool)} {moreRows moreProgress : List Bool}
    (hlen : ∀ row ∈ rows, row.length = c) (hn : n ≤ 3) (hend : k = 0 ∨ n = 3)
    (h : s.FaxDecoding [] asked (rows.flatMap (fun row => faxRowBits row ++ eolBits) ++
      ((List.replicate n (List.replicate c false)).flatMap (fun _ => eolBits) ++ rest)) t)
    (hrows : t.ports.rows = List.replicate (rows.length + n) true ++ moreRows)
    (hprogress : t.ports.progress = List.replicate (rows.length + n) true ++ moreProgress) :
    ∃ u, faxDecodeRows c total (rows.length + (n + k)) 0 0 t =
        .normal { u with res := faxDone (rows.length + n) n } ∧
      s.FaxDecoding (pageWrites 0 (rows ++ List.replicate n (List.replicate c false)))
        (asked ++ (List.range (rows.length + n)).flatMap (decodeRequests total)) rest u := by
  have hnulls : (List.replicate n (List.replicate c false)).length = n := List.length_replicate
  rw [← List.replicate_append_replicate, List.append_assoc] at hrows hprogress
  obtain ⟨v, hcoded, hv, hvrows, hvprogress⟩ := faxDecodeRows_lines total (n + k) 0 0 (e := .line) (by decide)
    (fun row hrow => hlen row hrow ▸ lineOf_row row) (fun i _ => by rw [iterate_nextNull_line]; decide) h hrows
    hprogress
  rw [iterate_nextNull_line, Nat.zero_add] at hcoded
  obtain ⟨u, hnull, hu, -⟩ := faxDecodeRows_lines (lines := List.replicate n (List.replicate c false)) total k
    rows.length 0 (e := .nullLine) (by decide) (fun row hrow => List.eq_of_mem_replicate hrow ▸ lineOf_eol hc)
    (fun i hi => by rw [iterate_nextNull_nullLine]; omega) hv (hvrows.trans (by rw [hnulls]))
    (hvprogress.trans (by rw [hnulls]))
  have hdone : k = 0 ∨ 3 ≤ n := by omega
  rw [iterate_nextNull_nullLine, hnulls, Nat.zero_add, faxDecodeRows_done hdone] at hnull
  refine ⟨u, hcoded.trans hnull, ?_⟩
  rw [hnulls] at hu
  rw [pageWrites_append, List.range_eq_range', ← List.range'_append_1, List.flatMap_append, ← List.append_assoc,
    Nat.zero_add]
  exact hu

/-- RES after `y` rows and `n` trailing null lines (R276). -/
theorem faxDone_add {y : Nat} (hy : 0 < y) (n : Nat) : faxDone (y + n) n = ⟨BitVec.ofNat 64 y, 204, 196, 1⟩ := by
  rw [faxDone, Nat.add_sub_cancel, max_eq_left hy]
  rfl

/-- FAX_DECODE's pseudocode on an encoded page. -/
theorem faxDecodeBody_page {s : State} {rows : List (List Bool)} {more : List Byte}
    {moreAllocs moreRows moreProgress : List Bool} (hc : (s.argVal 0).toNat ≠ 0) (hm : (s.argVal 1).toNat ≠ 0)
    (hrows : rows ≠ []) (hlen : ∀ row ∈ rows, row.length = (s.argVal 0).toNat)
    (hsrc : s.ports.src = bitsToBytes (faxPageBits rows) ++ more)
    (halloc : s.ports.allocs = true :: true :: moreAllocs)
    (hanswers : s.ports.rows = List.replicate (min (s.argVal 1).toNat (rows.length + 3)) true ++ moreRows)
    (hprogress : s.ports.progress = List.replicate (min (s.argVal 1).toNat (rows.length + 3)) true ++ moreProgress) :
    let k := min (s.argVal 1).toNat (rows.length + 3)
    ∃ bits u, faxDecodeBody s = .normal (State.dropScan { u with
        res := ⟨BitVec.ofNat 64 (min (s.argVal 1).toNat rows.length), 204, 196, 1⟩ }) ∧
      s.FaxDecoding
        (pageWrites 0 ((rows ++ List.replicate 3 (List.replicate (s.argVal 0).toNat false)).take k))
        (.alloc .faxHash 2042 :: .alloc .faxScan (s.argVal 0).toNat ::
          (List.range k).flatMap (decodeRequests (s.argVal 1).toNat)) bits u := by
  intro k
  have hpos := List.length_pos_of_ne_nil hrows
  have hcoded : (rows.take (s.argVal 1).toNat).length = min (s.argVal 1).toNat rows.length := List.length_take
  have hk : k = (rows.take (s.argVal 1).toNat).length + min ((s.argVal 1).toNat - rows.length) 3 := by omega
  have hm' : (s.argVal 1).toNat = (rows.take (s.argVal 1).toNat).length +
      (min ((s.argVal 1).toNat - rows.length) 3 + ((s.argVal 1).toNat - k)) := by omega
  obtain ⟨rest, hbits⟩ := pageSource_bits rows (List.replicate (s.argVal 0).toNat false) (s.argVal 1).toNat more
  obtain ⟨hsync, hreads⟩ := syncReader_start_reads (hsrc ▸ hbits)
  obtain ⟨u, hrun, hu⟩ := faxDecodeRows_page hc (s.argVal 1).toNat ((s.argVal 1).toNat - k)
    (fun row hrow => hlen row (List.mem_of_mem_take hrow)) (by omega) (by omega) (faxDecoding_start s hreads)
    (hanswers.trans (by rw [← hk])) (hprogress.trans (by rw [← hk]))
  rw [← hm', faxDone_add (by omega), hcoded] at hrun
  rw [← hk, ← take_rows_null] at hu
  refine ⟨rest, u, ?_, hu⟩
  rw [faxDecodeBody_of_eol hc hm halloc hsync, hrun]
  rfl

/-- Settles O23: the pseudocode on the bits of a page, between the start and the normal end of a command. -/
theorem faxDecodeReadsAnEncodedPage : Obligations.FaxDecodeReadsAnEncodedPage := by
  intro s rows more moreAllocs moreRows moreProgress hc hm hrows hlen hsrc halloc k hanswers hprogress
  obtain ⟨bits, u, hbody, hdec⟩ := faxDecodeBody_page (s := s.beginCmd .seq) hc hm hrows hlen hsrc halloc hanswers
    hprogress
  have hstatus : u.status = s.status.begin := (congrArg State.status hdec.frame :)
  obtain ⟨hraw, htext, hraised⟩ := hdec.kept
  refine ⟨_, exec_seq_normal (i := .faxDecode) rfl hbody, ?_, rfl, hdec.written, hdec.whash, hdec.bhash, rfl,
    hdec.asked, hraw, htext, hraised, ?_⟩
  · exact congrArg Status.finish hstatus
  · exact (congrArg (fun v : State => { v with
      status := s.status, res := s.res, br := s.br, faxWhash := s.faxWhash, faxBhash := s.faxBhash
      faxScan := s.faxScan, ports := s.ports }) hdec.frame :)

end Sys2Proof.Machine
end

section
/-! PROOFS. FindChild's chain (R302): the children of a code stay reachable along LZW_ENTRY's links, no two entries
extend the same code by the same byte, and chains are short, so the walk is a map lookup (O28). -/

namespace Sys2Proof.Machine

open Host

/-! ### The chains -/

theorem Lzw.inUse_of_lzwFirst_le {z : Lzw} {j : Nat} (hfirst : lzwFirst ≤ j) (h : j < z.nextCode) : z.InUse j := by
  unfold lzwFirst at hfirst
  exact ⟨h, by unfold lzwClear; omega, by unfold lzwEnd; omega⟩

/-- The code in use `a` is linked to `b`. -/
def Lzw.Link (z : Lzw) (a b : Nat) : Prop := z.InUse a ∧ (z.get a).next = some b

/-- The entry `j` extends the code `q` by the byte `c`. -/
def Lzw.Extends (z : Lzw) (q : Nat) (c : Byte) (j : Nat) : Prop :=
  z.InUse j ∧ (z.get j).pre = some q ∧ (z.get j).suffix = c

/-- The chained dictionary is a map: a code's chain reaches the entries that extend it, each extension has one entry,
and links go down in a rank, which bounds the length of a chain. -/
structure Lzw.Linked (z : Lzw) : Prop where
  reaches : ∀ q c j, z.Extends q c j → Relation.ReflTransGen z.Link q j
  unique : ∀ q c i j, z.Extends q c i → z.Extends q c j → i = j
  ranked : ∃ rank : Nat → Nat, (∀ j, z.InUse j → rank j ≤ z.nextCode) ∧ ∀ a b, z.Link a b → rank b < rank a

/-- The chains depend on LZW_ENTRY and LZW_NEXT alone. -/
theorem Lzw.Linked.congr {z z' : Lzw} (h : z.Linked) (hentry : z'.entry = z.entry)
    (hnext : z'.nextCode = z.nextCode) : z'.Linked := by
  obtain ⟨entry, nextCode, width, acc, nbits, last⟩ := z'
  cases hentry
  cases hnext
  exact ⟨h.reaches, h.unique, h.ranked⟩

/-- After InitTable the codes in use are roots, without links and children (R301). -/
theorem linked_lzwInitTable (z : Lzw) : (lzwInitTable z).Linked := by
  have hget {j : Nat} (hj : (lzwInitTable z).InUse j) : (lzwInitTable z).get j = ⟨none, BitVec.ofNat 8 j, none⟩ := by
    obtain ⟨hlt, hclear, hend⟩ := hj
    change j < 258 at hlt
    exact get_lzwInitTable z (by simp only [lzwClear, lzwEnd] at hclear hend; omega)
  have hroot {q j : Nat} {c : Byte} : ¬(lzwInitTable z).Extends q c j :=
    fun ⟨hj, hpre, _⟩ => by simp [hget hj] at hpre
  have hloose {a b : Nat} : ¬(lzwInitTable z).Link a b := fun ⟨ha, hb⟩ => by simp [hget ha] at hb
  exact ⟨fun _ _ _ h => absurd h hroot, fun _ _ _ _ h => absurd h hroot,
    fun _ => 0, fun _ _ => Nat.zero_le _, fun _ _ h => absurd h hloose⟩

/-! ### AddEntry (R303) -/

section AddEntry

variable {z : Lzw} {q : Nat} {c : Byte}

theorem inUse_lzwAddEntry {j : Nat} (h : (lzwAddEntry z q c).InUse j) : j = z.nextCode ∨ z.InUse j := by
  obtain ⟨hlt, hreserved⟩ := h
  exact (Nat.lt_succ_iff_lt_or_eq.1 hlt).elim (fun hj => .inr ⟨hj, hreserved⟩) .inl

/-- The links after an AddEntry: the new entry stands between its parent and what its parent was linked to. -/
theorem link_lzwAddEntry (hq : z.InUse q) {a b : Nat} (h : (lzwAddEntry z q c).Link a b) :
    a = q ∧ b = z.nextCode ∨ a = z.nextCode ∧ z.Link q b ∨ a ≠ z.nextCode ∧ z.Link a b := by
  obtain ⟨ha, hb⟩ := h
  by_cases han : a = z.nextCode
  · rw [han, get_lzwAddEntry_new c hq.1.ne] at hb
    exact .inr (.inl ⟨han, hq, hb⟩)
  · by_cases haq : a = q
    · rw [haq, get_lzwAddEntry_parent c hq.1.ne] at hb
      exact .inl ⟨haq, (Option.some_injective _ hb).symm⟩
    · rw [get_lzwAddEntry_other c haq han] at hb
      exact .inr (.inr ⟨han, (inUse_lzwAddEntry ha).resolve_left han, hb⟩)

/-- The entries after an AddEntry: the old ones and the one asked for. -/
theorem extends_lzwAddEntry (hq : z.InUse q) {p j : Nat} {d : Byte} (h : (lzwAddEntry z q c).Extends p d j) :
    j = z.nextCode ∧ p = q ∧ d = c ∨ z.Extends p d j := by
  obtain ⟨hj, hpre, hsuffix⟩ := h
  by_cases hjn : j = z.nextCode
  · rw [hjn, get_lzwAddEntry_new c hq.1.ne] at hpre hsuffix
    exact .inl ⟨hjn, (Option.some_injective _ hpre).symm, hsuffix.symm⟩
  · have hold := (inUse_lzwAddEntry hj).resolve_left hjn
    by_cases hjq : j = q
    · rw [hjq, get_lzwAddEntry_parent c hq.1.ne] at hpre hsuffix
      exact .inr (hjq ▸ ⟨hq, hpre, hsuffix⟩)
    · rw [get_lzwAddEntry_other c hjq hjn] at hpre hsuffix
      exact .inr ⟨hold, hpre, hsuffix⟩

/-- The parent is linked to the new entry. -/
theorem link_lzwAddEntry_parent (hq : z.InUse q) : (lzwAddEntry z q c).Link q z.nextCode :=
  ⟨⟨Nat.lt_succ_of_lt hq.1, hq.2⟩, by rw [get_lzwAddEntry_parent c hq.1.ne]⟩

/-- What a link led to is still reached, from the parent through the new entry. -/
theorem reaches_lzwAddEntry (hq : z.InUse q) (hnext : lzwFirst ≤ z.nextCode) {a b : Nat} (h : z.Link a b) :
    Relation.ReflTransGen (lzwAddEntry z q c).Link a b := by
  obtain ⟨ha, hb⟩ := h
  by_cases haq : a = q
  · subst haq
    have hnew : (lzwAddEntry z a c).InUse z.nextCode := Lzw.inUse_of_lzwFirst_le hnext (Nat.lt_succ_self _)
    exact .head (link_lzwAddEntry_parent hq) (.single ⟨hnew, by rw [get_lzwAddEntry_new c hq.1.ne, hb]⟩)
  · exact .single ⟨⟨Nat.lt_succ_of_lt ha.1, ha.2⟩, by rw [get_lzwAddEntry_other c haq ha.1.ne, hb]⟩

/-- The ranks after an AddEntry at the parent's rank `r`: the new entry takes it, and those from it on move up. -/
def rankAfterAdd (rank : Nat → Nat) (new r j : Nat) : Nat :=
  if j = new then r else if rank j < r then rank j else rank j + 1

theorem rankAfterAdd_lt {rank : Nat → Nat} (hlink : ∀ a b, z.Link a b → rank b < rank a) (hq : z.InUse q)
    (hfresh : ∀ a, ¬z.Link a z.nextCode) {a b : Nat} (h : (lzwAddEntry z q c).Link a b) :
    rankAfterAdd rank z.nextCode (rank q) b < rankAfterAdd rank z.nextCode (rank q) a := by
  have hqn := hq.1.ne
  unfold rankAfterAdd
  obtain ⟨rfl, rfl⟩ | ⟨rfl, hb⟩ | ⟨ha, hb⟩ := link_lzwAddEntry hq h
  · simp [hqn]
  · have hbn : b ≠ z.nextCode := fun e => hfresh q (e ▸ hb)
    rw [if_neg hbn, if_pos rfl, if_pos (hlink q b hb)]
    exact hlink q b hb
  · have hbn : b ≠ z.nextCode := fun e => hfresh a (e ▸ hb)
    have hlt := hlink a b hb
    rw [if_neg hbn, if_neg ha]
    split_ifs <;> omega

/-- AddEntry of an extension the dictionary lacks keeps it a map. -/
theorem Lzw.Linked.addEntry {E : List (List Byte)} (h : z.Linked) (hholds : z.Holds E) (hq : z.InUse q)
    (hlacks : ∀ j, ¬z.Extends q c j) : (lzwAddEntry z q c).Linked := by
  have hnext : lzwFirst ≤ z.nextCode := hholds.nextCode_eq ▸ Nat.le_add_right 258 _
  refine ⟨fun p d j hj => ?_, fun p d i j hi hj => ?_, ?_⟩
  · obtain ⟨rfl, rfl, rfl⟩ | hold := extends_lzwAddEntry hq hj
    · exact .single (link_lzwAddEntry_parent hq)
    · exact (h.reaches p d j hold).lift' id fun _ _ => reaches_lzwAddEntry hq hnext
  · obtain ⟨rfl, rfl, rfl⟩ | hi' := extends_lzwAddEntry hq hi <;>
      obtain ⟨hjn, hpq, hdc⟩ | hj' := extends_lzwAddEntry hq hj
    · exact hjn.symm
    · exact absurd hj' (hlacks j)
    · exact absurd (hpq ▸ hdc ▸ hi') (hlacks i)
    · exact h.unique p d i j hi' hj'
  · obtain ⟨rank, hbound, hlink⟩ := h.ranked
    have hfresh (a : Nat) (ha : z.Link a z.nextCode) : False :=
      (hholds.chain a z.nextCode ha.1 ha.2).1.ne rfl
    refine ⟨rankAfterAdd rank z.nextCode (rank q), fun j hj => ?_, fun _ _ => rankAfterAdd_lt hlink hq hfresh⟩
    change _ ≤ z.nextCode + 1
    have hrq := hbound q hq
    unfold rankAfterAdd
    obtain rfl | hold := inUse_lzwAddEntry hj
    · rw [if_pos rfl]
      omega
    · have hrj := hbound j hold
      split_ifs <;> omega

end AddEntry

/-! ### FindChild is the lookup (R302) -/

section FindChild

variable {z : Lzw} {E : List (List Byte)} {q f : Nat} {c : Byte}

/-- A walk with fuel for the chain's rank misses nothing on it. -/
theorem lzwWalk_complete {rank : Nat → Nat} (hlink : ∀ a b, z.Link a b → rank b < rank a) {k start j : Nat}
    (hk : rank start < k) (hreach : Relation.ReflTransGen z.Link start j) (hj : z.Extends q c j) :
    lzwWalk z q c k (some start) ≠ none := by
  induction k generalizing start with
  | zero => omega
  | succ k ih =>
    rw [lzwWalk]
    split
    · exact Option.some_ne_none start
    · next hmiss =>
      obtain rfl | ⟨b, hb, hrest⟩ := hreach.cases_head
      · exact absurd hj.2 hmiss
      · rw [hb.2]
        exact ih (by have := hlink start b hb; omega) hrest

/-- FindChild finds the entry that extends `q` by `c` and no other code. -/
theorem lzwFindChild_eq_some_iff (h : z.Linked) (hholds : z.Holds E) (hroom : E.length ≤ 3837) (hq : z.InUse q) :
    lzwFindChild z q c = some f ↔ z.Extends q c f := by
  have hsound {j : Nat} (hj : lzwFindChild z q c = some j) : z.Extends q c j :=
    lzwWalk_sound hholds (fun i hi => Option.some_injective _ hi ▸ hq) hj
  refine ⟨hsound, fun hf => ?_⟩
  obtain ⟨rank, hbound, hlink⟩ := h.ranked
  have hfuel : rank q < Config.lzwTableSize + 1 := by
    have hrank := hbound q hq
    have hnext := hholds.nextCode_eq
    simp only [Config.lzwTableSize]
    omega
  obtain ⟨j, hj⟩ := Option.ne_none_iff_exists'.1 (lzwWalk_complete hlink hfuel (h.reaches q c f hf) hf)
  rw [h.unique q c f j hf (hsound hj)]
  exact hj

/-- The map's lookup answers the entry that extends `q` by `c` and no other code. -/
theorem codeOf_eq_some_iff (h : z.Linked) (hholds : z.Holds E) : z.codeOf q c = some f ↔ z.Extends q c f := by
  have hsound {j : Nat} (hj : z.codeOf q c = some j) : z.Extends q c j := by
    have hlt := List.mem_range.1 (List.mem_of_find?_eq_some hj)
    have hmatch := List.find?_some hj
    simp only [Bool.and_eq_true, decide_eq_true_eq] at hmatch
    obtain ⟨⟨hfirst, hpre⟩, hsuffix⟩ := hmatch
    exact ⟨Lzw.inUse_of_lzwFirst_le hfirst hlt, hpre, hsuffix⟩
  refine ⟨hsound, fun hf => ?_⟩
  obtain ⟨⟨hlt, hclear, hend⟩, hpre, hsuffix⟩ := id hf
  have hroot : ¬f < 256 := fun hbyte => by simp [hholds.root f hbyte] at hpre
  have hfirst : lzwFirst ≤ f := by simp only [lzwClear, lzwEnd, lzwFirst] at *; omega
  obtain ⟨j, hj⟩ := Option.isSome_iff_exists.1 (List.find?_isSome.2
    ⟨f, List.mem_range.2 hlt, by simp [hfirst, hpre, hsuffix]⟩ : (z.codeOf q c).isSome)
  rw [h.unique q c f j hf (hsound hj)]
  exact hj

end FindChild

/-! ### The chains at the loop (R300, R304) -/

theorem linked_lzwGrow {x : LzwRun} (h : x.z.Linked) : (lzwGrow x).z.Linked := by
  unfold lzwGrow
  split
  · exact h
  · split
    · exact (linked_lzwInitTable _).congr rfl rfl
    · exact h.congr rfl rfl

/-- A turn of the loop adds an entry only where FindChild found none. -/
theorem linked_lzwByte {x : LzwRun} {E : List (List Byte)} {str : List Byte} {bits : List Bool}
    (hloop : x.AtLoop E str bits) (h : x.z.Linked) (c : Byte) : (lzwByte c x).z.Linked := by
  unfold lzwByte
  split
  · exact h.congr rfl rfl
  · next hnone =>
    have hlacks (j : Nat) (hj : x.z.Extends x.z.last c j) : False := by
      rw [(lzwFindChild_eq_some_iff h hloop.holds hloop.room hloop.last_inUse).2 hj] at hnone
      cases hnone
    obtain ⟨acc, nbits, out, hsent⟩ := lzwOutCode_withAcc x.z.last x
    have hadded := h.addEntry hloop.holds hloop.last_inUse hlacks
    rw [hsent]
    exact (linked_lzwGrow (x := ⟨lzwAddEntry (x.withAcc acc nbits out).z x.z.last c, out⟩)
      (hadded.congr rfl rfl)).congr rfl rfl

theorem linked_lzwBytes {x : LzwRun} {E : List (List Byte)} {str : List Byte} {bits : List Bool}
    (hloop : x.AtLoop E str bits) (h : x.z.Linked) (cs : List Byte) : (lzwBytes cs x).z.Linked := by
  induction cs generalizing x E str bits with
  | nil => exact h
  | cons c cs ih =>
    have hnext := linked_lzwByte hloop h c
    rw [lzwBytes]
    obtain h' | h' | ⟨-, h'⟩ := hloop.lzwByte c
    · exact ih h' hnext
    · exact ih h' hnext
    · exact ih h' hnext

/-- Settles O28: the walk and the lookup both answer the one entry that extends the code. -/
theorem lzwFindChildFindsTheExtension : Obligations.LzwFindChildFindsTheExtension := by
  intro z b bs q c hlt hclear hend
  have hstart := atLoop_lzwStart z b
  have hlinked : (lzwAfter z b bs).Linked :=
    linked_lzwBytes hstart (by rw [lzwStart_eq]; exact (linked_lzwInitTable z).congr rfl rfl) bs
  obtain ⟨E, str, bits, hloop⟩ := hstart.lzwBytes bs
  refine Option.ext fun f => ?_
  rw [lzwFindChild_eq_some_iff hlinked hloop.holds hloop.room ⟨hlt, hclear, hend⟩,
    codeOf_eq_some_iff hlinked hloop.holds]

end Sys2Proof.Machine
end

section
/-! PROOFS. O26: with the buffer checks passed, the two encoders end by what Alloc answers (R300, R330, R508). -/

namespace Sys2Proof.Machine

open Host

section Encoders

variable {w : BitVec 8} {s : State}

theorem bufferChecks_passed (k : Nat → Nat → CmdEnd) (hw : (s.wstat w).busy = false) (hv : s.pool.valid = true)
    (hn : w.toNat < s.pool.n) (h : (s.argVal 0).toNat + (s.argVal 1).toNat ≤ s.pool.extent.toNat) :
    bufferChecks w s k = k (s.argVal 0).toNat (s.argVal 1).toNat := by
  have hbuf : ¬(s.pool.valid = false ∨ s.pool.n ≤ w.toNat) := by simp [hv, hn]
  rw [bufferChecks, hw, if_neg Bool.false_ne_true, if_neg hbuf, if_neg (Nat.not_lt.2 h)]

/-- A sequencer command that is left with Alloc's answer: it completes, having made `t`, or raises, having made `u`. -/
theorem exec_seq_of_alloc {i : Instr} {t u : State} {op : BitVec 8} (hi : agentOf i = .seq) (hop : i.opcode = op)
    (h : bodyOf i (s.beginCmd .seq) =
      if s.ports.nextAlloc then .normal (t.beginCmd .seq) else .raised .resourceLimit (u.beginCmd .seq)) :
    (s.ports.nextAlloc = true → exec i s = .next t.seqEnded) ∧
    (s.ports.nextAlloc = false → exec i s = .next (u.seqRaised op .resourceLimit)) :=
  ⟨fun ha => exec_seq_ended hi (h.trans (if_pos ha)),
    fun ha => hop ▸ exec_seq_raised hi (h.trans (if_neg (Bool.eq_false_iff.1 ha)))⟩

variable (port : Port) (hw : (s.wstat w).busy = false) (hv : s.pool.valid = true) (hn : w.toNat < s.pool.n)
  (h : (s.argVal 0).toNat + (s.argVal 1).toNat ≤ s.pool.extent.toNat)

include hw hv hn h

/-- LZW_ENCODE's pseudocode past its checks (R300). -/
theorem bodyOf_lzwEncode_passed :
    let r := lzwEncode (scratchRead s.scratch w.toNat (s.argVal 0).toNat (s.argVal 1).toNat) s.lzw
    bodyOf (.lzwEncode w port) (s.beginCmd .seq) =
      if s.ports.nextAlloc then
        .normal (State.beginCmd { s with
          lzw := r.z, ports := (s.ports.tookAlloc .lzwTable 4096).sink port r.out
          res := { s.res with r0 := countRes r.out.length } } .seq)
      else .raised .resourceLimit (State.beginCmd { s with ports := s.ports.tookAlloc .lzwTable 4096 } .seq) := by
  rw [bodyOf, lzwEncodeBody, bufferChecks_passed (s := s.beginCmd .seq) _ hw hv hn h]
  rfl

/-- PACKBITS_ENCODE's pseudocode past its checks (R330). -/
theorem bodyOf_packbitsEncode_passed :
    let r := packbitsEncode (scratchRead s.scratch w.toNat (s.argVal 0).toNat (s.argVal 1).toNat) s.pbBuf
    bodyOf (.packbitsEncode w port) (s.beginCmd .seq) =
      if s.ports.nextAlloc then
        .normal (State.beginCmd { s with
          pbBuf := r.2, ports := (s.ports.tookAlloc .pbBuf 129).sink port r.1
          res := { s.res with r0 := countRes r.1.length } } .seq)
      else .raised .resourceLimit (State.beginCmd { s with ports := s.ports.tookAlloc .pbBuf 129 } .seq) := by
  rw [bodyOf, packbitsEncodeBody, bufferChecks_passed (s := s.beginCmd .seq) _ hw hv hn h]
  rfl

end Encoders

/-- Settles O26: what is left of each encoder after its checks is Alloc's answer. -/
theorem bufferEncodersSendTheirStreams : Obligations.BufferEncodersSendTheirStreams :=
  ⟨fun _ w port hw hv hn h => exec_seq_of_alloc (i := .lzwEncode w port) rfl (Laws.opcOf_packWord _ _ _ _)
      (bodyOf_lzwEncode_passed port hw hv hn h),
    fun _ w port hw hv hn h => exec_seq_of_alloc (i := .packbitsEncode w port) rfl (Laws.opcOf_packWord _ _ _ _)
      (bodyOf_packbitsEncode_passed port hw hv hn h)⟩

end Sys2Proof.Machine
end

section
/-! PROOFS. O30: a Packbits stream is a chain of runs that a standard decoder takes one by one (R330 to R335). -/

namespace Sys2Proof.Machine

open Host

/-- `PackbitsRuns stream bytes`: the stream is literal runs (R332) and repeat runs (R331) and then EOD (R333), and they
stand for the bytes. -/
inductive PackbitsRuns : List Byte → List Byte → Prop
  | eod : PackbitsRuns [0x80] []
  | literal {run stream bytes : List Byte} : run ≠ [] → run.length ≤ Config.packbitsMaxLiteral →
      PackbitsRuns stream bytes →
      PackbitsRuns (BitVec.ofNat 8 (run.length - 1) :: (run ++ stream)) (run ++ bytes)
  | repeated {n : Nat} {v : Byte} {stream bytes : List Byte} : 3 ≤ n → n ≤ Config.packbitsMaxRepeat →
      PackbitsRuns stream bytes →
      PackbitsRuns (BitVec.ofNat 8 ((257 - n) % 256) :: v :: stream) (List.replicate n v ++ bytes)

/-! ### The decoder takes a run (R335) -/

theorem ne_eod_of_toNat_ne {h : Byte} (hne : h.toNat ≠ 128) : h ≠ 0x80 := fun heod => hne (heod ▸ rfl)

theorem packbitsDecode_literal {run : List Byte} (hne : run ≠ []) (hmax : run.length ≤ Config.packbitsMaxLiteral)
    (k : Nat) (stream : List Byte) :
    packbitsDecode (k + 1) (BitVec.ofNat 8 (run.length - 1) :: (run ++ stream)) =
      (packbitsDecode k stream).map (run ++ ·) := by
  have hpos : 0 < run.length := List.length_pos_iff.2 hne
  have hlen : run.length ≤ 128 := hmax
  have hheader : (BitVec.ofNat 8 (run.length - 1)).toNat = run.length - 1 := by
    rw [BitVec.toNat_ofNat]
    omega
  have hcount : run.length - 1 + 1 = run.length := Nat.sub_add_cancel hpos
  rw [packbitsDecode.eq_def (k + 1)]
  dsimp only
  rw [if_neg (ne_eod_of_toNat_ne (by omega)), hheader, if_pos (by omega), hcount, if_neg (by simp), List.drop_left,
    List.take_left]

theorem packbitsDecode_repeated {n : Nat} (hmin : 3 ≤ n) (hmax : n ≤ Config.packbitsMaxRepeat) (k : Nat) (v : Byte)
    (stream : List Byte) :
    packbitsDecode (k + 1) (BitVec.ofNat 8 ((257 - n) % 256) :: v :: stream) =
      (packbitsDecode k stream).map (List.replicate n v ++ ·) := by
  have hlen : n ≤ 127 := hmax
  have hheader : (BitVec.ofNat 8 ((257 - n) % 256)).toNat = 257 - n := by
    rw [BitVec.toNat_ofNat]
    omega
  have hcount : 257 - (257 - n) = n := by omega
  rw [packbitsDecode, if_neg (ne_eod_of_toNat_ne (by omega)), hheader, if_neg (by omega), hcount]

/-- Every run is at least one byte long, so the stream's length is fuel enough. -/
theorem PackbitsRuns.decode {stream bytes : List Byte} (h : PackbitsRuns stream bytes) {k : Nat}
    (hk : stream.length ≤ k) : packbitsDecode k stream = some bytes := by
  induction h generalizing k with
  | eod =>
    obtain ⟨k, rfl⟩ := Nat.exists_eq_succ_of_ne_zero (Nat.ne_of_gt hk)
    rfl
  | literal hne hmax _ ih =>
    obtain ⟨k, rfl⟩ := Nat.exists_eq_succ_of_ne_zero (Nat.ne_of_gt (Nat.zero_lt_of_lt hk))
    have hrest := ih (k := k) (by simp at hk; omega)
    rw [packbitsDecode_literal hne hmax, hrest, Option.map_some]
  | repeated hmin hmax _ ih =>
    obtain ⟨k, rfl⟩ := Nat.exists_eq_succ_of_ne_zero (Nat.ne_of_gt (Nat.zero_lt_of_lt hk))
    have hrest := ih (k := k) (by simp at hk; omega)
    rw [packbitsDecode_repeated hmin hmax, hrest, Option.map_some]

/-! ### The runs the encoder measures (R331, R332) -/

theorem le_repeatLen (v : Byte) (c : Nat) (bs : List Byte) : c ≤ repeatLen v c bs := by
  fun_induction repeatLen v c bs with
  | case1 => exact Nat.le_refl _
  | case2 _ _ _ _ ih => exact Nat.le_of_succ_le ih
  | case3 => exact Nat.le_refl _

theorem repeatLen_le (v : Byte) {c : Nat} (bs : List Byte) (hc : c ≤ Config.packbitsMaxRepeat) :
    repeatLen v c bs ≤ Config.packbitsMaxRepeat := by
  fun_induction repeatLen v c bs with
  | case1 => exact hc
  | case2 _ _ _ h ih => exact ih h.2
  | case3 => exact hc

/-- The bytes a repeat run takes are all the same. -/
theorem take_repeatLen (v : Byte) (c : Nat) (bs : List Byte) :
    (List.replicate c v ++ bs).take (repeatLen v c bs) = List.replicate (repeatLen v c bs) v := by
  fun_induction repeatLen v c bs with
  | case1 => simp
  | case2 _ _ _ h ih => simpa [List.replicate_succ', h.1] using ih
  | case3 => simp

theorem le_literalLen (c : Nat) (bs : List Byte) : c ≤ literalLen c bs := by
  fun_induction literalLen c bs with
  | case1 => exact Nat.le_refl _
  | case2 => exact Nat.le_refl _
  | case3 _ _ _ _ ih => exact Nat.le_of_succ_le ih

theorem literalLen_le {c : Nat} (bs : List Byte) (hc : c ≤ Config.packbitsMaxLiteral) :
    literalLen c bs ≤ Config.packbitsMaxLiteral := by
  fun_induction literalLen c bs with
  | case1 => exact hc
  | case2 => exact hc
  | case3 _ _ _ h ih => exact ih (by push Not at h; exact h.2.1)

theorem literalLen_le_length_add (c : Nat) (bs : List Byte) : literalLen c bs ≤ bs.length + c := by
  fun_induction literalLen c bs with
  | case1 => exact Nat.le_add_left _ _
  | case2 => exact Nat.le_add_left _ _
  | case3 _ _ _ _ ih => simp only [List.length_cons]; omega

theorem tripleAt_cons_iff (a b c : Byte) (bs : List Byte) : tripleAt (a :: b :: c :: bs) = true ↔ b = a ∧ c = a := by
  simp only [tripleAt, Bool.and_eq_true, beq_iff_eq]
  constructor <;> rintro ⟨rfl, rfl⟩ <;> exact ⟨rfl, rfl⟩

/-! ### The encoder's stream is a chain of runs (R330) -/

theorem packbitsRuns_of_literal {bytes stream : List Byte} {n : Nat} (hpos : 0 < n) (hn : n ≤ bytes.length)
    (hmax : n ≤ Config.packbitsMaxLiteral) (h : PackbitsRuns stream (bytes.drop n)) :
    PackbitsRuns (BitVec.ofNat 8 (n - 1) :: (bytes.take n ++ stream)) bytes := by
  have hlen : (bytes.take n).length = n := List.length_take_of_le hn
  have hne : bytes.take n ≠ [] := List.ne_nil_of_length_pos (by omega)
  have hrun := h.literal hne (by omega)
  rwa [hlen, List.take_append_drop] at hrun

theorem packbitsRuns_of_repeat {bytes stream : List Byte} {n : Nat} {v : Byte} (hmin : 3 ≤ n)
    (hmax : n ≤ Config.packbitsMaxRepeat) (htake : bytes.take n = List.replicate n v)
    (h : PackbitsRuns stream (bytes.drop n)) :
    PackbitsRuns (BitVec.ofNat 8 ((257 - n) % 256) :: v :: stream) bytes := by
  have hrun := h.repeated (v := v) hmin hmax
  rwa [← htake, List.take_append_drop] at hrun

theorem length_drop_le_of_pos {bytes : List Byte} {k n : Nat} (hk : bytes.length ≤ k + 1) (hn : 0 < n) :
    (bytes.drop n).length ≤ k := by
  rw [List.length_drop]
  omega

/-- Each turn sends one run of at least one byte, so fuel for every byte left sends them all. -/
theorem packbitsRuns_packbitsGo {k : Nat} {bytes : List Byte} (buf : List Byte) (hk : bytes.length ≤ k) :
    PackbitsRuns ((packbitsGo k bytes buf).1 ++ [0x80]) bytes := by
  fun_induction packbitsGo k bytes buf with
  | case1 bytes =>
    obtain rfl := List.eq_nil_of_length_eq_zero (Nat.le_zero.1 hk)
    exact .eod
  | case2 => exact .eod
  | case3 _ a => exact .literal (run := [a]) (by simp) (by simp [Config.packbitsMaxLiteral]) .eod
  | case4 _ a b => exact .literal (run := [a, b]) (by simp) (by simp [Config.packbitsMaxLiteral]) .eod
  | case5 _ a b c =>
    split
    · next htriple =>
      obtain ⟨rfl, rfl⟩ := (tripleAt_cons_iff a b c []).1 htriple
      exact .repeated (n := 3) (by decide) (by decide) .eod
    · exact .literal (run := [a, b, c]) (by simp) (by simp [Config.packbitsMaxLiteral]) .eod
  | case6 k a b c d p buf bytes htriple n _ ih =>
    obtain ⟨rfl, rfl⟩ := (tripleAt_cons_iff a b c (d :: p)).1 htriple
    have hmin : 3 ≤ n := le_repeatLen _ 3 (d :: p)
    have hmax : n ≤ Config.packbitsMaxRepeat := repeatLen_le _ (d :: p) (by decide)
    have hrest := ih (length_drop_le_of_pos hk (by omega))
    exact packbitsRuns_of_repeat hmin hmax (take_repeatLen _ 3 (d :: p)) hrest
  | case7 k a b c d p buf bytes _ n _ ih =>
    have hpos : 1 ≤ n := le_literalLen 1 (b :: c :: d :: p)
    have hmax : n ≤ Config.packbitsMaxLiteral := literalLen_le (b :: c :: d :: p) (by decide)
    have hn : n ≤ bytes.length := literalLen_le_length_add 1 (b :: c :: d :: p)
    have hrest := ih (length_drop_le_of_pos hk (by omega))
    have hrun := packbitsRuns_of_literal hpos hn hmax hrest
    rwa [← List.append_assoc] at hrun

/-- Settles O30: the encoder's stream is a chain of runs, and the decoder takes every run. -/
theorem packbitsStreamDecodesToItsInput : Obligations.PackbitsStreamDecodesToItsInput := fun _ buf =>
  (packbitsRuns_packbitsGo buf (Nat.le_refl _)).decode (Nat.le_refl _)

end Sys2Proof.Machine
end

section
/-! PROOFS. SetDepth as the descriptor it writes and the pool it then fits to it, and the four setters that end by it
(O34, O35, O36). -/

namespace Sys2Proof.Machine

open Host

/-! ### Fitting the pool (R353) -/

section FitPool

/-- SetDepth after its writes: the extent checks, and a pool of the extent (R353); `setDepth_eq` ties it to SetDepth. -/
def fitPool (s : State) : CmdEnd :=
  if Config.sizeMax < s.poolRow then .raised .resourceLimit s
  else if Config.sizeMax < s.poolExtent then .raised .resourceLimit s
  else if s.pool.valid ∧ s.poolExtent ≤ s.pool.extent.toNat then .normal s
  else releaseThen s (poolAcquire s.poolExtent)

variable {s : State}

/-- A row takes no more than the whole extent, as the image has a column. -/
theorem poolRow_le_poolExtent (hc : 1 ≤ s.img.columns.toNat) : s.poolRow ≤ s.poolExtent :=
  Nat.le_mul_of_pos_left _ (hc.trans (le_max_left _ _))

theorem fitPool_overflow (h : 2 ^ 64 ≤ s.poolExtent) : fitPool s = .raised .resourceLimit s := by
  have hbig : Config.sizeMax < s.poolExtent := by unfold Config.sizeMax; omega
  rw [fitPool, if_pos hbig, ite_self]

/-- With an extent that fits a register only the pool is left to look at. -/
theorem fitPool_of_lt (hc : 1 ≤ s.img.columns.toNat) (h : s.poolExtent < 2 ^ 64) :
    fitPool s =
      if s.pool.valid ∧ s.poolExtent ≤ s.pool.extent.toNat then .normal s
      else releaseThen s (poolAcquire s.poolExtent) := by
  have hext : ¬Config.sizeMax < s.poolExtent := by unfold Config.sizeMax; omega
  have hrow : ¬Config.sizeMax < s.poolRow := fun hr => hext (hr.trans_le (poolRow_le_poolExtent hc))
  rw [fitPool, if_neg hrow, if_neg hext]

theorem fitPool_keeps (hc : 1 ≤ s.img.columns.toNat) (hv : s.pool.valid = true)
    (h : s.poolExtent ≤ s.pool.extent.toNat) : fitPool s = .normal s :=
  (fitPool_of_lt hc (h.trans_lt s.pool.extent.isLt)).trans (if_pos ⟨hv, h⟩)

theorem fitPool_reallocates (hc : 1 ≤ s.img.columns.toNat) (h : s.poolExtent < 2 ^ 64)
    (hold : s.pool.valid = false ∨ s.pool.extent.toNat < s.poolExtent) :
    fitPool s = releaseThen s (poolAcquire s.poolExtent) := by
  have hsmall : ¬(s.pool.valid = true ∧ s.poolExtent ≤ s.pool.extent.toNat) := by
    rintro ⟨hv, hle⟩
    obtain hn | hlt := hold
    · exact Bool.false_ne_true (hn.symm.trans hv)
    · exact hlt.not_ge hle
  exact (fitPool_of_lt hc h).trans (if_neg hsmall)

/-- The state with a fresh pool of extent `e` (R442). -/
def State.withFreshPool (s : State) (e : Nat) : State :=
  { s with
    pool := ⟨true, s.freshN, BitVec.ofNat 64 e⟩, scratch := freshScratch s.freshN e
    ports := s.ports.tookThreads.tookAlloc .pool (s.freshN * (e + 1)) }

/-- A fresh pool is the same whether an old one had to go first or not. -/
theorem releaseThen_poolAcquire_fresh {e : Nat} (hguard : s.pool.valid = true → s.guardBad = false)
    (hsize : s.freshN * (e + 1) < 2 ^ 64) (ha : s.ports.tookThreads.nextAlloc = true) :
    releaseThen s (poolAcquire e) = .normal (s.withFreshPool e) := by
  cases hv : s.pool.valid with
  | false => exact (releaseThen_noPool _ hv).trans (poolAcquire_fresh hsize ha)
  | true => exact (releaseThen_intact _ hv (hguard hv)).trans (poolAcquire_fresh (s := s.freePool) hsize ha)

theorem one_le_freshN (s : State) : 1 ≤ s.freshN := by
  unfold State.freshN Config.maxWorkers
  omega

/-- A pool of at least one buffer that fits in the scratch space has an extent that fits a register. -/
theorem lt_of_freshN_mul_lt {e : Nat} (h : s.freshN * (e + 1) < 2 ^ 64) : e < 2 ^ 64 :=
  (Nat.lt_succ_self e).trans_le ((Nat.le_mul_of_pos_left _ (one_le_freshN s)).trans h.le)

theorem fitPool_fresh (hc : 1 ≤ s.img.columns.toNat)
    (hold : s.pool.valid = false ∨ s.pool.extent.toNat < s.poolExtent ∧ s.guardBad = false)
    (hsize : s.freshN * (s.poolExtent + 1) < 2 ^ 64) (ha : s.ports.tookThreads.nextAlloc = true) :
    fitPool s = .normal (s.withFreshPool s.poolExtent) := by
  have hguard : s.pool.valid = true → s.guardBad = false := fun hv =>
    hold.elim (fun hn => absurd (hn.symm.trans hv) Bool.false_ne_true) And.right
  rw [fitPool_reallocates hc (lt_of_freshN_mul_lt hsize) (hold.imp_right And.left)]
  exact releaseThen_poolAcquire_fresh hguard hsize ha

theorem fitPool_badGuard (hc : 1 ≤ s.img.columns.toNat) (h : s.poolExtent < 2 ^ 64) (hv : s.pool.valid = true)
    (hlt : s.pool.extent.toNat < s.poolExtent) (hbad : s.guardBad = true) :
    fitPool s = .raised .guardViolation s.freePool :=
  (fitPool_reallocates hc h (.inr hlt)).trans (releaseThen_bad _ hv hbad)

end FitPool

/-! ### SetDepth and the setters (R353 to R358) -/

/-- The state with descriptor `q` and the accumulators cleared: what SetDepth writes before it looks at the pool. -/
def State.withDescriptor (s : State) (q : Descriptor) : State :=
  { s with q := q, waccPixel := Vector.replicate 256 0, waccBits := Vector.replicate 256 0 }

/-- SetDepth gives the descriptor its depth and inverse scale, then fits the pool. -/
theorem setDepth_eq (d : Nat) (s : State) :
    setDepth d s = fitPool (s.withDescriptor
      { s.q with depth := depthFor s.q.format d, invScale := invScaleOf s.q.scale }) := by
  rw [← depthOf_eq_depthFor]
  rfl

theorem poolExtent_withDescriptor (s : State) (q : Descriptor) :
    (s.withDescriptor q).poolExtent = speculativeExtent q s.img := rfl

/-- With no busy worker and a descriptor both checks of a descriptor-mutating command pass. -/
theorem checks_pass {s : State} (hw : s.anyWorkerBusy = false) (hq : s.q.valid = true) (k : CmdEnd) :
    hazardCheck s (needDescriptor s k) = k :=
  (hazardCheck_of_idle hw _).trans (if_pos hq)

theorem isMutating_of_retarget {i : Instr} {s : State} {q : Descriptor} (h : s.retarget i = some q) :
    isMutating i = true := by
  cases i <;> try cases h
  case qSetDepth | qSetFormat | qSetEndian | qSetPad => rfl

/-- A setter writes its field and then does SetDepth. -/
theorem bodyOf_setter {i : Instr} {s : State} {q : Descriptor} (hw : s.anyWorkerBusy = false) (hq : s.q.valid = true)
    (hwf : i.wf = true) (hr : s.retarget i = some q) (hpad : s.padGiven i) :
    bodyOf i s = fitPool (s.withDescriptor q) := by
  have hpass := checks_pass hw hq
  cases i <;> try cases hr
  case qSetDepth d => exact (hpass _).trans (setDepth_eq _ _)
  case qSetFormat f => exact (if_pos hwf).trans ((hpass _).trans (setDepth_eq _ _))
  case qSetEndian e => exact (if_pos hwf).trans ((hpass _).trans (setDepth_eq _ _))
  case qSetPad =>
    have hfits : ¬Config.sizeMax < (s.argVal 0).toNat * s.img.channels.toNat := by
      have := hpad rfl
      unfold Config.sizeMax
      omega
    exact (hpass _).trans ((if_neg hfits).trans (setDepth_eq _ _))

section Setter

variable {i : Instr} {s t : State} {q : Descriptor}

/-- Command `i` is a setter that passes its checks in `s`, and its descriptor is to be `q` (R354, R356 to R358). -/
structure Retargets (s : State) (i : Instr) (q : Descriptor) : Prop where
  idle : s.anyWorkerBusy = false
  descriptor : s.q.valid = true
  wf : i.wf = true
  target : s.retarget i = some q
  pad : s.padGiven i

theorem Retargets.agentOf_eq (h : Retargets s i q) : agentOf i = .seq :=
  agentOf_of_isMutating (isMutating_of_retarget h.target)

/-- The start of the command is no part of what a setter reads. -/
theorem Retargets.bodyOf_eq (h : Retargets s i q) :
    bodyOf i (s.beginCmd .seq) = fitPool ((s.withDescriptor q).beginCmd .seq) :=
  bodyOf_setter (s := s.beginCmd .seq) h.idle h.descriptor h.wf h.target h.pad

theorem Retargets.exec_ended (h : Retargets s i q)
    (hfit : fitPool ((s.withDescriptor q).beginCmd .seq) = .normal (t.beginCmd .seq)) :
    exec i s = .next t.seqEnded :=
  exec_seq_ended h.agentOf_eq (h.bodyOf_eq.trans hfit)

theorem Retargets.exec_raised {k : ErrKind} (h : Retargets s i q)
    (hfit : fitPool ((s.withDescriptor q).beginCmd .seq) = .raised k (t.beginCmd .seq)) :
    exec i s = .next (t.seqRaised i.opcode k) :=
  exec_seq_raised h.agentOf_eq (h.bodyOf_eq.trans hfit)

end Setter

/-- Settles O34: the pool is large enough, so SetDepth stops after its writes. -/
theorem settersKeepALargeEnoughPool : Obligations.SettersKeepALargeEnoughPool := by
  intro s i q hw hq hwf hr hpad hc hv hext
  have hset : Retargets s i q := ⟨hw, hq, hwf, hr, hpad⟩
  exact hset.exec_ended (t := s.withDescriptor q) (fitPool_keeps hc hv hext)

/-- Settles O35: there is no pool or it is released, and PoolAcquire is granted one of the new extent. -/
theorem settersReallocateASmallPool : Obligations.SettersReallocateASmallPool := by
  intro s i q hw hq hwf hr hpad hc e n hold hsize ha
  have hset : Retargets s i q := ⟨hw, hq, hwf, hr, hpad⟩
  refine hset.exec_ended (t := (s.withDescriptor q).withFreshPool e) (fitPool_fresh hc ?_ hsize ha)
  exact hold.imp_right fun ⟨hlt, hguard⟩ => ⟨hlt, guardBad_eq_false hguard⟩

/-- Settles O36: SetDepth's writes come before its extent checks, and the release of the old pool before its report. -/
theorem settersReportOverflowAndBadGuards : Obligations.SettersReportOverflowAndBadGuards := by
  intro s i q hw hq hwf hr hpad hc
  have hset : Retargets s i q := ⟨hw, hq, hwf, hr, hpad⟩
  refine ⟨fun h => ?_, fun h hv hlt hd hbad => ?_⟩
  · exact hset.exec_raised (t := s.withDescriptor q) (fitPool_overflow h)
  · exact hset.exec_raised (t := (s.withDescriptor q).freePool)
      (fitPool_badGuard hc h hv hlt (guardBad_eq_true hd hbad))

end Sys2Proof.Machine
end

section
/-! PROOFS. Q_ACQUIRE: its checks in order (O32) and the descriptor it creates (O31). Q_DESTROY (O33). -/

namespace Sys2Proof.Machine

open Host

/-! ### The checks of Q_ACQUIRE (R350) -/

theorem attrReserved_iff (a : DWord) :
    attrReserved a = true ↔
      a.extractLsb' 13 51 ≠ 0 ∨ a.extractLsb' 0 2 = 3 ∨ a.extractLsb' 3 2 = 3 ∨ a.extractLsb' 7 2 = 3 := by
  simp [attrReserved, attrEndian, attrColorspace, attrFormat, or_assoc]

theorem attrReserved_eq_false_iff (a : DWord) :
    attrReserved a = false ↔
      a.extractLsb' 13 51 = 0 ∧ a.extractLsb' 0 2 ≠ 3 ∧ a.extractLsb' 3 2 ≠ 3 ∧ a.extractLsb' 7 2 ≠ 3 := by
  simp [attrReserved, attrEndian, attrColorspace, attrFormat, and_assoc]

/-- An ARG4 below 2^13 has no reserved bit. -/
theorem extractLsb_reserved_eq_zero {a : DWord} (h : a.toNat < 2 ^ 13) : a.extractLsb' 13 51 = 0 := by
  apply BitVec.eq_of_toNat_eq
  rw [BitVec.extractLsb'_toNat, Nat.shiftRight_eq_div_pow, Nat.div_eq_of_lt h]
  rfl

/-- Q_MINIMUM's pattern: ARG5 if ARG4 gives it, else 0 (R350). -/
abbrev State.minArg (s : State) : DWord := boundArg 5 (attrHaveMin (s.argVal 4)) 0 s

/-- Q_MAXIMUM's pattern: ARG6 if ARG4 gives it, else 1.0 (R350). -/
abbrev State.maxArg (s : State) : DWord := boundArg 6 (attrHaveMax (s.argVal 4)) 0x3FF0000000000000 s

/-- Q_ACQUIRE once there is a geometry: two finite bounds create the descriptor (R350); `MayAcquire.body_eq` ties it to
Q_ACQUIRE. -/
def acquireBounded (s : State) : CmdEnd :=
  match f64 s.minArg, f64 s.maxArg with
  | .real mn, .real mx =>
    acquireWith (s.argVal 0) (s.argVal 1) (s.argVal 2) (s.argVal 3) (s.argVal 4) s.minArg s.maxArg mn mx s
  | _, _ => .raised .option s

section Checks

variable {s : State}

theorem acquireBounded_finite {mn mx : Rat} (hmn : f64 s.minArg = .real mn) (hmx : f64 s.maxArg = .real mx) :
    acquireBounded s =
      acquireWith (s.argVal 0) (s.argVal 1) (s.argVal 2) (s.argVal 3) (s.argVal 4) s.minArg s.maxArg mn mx s := by
  simp only [acquireBounded, hmn, hmx]

theorem acquireBounded_notFinite (h : ¬isFinite s.minArg ∨ ¬isFinite s.maxArg) :
    acquireBounded s = .raised .option s := by
  unfold acquireBounded
  split
  · next mn mx hmn hmx => exact h.elim (absurd ⟨mn, hmn⟩) (absurd ⟨mx, hmx⟩)
  · rfl

theorem qAcquireBody_reserved (hw : s.anyWorkerBusy = false) (h : attrReserved (s.argVal 4) = true) :
    qAcquireBody s = .raised .illegalCommand s :=
  (hazardCheck_of_idle hw _).trans (if_pos h)

theorem qAcquireBody_exists (hw : s.anyWorkerBusy = false) (ha : attrReserved (s.argVal 4) = false)
    (h : s.q.valid = true) : qAcquireBody s = .raised .option s := by
  rw [qAcquireBody, hazardCheck_of_idle hw, ha, if_neg Bool.false_ne_true, if_pos h]

/-- The checks of Q_ACQUIRE before those of the geometry pass (R350). -/
structure MayAcquire (s : State) : Prop where
  idle : s.anyWorkerBusy = false
  attr : attrReserved (s.argVal 4) = false
  noDescriptor : s.q.valid = false

theorem MayAcquire.body_eq (hs : MayAcquire s) :
    qAcquireBody s =
      if s.argVal 0 = 0 ∨ s.argVal 1 = 0 ∨ s.argVal 2 = 0 then .raised .option s else acquireBounded s := by
  rw [qAcquireBody, hazardCheck_of_idle hs.idle, hs.attr, hs.noDescriptor, if_neg Bool.false_ne_true,
    if_neg Bool.false_ne_true]
  rfl

theorem MayAcquire.body_eq_of_geometry (hs : MayAcquire s) (hc : s.argVal 0 ≠ 0) (hr : s.argVal 1 ≠ 0)
    (hch : s.argVal 2 ≠ 0) : qAcquireBody s = acquireBounded s :=
  hs.body_eq.trans (if_neg (not_or.2 ⟨hc, not_or.2 ⟨hr, hch⟩⟩))

/-- A bound that ARG4 gives and that is no real. -/
theorem not_isFinite_boundArg {i : Fin 8} {given : Bool} {dflt : DWord} (hg : given = true)
    (h : ∀ x, f64 (s.argVal i) ≠ .real x) : ¬isFinite (boundArg i given dflt s) := by
  rw [hg, boundArg_given]
  rintro ⟨x, hx⟩
  exact h x hx

end Checks

theorem exec_qAcquire_raised {s : State} {k : ErrKind}
    (h : qAcquireBody (s.beginCmd .seq) = .raised k (s.beginCmd .seq)) :
    exec .qAcquire s = .next (s.seqRaised 0x30 k) :=
  exec_seq_raised (i := .qAcquire) rfl h

/-- Settles O32: each failing check raises in the state the command started in. -/
theorem qAcquireRefusesBadOperands : Obligations.QAcquireRefusesBadOperands := by
  refine fun s => ⟨fun hw => exec_qAcquire_raised (hazardCheck_of_busy (s := s.beginCmd .seq) hw _), fun hw =>
    ⟨fun hattr => ?_, fun hbits hendian hcolour hformat => ?_⟩⟩
  · exact exec_qAcquire_raised (qAcquireBody_reserved (s := s.beginCmd .seq) hw ((attrReserved_iff _).2 hattr))
  · have hattr := (attrReserved_eq_false_iff _).2 ⟨hbits, hendian, hcolour, hformat⟩
    refine ⟨fun hq => exec_qAcquire_raised (qAcquireBody_exists (s := s.beginCmd .seq) hw hattr hq), fun hq => ?_⟩
    have hmay : MayAcquire (s.beginCmd .seq) := ⟨hw, hattr, hq⟩
    refine ⟨fun hzero => exec_qAcquire_raised (hmay.body_eq.trans (if_pos hzero)), fun hc hr hch hbound => ?_⟩
    have hbody := hmay.body_eq_of_geometry hc hr hch
    refine exec_qAcquire_raised (hbody.trans (acquireBounded_notFinite (hbound.imp ?_ ?_)))
    · exact fun ⟨hgiven, hreal⟩ => not_isFinite_boundArg (s := s.beginCmd .seq) hgiven hreal
    · exact fun ⟨hgiven, hreal⟩ => not_isFinite_boundArg (s := s.beginCmd .seq) hgiven hreal

/-! ### The descriptor Q_ACQUIRE creates (R350, R351, R353) -/

/-- Q_SCALE of two bounds, by the three cases of SetScale (R351). -/
def scaleFor (p : Params) (mn mx : Rat) : DWord :=
  if mn = 0 ∧ mx = 0 then 0 else if mn = mx then toF64 (p.range / mn) else toF64 (p.range / (mx - mn))

theorem setScale_eq_scaleFor (p : Params) (mnBits mxBits : DWord) (mn mx : Rat) (q : Descriptor) :
    setScale p mnBits mxBits mn mx q =
      { q with maximum := mxBits, minimum := if mn = mx then 0 else mnBits, scale := scaleFor p mn mx } := by
  unfold setScale scaleFor
  by_cases hzero : mn = 0 ∧ mx = 0
  · obtain ⟨rfl, rfl⟩ := hzero
    simp
  · by_cases heq : mn = mx
    · simp only [if_neg hzero, if_pos heq]
    · simp only [if_neg hzero, if_neg heq]

/-- The descriptor Q_ACQUIRE leaves: its operands' fields, with the depth and inverse scale SetDepth makes of them. -/
def acquiredQ (p : Params) (depth attr mnBits mxBits : DWord) (mn mx : Rat) : Descriptor where
  valid := true
  depth := depthFor (attrFormat attr) depth.toNat
  format := attrFormat attr
  endian := 0
  pack := attrPack attr
  pad := 0
  minimum := if mn = mx then 0 else mnBits
  maximum := mxBits
  scale := scaleFor p mn mx
  minIsWhite := false
  alphaType := attrAlphaType attr
  invScale := invScaleOf (scaleFor p mn mx)

theorem acquireWith_eq (columns rows channels depth attr mnBits mxBits : DWord) (mn mx : Rat) (s : State) :
    acquireWith columns rows channels depth attr mnBits mxBits mn mx s =
      fitPool (State.withDescriptor { s with img := acquireImg columns rows channels attr }
        (acquiredQ s.params depth attr mnBits mxBits mn mx)) := by
  rw [acquireWith, setDepth_eq, acquireQ, setScale_eq_scaleFor]
  rfl

/-- Settles O31: every check passes, and with no old pool the fresh one is fitted at once. -/
theorem qAcquireCreatesTheDescriptor : Obligations.QAcquireCreatesTheDescriptor := by
  intro s mn mx hw hq hv attr hbits hendian hcolour hformat hc hr hch mnBits mxBits hmn hmx scale q img e n hsize ha
  have hattr := (attrReserved_eq_false_iff attr).2 ⟨extractLsb_reserved_eq_zero hbits, hendian, hcolour, hformat⟩
  have hmay : MayAcquire (s.beginCmd .seq) := ⟨hw, hattr, hq⟩
  have hbody := (hmay.body_eq_of_geometry hc hr hch).trans ((acquireBounded_finite (s := s.beginCmd .seq) hmn hmx).trans
    (acquireWith_eq _ _ _ _ _ _ _ _ _ _))
  exact exec_seq_ended (i := .qAcquire) (t := (State.withDescriptor { s with img := img } q).withFreshPool e) rfl
    (hbody.trans (fitPool_fresh (one_le_toNat hc) (.inl hv) hsize ha))

/-! ### Q_DESTROY (R352) -/

/-- The state once Q_DESTROY has released the pool and dropped the descriptor. -/
abbrev State.destroyed (s : State) : State := s.freePool.dropDescriptor

section Destroy

variable {s : State}

theorem qDestroyBody_none (hw : s.anyWorkerBusy = false) (hq : s.q.valid = false) : qDestroyBody s = .normal s := by
  rw [qDestroyBody, hazardCheck_of_idle hw, hq, if_neg Bool.false_ne_true]

theorem qDestroyBody_intact (hw : s.anyWorkerBusy = false) (hq : s.q.valid = true) (hg : s.guardBad = false) :
    qDestroyBody s = .normal s.destroyed := by
  rw [qDestroyBody, hazardCheck_of_idle hw, if_pos hq, hg, if_neg Bool.false_ne_true]

theorem qDestroyBody_bad (hw : s.anyWorkerBusy = false) (hq : s.q.valid = true) (hg : s.guardBad = true) :
    qDestroyBody s = .raised .guardViolation s.destroyed := by
  rw [qDestroyBody, hazardCheck_of_idle hw, if_pos hq, if_pos hg]

end Destroy

/-- Settles O33: the descriptor decides whether there is anything to release, and the guards how that is reported. -/
theorem qDestroyReleasesEverything : Obligations.QDestroyReleasesEverything := by
  refine fun s hw => ⟨fun hq => ?_, fun hq hgood => ?_, fun hq ⟨hd, hbad⟩ => ?_⟩
  · exact exec_seq_ended (i := .qDestroy) (t := s) rfl (qDestroyBody_none (s := s.beginCmd .seq) hw hq)
  · have hguard : s.ctrl.getLsbD 1 = true → ∀ b < s.pool.n, s.scratchByte b s.pool.extent.toNat = 0xAB :=
      fun hd b hb => by_contra fun hne => hgood ⟨hd, b, hb, hne⟩
    exact exec_seq_ended (i := .qDestroy) (t := s.destroyed) rfl
      (qDestroyBody_intact (s := s.beginCmd .seq) hw hq (guardBad_eq_false hguard))
  · exact exec_seq_raised (i := .qDestroy) (t := s.destroyed) rfl
      (qDestroyBody_bad (s := s.beginCmd .seq) hw hq (guardBad_eq_true (s := s.beginCmd .seq) hd hbad))

end Sys2Proof.Machine
end

section
/-! PROOFS. Q_SET_SCALE, Q_SET_POLARITY and Q_RESET_STATE (O38), the queries of the descriptor (O39), and the commands
that need one (O40). -/

namespace Sys2Proof.Machine

open Host

/-! ### ResetState and the scale (R359 to R361) -/

theorem scaleIsTiny_real {v : DWord} {x : Rat} (h : f64 v = .real x) : scaleIsTiny v = decide (|x| < 1 / 10 ^ 12) := by
  have heps : Config.epsilon = 1 / 10 ^ 12 := by norm_num [Config.epsilon]
  simp only [scaleIsTiny, h, heps, abs_lt, Bool.decide_and]

/-- Q_INV_SCALE of a Q_SCALE that denotes a real (R361). -/
theorem invScaleOf_real {v : DWord} {x : Rat} (h : f64 v = .real x) :
    invScaleOf v = if |x| < 1 / 10 ^ 12 then 0x3FF0000000000000 else toF64 (1 / x) := by
  simp only [invScaleOf, scaleIsTiny_real h, h, decide_eq_true_eq]

/-- ResetState recomputes the inverse scale and clears the accumulators. -/
theorem resetState_eq (s : State) :
    s.resetState = s.withDescriptor { s.q with invScale := invScaleOf s.q.scale } := rfl

section ScaleCommands

variable {s : State} (hw : s.anyWorkerBusy = false) (hq : s.q.valid = true)
include hw hq

theorem bodyOf_qSetScale_real {x : Rat} (h : f64 (s.argVal 0) = .real x) :
    bodyOf .qSetScale s =
      .normal (s.withDescriptor { s.q with scale := s.argVal 0, invScale := invScaleOf (s.argVal 0) }) := by
  refine (checks_pass hw hq _).trans ?_
  simp only [h, resetState_eq]
  rfl

theorem bodyOf_qSetScale_notReal (h : ∀ x, f64 (s.argVal 0) ≠ .real x) : bodyOf .qSetScale s = .raised .option s := by
  refine (checks_pass hw hq _).trans ?_
  split
  · next x hx => exact absurd hx (h x)
  · rfl

theorem bodyOf_qSetPolarity (b : Bool) :
    bodyOf (.qSetPolarity b) s = .normal { s with q := { s.q with minIsWhite := b } } := checks_pass hw hq _

theorem bodyOf_qResetState : bodyOf .qResetState s = .normal s.resetState := checks_pass hw hq _

end ScaleCommands

/-- Settles O38: each of the three commands passes its checks, and ResetState's inverse scale is R361's. -/
theorem scaleAndStateCommandsComplete : Obligations.ScaleAndStateCommandsComplete := by
  refine fun s hw hq => ⟨fun x hx => ?_, fun hx => ?_, fun b => ?_, invScaleOf s.q.scale, ?_,
    fun x hx => invScaleOf_real hx⟩
  · rw [← invScaleOf_real hx]
    exact exec_seq_ended (i := .qSetScale)
      (t := s.withDescriptor { s.q with scale := s.argVal 0, invScale := invScaleOf (s.argVal 0) }) rfl
      (bodyOf_qSetScale_real (s := s.beginCmd .seq) hw hq hx)
  · exact exec_seq_raised (i := .qSetScale) rfl (bodyOf_qSetScale_notReal (s := s.beginCmd .seq) hw hq hx)
  · exact exec_seq_ended (i := .qSetPolarity b) (t := { s with q := { s.q with minIsWhite := b } }) rfl
      (bodyOf_qSetPolarity (s := s.beginCmd .seq) hw hq b)
  · exact exec_seq_ended (i := .qResetState) (t := s.resetState) rfl
      (bodyOf_qResetState (s := s.beginCmd .seq) hw hq)

/-! ### The queries (R362 to R364, R370 to R372) -/

theorem useQType_of_qtypeOf {qt : BitVec 4} {t : QType} (h : qtypeOf qt = some t) (s : State) (k : QType → CmdEnd) :
    useQType qt s k = k t := by
  rw [useQType, h]

/-- The image type of a quantum type by its code (R371). -/
theorem imageType_eq (q : Descriptor) {qt : BitVec 4} {t : QType} (h : qtypeOf qt = some t) :
    imageType q t =
      BitVec.ofNat 64 ([if q.depth = 1 then 1 else 2, 3, 6, 7, 7, 7, 8, 9, 6, 7, 6, 4, 5, 0].getD qt.toNat 0) := by
  rw [toNat_of_qtypeOf h]
  cases t
  case gray =>
    simp only [imageType, QType.code, List.getD_cons_zero]
    split <;> rfl
  all_goals rfl

section Queries

variable {s : State} {qt : BitVec 4} {t : QType}

theorem bodyOf_qGetExtent_fits (ht : qtypeOf qt = some t) (hq : s.q.valid = true) (h : extentOf s.q s.img t < 2 ^ 64) :
    bodyOf (.qGetExtent qt) s = .normal (s.setRes0 (BitVec.ofNat 64 (extentOf s.q s.img t))) := by
  have hfits : ¬Config.sizeMax < extentOf s.q s.img t := by unfold Config.sizeMax; omega
  exact (useQType_of_qtypeOf ht _ _).trans ((if_pos hq).trans (if_neg hfits))

theorem bodyOf_qGetExtent_overflow (ht : qtypeOf qt = some t) (hq : s.q.valid = true)
    (h : 2 ^ 64 ≤ extentOf s.q s.img t) : bodyOf (.qGetExtent qt) s = .raised .resourceLimit (s.setRes0 0) := by
  have hbig : Config.sizeMax < extentOf s.q s.img t := by unfold Config.sizeMax; omega
  exact (useQType_of_qtypeOf ht _ _).trans ((if_pos hq).trans (if_pos hbig))

theorem bodyOf_qGetType (hq : s.q.valid = true) : bodyOf .qGetType s = .normal (s.setRes0 (defaultType s.img)) :=
  if_pos hq

theorem bodyOf_qSetImageType (ht : qtypeOf qt = some t) (hq : s.q.valid = true) :
    bodyOf (.qSetImageType qt) s = .normal (s.setRes0 (imageType s.q t)) :=
  (useQType_of_qtypeOf ht _ _).trans (if_pos hq)

theorem opcode_qGetExtent (qt : BitVec 4) : (Instr.qGetExtent qt).opcode = 0x39 := by
  simp [Instr.opcode, encode]

end Queries

/-- Settles O39: a query of a type in use writes RES0 from the descriptor and the latches. -/
theorem descriptorQueriesComplete : Obligations.DescriptorQueriesComplete := by
  refine ⟨fun s qt hqt hq => ?_, fun s hq => ⟨?_, fun qt hqt => ?_⟩⟩
  · obtain ⟨t, ht⟩ := exists_qtypeOf hqt
    rw [← extentOf_eq s.q s.img ht, ← opcode_qGetExtent qt]
    exact ⟨fun h => exec_seq_ended (i := .qGetExtent qt) (t := s.setRes0 (BitVec.ofNat 64 (extentOf s.q s.img t))) rfl
        (bodyOf_qGetExtent_fits (s := s.beginCmd .seq) ht hq h),
      fun h => exec_seq_raised (i := .qGetExtent qt) (t := s.setRes0 0) rfl
        (bodyOf_qGetExtent_overflow (s := s.beginCmd .seq) ht hq h)⟩
  · exact exec_seq_ended (i := .qGetType) (t := s.setRes0 (defaultType s.img)) rfl
      (bodyOf_qGetType (s := s.beginCmd .seq) hq)
  · obtain ⟨t, ht⟩ := exists_qtypeOf hqt
    rw [← imageType_eq s.q ht]
    exact exec_seq_ended (i := .qSetImageType qt) (t := s.setRes0 (imageType s.q t)) rfl
      (bodyOf_qSetImageType (s := s.beginCmd .seq) ht hq)

/-! ### No descriptor (R354, R363, R370, R372, R430, R431, R441) -/

/-- The sequencer's commands that need a descriptor. -/
def usesDescriptor : Instr → Bool
  | .qSetDepth _ | .qSetFormat _ | .qSetEndian _ | .qSetPad | .qSetScale | .qSetPolarity _ | .qResetState
  | .qGetExtent _ | .qGetType | .qSetImageType _ | .poolAcquire | .rsExport _ | .rsImport _ => true
  | _ => false

/-- The thirteen opcodes are those of the commands that need a descriptor (R125). -/
theorem usesDescriptor_of_opcode {i : Instr}
    (h : i.opcode.toNat ∈ [0x32, 0x33, 0x34, 0x35, 0x36, 0x37, 0x38, 0x39, 0x3C, 0x3D, 0x40, 0x48, 0x49]) :
    usesDescriptor i = true := by
  cases i <;> simp [Instr.opcode, encode, usesDescriptor] at h ⊢

theorem agentOf_of_usesDescriptor {i : Instr} (h : usesDescriptor i = true) : agentOf i = .seq := by
  cases i <;> cases h <;> rfl

/-- The descriptor check comes before every effect, and after checks that a well-formed command passes with no worker
busy. -/
theorem bodyOf_of_noDescriptor {i : Instr} (hi : usesDescriptor i = true) (hwf : i.wf = true) {s : State}
    (hw : s.anyWorkerBusy = false) (hq : s.q.valid = false) : bodyOf i s = .raised .option s := by
  have hneed : ∀ k, needDescriptor s k = .raised .option s := fun k => if_neg (hq ▸ Bool.false_ne_true)
  have hcheck : ∀ k, hazardCheck s (needDescriptor s k) = .raised .option s :=
    fun k => (hazardCheck_of_idle hw _).trans (hneed k)
  cases i <;> try cases hi
  case qSetFormat f => exact (if_pos hwf).trans (hcheck _)
  case qSetEndian e => exact (if_pos hwf).trans (hcheck _)
  case qSetDepth | qSetPad | qSetScale | qSetPolarity | qResetState | poolAcquire => exact hcheck _
  case qGetExtent qt | qSetImageType qt =>
    obtain ⟨t, ht⟩ := exists_qtypeOf (of_decide_eq_true hwf)
    exact (useQType_of_qtypeOf ht s _).trans (hneed _)
  case qGetType | rsExport | rsImport => exact hneed _

/-- Settles O40: each of the thirteen commands stops at its descriptor check. -/
theorem commandsNeedADescriptor : Obligations.CommandsNeedADescriptor := by
  intro s i hwf hw hq hop
  have hi := usesDescriptor_of_opcode hop
  exact exec_seq_raised (agentOf_of_usesDescriptor hi) (bodyOf_of_noDescriptor (s := s.beginCmd .seq) hi hwf hw hq)

end Sys2Proof.Machine
end

section
/-! PROOFS. O46: unpacking a packed row gives every code back (R404 to R408). -/

namespace Sys2Proof.Machine

/-! ### A code from its digits (R405 to R407) -/

theorem ofBitsLsb_bitsLsb (n u : Nat) : ofBitsLsb (bitsLsb n u) = u % 2 ^ n := by
  induction n generalizing u with
  | zero => simp [bitsLsb, ofBitsLsb, Nat.mod_one]
  | succ n ih => rw [bitsLsb, ofBitsLsb, ih, Nat.toNat_testBit, pow_zero, Nat.div_one, pow_succ', Nat.mod_mul]

theorem ofBytesLsb_bytesLsb (n u : Nat) : ofBytesLsb (bytesLsb n u) = u % 256 ^ n := by
  induction n generalizing u with
  | zero => simp [bytesLsb, ofBytesLsb, Nat.mod_one]
  | succ n ih => rw [bytesLsb, ofBytesLsb, ih, BitVec.toNat_ofNat, pow_succ' 256, Nat.mod_mul]

/-- The whole bytes of a sample have room for its depth. -/
theorem two_pow_le_bytesOf (d : Nat) : 2 ^ d ≤ 256 ^ bytesOf d := by
  rw [show 256 = 2 ^ 8 by norm_num, ← pow_mul]
  exact Nat.pow_le_pow_right (by decide) (by unfold bytesOf; omega)

theorem sampleOfBits_sampleBits (l : Layout) {u : Nat} (h : u < 2 ^ l.depth) :
    sampleOfBits l (sampleBits l u) = u := by
  have hread : ofBitsLsb (bitsLsb l.depth u) = u := by rw [ofBitsLsb_bitsLsb, Nat.mod_eq_of_lt h]
  unfold sampleOfBits sampleBits
  cases l.msbBits with
  | false => exact hread
  | true => simpa using hread

theorem sampleOfBytes_sampleBytes (l : Layout) {u : Nat} (h : u < 2 ^ l.depth) :
    sampleOfBytes l (sampleBytes l u) = u := by
  have hread : ofBytesLsb (bytesLsb (bytesOf l.depth) u) % 2 ^ l.depth = u := by
    rw [ofBytesLsb_bytesLsb, Nat.mod_eq_of_lt (h.trans_le (two_pow_le_bytesOf _)), Nat.mod_eq_of_lt h]
  unfold sampleOfBytes sampleBytes
  cases l.msbBytes with
  | false => exact hread
  | true => simpa using hread

/-! ### The bit stream of the bytes of a bit stream (R404, R406) -/

theorem bitsLsb_ofBitsLsb (bits : List Bool) : bitsLsb bits.length (ofBitsLsb bits) = bits :=
  ofBitsLsb_inj (bitsLsb_length _ _) (by rw [ofBitsLsb_bitsLsb, Nat.mod_eq_of_lt (ofBitsLsb_lt bits)])

/-- A byte holds any eight bits, in the order of its lowest bit first. -/
theorem bitsLsb_toNat_ofNat {bits : List Bool} (h : bits.length = 8) :
    bitsLsb 8 (BitVec.ofNat 8 (ofBitsLsb bits)).toNat = bits := by
  have hlt : ofBitsLsb bits < 2 ^ 8 := h ▸ ofBitsLsb_lt bits
  rw [BitVec.toNat_ofNat, Nat.mod_eq_of_lt hlt, ← h, bitsLsb_ofBitsLsb]

theorem bitsOfByte_byteOfBits (msb : Bool) {bits : List Bool} (h : bits.length ≤ 8) :
    bitsOfByte msb (byteOfBits msb bits) = bits ++ List.replicate (8 - bits.length) false := by
  have hfull : (bits ++ List.replicate (8 - bits.length) false).length = 8 := by simp [h]
  unfold bitsOfByte byteOfBits
  cases msb with
  | false => exact bitsLsb_toNat_ofNat hfull
  | true =>
    simp only [if_true]
    rw [bitsLsb_toNat_ofNat (by rw [List.length_reverse, hfull]), List.reverse_reverse]

/-- The bits come back first, in both bit orders, and only the fill of the last byte follows. -/
theorem bitsOfBytes_bytesOfBits (msb : Bool) {k : Nat} {bits : List Bool} (hk : bits.length ≤ k) :
    ∃ fill, bitsOfBytes msb (bytesOfBits msb k bits) = bits ++ fill := by
  induction k generalizing bits with
  | zero =>
    obtain rfl : bits = [] := List.length_eq_zero_iff.1 (by omega)
    exact ⟨[], rfl⟩
  | succ k ih =>
    cases bits with
    | nil => exact ⟨[], rfl⟩
    | cons b bs =>
      have hlen : (b :: bs).length = bs.length + 1 := rfl
      rw [bytesOfBits_cons, bitsOfBytes, List.flatMap_cons, ← bitsOfBytes]
      generalize b :: bs = bits at *
      obtain ⟨fill, htail⟩ := ih (bits := bits.drop 8) (by simp; omega)
      rw [bitsOfByte_byteOfBits msb (List.length_take_le 8 bits), htail]
      by_cases h8 : 8 ≤ bits.length
      · refine ⟨fill, ?_⟩
        rw [List.length_take_of_le h8, Nat.sub_self, List.replicate_zero, List.append_nil, ← List.append_assoc,
          List.take_append_drop]
      · rw [List.take_of_length_le (by omega), List.drop_of_length_le (by omega), List.append_assoc]
        exact ⟨_, rfl⟩

/-! ### Cutting a row into its samples (R404, R425) -/

section Pieces

variable {α : Type} {f : List α → Nat} {g : Nat → List α} {k : Nat} (hg : ∀ u, (g u).length = k)
include hg

theorem takePieces_flatMap {us : List Nat} (hf : ∀ u ∈ us, f (g u) = u) (rest : List α) :
    takePieces f k us.length (us.flatMap g ++ rest) = us := by
  induction us with
  | nil => rfl
  | cons u us ih =>
    obtain ⟨hu, hus⟩ := List.forall_mem_cons.1 hf
    rw [List.flatMap_cons, List.append_assoc, List.length_cons, takePieces, List.take_left' (hg u),
      List.drop_left' (hg u), hu, ih hus]

/-- Pixels written sample by sample, each followed by `pad` items, read back whatever follows the row. -/
theorem takePixels_flatMap {ch pad : Nat} (z : α) {pixels : List (List Nat)}
    (h : ∀ us ∈ pixels, us.length = ch ∧ ∀ u ∈ us, f (g u) = u) (rest : List α) :
    takePixels f k ch pad pixels.length
      ((pixels.flatMap fun us => us.flatMap g ++ List.replicate pad z) ++ rest) = pixels := by
  induction pixels with
  | nil => rfl
  | cons us pixels ih =>
    obtain ⟨⟨hlen, hus⟩, htail⟩ := List.forall_mem_cons.1 h
    have hpixel : (us.flatMap g ++ List.replicate pad z).length = ch * k + pad := by
      rw [List.length_append, flatMap_length_const us fun u _ => hg u, hlen, List.length_replicate]
    rw [List.flatMap_cons, List.append_assoc, List.length_cons, takePixels, List.drop_left' hpixel, ih htail,
      List.append_assoc, ← hlen, takePieces_flatMap hg hus]

end Pieces

/-- Settles O46: the samples of a row are read back one by one, from its bits or from its bytes. -/
theorem packedRowsReadBackTheirCodes : Obligations.PackedRowsReadBackTheirCodes := by
  intro l ch pixels h
  unfold unpackRow packRow
  split
  · obtain ⟨fill, hbits⟩ := bitsOfBytes_bytesOfBits l.msbBits (le_refl (pixels.flatMap fun us =>
      us.flatMap (sampleBits l) ++ List.replicate (8 * l.pad) false).length)
    rw [hbits]
    exact takePixels_flatMap (sampleBits_length l) false
      (fun us hus => ⟨(h us hus).1, fun u hu => sampleOfBits_sampleBits l ((h us hus).2 u hu)⟩) fill
  · have hread := takePixels_flatMap (pad := l.pad) (sampleBytes_length l) (0 : Byte)
      (fun us hus => ⟨(h us hus).1, fun u hu => sampleOfBytes_sampleBytes l ((h us hus).2 u hu)⟩) []
    rwa [List.append_nil] at hread

end Sys2Proof.Machine
end

section
/-! PROOFS. The ranges of codes and samples (O48), and the Unsigned map's round trip (O47) (R390 to R398). -/

namespace Sys2Proof.Machine

/-! ### Codes fit their depth (R13, R393 to R396) -/

/-- A pattern has a sign bit, `eb` exponent bits and `mb` fraction bits. -/
theorem toBinary_lt (eb mb : Nat) (x : Rat) : toBinary eb mb x < 2 ^ (eb + mb + 1) := by
  unfold toBinary
  extract_lets n d bias emin e u sig field negative
  have hfield : field < 2 ^ (eb + mb) := by
    refine (min_le_right _ _).trans_lt ?_
    rw [pow_add]
    exact Nat.mul_lt_mul_of_pos_right (Nat.sub_lt (Nat.two_pow_pos eb) one_pos) (Nat.two_pow_pos mb)
  clear_value field
  rw [pow_succ]
  split
  · positivity
  · split <;> omega

theorem floatCode_lt (q : Descriptor) (d : Nat) (y : Rat) : floatCode q d y < 2 ^ d := by
  unfold floatCode
  split_ifs with h16 h24 h32 h64
  · exact h16 ▸ toBinary_lt 5 10 y
  · exact h24 ▸ (Config.fp24Encode y).isLt
  · exact h32 ▸ toBinary_lt 8 23 y
  · exact h64 ▸ toBinary_lt 11 52 y
  · exact Nat.mod_lt _ (Nat.two_pow_pos d)

theorem exportUnsigned_lt (p : Params) (d : Nat) (v : Rat) : exportUnsigned p d v < 2 ^ d := by
  have hcodes := Nat.two_pow_pos d
  unfold exportUnsigned
  dsimp only
  omega

theorem exportFloat_lt (q : Descriptor) (d : Nat) (v : Rat) : exportFloat q d v < 2 ^ d := by
  unfold exportFloat
  split
  · exact floatCode_lt q d v
  · split
    · exact floatCode_lt q d _
    · exact Nat.mod_lt _ (Nat.two_pow_pos d)

theorem exportSample_lt (p : Params) (q : Descriptor) (v : Rat) : exportSample p q v < 2 ^ q.depth.toNat := by
  unfold exportSample
  split
  · exact exportUnsigned_lt p _ v
  · split
    · exact exportFloat_lt q _ v
    · exact Nat.mod_lt _ (Nat.two_pow_pos _)

/-! ### Samples lie in the internal domain (R390, R391) -/

/-- Rounding to an integer and clamping (R391). -/
theorem toInternal_real {p : Params} (h : p.hdri = false) (x : Rat) :
    toInternal p (.real x) = ((min (max ⌊x + 1 / 2⌋ 0) p.range).toNat : Nat) := by
  have hpos : 0 ≤ min (max ⌊x + 1 / 2⌋ 0) (p.range : Int) := by omega
  rw [← Int.cast_natCast, Int.toNat_of_nonneg hpos, toInternal, h]
  rfl

theorem toInternal_mem {p : Params} (h : p.hdri = false) (v : FpVal) : ∃ n : Nat, n ≤ p.range ∧ toInternal p v = n := by
  cases v with
  | real x => exact ⟨_, by omega, toInternal_real h x⟩
  | inf negative =>
    cases negative with
    | false => exact ⟨p.range, le_rfl, rfl⟩
    | true => exact ⟨0, Nat.zero_le _, Nat.cast_zero.symm⟩
  | nan => exact ⟨0, Nat.zero_le _, Nat.cast_zero.symm⟩

/-- Every import ends by bringing some value into the internal domain. -/
theorem importSample_eq_toInternal (p : Params) (q : Descriptor) (u : Nat) :
    ∃ v, importSample p q u = toInternal p v := by
  unfold importSample
  split
  · exact ⟨.real (u * p.range / (2 ^ q.depth.toNat - 1 : Nat)), rfl⟩
  · split
    · unfold importFloat
      split
      · split
        · exact ⟨_, rfl⟩
        · split <;> exact ⟨_, rfl⟩
      · exact ⟨floatVal q q.depth.toNat u, rfl⟩
    · exact ⟨_, rfl⟩

/-- Settles O48: each map's code is below 2^d, and every import goes through ToInternal. -/
theorem samplesStayInTheirDomains : Obligations.SamplesStayInTheirDomains := by
  refine ⟨exportSample_lt, fun p q u h => ?_, fun p v h => toInternal_mem h v⟩
  obtain ⟨v, hv⟩ := importSample_eq_toInternal p q u
  exact hv ▸ toInternal_mem h v

/-! ### The Unsigned map on integers (R393, R398) -/

/-- The nearest integer to a quotient of naturals, ties up. -/
theorem floor_div_add_half (a : Nat) {b : Nat} (hb : 0 < b) :
    ⌊(a : Rat) / b + 1 / 2⌋ = ((2 * a + b) / (2 * b) : Nat) := by
  have hb' : (b : Rat) ≠ 0 := by positivity
  have hsum : (a : Rat) / b + 1 / 2 = (2 * a + b : Nat) / (2 * b : Nat) := by
    push_cast
    field_simp
  rw [hsum, Rat.floor_natCast_div_natCast, Int.natCast_ediv]

theorem exportUnsigned_natCast {p : Params} (hr : 0 < p.range) (d : Nat) {v : Nat} (hv : v ≤ p.range) :
    exportUnsigned p d v = (2 * (v * (2 ^ d - 1)) + p.range) / (2 * p.range) := by
  have hfloor := floor_div_add_half (v * (2 ^ d - 1)) hr
  rw [Nat.cast_mul] at hfloor
  have hle : (2 * (v * (2 ^ d - 1)) + p.range) / (2 * p.range) ≤ 2 ^ d - 1 := by
    have hmul := Nat.mul_le_mul_right (2 ^ d - 1) hv
    have hfull : (2 ^ d - 1 + 1) * (2 * p.range) = 2 * (p.range * (2 ^ d - 1)) + 2 * p.range := by ring
    exact Nat.le_of_lt_succ ((Nat.div_lt_iff_lt_mul (by omega)).2 (by rw [hfull]; omega))
  rw [exportUnsigned, if_neg hr.ne']
  refine (congrArg (fun y : Int => (min (max y 0) ((2 ^ d - 1 : Nat) : Int)).toNat) hfloor).trans ?_
  generalize (2 * (v * (2 ^ d - 1)) + p.range) / (2 * p.range) = u at hle ⊢
  omega

theorem importUnsigned_natCast {p : Params} (h : p.hdri = false) {d : Nat} (hd : 0 < 2 ^ d - 1) (u : Nat) :
    importUnsigned p d u = (min ((2 * (u * p.range) + (2 ^ d - 1)) / (2 * (2 ^ d - 1))) p.range : Nat) := by
  have hfloor := floor_div_add_half (u * p.range) hd
  rw [Nat.cast_mul] at hfloor
  rw [importUnsigned, toInternal_real h, hfloor, max_eq_left (Int.natCast_nonneg _), ← Nat.cast_min, Int.toNat_natCast]

/-- Scaling `v` from full scale `r` to full scale `m` and back, each time to the nearest integer, gives `v` back when
`r ≤ m`: the first rounding is off by at most 1/2, which the second scaling does not enlarge. -/
theorem rescale_back {r m : Nat} (hr : 0 < r) (hrm : r ≤ m) (v : Nat) :
    (2 * ((2 * (v * m) + r) / (2 * r) * r) + m) / (2 * m) = v := by
  have hround : ∃ u, (2 * (v * m) + r) / (2 * r) = u ∧ 2 * (u * r) ≤ 2 * (v * m) + r ∧
      2 * (v * m) < 2 * (u * r) + r := by
    have hdiv := Nat.div_add_mod (2 * (v * m) + r) (2 * r)
    have hmod := Nat.mod_lt (2 * (v * m) + r) (show 0 < 2 * r by omega)
    rw [show ∀ u, 2 * r * u = 2 * (u * r) from fun u => by ring] at hdiv
    exact ⟨_, rfl, by omega, by omega⟩
  obtain ⟨u, hu, hlow, hhigh⟩ := hround
  rw [hu, Nat.div_eq_iff (by omega), show v * (2 * m) = 2 * (v * m) by ring]
  refine ⟨by omega, ?_⟩
  obtain hlt | rfl := hrm.lt_or_eq
  · omega
  · obtain rfl : u = v := by
      rw [← hu, show 2 * (v * r) + r = r + 2 * r * v by ring, Nat.add_mul_div_left _ _ (by omega),
        Nat.div_eq_of_lt (by omega), Nat.zero_add]
    omega

theorem importUnsigned_exportUnsigned {p : Params} {d v : Nat} (h : p.hdri = false) (hd : p.range ≤ 2 ^ d - 1)
    (hv : v ≤ p.range) : importUnsigned p d (exportUnsigned p d v) = v := by
  obtain hr | hr := Nat.eq_zero_or_pos p.range
  · obtain ⟨n, hn, hsample⟩ := toInternal_mem h (.real (exportUnsigned p d v * p.range / (2 ^ d - 1 : Nat)))
    obtain rfl : n = v := by omega
    exact hsample
  · rw [exportUnsigned_natCast hr d hv, importUnsigned_natCast h (by omega), rescale_back hr hd, min_eq_left hv]

/-- A depth with fewer codes than there are samples gives two samples one code. -/
theorem exists_exportUnsigned_eq {p : Params} {d : Nat} (hd : 2 ^ d - 1 < p.range) :
    ∃ v ≤ p.range, ∃ w ≤ p.range, v ≠ w ∧ exportUnsigned p d v = exportUnsigned p d w := by
  obtain ⟨v, hv, w, hw, hne, heq⟩ := Finset.exists_ne_map_eq_of_card_lt_of_maps_to
    (s := Finset.range (p.range + 1)) (t := Finset.range (2 ^ d)) (by simp only [Finset.card_range]; omega)
    (f := fun v : Nat => exportUnsigned p d v)
    fun v _ => Finset.mem_coe.2 (Finset.mem_range.2 (exportUnsigned_lt p d v))
  exact ⟨v, Finset.mem_range_succ_iff.1 hv, w, Finset.mem_range_succ_iff.1 hw, hne, heq⟩

/-- Settles O47: a depth that can hold the range rounds back to the sample, and any other one confuses two samples. -/
theorem unsignedSamplesRoundTrip : Obligations.UnsignedSamplesRoundTrip := by
  refine ⟨fun p d v h hd hv => importUnsigned_exportUnsigned h hd hv, fun p d _ hd => ?_⟩
  obtain ⟨v, hv, w, hw, hne, hcode⟩ := exists_exportUnsigned_eq hd
  by_contra hback
  push Not at hback
  have hsame : (v : Rat) = w := by rw [← hback v hv, hcode, hback w hw]
  exact hne (Nat.cast_injective hsame)

end Sys2Proof.Machine
end

section
/-! PROOFS. POOL_GET and POOL_RELEASE (O52), and the CMD write whose target agent is busy (O8). -/

namespace Sys2Proof.Machine

open Host

/-! ### POOL_GET (R443) -/

/-- The opcode of POOL_GET, which its other fields do not change (R125). -/
theorem opcode_poolGet (w : BitVec 8) : (Instr.poolGet w).opcode = 0x41 :=
  Laws.opcOf_packWord _ _ _ _

theorem exec_poolGet_found {s : State} {w : BitVec 8} (hv : s.pool.valid = true) (hw : w.toNat < s.pool.n) :
    exec (.poolGet w) s =
      .next { s.seqEnded with res := { s.res with r0 := w.setWidth 64, r1 := s.pool.extent } } := by
  have hthere : ¬(s.pool.valid = false ∨ s.pool.n ≤ w.toNat) := by simp [hv, hw]
  exact exec_seq_ended (i := .poolGet w)
    (t := { s with res := { s.res with r0 := w.setWidth 64, r1 := s.pool.extent } }) rfl (if_neg hthere)

theorem exec_poolGet_missing {s : State} {w : BitVec 8} (h : s.pool.valid = false ∨ s.pool.n ≤ w.toNat) :
    exec (.poolGet w) s = .next (s.seqRaised 0x41 .option) :=
  opcode_poolGet w ▸ exec_seq_raised (i := .poolGet w) rfl (if_pos h)

/-! ### POOL_RELEASE (R444, R445) -/

/-- With no busy worker POOL_RELEASE is the release of the pool alone. -/
theorem bodyOf_poolRelease {s : State} (hw : s.anyWorkerBusy = false) :
    bodyOf .poolRelease (s.beginCmd .seq) = releaseThen (s.beginCmd .seq) .normal :=
  hazardCheck_of_idle (s := s.beginCmd .seq) hw _

section PoolRelease

variable {s : State}

theorem exec_poolRelease_noPool (hw : s.anyWorkerBusy = false) (hv : s.pool.valid = false) :
    exec .poolRelease s = .next s.seqEnded :=
  exec_seq_ended (i := .poolRelease) rfl
    ((bodyOf_poolRelease hw).trans (releaseThen_noPool (s := s.beginCmd .seq) _ hv))

theorem exec_poolRelease_intact (hw : s.anyWorkerBusy = false) (hv : s.pool.valid = true) (hg : s.guardBad = false) :
    exec .poolRelease s = .next s.freePool.seqEnded :=
  exec_seq_ended (i := .poolRelease) (t := s.freePool) rfl
    ((bodyOf_poolRelease hw).trans (releaseThen_intact (s := s.beginCmd .seq) _ hv hg))

theorem exec_poolRelease_bad (hw : s.anyWorkerBusy = false) (hv : s.pool.valid = true) (hg : s.guardBad = true) :
    exec .poolRelease s = .next (s.freePool.seqRaised 0x42 .guardViolation) :=
  exec_seq_raised (i := .poolRelease) (t := s.freePool) rfl
    ((bodyOf_poolRelease hw).trans (releaseThen_bad (s := s.beginCmd .seq) _ hv hg))

end PoolRelease

/-- Settles O52: the pool's count decides how POOL_GET ends, and the guards how POOL_RELEASE does. -/
theorem poolGetAndReleaseComplete : Obligations.PoolGetAndReleaseComplete := by
  refine fun s => ⟨fun w => exec_poolGet_found, fun w => exec_poolGet_missing, fun hw =>
    ⟨exec_poolRelease_noPool hw, fun hv hgood => ?_, fun hv ⟨hd, hbad⟩ => ?_⟩⟩
  · have hguard : s.ctrl.getLsbD 1 = true → ∀ b < s.pool.n, s.scratchByte b s.pool.extent.toNat = 0xAB :=
      fun hd b hb => by_contra fun hne => hgood ⟨hd, b, hb, hne⟩
    exact exec_poolRelease_intact hw hv (guardBad_eq_false hguard)
  · exact exec_poolRelease_bad hw hv (guardBad_eq_true hd hbad)

/-! ### A dropped CMD write (R612) -/

theorem issue_of_busy {s : State} {c : Word} (h : s.busy (targetOf c) = true) :
    issue c s = .next { s with status := { s.status with haz := true } } :=
  if_pos h

/-- With STATUS.HAZ set, IRQ follows CTRL.IE (R510). -/
theorem irq_of_haz {s : State} (h : s.status.haz = true) : s.irq = s.ie := by
  rw [State.irq, h, Bool.or_true, Bool.and_true]

/-- Settles O8: the write issues its word, and a busy target drops it. -/
theorem writeToBusyAgentIsDropped : Obligations.WriteToBusyAgentIsDropped :=
  fun _ c hrst hbusy => ⟨(hostAct_cmd c hrst).trans (issue_of_busy hbusy), irq_of_haz rfl⟩

end Sys2Proof.Machine
end
